-- ==== Sys2Proof/Word.lean ====
section
/-! DEFINITION. The words of Tarush (spec/00_scope.md R3 to R5): bytes, 32-bit words, 64-bit words, lane masks. -/

namespace Sys2Proof

/-- A byte of memory (R4). -/
abbrev Byte := BitVec 8

/-- A 32-bit word: an instruction word, or one lane of a vector register. -/
abbrev Word := BitVec 32

/-- A 64-bit word: a scalar register, a wide pair, a CSR. -/
abbrev DWord := BitVec 64

/-- One bit per lane of a group; WIDTH is 64 on this implementation (R173). -/
abbrev LaneMask := BitVec 64

end Sys2Proof
end

