-- ==== Sys2Proof/Config.lean ====
section
/-! DEFINITION. What the manual leaves open: free values, as constants with no body, so that no proof can rest on one of their
values. Each is named in a log entry. Values that vary from use to use are applied to the counter `State.freeCtr`. -/

namespace Sys2Proof.Config

/-- Whether a register race returns the old value (R68): counter, kind and number of the register, lane. -/
opaque raceOld : Nat → Nat → Nat → Nat → Bool

/-- A constant word whose bank address does not translate for the world (R110 states no value): bank and word. -/
opaque constUnmapped : Nat → Nat → Word

/-- Whether a line has left a core's constant cache (R182 gives it no size and no replacement): counter and line. -/
opaque constDropped : Nat → Nat → Bool

/-- A choice that the hardware makes among `n` alternatives (R260, R306): counter and `n`. -/
opaque choice : Nat → Nat → Nat

/-- The in-flight counter of a page (R291 leaves the hash open): world and page. -/
opaque hashCounter : Nat → Nat → Nat

/-- The old value that a peer's atomic returns (the peer's memory is not this part's): counter and lane. -/
opaque peerOld : Nat → Nat → Nat

/-- Whether a peer reports a GS bit, 0 SAT, 1 INV (the peer's operands are not this part's): counter and bit. -/
opaque peerGs : Nat → Nat → Bool

/-- A byte of the host's memory that a TRANSFER reads (it is not this part's): operation and offset. -/
opaque hostByte : Nat → Nat → Nat

/-- The 15-bit check code of a ticket handle (R298): key and handle bits [63:15]. -/
opaque ticketCheck : Nat → Nat → BitVec 15

/-- A byte of a context image to whose section R375 gives no layout (the header, the groups' states, the planes' descriptors, the gaps): number and
place. -/
opaque imageByte : Nat → Nat → BitVec 8

/-- A byte decrypted under another key or tweak than it was encrypted under (R198, R359, R360, R384): counter and place. -/
opaque junk : Nat → Nat → BitVec 8

/-- By how much a die is served a write of another die before or after its visibility time (R233, R247 leave 2 ticks): the write's number
and the die; the value 0 is V itself. -/
opaque crossDie : Nat → Nat → Nat

/-- The keyed check of an image of a stream-accumulator row (R266): key and bytes. -/
opaque saCheck : Nat → List (BitVec 8) → BitVec 32

/-- DSYN1.DETAIL where R385 gives no layout for the event: counter. -/
opaque dsynDetail : Nat → BitVec 64

/-- The layer of a stack, 0 to 15, and the row of that layer that a sector lies in (R199 gives no map): sector. -/
opaque layerOf : Nat → Nat
opaque rowOf : Nat → Nat

/-- The corrected errors of a layer that the crown bundle's threshold lets pass (R199 leaves it to the bundle): stack. -/
opaque layerThreshold : Nat → Nat

/-- A byte of the BAR0 identity page (R389 gives no layout): the clock in MHz, the bundle digest, the offset. -/
opaque identityByte : Nat → BitVec 384 → Nat → BitVec 8

/-- A byte of a poisoned sector as a host read returns it (no rule states it): counter and place. -/
opaque poisonByte : Nat → Nat → BitVec 8

/-- Whether the security monitor permits the counting of a confidential world's events (R354 names no register): world and dial. -/
opaque countPermitted : Nat → Nat → Bool

/-- A byte that an in-network reduction writes (R367 states no operation): counter and place. -/
opaque reduceByte : Nat → Nat → BitVec 8

/-- How many flits a message takes beside its first one, the last sequence number acknowledged, the lines that both ends' dictionaries hold and the
bytes that have crossed, all open (R382, R387): link direction and last sequence number. -/
opaque flitsSent : Nat → Nat → Nat
opaque flitAcked : Nat → Nat → Nat
opaque dictLines : Nat → Nat → List (List (BitVec 8))
opaque messageBytes : Nat → Nat → Nat

/-- The hash of a page that spreads the traffic to a peer over its ports (R393): world, peer, page. -/
opaque portHash : Nat → Nat → Nat → Nat

/-- A crown bundle's signature verifies under the vendor key (R365): digest and signature. -/
opaque bundleSig : BitVec 384 → Nat → Bool

/-- An acknowledgement's signature verifies under the owner key (R365): nonce, digest, signature. -/
opaque ownerSig : BitVec 64 → BitVec 384 → Nat → Bool

/-- A boot nonce (R365): counter. -/
opaque bootNonce : Nat → BitVec 64

end Sys2Proof.Config
end

