-- ==== Sys2Proof/Syntax.lean ====
section
/-! DEFINITION. The syntax: one constructor of `Instr` for each row of spec/opcode_table.json. Rows with an encoding carry
their used fields (R65: a field an instruction does not use is ignored, so no constructor holds it); a hint word is an
instruction of its own, since each word of a bundle issues by itself (R59). Rows without an encoding are whole steps of the
part; they carry the name of the object they act on, or the input that the outside brings. -/

namespace Sys2Proof

/-- The contributions of an in-network reduction: each with the peer-key generation that sealed it (R367). -/
structure Reduction where
  world : Nat
  die   : Nat
  dst   : Nat
  queue : Nat
  seq   : Nat
  parts : List (BitVec 8 × List (BitVec 8))
  deriving DecidableEq, Repr

/-- What a pre-emption request names (R373): a world and a die mask, or one team. -/
inductive PreemptTarget where
  | world (w dieMask : Nat)
  | team (t : Nat)
  deriving DecidableEq, Repr

/-- Where an ECC error strikes (R380, R381, R383). -/
inductive ErrorSite where
  | sector (sec : Nat)
  | dieScratch (die sec : Nat)
  | ticket (slice entry : Nat)
  | saRow (die row : Nat)
  | coreState (team core off : Nat)
  | array (core arr : Nat)
  | l1 (core sec : Nat)
  | wcb (sec : Nat)
  | layer (stack layer off : Nat)
  | onDie (die : Nat)
  | fatal (die : Nat) (cls : BitVec 4) (unit : BitVec 5) (detail : BitVec 64)
  deriving DecidableEq, Repr

/-- One action of the power manager (R19). -/
inductive ClockMove where
  | lower | raise | gate | ungate
  deriving DecidableEq, Repr

/-- A request to create a world (R358, R334): number, attributes, ring slots where it names them, the buffer of its two rings, its root, its save areas
by die, the journal of its graph request queue. -/
structure WorldRequest where
  world       : Nat
  conf        : Bool
  replay      : Bool
  fromSpdm    : Bool
  errSlots    : Option Nat := none
  orphanSlots : Option Nat := none
  ringBuf     : Nat
  rootBuf     : Nat
  rootOff     : Nat
  saveBufs    : List Nat
  journalBuf  : Nat
  journalLog  : Nat
  deriving DecidableEq, Repr

/-- The acknowledgement of a new bundle by the remote verifier (R365). -/
structure Acknowledgement where
  nonce  : BitVec 64
  digest : BitVec 384
  sig    : Nat
  deriving DecidableEq, Repr

/-- What brings a package reset about (R384). -/
inductive ResetCause where
  | fatalError | management | perst | watchdog
  deriving DecidableEq, Repr

/-- A crown bundle as staged: its digest, its three security version numbers, its signature, whether only the slice
kernel differs from the running one, and the bytes of the image that the digest is over (R365, R366). -/
structure Bundle where
  digest      : BitVec 384
  svnKernel   : Nat
  svnMonitor  : Nat
  svnFirmware : Nat
  kernelOnly  : Bool
  sig         : Nat
  image       : List (BitVec 8) := []
  deriving DecidableEq, Repr

/-- The registers that have no row of their own and are reached by management or a slice kernel (R7, R354, R201, R357): hold-in-reset (R383), the
UDP port of peer traffic (R393) and the configuration space of a function of a host port (R399) among them. -/
inductive RegName where
  | pmsel (unit idx : Nat) (monitor : Bool)
  | pmc (unit idx : Nat)
  | sample (unit : Nat)
  | lfix (stack : Nat)
  | dsyn0 (die : Nat) (management : Bool)
  | dsyn1 (die : Nat)
  | kstat (slot : Nat)
  | identity (port : Nat)
  | holdReset
  | udpPort
  | config (port fn : Nat)
  deriving DecidableEq, Repr

/-- A source of a part that a peer sends: an address to translate here, or bytes that travel with the operation (R279, R280). -/
inductive PeerSrc where
  | va (a : Nat)
  | bytes (l : List (BitVec 8))
  deriving DecidableEq, Repr

/-- An operation that a peer sends to this device (R279): an atomic, or one part of a place operation with its remote bytes. -/
inductive PeerOp where
  | atom (world addr : Nat) (w : BitVec 4) (operands : List (BitVec 8))
  | place (world dst : Nat) (a b : PeerSrc) (fn : BitVec 3) (ty len rm : Nat) (ca cb : BitVec 64)
  deriving DecidableEq, Repr

/-- An operation of a peer as it arrives: the generation of the peer-traffic key that sealed it, its UDP port, the network port, the operation
(R367, R393). -/
structure PeerMessage where
  gen  : BitVec 8
  udp  : BitVec 16
  port : Nat
  op   : PeerOp
  deriving DecidableEq, Repr

/-- How a host request arrives: over the TDI's IDE stream, without IDE protection, or with an integrity failure (R362). -/
inductive Ide where
  | stream | none | broken
  deriving DecidableEq, Repr

/-- How a BAR2 access comes: its IDE protection (R362), and whether it is a CXL.mem access, not one that PCIe carries too (R388). -/
structure HostAccess where
  ide : Ide
  cxl : Bool
  deriving DecidableEq, Repr

/-- TDISP messages of the host TSM (R361, R362). -/
inductive TdispMessage where
  | lock | start | unlock
  deriving DecidableEq, Repr

/-- A store of a slice kernel to state that its instance owns, or the service of the oldest message that an instance holds (R394, R278). -/
inductive KernelStore where
  | pte (buf off : Nat) (value : BitVec 128)
  | descriptor (index : Nat) (value : BitVec 256) (launches : List (List (BitVec 8)))
  | hostQueue (port world : Nat) (enabled : Bool) (buf slots journalBuf journalLog : Nat)
  | serviceQueue (slice buf slots journalBuf journalLog : Nat)
  | serviceTail (slice : Nat) (tail : BitVec 64)
  | data (world buf off : Nat) (bytes : List (BitVec 8))
  | aperture (port index : Nat) (enabled : Bool) (world buf off : Nat)
  | peer (world index : Nat) (valid : Bool) (addr : BitVec 128) (portMask : BitVec 8)
  | dieWindow (die world base units : Nat)
  | plsync (die world start length : Nat)
  | saveArea (world die buf : Nat)
  | serve (slice : Nat)
  deriving DecidableEq, Repr

/-- What one instance does: a store, and, where it names itself, the sender that needs the store (R394). -/
structure KernelAct where
  store  : KernelStore
  sender : Option Nat
  deriving DecidableEq, Repr

/-- The lanes that a slice kernel resumes; `mended` says that its own walk found the leaf invalid and that it has stored one since (R372). -/
structure Resumed where
  lanes  : BitVec 64
  mended : Bool
  deriving DecidableEq, Repr

/-- What a slice kernel kills: the team of a group, for the parking record of a lane; without a lane, the saved image of that team (R371, R378). -/
structure KillTarget where
  gid  : Nat
  lane : Option Nat
  deriving DecidableEq, Repr

/-- The instructions and steps: one constructor per row of spec/opcode_table.json, in its order. -/
inductive Instr where
  /-- IADD (R114): Adds A and B at width n in each active lane, wrapping or saturating. -/
  | iadd (g : BitVec 4) (d : BitVec 6) (a : BitVec 8) (b : BitVec 8)
  /-- ISUB (R114): Subtracts B from A at width n in each active lane, wrapping or saturating. -/
  | isub (g : BitVec 4) (d : BitVec 6) (a : BitVec 8) (b : BitVec 8)
  /-- IMUL (R114): Multiplies A by B and keeps the low n bits, or saturates. -/
  | imul (g : BitVec 4) (d : BitVec 6) (a : BitVec 8) (b : BitVec 8)
  /-- IMULHI (R115): Writes the upper half of the exact signed product. -/
  | imulhi (g : BitVec 4) (d : BitVec 6) (a : BitVec 8) (b : BitVec 8)
  /-- IMULHN (R115): Writes the upper half of the exact natural product. -/
  | imulhn (g : BitVec 4) (d : BitVec 6) (a : BitVec 8) (b : BitVec 8)
  /-- IMAD (R114): Multiplies A by B and adds the old D, wrapping or saturating. -/
  | imad (g : BitVec 4) (d : BitVec 6) (a : BitVec 8) (b : BitVec 8)
  /-- IMIN (R116): Writes the signed minimum of A and B. -/
  | imin (g : BitVec 4) (d : BitVec 6) (a : BitVec 8) (b : BitVec 8)
  /-- IMAX (R116): Writes the signed maximum of A and B. -/
  | imax (g : BitVec 4) (d : BitVec 6) (a : BitVec 8) (b : BitVec 8)
  /-- NMIN (R116): Writes the natural minimum of A and B. -/
  | nmin (g : BitVec 4) (d : BitVec 6) (a : BitVec 8) (b : BitVec 8)
  /-- NMAX (R116): Writes the natural maximum of A and B. -/
  | nmax (g : BitVec 4) (d : BitVec 6) (a : BitVec 8) (b : BitVec 8)
  /-- AND (R117): Bitwise AND of A and B. -/
  | and (g : BitVec 4) (d : BitVec 6) (a : BitVec 8) (b : BitVec 8)
  /-- OR (R117): Bitwise OR of A and B. -/
  | or (g : BitVec 4) (d : BitVec 6) (a : BitVec 8) (b : BitVec 8)
  /-- XOR (R117): Bitwise XOR of A and B. -/
  | xor (g : BitVec 4) (d : BitVec 6) (a : BitVec 8) (b : BitVec 8)
  /-- ANDN (R117): Bitwise A AND NOT B. -/
  | andn (g : BitVec 4) (d : BitVec 6) (a : BitVec 8) (b : BitVec 8)
  /-- SHL (R118): Shifts A left by an unmasked natural amount. -/
  | shl (g : BitVec 4) (d : BitVec 6) (a : BitVec 8) (b : BitVec 8)
  /-- SHR (R118): Shifts A right with zero fill by an unmasked amount. -/
  | shr (g : BitVec 4) (d : BitVec 6) (a : BitVec 8) (b : BitVec 8)
  /-- SAR (R118): Shifts A right with sign fill by an unmasked amount. -/
  | sar (g : BitVec 4) (d : BitVec 6) (a : BitVec 8) (b : BitVec 8)
  /-- JMPI (R167): Moves each active lane to a per-lane code offset and priority. -/
  | jmpi (g : BitVec 4) (a : BitVec 8) (b : BitVec 8)
  /-- LEA (R119): Forms a 64-bit address from a base and a scaled index without translation. -/
  | lea (g : BitVec 4) (d : BitVec 6) (a : BitVec 8) (b : BitVec 8)
  /-- ICMP (R120): Signed compare writing a predicate pair. -/
  | icmp (g : BitVec 4) (k : BitVec 3) (c : BitVec 3) (a : BitVec 8) (b : BitVec 8)
  /-- NCMP (R120): Natural compare writing a predicate pair. -/
  | ncmp (g : BitVec 4) (k : BitVec 3) (c : BitVec 3) (a : BitVec 8) (b : BitVec 8)
  /-- FCMP (R133): FP32 compare writing a predicate pair, setting no GS bit. -/
  | fcmp (g : BitVec 4) (k : BitVec 3) (c : BitVec 3) (a : BitVec 8) (b : BitVec 8)
  /-- SEL (R121): Writes A or B in every issuing lane by the guard predicate. -/
  | sel (g : BitVec 4) (d : BitVec 6) (a : BitVec 8) (b : BitVec 8)
  /-- MOV (R122): Copies A to D at 32 or 64 bits. -/
  | mov (g : BitVec 4) (d : BitVec 6) (a : BitVec 8)
  /-- MOVIV (R123): Writes an immediate to a vector register or latch b0 in each active lane. -/
  | moviv (g : BitVec 4) (d : BitVec 6) (i : BitVec 16)
  /-- MOVIS (R123): Writes an immediate to a scalar register once for the group. -/
  | movis (g : BitVec 4) (d : BitVec 6) (i : BitVec 16)
  /-- ADDIS (R123): Adds an immediate to a scalar register modulo 2^64. -/
  | addis (g : BitVec 4) (d : BitVec 6) (i : BitVec 16)
  /-- BITU (R124): Applies the selected bit-unary function POPC, CLZ, CTZ, BREV or BSWAP. -/
  | bitu (g : BitVec 4) (d : BitVec 6) (a : BitVec 8) (s : BitVec 6)
  /-- CVT (R125): Converts A under the conversion code in B with the MOD rounding mode. -/
  | cvt (g : BitVec 4) (d : BitVec 6) (a : BitVec 8) (c : BitVec 6)
  /-- PLOG (R126): Computes a two-input truth table of two predicates into one predicate. -/
  | plog (g : BitVec 4) (d : BitVec 4) (u : BitVec 4) (v : BitVec 4) (t : BitVec 4)
  /-- VOTE (R127): Combines a predicate across active lanes as ALL, ANY, UNI or BALLOT. -/
  | vote (g : BitVec 4) (d : BitVec 6) (a : BitVec 4) (s : BitVec 6)
  /-- FADD (R131): FP32 add rounded once in the MOD mode. -/
  | fadd (g : BitVec 4) (d : BitVec 6) (a : BitVec 8) (b : BitVec 8)
  /-- FSUB (R131): FP32 subtract rounded once. -/
  | fsub (g : BitVec 4) (d : BitVec 6) (a : BitVec 8) (b : BitVec 8)
  /-- FMUL (R131): FP32 multiply rounded once. -/
  | fmul (g : BitVec 4) (d : BitVec 6) (a : BitVec 8) (b : BitVec 8)
  /-- FFMA (R131): FP32 fused multiply-add of A, B and D rounded once. -/
  | ffma (g : BitVec 4) (d : BitVec 6) (a : BitVec 8) (b : BitVec 8)
  /-- FMIN (R132): Returns the smaller FP32 operand or a NaN. -/
  | fmin (g : BitVec 4) (d : BitVec 6) (a : BitVec 8) (b : BitVec 8)
  /-- FMAX (R132): Returns the larger FP32 operand or a NaN. -/
  | fmax (g : BitVec 4) (d : BitVec 6) (a : BitVec 8) (b : BitVec 8)
  /-- HADD2 (R134): Packed BF16 or FP16 add per element. -/
  | hadd2 (g : BitVec 4) (d : BitVec 6) (a : BitVec 8) (b : BitVec 8)
  /-- HMUL2 (R134): Packed BF16 or FP16 multiply per element. -/
  | hmul2 (g : BitVec 4) (d : BitVec 6) (a : BitVec 8) (b : BitVec 8)
  /-- HFMA2 (R134): Packed BF16 or FP16 fused multiply-add per element. -/
  | hfma2 (g : BitVec 4) (d : BitVec 6) (a : BitVec 8) (b : BitVec 8)
  /-- FDOT2 (R135): Two-term packed dot product added to FP32 D with one rounding. -/
  | fdot2 (g : BitVec 4) (d : BitVec 6) (a : BitVec 8) (b : BitVec 8)
  /-- SFU (R136): Applies the selected correctly rounded special function to A. -/
  | sfu (g : BitVec 4) (d : BitVec 6) (a : BitVec 8) (s : BitVec 6)
  /-- SHFL (R139): Delivers A from a source lane chosen by mode and operand, writing p11. -/
  | shfl (g : BitVec 4) (d : BitVec 6) (a : BitVec 8) (b : BitVec 8)
  /-- REDS (R140): Reduces A across active lanes in a fixed tree and writes every active lane. -/
  | reds (g : BitVec 4) (d : BitVec 6) (a : BitVec 8) (s : BitVec 6)
  /-- LD (R211): Accepts a translated load per lane and reads the unit at completion. -/
  | ld (g : BitVec 4) (d : BitVec 6) (a : BitVec 8) (f : BitVec 4) (w : BitVec 4)
  /-- ST (R212): Accepts a translated store per lane, written through to the home L2. -/
  | st (g : BitVec 4) (d : BitVec 6) (a : BitVec 8) (f : BitVec 4) (w : BitVec 4)
  /-- LDS (R214): Loads from a scratch space selected by W. -/
  | lds (g : BitVec 4) (d : BitVec 6) (a : BitVec 8) (f : BitVec 4) (s : BitVec 2) (z : BitVec 2)
  /-- STS (R214): Stores to a scratch space selected by W. -/
  | sts (g : BitVec 4) (d : BitVec 6) (a : BitVec 8) (f : BitVec 4) (s : BitVec 2) (z : BitVec 2)
  /-- ATOM (R216): Read-modify-write of translated memory at the page's executor. -/
  | atom (g : BitVec 4) (d : BitVec 6) (a : BitVec 8) (f : BitVec 4) (w : BitVec 4)
  /-- ATOMS (R218): Read-modify-write of scratch memory, space from offset bits [31:30]. -/
  | atoms (g : BitVec 4) (d : BitVec 6) (a : BitVec 8) (f : BitVec 4) (w : BitVec 4)
  /-- RESID (R219): Sets the expected read count of a sector or line at its home agent. -/
  | resid (g : BitVec 4) (c : BitVec 6) (a : BitVec 8) (f : BitVec 4) (w : BitVec 4)
  /-- TKLD (R306): Starts a ticketed fetch at the home slice and returns a handle or 0. -/
  | tkld (g : BitVec 4) (h : BitVec 6) (a : BitVec 6) (k : BitVec 3) (f : BitVec 4)
  /-- TKRDM (R308): Redeems a ticket handle into core, cluster or die scratch. -/
  | tkrdm (g : BitVec 4) (h : BitVec 6) (o : BitVec 6) (s : BitVec 3) (f : BitVec 4)
  /-- TKDROP (R310): Ends a ticket without a record. -/
  | tkdrop (g : BitVec 4) (h : BitVec 6) (f : BitVec 4)
  /-- TKXTND (R310): Extends a ticket's lease. -/
  | tkxtnd (g : BitVec 4) (h : BitVec 6) (f : BitVec 4)
  /-- TKQRY (R310): Returns the status word of a ticket handle. -/
  | tkqry (g : BitVec 4) (d : BitVec 6) (h : BitVec 6) (f : BitVec 4)
  /-- CPY_T (R222): Accepts one tile copy onto a copy channel's open batch. -/
  | cpyT (g : BitVec 4) (d : BitVec 6) (s : BitVec 6) (c : BitVec 3) (f : BitVec 4)
  /-- CPY_HEAD (R322): Accepts a transfer-record chain walk onto a copy channel. -/
  | cpyHead (g : BitVec 4) (h : BitVec 6) (c : BitVec 3) (f : BitVec 4)
  /-- CPY_COMMIT (R317): Closes the group's open batch on a channel. -/
  | cpyCommit (g : BitVec 4) (c : BitVec 3)
  /-- CPY_WAIT (R318): Closes the open batch and waits until at most n batches remain. -/
  | cpyWait (g : BitVec 4) (n : BitVec 6) (c : BitVec 3)
  /-- CPY_WPTR (R320): Reads the team's write pointer on a channel. -/
  | cpyWptr (g : BitVec 4) (d : BitVec 6) (c : BitVec 3)
  /-- CPY_WPWAIT (R320): Completes its flag once the write pointer passes a threshold. -/
  | cpyWpwait (g : BitVec 4) (t : BitVec 6) (c : BitVec 3) (f : BitVec 4)
  /-- RINIT (R329): Initialises a ring header and advances its epoch. -/
  | rinit (g : BitVec 4) (r : BitVec 6) (s : BitVec 6) (f : BitVec 4)
  /-- RAWAIT (R329): Claims the next filled ring slot, waiting while none is filled. -/
  | rawait (g : BitVec 4) (r : BitVec 6) (d : BitVec 6) (f : BitVec 4)
  /-- RREL (R329): Releases a claimed ring slot and advances REL. -/
  | rrel (g : BitVec 4) (r : BitVec 6) (s : BitVec 6) (f : BitVec 4)
  /-- RPUSH (R329): Reserves and fills a ring slot with a 64-bit payload, waiting while full. -/
  | rpush (g : BitVec 4) (r : BitVec 6) (s : BitVec 6) (f : BitVec 4)
  /-- RQRY (R329): Returns the ring's pointers. -/
  | rqry (g : BitVec 4) (r : BitVec 6) (d : BitVec 6) (f : BitVec 4)
  /-- MLOADW (R154): Signs a round that loads an array's shadow plane from scratch. -/
  | mloadw (g : BitVec 4) (s : BitVec 1) (m : BitVec 2) (o : BitVec 6) (c : BitVec 3) (f : BitVec 4)
  /-- MSWAP (R155): Signs a round that exchanges the active and shadow planes. -/
  | mswap (g : BitVec 4) (m : BitVec 2) (c : BitVec 3) (f : BitVec 4)
  /-- MMA (R156): Signs a round that streams activation rows into an accumulator tile. -/
  | mma (g : BitVec 4) (t : BitVec 4) (m : BitVec 2) (o : BitVec 6) (c : BitVec 3) (f : BitVec 4)
  /-- MCOMP (R158): Signs a round that compresses a dense tile into a 2:4 sparse plane image. -/
  | mcomp (g : BitVec 4) (d : BitVec 6) (s : BitVec 6) (c : BitVec 3) (f : BitVec 4)
  /-- MACCST (R159): Signs a round that stores a tile to scratch. -/
  | maccst (g : BitVec 4) (t : BitVec 4) (m : BitVec 2) (o : BitVec 6) (c : BitVec 3) (f : BitVec 4)
  /-- MACCZ (R159): Signs a round that zeroes a tile. -/
  | maccz (g : BitVec 4) (t : BitVec 4) (m : BitVec 2) (c : BitVec 3) (f : BitVec 4)
  /-- MACCLD (R159): Signs a round that loads a tile from scratch. -/
  | maccld (g : BitVec 4) (t : BitVec 4) (m : BitVec 2) (o : BitVec 6) (c : BitVec 3) (f : BitVec 4)
  /-- SAOPEN (R260): Opens or re-arms a stream-accumulator row. -/
  | saopen (g : BitVec 4) (d : BitVec 6) (o : BitVec 6) (f : BitVec 4)
  /-- SAADD (R262): Accepts one segment add to a row, counting it toward EXPECT. -/
  | saadd (g : BitVec 4) (v : BitVec 6) (r : BitVec 6) (f : BitVec 4)
  /-- SANORM (R264): Requests a normalised read of a segment, served once the row seals. -/
  | sanorm (g : BitVec 4) (v : BitVec 6) (r : BitVec 6) (m : BitVec 2) (f : BitVec 4)
  /-- SAEVICT (R266): Writes a row image to memory and frees its slots. -/
  | saevict (g : BitVec 4) (r : BitVec 6) (a : BitVec 6) (f : BitVec 4)
  /-- SAFILL (R266): Restores an evicted row from its image. -/
  | safill (g : BitVec 4) (r : BitVec 6) (a : BitVec 6) (f : BitVec 4)
  /-- SASTAT (R268): Returns a row's status word. -/
  | sastat (g : BitVec 4) (d : BitVec 6) (r : BitVec 6) (f : BitVec 4)
  /-- SACLOSE (R261): Closes a row, freeing it after accepted adds are applied. -/
  | saclose (g : BitVec 4) (r : BitVec 6) (f : BitVec 4)
  /-- PLACE (R285): Accepts a placed element operation per lane, split into parts at executors. -/
  | place (g : BitVec 4) (d : BitVec 5) (a : BitVec 5) (b : BitVec 5) (n : BitVec 3) (f : BitVec 4)
  /-- PLSYNC (R291): Snapshots in-flight issue counts for a range at every executor and waits for them. -/
  | plsync (g : BitVec 4) (s : BitVec 6) (l : BitVec 6) (f : BitVec 4)
  /-- MIGR (R295): After its waits, ships the group to a landing slot on another die. -/
  | migr (g : BitVec 4) (t : BitVec 3)
  /-- PLQRY (R294): Translates an address without fault and returns placement information. -/
  | plqry (g : BitVec 4) (d : BitVec 6) (a : BitVec 6) (f : BitVec 4)
  /-- BR (R165): Moves active lanes to a displaced target with the encoded priority. -/
  | br (g : BitVec 4) (p : BitVec 6) (i : BitVec 16)
  /-- CALL (R165): Branches and writes the return offset and old priority to v58 and v59. -/
  | call (g : BitVec 4) (p : BitVec 6) (i : BitVec 16)
  /-- BAR (R169): Arrives at a team barrier with a count and waits for the phase. -/
  | bar (g : BitVec 4) (n : BitVec 6) (s : BitVec 6)
  /-- RECONV (R171): Makes active lanes wait until every lane of the named set waits or has exited. -/
  | reconv (g : BitVec 4) (m : BitVec 6)
  /-- CSIGN (R160): Signs a convergence register's round with consent only. -/
  | csign (g : BitVec 4) (c : BitVec 3)
  /-- CVDECL (R147): Declares the group set of a convergence register. -/
  | cvdecl (g : BitVec 4) (s : BitVec 6) (c : BitVec 3)
  /-- FENCE (R238): Holds successor-class accesses until predecessor accesses complete and the dial passes their ordering time. -/
  | fence (g : BitVec 4) (p : BitVec 7) (s : BitVec 7) (c : BitVec 3)
  /-- WAITF (R172): Waits until a completion flag reads at most a threshold. -/
  | waitf (g : BitVec 4) (n : BitVec 4) (t : BitVec 6)
  /-- BARA (R169): Arrives at a team barrier without waiting. -/
  | bara (g : BitVec 4) (n : BitVec 6)
  /-- TRAP (R177): Enters TRAPVEC with SOFTWARE for codes 0-47, or parks lanes as a service call for codes 48-63. -/
  | trap (g : BitVec 4) (c : BitVec 6)
  /-- PLMOVE (R395): Service call TRAP 48 that moves the executor of a range under the three-step protocol. -/
  | plmove (g : BitVec 4)
  /-- RECORD (R395): Service call TRAP 50 that extends MR3 with bytes of the world. -/
  | record (g : BitVec 4)
  /-- CODEREP (R364): Service call TRAP 62 that replaces code in a CODE buffer and extends MR2. -/
  | coderep (g : BitVec 4)
  /-- ERET (R177): Returns active lanes to their TRAPPC pair and reissues that bundle. -/
  | eret (g : BitVec 4)
  /-- CSRR (R177): Reads a CSR into a scalar or per-lane register. -/
  | csrr (g : BitVec 4) (r : BitVec 6) (v : BitVec 1) (c : BitVec 12)
  /-- CSRW (R177): Writes a CSR from a scalar or per-lane register, effective from the next bundle. -/
  | csrw (g : BitVec 4) (r : BitVec 6) (v : BitVec 1) (c : BitVec 12)
  /-- GRAPH (R179): Requests a replay of a resident graph with an optional patch. -/
  | graph (g : BitVec 4) (n : BitVec 6) (p : BitVec 6) (f : BitVec 4)
  /-- EXIT (R177): Makes each active lane EXITED. -/
  | exit (g : BitVec 4)
  /-- BEAT (R177): Restarts the persistent team's heartbeat timer. -/
  | beat (g : BitVec 4)
  /-- NOP (R177): Does nothing but counts as an instruction. -/
  | nop (g : BitVec 4)
  /-- HINT_SCHED (R68): Hint word giving a wait mask, minimum distances and yield to the covered instructions. -/
  | hintSched (w : BitVec 12) (a : BitVec 3) (b : BitVec 3) (c : BitVec 3) (y : BitVec 1)
  /-- HINT_IMM (R69): Hint word widening an I-form or B immediate. -/
  | hintImm (p : BitVec 22)
  /-- HINT_MOD (R70): Hint word giving rounding, type, saturation, shuffle mode or memory policy. -/
  | hintMod (p : BitVec 22)
  /-- HINT_PLACE (R73): Hint word giving PLACE type, length and coefficients. -/
  | hintPlace (t : BitVec 3) (l : BitVec 4) (a : BitVec 7) (b : BitVec 7)
  /-- HINT_CHAIN (R75): Hint word making its instruction the head of a latch chain. -/
  | hintChain (n : BitVec 2)
  /-- HINT_CBANK (R72): Hint word redirecting constant reads of one instruction to another window. -/
  | hintCbank (b : BitVec 4) (w : BitVec 8)
  /-- HINT_OFF (R71): Hint word adding a signed byte offset to every lane's address. -/
  | hintOff (o : BitVec 22)
  /-- GROUP_END (R180): A group whose lanes have all exited releases its slot once every flag reads zero. -/
  | groupEnd (gid : Nat)
  /-- TEAM_PLACEMENT (R349): The die dispatcher places the head team of a level where its whole reservation fits and grants it. -/
  | teamPlacement (die : Nat)
  /-- MIGR_LANDING (R40): A migrating group arrives in a landing slot on the target die and resumes. -/
  | migrLanding (gid : Nat)
  /-- DEFERRED_FAULT_DELIVERY (R209): A lane holding a deferred cause takes it before its next bundle issues. -/
  | deferredFaultDelivery (gid : Nat)
  /-- LOAD_DATA_RETURN (R211): Load data returns, writing accepted lanes and completing the flag. -/
  | loadDataReturn (op : Nat) (unit : Nat)
  /-- STORE_COMPLETION (R212): Every accepted store is accepted at its point of coherence and the flag completes. -/
  | storeCompletion (op : Nat) (unit : Nat)
  /-- SCRATCH_ACCESS_PERFORMED (R214): A scratch access is performed in its scratchpad and its flag completes. -/
  | scratchAccessPerformed (op : Nat) (unit : Nat)
  /-- ATOMIC_STEP (R216): The executor applies one address's lanes in ascending order as one indivisible step. -/
  | atomicStep (op : Nat) (unit : Nat)
  /-- RESID_APPLY (R219): The home agent fills the sector if absent and sets its read count. -/
  | residApply (op : Nat) (unit : Nat)
  /-- COPY_EXECUTION (R222): A channel starts its next accepted copy, taking ownership and writing in ascending order. -/
  | copyExecution (chan : Nat)
  /-- ENGINE_SECTOR_RELEASE (R249): An engine releases a written destination sector, accepting its writes. -/
  | engineSectorRelease (op : Nat) (unit : Nat)
  /-- CHAIN_RECORD (R322): A chain walk reads a transfer record, copies it and writes its CTL. -/
  | chainRecord (chan : Nat)
  /-- CHAIN_RECORD_WAKE (R322): A store setting OWN on a waiting record wakes the chain walk. -/
  | chainRecordWake (chan : Nat)
  /-- PUSH_SLOT_FILL (R331): After a PUSH tile passes its V plus 2, the slot's fill bit is set and the ring advances. -/
  | pushSlotFill (op : Nat)
  /-- READ_REQUEST (R244): A Read reaches the directory and the owner or memory supplies the sector. -/
  | readRequest (die : Nat) (sec : Nat)
  /-- OWN_REQUEST (R244): An Own reaches the directory, which invalidates other copies for a writer. -/
  | ownRequest (die : Nat) (sec : Nat)
  /-- WRITE_BACK (R244): An evicted M or O copy goes to memory through the write-combining buffer. -/
  | writeBack (die : Nat) (sec : Nat)
  /-- CLEAN_NOTICE (R244): An evicted E or S copy updates its snoop filter entry. -/
  | cleanNotice (die : Nat) (sec : Nat)
  /-- INVALIDATION (R245): A die invalidates its copy for an Own and acknowledges at once with its stamp. -/
  | invalidation (die : Nat) (sec : Nat)
  /-- INVALIDATION_ACK (R245): An invalidation acknowledgement reaches the writer and raises its V. -/
  | invalidationAck (die : Nat) (sec : Nat)
  /-- BACK_INVALIDATION (R246): A die receives a back-invalidation and waits for its L1 leases to expire. -/
  | backInvalidation (die : Nat) (line : Nat)
  /-- BACK_INVALIDATION_ACK (R246): The acknowledgement with any dirty data reaches the home and the waiting fill proceeds. -/
  | backInvalidationAck (die : Nat) (line : Nat)
  /-- PENDING_WRITE_VISIBLE (R231): The dial reaches a write's visibility time and the new contents are served. -/
  | pendingWriteVisible (die : Nat) (sec : Nat)
  /-- L1_LEASE_EXPIRY (R186): An L1 sector's lease lapses and it no longer serves hits. -/
  | l1LeaseExpiry (core : Nat) (sec : Nat)
  /-- FENCE_COMPLETION (R238): A pending fence completes once its predecessors are complete and the dial passes T plus g. -/
  | fenceCompletion (gid : Nat)
  /-- WCB_DRAIN (R191): A write-combining entry is drained to HBM by row completion, age or occupancy. -/
  | wcbDrain (sec : Nat)
  /-- ARRAY_OPERATION (R151): An array starts the next operation of its queue. -/
  | arrayOperation (core : Nat) (arr : Nat)
  /-- MATRIX_OPERATION_COMPLETION (R150): A matrix operation completes and decrements every signer's flag. -/
  | matrixOperationCompletion (op : Nat)
  /-- SACC_VERDICT (R258): The row table's verdict on an SACC instruction reaches the group. -/
  | saccVerdict (op : Nat)
  /-- SAADD_APPLY (R262): The banks apply one segment add as one exact step. -/
  | saaddApply (op : Nat)
  /-- SA_TIMEOUT (R265): A read not served within the row's timeout is removed and traps deferred. -/
  | saTimeout (op : Nat)
  /-- TICKET_VERDICT (R303): The slice's verdict on a TKT instruction returns to the group. -/
  | ticketVerdict (op : Nat)
  /-- TICKET_FILL (R299): A ticket fetch completes, making the entry FILLED or POISONED. -/
  | ticketFill (slice : Nat) (entry : Nat) (unit : Nat)
  /-- TICKET_DELIVERY (R308): The slice delivers a redeemed ticket's units to the destination scratch. -/
  | ticketDelivery (slice : Nat) (entry : Nat)
  /-- TICKET_LEASE_LAPSE (R301): A ticket's lease lapses, advancing its generation and posting an orphan record. -/
  | ticketLeaseLapse (slice : Nat) (entry : Nat)
  /-- PLACE_PART (R285): An executor runs one part of a placed operation element by element. -/
  | placePart (op : Nat)
  /-- PLACE_QUEUE_RELEASE (R290): A held place-queue entry is released when its pages leave TRANSIT. -/
  | placeQueueRelease (op : Nat)
  /-- PLSYNC_COMPLETION (R291): PLSYNC completes once every selected completion count reaches its target. -/
  | plsyncCompletion (op : Nat)
  /-- PEER_ACKNOWLEDGEMENT (R248): A peer acknowledges an operation after its writes pass V plus 2 there. -/
  | peerAcknowledgement (op : Nat)
  /-- PEER_REFUSAL (R287): A peer refuses a part and the lane takes EXECUTOR_INVALID deferred. -/
  | peerRefusal (op : Nat)
  /-- PEER_ABANDON (R292): A peer operation unacknowledged after 80 µs is abandoned. -/
  | peerAbandon (op : Nat)
  /-- IN_NETWORK_REDUCTION (R367): A received reduction is performed, or aborted if contributions mix key generations. -/
  | inNetworkReduction (r : Reduction)
  /-- PREEMPTION_REQUEST (R374): A request halts the affected groups between bundles and starts the drain. -/
  | preemptionRequest (t : PreemptTarget)
  /-- CONTEXT_SAVE (R375): After the drain, each team's context image is written to the save area. -/
  | contextSave (team : Nat)
  /-- RESTORE_REQUEST (R378): A slice kernel requests a restore and the image check is verified. -/
  | restoreRequest (team : Nat)
  /-- RESTORE_GRANT (R378): The reservation and landing slots are granted together and the image written back. -/
  | restoreGrant (team : Nat)
  /-- HEARTBEAT_EXPIRY (R379): A persistent team's heartbeat timer reaches 0 and the watchdog pre-empts it. -/
  | heartbeatExpiry (team : Nat)
  /-- RUNTIME_LIMIT_EXPIRY (R379): A team's runtime timer reaches LIMIT and the watchdog pre-empts it. -/
  | runtimeLimitExpiry (team : Nat)
  /-- RESUME (R371): The slice kernel resumes parked lanes at their saved pair. -/
  | resume (gid : Nat) (r : Resumed)
  /-- PASS_ON (R371): The slice kernel passes a parked lane's fault on to TRAPVEC. -/
  | passOn (gid : Nat) (lanes : BitVec 64)
  /-- KILL (R371): The slice kernel answers the parking record of a lane by killing the team; without a lane it discards a saved image (R378). -/
  | kill (k : KillTarget)
  /-- SERVICE_CALL (R395): The slice kernel serves a TRAP 48-63 call once for the bundle or passes it on. -/
  | serviceCall (call : Nat)
  /-- UNCORRECTABLE_ERROR (R380): An uncorrectable ECC error poisons, kills or is fatal by where it strikes. -/
  | uncorrectableError (w : ErrorSite)
  /-- CORRECTED_ERROR (R381): A corrected error is scrubbed and counted. -/
  | correctedError (w : ErrorSite)
  /-- LAYER_COPY (R200): One row of a failed layer is copied to the spare and the boundary advances. -/
  | layerCopy (stack : Nat)
  /-- REFRESH (R355): An HBM channel performs a refresh command. -/
  | refresh (stack : Nat) (chan : Nat)
  /-- SCRUB (R355): One DRAM row of a channel is scrubbed. -/
  | scrub (stack : Nat) (chan : Nat) (row : Nat)
  /-- DICTIONARY_RESYNC (R382): A link direction empties its dictionary and replays flits after a CRC failure or gap. -/
  | dictionaryResync (dir : Nat) (ok : Bool)
  /-- PERFORMANCE_SAMPLING (R354): At each SAMPLE interval the counters are copied to a snapshot. -/
  | performanceSampling (unit : Nat)
  /-- GROUP_FORCED (R347): A ready group's starvation count reaches 64 and it is forced. -/
  | groupForced (gid : Nat)
  /-- YIELD_HOLD_EXPIRY (R348): A group's yield hold counts down to 0 and it becomes unheld. -/
  | yieldHoldExpiry (gid : Nat)
  /-- CLOCK_STEP (R19): The power manager lowers or raises the arithmetic clock by 25 MHz, or gates issue. -/
  | clockStep (c : ClockMove)
  /-- LAUNCH (R335): A LAUNCH command is accepted, its descriptor copied and teams spread to dies. -/
  | launch (queue : Nat)
  /-- REPLAY (R339): A replay request is accepted, its parameter block built, and queued or started. -/
  | replay (queue : Nat)
  /-- REPLAY_DEQUEUE (R340): A queued replay request starts when a slot frees under the graph's limit. -/
  | replayDequeue (graph : Nat)
  /-- TRANSFER (R391): A TRANSFER command copies bytes on die channel 1, host memory only over IDE in RUN. -/
  | transfer (queue : Nat)
  /-- GRAPH_LOAD (R396): A service-core command copies a graph image into Escapement. -/
  | graphLoad (queue : Nat)
  /-- GRAPH_UNLOAD (R396): A service-core command removes a resident graph. -/
  | graphUnload (queue : Nat)
  /-- SLICE_KERNEL_COMMAND (R396): A KIND 6 command on host queue 0 is delivered to a slice-kernel instance (no answer), or the named
  instance answers the oldest one that it holds from the queue. -/
  | sliceKernelCommand (queue : Nat) (answer : Option (Nat × BitVec 8))
  /-- KERNEL_NODE (R337): Escapement launches a grid with bank 15 bound to the parameter block. -/
  | kernelNode (replay : Nat)
  /-- COPY_NODE (R337): Escapement issues a copy on die channel 0 of the named die. -/
  | copyNode (replay : Nat)
  /-- COND_NODE (R337): Escapement takes NEXT or ALT by a masked word compare. -/
  | condNode (replay : Nat)
  /-- LOOP_NODE (R337): Escapement counts a loop node and takes ALT or NEXT. -/
  | loopNode (replay : Nat)
  /-- WAIT_NODE (R337): Escapement starts a wait on a word, a time or an event. -/
  | waitNode (replay : Nat)
  /-- WAIT_NODE_SATISFIED (R337): A waiting node's condition holds and the replay moves on. -/
  | waitNodeSatisfied (replay : Nat)
  /-- SIGNAL_NODE (R337): Escapement stores or atomically adds a value to a word. -/
  | signalNode (replay : Nat)
  /-- ASYNC_NODE_COMPLETION (R337): An ASYNC node completes and sets its replay event. -/
  | asyncNodeCompletion (replay : Nat) (node : Nat)
  /-- DOORBELL_WRITE (R391): A doorbell write sets a host queue's tail count after earlier BAR2 writes pass V plus 2. -/
  | doorbellWrite (port : Nat) (fn : Nat) (offset : Nat) (tail : BitVec 64)
  /-- ARM_WRITE (R390): A write to ARM records requester, effect-window offset and dial time. -/
  | armWrite (port : Nat) (requester : Nat) (value : BitVec 64)
  /-- EFFECT_WINDOW_READ (R390): A read of an effect word reports the next final entry and advances the cursor if armed. -/
  | effectWindowRead (port : Nat) (fn : Nat) (requester : Nat) (offset : Nat)
  /-- BAR2_READ (R392): A host read through a BAR2 aperture reaches the world's buffer. -/
  | bar2Read (port : Nat) (fn : Nat) (offset : Nat) (n : Nat) (how : HostAccess)
  /-- BAR2_WRITE (R392): A host write through a BAR2 aperture is a write of the world's host agent. -/
  | bar2Write (port : Nat) (fn : Nat) (offset : Nat) (how : HostAccess) (bytes : List (BitVec 8))
  /-- GET_VERSION (R361): SPDM request answered by the device. -/
  | getVersion (session : Nat)
  /-- GET_CAPABILITIES (R361): SPDM request answered by the device. -/
  | getCapabilities (session : Nat)
  /-- NEGOTIATE_ALGORITHMS (R361): SPDM request answered by the device. -/
  | negotiateAlgorithms (session : Nat)
  /-- GET_DIGESTS (R361): SPDM request answered by the device. -/
  | getDigests (session : Nat)
  /-- GET_CERTIFICATE (R361): SPDM request answered by the device. -/
  | getCertificate (session : Nat)
  /-- CHALLENGE (R361): SPDM request answered by the device. -/
  | challenge (session : Nat)
  /-- GET_MEASUREMENTS (R361): SPDM request reporting MR0 to MR3 of the TDI's world. -/
  | getMeasurements (session : Nat) (index : Nat)
  /-- KEY_EXCHANGE (R361): SPDM request starting a session. -/
  | keyExchange (session : Nat)
  /-- FINISH (R361): SPDM request completing a session. -/
  | finish (session : Nat)
  /-- KEY_UPDATE (R367): SPDM request advancing PGEN and keeping the previous key for single transfers. -/
  | keyUpdate (session : Nat)
  /-- HEARTBEAT (R361): SPDM session heartbeat. -/
  | heartbeat (session : Nat)
  /-- END_SESSION (R361): SPDM request ending a session. -/
  | endSession (session : Nat)
  /-- WORLD_CREATION (R358): The security monitor creates a world, installs its key and makes its queues. -/
  | worldCreation (r : WorldRequest)
  /-- WORLD_TEARDOWN (R359): A world is drained, its teams killed, its entries invalidated and its key erased. -/
  | worldTeardown (world : Nat)
  /-- ATTESTATION_ACKNOWLEDGEMENT (R365): A verified acknowledgement advances anti-rollback counters and disarms the watchdog. -/
  | attestationAcknowledgement (a : Acknowledgement)
  /-- ATTESTATION_WATCHDOG_EXPIRY (R365): The watchdog expires and the previous bundle is fetched and the package reset. -/
  | attestationWatchdogExpiry (fetched : Option Bundle)
  /-- BUNDLE_FETCH_RETRY (R365): Every 30 s the boot ROM retries fetching the previous bundle. -/
  | bundleFetchRetry (fetched : Option Bundle)
  /-- SLICE_VERSION_SWITCH (R366): A slice changes slice-kernel version at the first instant no call is in service. -/
  | sliceVersionSwitch (slice : Nat) (version : Nat)
  /-- PACKAGE_RESET (R384): The package resets, keeping only listed state, and brings up in phases. -/
  | packageReset (c : ResetCause) (offers : List Bundle)
  /-- HOST_PORT_RESET (R384): A hot or function-level reset resets one port's link, IDE streams and TDIs. -/
  | hostPortReset (port : Nat)
  /-- DSYN0_CLEAR (R385): Management writes 1 to VALID, clearing DSYN0 and DSYN1. -/
  | dsyn0Clear (die : Nat)
  /-- POWER_CAP_SET (R397): Management sets a power cap the power manager then holds. -/
  | powerCapSet (watts : Nat)
  /-- PORT_MODE_SET (R387): Management sets a host port's mode, effective at the next package reset. -/
  | portModeSet (port : Nat) (cxl : Bool)
  /-- FIRMWARE_UPDATE_STAGE (R398): PLDM firmware update stages a crown bundle for the boot ROM. -/
  | firmwareUpdateStage (b : Bundle)
  /-- REGISTER_WRITE (R7): A write to a register without a row of its own applies its field access codes. -/
  | registerWrite (r : RegName) (value : BitVec 64)
  /-- PEER_OPERATION_ARRIVAL (R279): An operation sent by a peer Vuost arrives at this device, is translated in its own tables for the same world and performed, then acknowledged after its writes pass V plus 2. -/
  | peerOperationArrival (o : PeerMessage)
  /-- TDISP_REQUEST (R361): The host TSM moves a world's TDI between CONFIG_UNLOCKED, CONFIG_LOCKED and RUN through TDISP messages. -/
  | tdispRequest (port : Nat) (world : Nat) (r : TdispMessage)
  /-- BACK_INVALIDATION_SNOOP_ANSWER (R388): The host answers a CXL.mem back-invalidation snoop, after which the held device write to that sector is accepted. -/
  | backInvalidationSnoopAnswer (port : Nat) (sec : Nat)
  /-- SLICE_KERNEL_STORE (R278): A service core stores to a page-table entry, buffer descriptor or other owned state, whose acceptance waits for cached translations to drop and in-flight users to register; an instance that does not own it sends a message (R394). -/
  | sliceKernelStore (a : KernelAct)
  /-- POWER_OR_THERMAL_TRIP (R397): A thermal or power trip occurs and is handled as a fatal die error of class 6. -/
  | powerOrThermalTrip
  /-- POWER_ON (R385): Supply returns after a loss of power, clearing DSYN0 VALID while DONE and NOSPARE survive, and bring-up begins. -/
  | powerOn (offers : List Bundle)
  deriving DecidableEq, Repr

end Sys2Proof
end

