-- ==== Sys2Proof/WellFormed.lean ====
section
/-! DEFINITION. The decode limits that a word breaks by itself, whatever hints stand before it (spec/04_instruction_words.md
R60 to R73, spec/05_opcode_map.md R85 to R105, spec/03_number_formats.md R54, spec/07 R129). Limits that depend on a MOD hint
(the width of an operand, the layout an instruction accepts) or on the role budget are checked where the instruction issues. -/

namespace Sys2Proof

/-- Which limit a word breaks; every one of them is ILLEGAL_INSTRUCTION (R86, R105). -/
inductive Defect where
  | guard | flag | destination | sourceA | sourceB | predicate | condition | selector | size | register | priority | csr
  | payload | number
  deriving DecidableEq, Repr

/-- The kind tag of a source byte (R62): 0 vector, 1 scalar, 2 constant, 3 literal. -/
def srcTag (a : BitVec 8) : Nat := a.toNat / 64

/-- The index of a source byte (R62). -/
def srcIdx (a : BitVec 8) : Nat := a.toNat % 64

/-- The tag of a source byte is vector (which covers the latches). -/
def isVec (a : BitVec 8) : Bool := srcTag a == 0

/-- The tag of a source byte is scalar. -/
def isScalar (a : BitVec 8) : Bool := srcTag a == 1

/-- R61: a guard of 13 to 15 is illegal. -/
def guardOk (g : BitVec 4) : Bool := g.toNat ≤ 12

/-- R64: an F of 12, 13 or 14 is illegal. -/
def flagOk (f : BitVec 4) : Bool := f.toNat ≤ 11 || f.toNat == 15

/-- R63: the destination of an R-form instruction of pipe `p`. -/
def destOk (p : Nat) (a : BitVec 8) (d : BitVec 6) : Bool :=
  isScalar a || d.toNat ≤ 59 || d.toNat == 60 + p

/-- R63: a scalar A takes no vector or latch B. -/
def bKindOk (a b : BitVec 8) : Bool := !(isScalar a && isVec b)

/-- R62: a 64-bit vector operand names an even register, not a latch. -/
def pairSrcOk (a : BitVec 8) : Bool := !isVec a || (srcIdx a ≤ 58 && srcIdx a % 2 == 0)

/-- R112: a 64-bit vector destination is even and no latch. -/
def pairDestOk (a : BitVec 8) (d : BitVec 6) : Bool := isScalar a || (d.toNat ≤ 58 && d.toNat % 2 == 0)

/-- R90: the address byte of LD, ST, ATOM and RESID. -/
def addrOk (a : BitVec 8) : Bool := isScalar a || (isVec a && srcIdx a ≤ 58 && srcIdx a % 2 == 0)

/-- R90: the offset byte of LDS, STS and ATOMS. -/
def offsetOk (a : BitVec 8) : Bool := isScalar a || (isVec a && srcIdx a ≤ 59)

/-- R90: a data register of `n` 32-bit words is aligned to them and lies in the file. -/
def dataOk (n : Nat) (d : BitVec 6) : Bool := d.toNat + n ≤ 60 && d.toNat % n == 0

/-- The CSR numbers of the map (R173). -/
def csrKnown (c : Nat) : Bool :=
  c ≤ 7 || c == 0x10 || c == 0x11 || c == 0x20 || (0x30 ≤ c && c ≤ 0x34) || c == 0x40 || c == 0x41 || c == 0x50 ||
    (0x60 ≤ c && c ≤ 0x6B)

/-- The CSRs that hold one value per lane (R173, R103). -/
def csrLane (c : Nat) : Bool := c == 1 || (0x31 ≤ c && c ≤ 0x33)

/-- The CSRs of 64 bits (R173). -/
def csrWide (c : Nat) : Bool :=
  c == 4 || c == 0x10 || c == 0x11 || c == 0x20 || (0x30 ≤ c && c ≤ 0x34) || c == 0x40 || c == 0x41 || c == 0x50

/-- R54: the conversion codes that exist. -/
def cvtKnown (c : Nat) : Bool := c ≤ 11 || (16 ≤ c && c ≤ 35) || (40 ≤ c && c ≤ 43)

/-- R54: codes whose source is 64 bits wide. -/
def cvtSrcWide (c : Nat) : Bool := c == 22 || c == 23 || c == 34 || c == 35 || c == 40 || c == 41

/-- R54: codes whose result is 64 bits wide. -/
def cvtDstWide (c : Nat) : Bool := c == 20 || c == 21 || c == 32 || c == 33 || c == 42 || c == 43

/-- R54: the packed codes, which take no scalar A (R125). -/
def cvtPacked (c : Nat) : Bool := 40 ≤ c && c ≤ 43

/-- The first failed check, or none. -/
def firstDefect : List (Bool × Defect) → Option Defect
  | [] => none
  | (true, _) :: r => firstDefect r
  | (false, e) :: _ => some e

/-- The checks of a two-operand R-form instruction of pipe `p` (R61 to R63). -/
def checkR (p : Nat) (g : BitVec 4) (d : BitVec 6) (a b : BitVec 8) : Option Defect :=
  firstDefect [(guardOk g, .guard), (destOk p a d, .destination), (bKindOk a b, .sourceB)]

/-- The checks of a compare (R87, R120). -/
def checkCmp (maxCond : Nat) (g : BitVec 4) (k c : BitVec 3) (a b : BitVec 8) : Option Defect :=
  firstDefect [(guardOk g, .guard), (k.toNat ≤ 5, .predicate), (c.toNat ≤ maxCond, .condition), (bKindOk a b, .sourceB)]

/-- The checks of an instruction with only a guard. -/
def checkG (g : BitVec 4) : Option Defect := firstDefect [(guardOk g, .guard)]

/-- The checks of an instruction with a guard and a flag field. -/
def checkGF (g f : BitVec 4) : Option Defect := firstDefect [(guardOk g, .guard), (flagOk f, .flag)]

/-- R70: reserved values of the MOD payload that no instruction accepts. -/
def modOk (p : BitVec 22) : Bool :=
  if p.toNat / 2 ^ 21 == 0 then
    let ty := p.toNat / 2 ^ 13 % 16
    ty ≤ 10 && p.toNat % 2 ^ 11 == 0 && !(p.toNat / 2 ^ 17 % 2 == 1 && 1 ≤ ty && ty ≤ 6)
  else p.toNat / 2 ^ 19 % 4 ≠ 3

/-- R73: the element size of a PLACE type in bytes. -/
def placeSize (t : Nat) : Nat := if t == 3 || t == 4 then 2 else if t == 5 then 8 else 4

/-- The limit that the word of `i` breaks, if any. Steps without a word break none. -/
def Instr.defect (i : Instr) : Option Defect :=
  match i with
  | .iadd g d a b | .isub g d a b | .imul g d a b | .imulhi g d a b | .imulhn g d a b | .imad g d a b | .imin g d a b
  | .imax g d a b | .nmin g d a b | .nmax g d a b | .and g d a b | .or g d a b | .xor g d a b | .andn g d a b
  | .shl g d a b | .shr g d a b | .sar g d a b | .sel g d a b => checkR 0 g d a b
  | .fadd g d a b | .fsub g d a b | .fmul g d a b | .ffma g d a b | .fmin g d a b | .fmax g d a b | .hadd2 g d a b
  | .hmul2 g d a b | .hfma2 g d a b | .fdot2 g d a b => checkR 1 g d a b
  | .jmpi g a b => firstDefect [(guardOk g, .guard), (bKindOk a b, .sourceB)]
  | .lea g d a b =>
    firstDefect [(guardOk g, .guard), (pairDestOk a d, .destination), (pairSrcOk a, .sourceA), (bKindOk a b, .sourceB)]
  | .icmp g k c a b | .ncmp g k c a b => checkCmp 6 g k c a b
  | .fcmp g k c a b => checkCmp 7 g k c a b
  | .mov g d a => firstDefect [(guardOk g, .guard), (destOk 0 a d, .destination)]
  | .moviv g d _ => firstDefect [(guardOk g, .guard), (d.toNat ≤ 60, .destination)]
  | .movis g _ _ | .addis g _ _ => checkG g
  | .bitu g d a s => firstDefect [(guardOk g, .guard), (s.toNat ≤ 4, .selector), (destOk 0 a d, .destination)]
  | .cvt g d a c =>
    let n := c.toNat
    firstDefect [(guardOk g, .guard), (cvtKnown n, .selector), (!(cvtPacked n && isScalar a), .sourceA),
      (!cvtSrcWide n || pairSrcOk a, .sourceA), (if cvtDstWide n then pairDestOk a d else destOk 1 a d, .destination)]
  | .plog g d u v _ =>
    firstDefect [(guardOk g, .guard), (d.toNat ≤ 11, .predicate), (u.toNat ≤ 12, .predicate), (v.toNat ≤ 12, .predicate)]
  | .vote g d a s =>
    firstDefect [(guardOk g, .guard), (s.toNat ≤ 3, .selector), (a.toNat ≤ 12, .predicate),
      (s.toNat == 3 || d.toNat ≤ 11, .destination)]
  | .sfu g d a s => firstDefect [(guardOk g, .guard), (s.toNat ≤ 7, .selector), (destOk 2 a d, .destination)]
  | .shfl g d a _ => firstDefect [(guardOk g, .guard), (!isScalar a, .sourceA), (destOk 2 a d, .destination)]
  | .reds g d a s =>
    firstDefect [(guardOk g, .guard), (s.toNat ≤ 10, .selector), (isVec a, .sourceA), (destOk 2 a d, .destination)]
  | .ld g d a f w | .st g d a f w =>
    firstDefect [(guardOk g, .guard), (flagOk f, .flag), (w.toNat ≤ 6, .size), (addrOk a, .sourceA),
      (dataOk (if w.toNat == 6 then 4 else if w.toNat == 5 then 2 else 1) d, .destination)]
  | .lds g d a f _ z | .sts g d a f _ z =>
    firstDefect [(guardOk g, .guard), (flagOk f, .flag), (offsetOk a, .sourceA),
      (dataOk (if z.toNat == 3 then 4 else if z.toNat == 2 then 2 else 1) d, .destination)]
  | .atom g d a f w =>
    firstDefect [(guardOk g, .guard), (flagOk f, .flag), (w.toNat ≤ 14, .size), (addrOk a, .sourceA),
      (dataOk (if w.toNat == 14 then 4 else if w.toNat ≥ 11 then 2 else 1) d, .destination)]
  | .atoms g d a f w =>
    firstDefect [(guardOk g, .guard), (flagOk f, .flag), (w.toNat ≤ 14, .size), (offsetOk a, .sourceA),
      (dataOk (if w.toNat == 14 then 4 else if w.toNat ≥ 11 then 2 else 1) d, .destination)]
  | .resid g _ a f w => firstDefect [(guardOk g, .guard), (flagOk f, .flag), (w.toNat ≤ 1, .size), (addrOk a, .sourceA)]
  | .tkld g _ _ _ f | .tkdrop g _ f | .tkxtnd g _ f | .tkqry g _ _ f => checkGF g f
  | .tkrdm g _ _ s f => firstDefect [(guardOk g, .guard), (flagOk f, .flag), (1 ≤ s.toNat && s.toNat ≤ 3, .number)]
  | .cpyT g _ s _ f => firstDefect [(guardOk g, .guard), (flagOk f, .flag), (s.toNat ≤ 62, .register)]
  | .cpyHead g _ _ f | .cpyWpwait g _ _ f => checkGF g f
  | .cpyCommit g _ | .cpyWait g _ _ | .cpyWptr g _ _ => checkG g
  | .rinit g _ _ f | .rawait g _ _ f | .rrel g _ _ f | .rpush g _ _ f | .rqry g _ _ f => checkGF g f
  | .mloadw g _ _ _ _ f | .mswap g _ _ f | .mcomp g _ _ _ f | .maccst g _ _ _ _ f | .maccz g _ _ _ f
  | .maccld g _ _ _ _ f => checkGF g f
  | .mma g _ _ o _ f => firstDefect [(guardOk g, .guard), (flagOk f, .flag), (o.toNat ≤ 62, .register)]
  | .saopen g _ _ f | .saevict g _ _ f | .safill g _ _ f | .sastat g _ _ f | .saclose g _ f => checkGF g f
  | .saadd g v _ f => firstDefect [(guardOk g, .guard), (flagOk f, .flag), (v.toNat ≤ 59, .register)]
  | .sanorm g v _ m f =>
    firstDefect [(guardOk g, .guard), (flagOk f, .flag), (v.toNat ≤ 59, .register), (m.toNat ≤ 2, .number)]
  | .place g d a b _ f =>
    firstDefect [(guardOk g, .guard), (flagOk f, .flag), (d.toNat ≤ 29, .register), (a.toNat ≤ 29, .register),
      (b.toNat ≤ 29, .register)]
  | .plsync g _ _ f | .plqry g _ _ f | .graph g _ _ f => checkGF g f
  | .migr g _ => checkG g
  | .br g p _ | .call g p _ => firstDefect [(guardOk g, .guard), (p.toNat ≤ 62, .priority)]
  | .bar g n _ | .bara g n => firstDefect [(guardOk g, .guard), (n.toNat ≤ 15, .number)]
  | .reconv g _ | .csign g _ => checkG g
  | .cvdecl g s _ => firstDefect [(guardOk g, .guard), (s.toNat ≤ 62, .register)]
  | .fence g _ _ c => firstDefect [(guardOk g, .guard), (c.toNat ≤ 4, .number)]
  | .waitf g n _ => firstDefect [(guardOk g, .guard), (n.toNat ≤ 11, .number)]
  | .trap g c =>
    firstDefect [(guardOk g, .guard), (c.toNat ≠ 48 && c.toNat ≠ 50 && c.toNat ≠ 62, .number)]
  | .plmove g | .record g | .coderep g | .eret g | .exit g | .beat g | .nop g => checkG g
  | .csrr g r v c =>
    firstDefect [(guardOk g, .guard), (csrKnown c.toNat, .csr), (v == 1 || !csrLane c.toNat, .csr),
      (v == 0 || r.toNat ≤ 59, .register), (v == 0 || !csrWide c.toNat || r.toNat % 2 == 0, .register)]
  | .csrw g r v c =>
    firstDefect [(guardOk g, .guard), (csrKnown c.toNat, .csr), (v == 0 || csrLane c.toNat, .csr),
      (v == 0 || r.toNat ≤ 59, .register), (v == 0 || !csrWide c.toNat || r.toNat % 2 == 0, .register)]
  | .hintSched .. | .hintImm _ | .hintCbank .. | .hintOff _ => none
  | .hintMod p => firstDefect [(modOk p, .payload)]
  | .hintPlace t l _ _ =>
    firstDefect [(t.toNat ≤ 5, .payload), (l.toNat ≤ 10, .payload), (placeSize t.toNat ≤ 2 ^ (l.toNat + 2), .payload)]
  | .hintChain n => firstDefect [(1 ≤ n.toNat, .payload)]
  | .groupEnd .. | .teamPlacement .. | .migrLanding .. | .deferredFaultDelivery .. | .loadDataReturn .. |
  .storeCompletion .. | .scratchAccessPerformed .. | .atomicStep .. | .residApply .. | .copyExecution .. |
  .engineSectorRelease .. | .chainRecord .. | .chainRecordWake .. | .pushSlotFill .. | .readRequest .. |
  .ownRequest .. | .writeBack .. | .cleanNotice .. | .invalidation .. | .invalidationAck .. | .backInvalidation .. |
  .backInvalidationAck .. | .pendingWriteVisible .. | .l1LeaseExpiry .. | .fenceCompletion .. | .wcbDrain .. |
  .arrayOperation .. | .matrixOperationCompletion .. | .saccVerdict .. | .saaddApply .. | .saTimeout .. |
  .ticketVerdict .. | .ticketFill .. | .ticketDelivery .. | .ticketLeaseLapse .. | .placePart .. |
  .placeQueueRelease .. | .plsyncCompletion .. | .peerAcknowledgement .. | .peerRefusal .. | .peerAbandon .. |
  .inNetworkReduction .. | .preemptionRequest .. | .contextSave .. | .restoreRequest .. | .restoreGrant .. |
  .heartbeatExpiry .. | .runtimeLimitExpiry .. | .resume .. | .passOn .. | .kill .. | .serviceCall .. |
  .uncorrectableError .. | .correctedError .. | .layerCopy .. | .refresh .. | .scrub .. | .dictionaryResync .. |
  .performanceSampling .. | .groupForced .. | .yieldHoldExpiry .. | .clockStep .. | .launch .. | .replay .. |
  .replayDequeue .. | .transfer .. | .graphLoad .. | .graphUnload .. | .sliceKernelCommand .. | .kernelNode .. |
  .copyNode .. | .condNode .. | .loopNode .. | .waitNode .. | .waitNodeSatisfied .. | .signalNode .. |
  .asyncNodeCompletion .. | .doorbellWrite .. | .armWrite .. | .effectWindowRead .. | .bar2Read .. | .bar2Write .. |
  .getVersion .. | .getCapabilities .. | .negotiateAlgorithms .. | .getDigests .. | .getCertificate .. | .challenge ..
  | .getMeasurements .. | .keyExchange .. | .finish .. | .keyUpdate .. | .heartbeat .. | .endSession .. |
  .worldCreation .. | .worldTeardown .. | .attestationAcknowledgement .. | .attestationWatchdogExpiry .. |
  .bundleFetchRetry .. | .sliceVersionSwitch .. | .packageReset .. | .hostPortReset .. | .dsyn0Clear .. |
  .powerCapSet .. | .portModeSet .. | .firmwareUpdateStage .. | .registerWrite .. | .peerOperationArrival .. |
  .tdispRequest .. | .backInvalidationSnoopAnswer .. | .sliceKernelStore .. | .powerOrThermalTrip | .powerOn .. => none

/-- A well-formed instruction breaks none of the limits above. -/
def Instr.wf (i : Instr) : Bool := i.defect.isNone

end Sys2Proof
end

