-- ==== Sys2Proof/Decode.lean ====
section
/-! DEFINITION. Decoding an instruction word and encoding it again (spec/05_opcode_map.md R85 to R105, spec/04 R60 to R73).
Decoding is total: a word that is no instruction is rejected by name. -/

namespace Sys2Proof

/-- Why a word is no instruction (R105). -/
inductive Reject where
  /-- OP 0x00 (R86). -/
  | opcode
  /-- A reserved fn of a family. -/
  | fn
  /-- A hint kind from 7 to 15 (R66). -/
  | hintKind
  /-- A nibble, tag or bit that must hold one value and does not. -/
  | reserved
  /-- A field outside its limits (`Instr.defect`). -/
  | field (e : Defect)
  deriving DecidableEq, Repr

/-- The `n`-bit field of `w` whose lowest bit is bit `lo`. -/
def fld (w : Word) (lo n : Nat) : BitVec n := BitVec.ofNat n (w.toNat / 2 ^ lo)

/-- The same field as a number. -/
def bits (w : Word) (lo n : Nat) : Nat := w.toNat / 2 ^ lo % 2 ^ n

/-- The family of opcode 0x34, selected by fn (R96). -/
def decodeTkt (w : Word) : Except Reject Instr :=
  match bits w 19 3 with
  | 0 => .ok (.tkld (fld w 22 4) (fld w 13 6) (fld w 7 6) (fld w 4 3) (fld w 0 4))
  | 1 => .ok (.tkrdm (fld w 22 4) (fld w 13 6) (fld w 7 6) (fld w 4 3) (fld w 0 4))
  | 2 => .ok (.tkdrop (fld w 22 4) (fld w 13 6) (fld w 0 4))
  | 3 => .ok (.tkxtnd (fld w 22 4) (fld w 13 6) (fld w 0 4))
  | 4 => .ok (.tkqry (fld w 22 4) (fld w 13 6) (fld w 7 6) (fld w 0 4))
  | _ => .error .fn

/-- The family of opcode 0x35, selected by fn (R97). -/
def decodeCpy (w : Word) : Except Reject Instr :=
  match bits w 19 3 with
  | 0 => .ok (.cpyT (fld w 22 4) (fld w 13 6) (fld w 7 6) (fld w 4 3) (fld w 0 4))
  | 1 => .ok (.cpyHead (fld w 22 4) (fld w 13 6) (fld w 4 3) (fld w 0 4))
  | 2 => .ok (.cpyCommit (fld w 22 4) (fld w 4 3))
  | 3 => .ok (.cpyWait (fld w 22 4) (fld w 13 6) (fld w 4 3))
  | 4 => .ok (.cpyWptr (fld w 22 4) (fld w 13 6) (fld w 4 3))
  | 5 => .ok (.cpyWpwait (fld w 22 4) (fld w 13 6) (fld w 4 3) (fld w 0 4))
  | _ => .error .fn

/-- The family of opcode 0x36, selected by fn (R98). -/
def decodeRing (w : Word) : Except Reject Instr :=
  match bits w 19 3 with
  | 0 => .ok (.rinit (fld w 22 4) (fld w 13 6) (fld w 7 6) (fld w 0 4))
  | 1 => .ok (.rawait (fld w 22 4) (fld w 13 6) (fld w 7 6) (fld w 0 4))
  | 2 => .ok (.rrel (fld w 22 4) (fld w 13 6) (fld w 7 6) (fld w 0 4))
  | 3 => .ok (.rpush (fld w 22 4) (fld w 13 6) (fld w 7 6) (fld w 0 4))
  | 4 => .ok (.rqry (fld w 22 4) (fld w 13 6) (fld w 7 6) (fld w 0 4))
  | _ => .error .fn

/-- The family of opcode 0x37, selected by fn (R99). -/
def decodeMtx (w : Word) : Except Reject Instr :=
  match bits w 19 3 with
  | 0 => if bits w 16 3 == 0 then .ok (.mloadw (fld w 22 4) (fld w 15 1) (fld w 13 2) (fld w 7 6) (fld w 4 3) (fld w 0 4)) else .error .reserved
  | 1 => if bits w 15 4 == 0 then .ok (.mswap (fld w 22 4) (fld w 13 2) (fld w 4 3) (fld w 0 4)) else .error .reserved
  | 2 => .ok (.mma (fld w 22 4) (fld w 15 4) (fld w 13 2) (fld w 7 6) (fld w 4 3) (fld w 0 4))
  | 3 => .ok (.mcomp (fld w 22 4) (fld w 13 6) (fld w 7 6) (fld w 4 3) (fld w 0 4))
  | 4 => .ok (.maccst (fld w 22 4) (fld w 15 4) (fld w 13 2) (fld w 7 6) (fld w 4 3) (fld w 0 4))
  | 5 => .ok (.maccz (fld w 22 4) (fld w 15 4) (fld w 13 2) (fld w 4 3) (fld w 0 4))
  | 6 => .ok (.maccld (fld w 22 4) (fld w 15 4) (fld w 13 2) (fld w 7 6) (fld w 4 3) (fld w 0 4))
  | _ => .error .fn

/-- The family of opcode 0x38, selected by fn (R100). -/
def decodeSacc (w : Word) : Except Reject Instr :=
  match bits w 19 3 with
  | 0 => .ok (.saopen (fld w 22 4) (fld w 13 6) (fld w 7 6) (fld w 0 4))
  | 1 => .ok (.saadd (fld w 22 4) (fld w 13 6) (fld w 7 6) (fld w 0 4))
  | 2 => if bits w 6 1 == 0 then .ok (.sanorm (fld w 22 4) (fld w 13 6) (fld w 7 6) (fld w 4 2) (fld w 0 4)) else .error .reserved
  | 3 => .ok (.saevict (fld w 22 4) (fld w 13 6) (fld w 7 6) (fld w 0 4))
  | 4 => .ok (.safill (fld w 22 4) (fld w 13 6) (fld w 7 6) (fld w 0 4))
  | 5 => .ok (.sastat (fld w 22 4) (fld w 13 6) (fld w 7 6) (fld w 0 4))
  | 6 => .ok (.saclose (fld w 22 4) (fld w 13 6) (fld w 0 4))
  | _ => .error .fn

/-- The family of opcode 0x3A, selected by fn (R101). -/
def decodePlctl (w : Word) : Except Reject Instr :=
  match bits w 19 3 with
  | 0 => .ok (.plsync (fld w 22 4) (fld w 13 6) (fld w 7 6) (fld w 0 4))
  | 1 => .ok (.migr (fld w 22 4) (fld w 4 3))
  | 2 => .ok (.plqry (fld w 22 4) (fld w 13 6) (fld w 7 6) (fld w 0 4))
  | _ => .error .fn

/-- The family of opcode 0x3D, selected by fn (R102). -/
def decodeSync (w : Word) : Except Reject Instr :=
  match bits w 19 3 with
  | 0 => .ok (.bar (fld w 22 4) (fld w 13 6) (fld w 7 6))
  | 1 => .ok (.reconv (fld w 22 4) (fld w 13 6))
  | 2 => .ok (.csign (fld w 22 4) (fld w 4 3))
  | 3 => .ok (.cvdecl (fld w 22 4) (fld w 13 6) (fld w 4 3))
  | 4 => if bits w 0 2 == 0 then .ok (.fence (fld w 22 4) (fld w 12 7) (fld w 5 7) (fld w 2 3)) else .error .reserved
  | 5 => if bits w 17 2 == 0 then .ok (.waitf (fld w 22 4) (fld w 13 4) (fld w 7 6)) else .error .reserved
  | 6 => .ok (.bara (fld w 22 4) (fld w 13 6))
  | _ => .error .fn

/-- The family of opcode 0x3E, selected by fn (R103). -/
def decodeSys (w : Word) : Except Reject Instr :=
  match bits w 19 3 with
  | 0 =>
    (match bits w 13 6 with
    | 48 => .ok (.plmove (fld w 22 4))
    | 50 => .ok (.record (fld w 22 4))
    | 62 => .ok (.coderep (fld w 22 4))
    | _ => .ok (.trap (fld w 22 4) (fld w 13 6)))
  | 1 => .ok (.eret (fld w 22 4))
  | 2 => .ok (.csrr (fld w 22 4) (fld w 13 6) (fld w 12 1) (fld w 0 12))
  | 3 => .ok (.csrw (fld w 22 4) (fld w 13 6) (fld w 12 1) (fld w 0 12))
  | 4 => .ok (.graph (fld w 22 4) (fld w 13 6) (fld w 7 6) (fld w 0 4))
  | 5 => .ok (.exit (fld w 22 4))
  | 6 => .ok (.beat (fld w 22 4))
  | 7 => .ok (.nop (fld w 22 4))
  | _ => .error .fn

/-- Hint words by kind (R66). -/
def decodeHint (w : Word) : Except Reject Instr :=
  match bits w 22 4 with
  | 0 => .ok (.hintSched (fld w 10 12) (fld w 7 3) (fld w 4 3) (fld w 1 3) (fld w 0 1))
  | 1 => .ok (.hintImm (fld w 0 22))
  | 2 => .ok (.hintMod (fld w 0 22))
  | 3 => if bits w 0 1 == 0 then .ok (.hintPlace (fld w 19 3) (fld w 15 4) (fld w 8 7) (fld w 1 7)) else .error .reserved
  | 4 => if bits w 2 20 == 0 then .ok (.hintChain (fld w 0 2)) else .error .reserved
  | 5 => if bits w 12 10 == 0 then .ok (.hintCbank (fld w 8 4) (fld w 0 8)) else .error .reserved
  | 6 => .ok (.hintOff (fld w 0 22))
  | _ => .error .hintKind

/-- The instruction that the opcode, fn and fixed bits of a word select, before the limits of its fields (R85). -/
def decodeRaw (w : Word) : Except Reject Instr :=
  match bits w 26 6 with
  | 1 => .ok (.iadd (fld w 22 4) (fld w 16 6) (fld w 8 8) (fld w 0 8))
  | 2 => .ok (.isub (fld w 22 4) (fld w 16 6) (fld w 8 8) (fld w 0 8))
  | 3 => .ok (.imul (fld w 22 4) (fld w 16 6) (fld w 8 8) (fld w 0 8))
  | 4 => .ok (.imulhi (fld w 22 4) (fld w 16 6) (fld w 8 8) (fld w 0 8))
  | 5 => .ok (.imulhn (fld w 22 4) (fld w 16 6) (fld w 8 8) (fld w 0 8))
  | 6 => .ok (.imad (fld w 22 4) (fld w 16 6) (fld w 8 8) (fld w 0 8))
  | 7 => .ok (.imin (fld w 22 4) (fld w 16 6) (fld w 8 8) (fld w 0 8))
  | 8 => .ok (.imax (fld w 22 4) (fld w 16 6) (fld w 8 8) (fld w 0 8))
  | 9 => .ok (.nmin (fld w 22 4) (fld w 16 6) (fld w 8 8) (fld w 0 8))
  | 10 => .ok (.nmax (fld w 22 4) (fld w 16 6) (fld w 8 8) (fld w 0 8))
  | 11 => .ok (.and (fld w 22 4) (fld w 16 6) (fld w 8 8) (fld w 0 8))
  | 12 => .ok (.or (fld w 22 4) (fld w 16 6) (fld w 8 8) (fld w 0 8))
  | 13 => .ok (.xor (fld w 22 4) (fld w 16 6) (fld w 8 8) (fld w 0 8))
  | 14 => .ok (.andn (fld w 22 4) (fld w 16 6) (fld w 8 8) (fld w 0 8))
  | 15 => .ok (.shl (fld w 22 4) (fld w 16 6) (fld w 8 8) (fld w 0 8))
  | 16 => .ok (.shr (fld w 22 4) (fld w 16 6) (fld w 8 8) (fld w 0 8))
  | 17 => .ok (.sar (fld w 22 4) (fld w 16 6) (fld w 8 8) (fld w 0 8))
  | 18 => .ok (.jmpi (fld w 22 4) (fld w 8 8) (fld w 0 8))
  | 19 => .ok (.lea (fld w 22 4) (fld w 16 6) (fld w 8 8) (fld w 0 8))
  | 20 => .ok (.icmp (fld w 22 4) (fld w 19 3) (fld w 16 3) (fld w 8 8) (fld w 0 8))
  | 21 => .ok (.ncmp (fld w 22 4) (fld w 19 3) (fld w 16 3) (fld w 8 8) (fld w 0 8))
  | 22 => .ok (.fcmp (fld w 22 4) (fld w 19 3) (fld w 16 3) (fld w 8 8) (fld w 0 8))
  | 23 => .ok (.sel (fld w 22 4) (fld w 16 6) (fld w 8 8) (fld w 0 8))
  | 24 => .ok (.mov (fld w 22 4) (fld w 16 6) (fld w 8 8))
  | 25 => .ok (.moviv (fld w 22 4) (fld w 16 6) (fld w 0 16))
  | 26 => .ok (.movis (fld w 22 4) (fld w 16 6) (fld w 0 16))
  | 27 => .ok (.addis (fld w 22 4) (fld w 16 6) (fld w 0 16))
  | 28 => if bits w 6 2 == 3 then .ok (.bitu (fld w 22 4) (fld w 16 6) (fld w 8 8) (fld w 0 6)) else .error .reserved
  | 29 => if bits w 6 2 == 3 then .ok (.cvt (fld w 22 4) (fld w 16 6) (fld w 8 8) (fld w 0 6)) else .error .reserved
  | 30 => if bits w 4 4 == 0 && bits w 20 2 == 0 then .ok (.plog (fld w 22 4) (fld w 16 4) (fld w 12 4) (fld w 8 4) (fld w 0 4)) else .error .reserved
  | 31 => if bits w 6 2 == 3 && bits w 12 4 == 0 then .ok (.vote (fld w 22 4) (fld w 16 6) (fld w 8 4) (fld w 0 6)) else .error .reserved
  | 32 => .ok (.fadd (fld w 22 4) (fld w 16 6) (fld w 8 8) (fld w 0 8))
  | 33 => .ok (.fsub (fld w 22 4) (fld w 16 6) (fld w 8 8) (fld w 0 8))
  | 34 => .ok (.fmul (fld w 22 4) (fld w 16 6) (fld w 8 8) (fld w 0 8))
  | 35 => .ok (.ffma (fld w 22 4) (fld w 16 6) (fld w 8 8) (fld w 0 8))
  | 36 => .ok (.fmin (fld w 22 4) (fld w 16 6) (fld w 8 8) (fld w 0 8))
  | 37 => .ok (.fmax (fld w 22 4) (fld w 16 6) (fld w 8 8) (fld w 0 8))
  | 38 => .ok (.hadd2 (fld w 22 4) (fld w 16 6) (fld w 8 8) (fld w 0 8))
  | 39 => .ok (.hmul2 (fld w 22 4) (fld w 16 6) (fld w 8 8) (fld w 0 8))
  | 40 => .ok (.hfma2 (fld w 22 4) (fld w 16 6) (fld w 8 8) (fld w 0 8))
  | 41 => .ok (.fdot2 (fld w 22 4) (fld w 16 6) (fld w 8 8) (fld w 0 8))
  | 42 => if bits w 6 2 == 3 then .ok (.sfu (fld w 22 4) (fld w 16 6) (fld w 8 8) (fld w 0 6)) else .error .reserved
  | 43 => .ok (.shfl (fld w 22 4) (fld w 16 6) (fld w 8 8) (fld w 0 8))
  | 44 => if bits w 6 2 == 3 then .ok (.reds (fld w 22 4) (fld w 16 6) (fld w 8 8) (fld w 0 6)) else .error .reserved
  | 45 => .ok (.ld (fld w 22 4) (fld w 16 6) (fld w 8 8) (fld w 4 4) (fld w 0 4))
  | 46 => .ok (.st (fld w 22 4) (fld w 16 6) (fld w 8 8) (fld w 4 4) (fld w 0 4))
  | 47 => .ok (.lds (fld w 22 4) (fld w 16 6) (fld w 8 8) (fld w 4 4) (fld w 2 2) (fld w 0 2))
  | 48 => .ok (.sts (fld w 22 4) (fld w 16 6) (fld w 8 8) (fld w 4 4) (fld w 2 2) (fld w 0 2))
  | 49 => .ok (.atom (fld w 22 4) (fld w 16 6) (fld w 8 8) (fld w 4 4) (fld w 0 4))
  | 50 => .ok (.atoms (fld w 22 4) (fld w 16 6) (fld w 8 8) (fld w 4 4) (fld w 0 4))
  | 51 => .ok (.resid (fld w 22 4) (fld w 16 6) (fld w 8 8) (fld w 4 4) (fld w 0 4))
  | 52 => decodeTkt w
  | 53 => decodeCpy w
  | 54 => decodeRing w
  | 55 => decodeMtx w
  | 56 => decodeSacc w
  | 57 => .ok (.place (fld w 22 4) (fld w 17 5) (fld w 12 5) (fld w 7 5) (fld w 4 3) (fld w 0 4))
  | 58 => decodePlctl w
  | 59 => .ok (.br (fld w 22 4) (fld w 16 6) (fld w 0 16))
  | 60 => .ok (.call (fld w 22 4) (fld w 16 6) (fld w 0 16))
  | 61 => decodeSync w
  | 62 => decodeSys w
  | 63 => decodeHint w
  | _ => .error .opcode

/-- Decoding, which runs before any other effect (R86): the instruction, or why the word is none. -/
def decode (w : Word) : Except Reject Instr :=
  match decodeRaw w with
  | .error e => .error e
  | .ok i =>
    match i.defect with
    | none => .ok i
    | some e => .error (.field e)

/-- Four bytes, the lowest address first, as a word (R4). -/
def leWord : List Byte → Word
  | [] => 0
  | b :: r => BitVec.ofNat 32 (b.toNat + 256 * (leWord r).toNat)

/-- The bytes of a word, the lowest address first (R4). -/
def wordBytes (w : Word) : List Byte := (List.range 4).map fun i => BitVec.ofNat 8 (w.toNat / 2 ^ (8 * i))

/-- Decode the first four bytes at an address, with the bytes after them. -/
def decodeBytes (bs : List Byte) : Except Reject (Instr × List Byte) :=
  match bs with
  | b0 :: b1 :: b2 :: b3 :: r =>
    match decode (leWord [b0, b1, b2, b3]) with
    | .ok i => .ok (i, r)
    | .error e => .error e
  | _ => .error .opcode

/-- A word from its fixed bits and its fields, each with the place of its lowest bit. -/
def word (base : Nat) : List (Nat × Nat) → Option Word
  | fs => some (BitVec.ofNat 32 (fs.foldl (fun n f => n + f.1 * 2 ^ f.2) base))

/-- The word of an instruction, written from the same tables; unused fields are zero (R65). A step without a word has none. -/
def encode (i : Instr) : Option Word :=
  match i with
  | .iadd g d a b => word 0x04000000 [(g.toNat, 22), (d.toNat, 16), (a.toNat, 8), (b.toNat, 0)]
  | .isub g d a b => word 0x08000000 [(g.toNat, 22), (d.toNat, 16), (a.toNat, 8), (b.toNat, 0)]
  | .imul g d a b => word 0x0C000000 [(g.toNat, 22), (d.toNat, 16), (a.toNat, 8), (b.toNat, 0)]
  | .imulhi g d a b => word 0x10000000 [(g.toNat, 22), (d.toNat, 16), (a.toNat, 8), (b.toNat, 0)]
  | .imulhn g d a b => word 0x14000000 [(g.toNat, 22), (d.toNat, 16), (a.toNat, 8), (b.toNat, 0)]
  | .imad g d a b => word 0x18000000 [(g.toNat, 22), (d.toNat, 16), (a.toNat, 8), (b.toNat, 0)]
  | .imin g d a b => word 0x1C000000 [(g.toNat, 22), (d.toNat, 16), (a.toNat, 8), (b.toNat, 0)]
  | .imax g d a b => word 0x20000000 [(g.toNat, 22), (d.toNat, 16), (a.toNat, 8), (b.toNat, 0)]
  | .nmin g d a b => word 0x24000000 [(g.toNat, 22), (d.toNat, 16), (a.toNat, 8), (b.toNat, 0)]
  | .nmax g d a b => word 0x28000000 [(g.toNat, 22), (d.toNat, 16), (a.toNat, 8), (b.toNat, 0)]
  | .and g d a b => word 0x2C000000 [(g.toNat, 22), (d.toNat, 16), (a.toNat, 8), (b.toNat, 0)]
  | .or g d a b => word 0x30000000 [(g.toNat, 22), (d.toNat, 16), (a.toNat, 8), (b.toNat, 0)]
  | .xor g d a b => word 0x34000000 [(g.toNat, 22), (d.toNat, 16), (a.toNat, 8), (b.toNat, 0)]
  | .andn g d a b => word 0x38000000 [(g.toNat, 22), (d.toNat, 16), (a.toNat, 8), (b.toNat, 0)]
  | .shl g d a b => word 0x3C000000 [(g.toNat, 22), (d.toNat, 16), (a.toNat, 8), (b.toNat, 0)]
  | .shr g d a b => word 0x40000000 [(g.toNat, 22), (d.toNat, 16), (a.toNat, 8), (b.toNat, 0)]
  | .sar g d a b => word 0x44000000 [(g.toNat, 22), (d.toNat, 16), (a.toNat, 8), (b.toNat, 0)]
  | .jmpi g a b => word 0x48000000 [(g.toNat, 22), (a.toNat, 8), (b.toNat, 0)]
  | .lea g d a b => word 0x4C000000 [(g.toNat, 22), (d.toNat, 16), (a.toNat, 8), (b.toNat, 0)]
  | .icmp g k c a b => word 0x50000000 [(g.toNat, 22), (k.toNat, 19), (c.toNat, 16), (a.toNat, 8), (b.toNat, 0)]
  | .ncmp g k c a b => word 0x54000000 [(g.toNat, 22), (k.toNat, 19), (c.toNat, 16), (a.toNat, 8), (b.toNat, 0)]
  | .fcmp g k c a b => word 0x58000000 [(g.toNat, 22), (k.toNat, 19), (c.toNat, 16), (a.toNat, 8), (b.toNat, 0)]
  | .sel g d a b => word 0x5C000000 [(g.toNat, 22), (d.toNat, 16), (a.toNat, 8), (b.toNat, 0)]
  | .mov g d a => word 0x60000000 [(g.toNat, 22), (d.toNat, 16), (a.toNat, 8)]
  | .moviv g d i => word 0x64000000 [(g.toNat, 22), (d.toNat, 16), (i.toNat, 0)]
  | .movis g d i => word 0x68000000 [(g.toNat, 22), (d.toNat, 16), (i.toNat, 0)]
  | .addis g d i => word 0x6C000000 [(g.toNat, 22), (d.toNat, 16), (i.toNat, 0)]
  | .bitu g d a s => word 0x700000C0 [(g.toNat, 22), (d.toNat, 16), (a.toNat, 8), (s.toNat, 0)]
  | .cvt g d a c => word 0x740000C0 [(g.toNat, 22), (d.toNat, 16), (a.toNat, 8), (c.toNat, 0)]
  | .plog g d u v t => word 0x78000000 [(g.toNat, 22), (d.toNat, 16), (u.toNat, 12), (v.toNat, 8), (t.toNat, 0)]
  | .vote g d a s => word 0x7C0000C0 [(g.toNat, 22), (d.toNat, 16), (a.toNat, 8), (s.toNat, 0)]
  | .fadd g d a b => word 0x80000000 [(g.toNat, 22), (d.toNat, 16), (a.toNat, 8), (b.toNat, 0)]
  | .fsub g d a b => word 0x84000000 [(g.toNat, 22), (d.toNat, 16), (a.toNat, 8), (b.toNat, 0)]
  | .fmul g d a b => word 0x88000000 [(g.toNat, 22), (d.toNat, 16), (a.toNat, 8), (b.toNat, 0)]
  | .ffma g d a b => word 0x8C000000 [(g.toNat, 22), (d.toNat, 16), (a.toNat, 8), (b.toNat, 0)]
  | .fmin g d a b => word 0x90000000 [(g.toNat, 22), (d.toNat, 16), (a.toNat, 8), (b.toNat, 0)]
  | .fmax g d a b => word 0x94000000 [(g.toNat, 22), (d.toNat, 16), (a.toNat, 8), (b.toNat, 0)]
  | .hadd2 g d a b => word 0x98000000 [(g.toNat, 22), (d.toNat, 16), (a.toNat, 8), (b.toNat, 0)]
  | .hmul2 g d a b => word 0x9C000000 [(g.toNat, 22), (d.toNat, 16), (a.toNat, 8), (b.toNat, 0)]
  | .hfma2 g d a b => word 0xA0000000 [(g.toNat, 22), (d.toNat, 16), (a.toNat, 8), (b.toNat, 0)]
  | .fdot2 g d a b => word 0xA4000000 [(g.toNat, 22), (d.toNat, 16), (a.toNat, 8), (b.toNat, 0)]
  | .sfu g d a s => word 0xA80000C0 [(g.toNat, 22), (d.toNat, 16), (a.toNat, 8), (s.toNat, 0)]
  | .shfl g d a b => word 0xAC000000 [(g.toNat, 22), (d.toNat, 16), (a.toNat, 8), (b.toNat, 0)]
  | .reds g d a s => word 0xB00000C0 [(g.toNat, 22), (d.toNat, 16), (a.toNat, 8), (s.toNat, 0)]
  | .ld g d a f w => word 0xB4000000 [(g.toNat, 22), (d.toNat, 16), (a.toNat, 8), (f.toNat, 4), (w.toNat, 0)]
  | .st g d a f w => word 0xB8000000 [(g.toNat, 22), (d.toNat, 16), (a.toNat, 8), (f.toNat, 4), (w.toNat, 0)]
  | .lds g d a f s z => word 0xBC000000 [(g.toNat, 22), (d.toNat, 16), (a.toNat, 8), (f.toNat, 4), (s.toNat, 2), (z.toNat, 0)]
  | .sts g d a f s z => word 0xC0000000 [(g.toNat, 22), (d.toNat, 16), (a.toNat, 8), (f.toNat, 4), (s.toNat, 2), (z.toNat, 0)]
  | .atom g d a f w => word 0xC4000000 [(g.toNat, 22), (d.toNat, 16), (a.toNat, 8), (f.toNat, 4), (w.toNat, 0)]
  | .atoms g d a f w => word 0xC8000000 [(g.toNat, 22), (d.toNat, 16), (a.toNat, 8), (f.toNat, 4), (w.toNat, 0)]
  | .resid g c a f w => word 0xCC000000 [(g.toNat, 22), (c.toNat, 16), (a.toNat, 8), (f.toNat, 4), (w.toNat, 0)]
  | .tkld g h a k f => word 0xD0000000 [(g.toNat, 22), (h.toNat, 13), (a.toNat, 7), (k.toNat, 4), (f.toNat, 0)]
  | .tkrdm g h o s f => word 0xD0080000 [(g.toNat, 22), (h.toNat, 13), (o.toNat, 7), (s.toNat, 4), (f.toNat, 0)]
  | .tkdrop g h f => word 0xD0100000 [(g.toNat, 22), (h.toNat, 13), (f.toNat, 0)]
  | .tkxtnd g h f => word 0xD0180000 [(g.toNat, 22), (h.toNat, 13), (f.toNat, 0)]
  | .tkqry g d h f => word 0xD0200000 [(g.toNat, 22), (d.toNat, 13), (h.toNat, 7), (f.toNat, 0)]
  | .cpyT g d s c f => word 0xD4000000 [(g.toNat, 22), (d.toNat, 13), (s.toNat, 7), (c.toNat, 4), (f.toNat, 0)]
  | .cpyHead g h c f => word 0xD4080000 [(g.toNat, 22), (h.toNat, 13), (c.toNat, 4), (f.toNat, 0)]
  | .cpyCommit g c => word 0xD4100000 [(g.toNat, 22), (c.toNat, 4)]
  | .cpyWait g n c => word 0xD4180000 [(g.toNat, 22), (n.toNat, 13), (c.toNat, 4)]
  | .cpyWptr g d c => word 0xD4200000 [(g.toNat, 22), (d.toNat, 13), (c.toNat, 4)]
  | .cpyWpwait g t c f => word 0xD4280000 [(g.toNat, 22), (t.toNat, 13), (c.toNat, 4), (f.toNat, 0)]
  | .rinit g r s f => word 0xD8000000 [(g.toNat, 22), (r.toNat, 13), (s.toNat, 7), (f.toNat, 0)]
  | .rawait g r d f => word 0xD8080000 [(g.toNat, 22), (r.toNat, 13), (d.toNat, 7), (f.toNat, 0)]
  | .rrel g r s f => word 0xD8100000 [(g.toNat, 22), (r.toNat, 13), (s.toNat, 7), (f.toNat, 0)]
  | .rpush g r s f => word 0xD8180000 [(g.toNat, 22), (r.toNat, 13), (s.toNat, 7), (f.toNat, 0)]
  | .rqry g r d f => word 0xD8200000 [(g.toNat, 22), (r.toNat, 13), (d.toNat, 7), (f.toNat, 0)]
  | .mloadw g s m o c f => word 0xDC000000 [(g.toNat, 22), (s.toNat, 15), (m.toNat, 13), (o.toNat, 7), (c.toNat, 4), (f.toNat, 0)]
  | .mswap g m c f => word 0xDC080000 [(g.toNat, 22), (m.toNat, 13), (c.toNat, 4), (f.toNat, 0)]
  | .mma g t m o c f => word 0xDC100000 [(g.toNat, 22), (t.toNat, 15), (m.toNat, 13), (o.toNat, 7), (c.toNat, 4), (f.toNat, 0)]
  | .mcomp g d s c f => word 0xDC180000 [(g.toNat, 22), (d.toNat, 13), (s.toNat, 7), (c.toNat, 4), (f.toNat, 0)]
  | .maccst g t m o c f => word 0xDC200000 [(g.toNat, 22), (t.toNat, 15), (m.toNat, 13), (o.toNat, 7), (c.toNat, 4), (f.toNat, 0)]
  | .maccz g t m c f => word 0xDC280000 [(g.toNat, 22), (t.toNat, 15), (m.toNat, 13), (c.toNat, 4), (f.toNat, 0)]
  | .maccld g t m o c f => word 0xDC300000 [(g.toNat, 22), (t.toNat, 15), (m.toNat, 13), (o.toNat, 7), (c.toNat, 4), (f.toNat, 0)]
  | .saopen g d o f => word 0xE0000000 [(g.toNat, 22), (d.toNat, 13), (o.toNat, 7), (f.toNat, 0)]
  | .saadd g v r f => word 0xE0080000 [(g.toNat, 22), (v.toNat, 13), (r.toNat, 7), (f.toNat, 0)]
  | .sanorm g v r m f => word 0xE0100000 [(g.toNat, 22), (v.toNat, 13), (r.toNat, 7), (m.toNat, 4), (f.toNat, 0)]
  | .saevict g r a f => word 0xE0180000 [(g.toNat, 22), (r.toNat, 13), (a.toNat, 7), (f.toNat, 0)]
  | .safill g r a f => word 0xE0200000 [(g.toNat, 22), (r.toNat, 13), (a.toNat, 7), (f.toNat, 0)]
  | .sastat g d r f => word 0xE0280000 [(g.toNat, 22), (d.toNat, 13), (r.toNat, 7), (f.toNat, 0)]
  | .saclose g r f => word 0xE0300000 [(g.toNat, 22), (r.toNat, 13), (f.toNat, 0)]
  | .place g d a b n f => word 0xE4000000 [(g.toNat, 22), (d.toNat, 17), (a.toNat, 12), (b.toNat, 7), (n.toNat, 4), (f.toNat, 0)]
  | .plsync g s l f => word 0xE8000000 [(g.toNat, 22), (s.toNat, 13), (l.toNat, 7), (f.toNat, 0)]
  | .migr g t => word 0xE8080000 [(g.toNat, 22), (t.toNat, 4)]
  | .plqry g d a f => word 0xE8100000 [(g.toNat, 22), (d.toNat, 13), (a.toNat, 7), (f.toNat, 0)]
  | .br g p i => word 0xEC000000 [(g.toNat, 22), (p.toNat, 16), (i.toNat, 0)]
  | .call g p i => word 0xF0000000 [(g.toNat, 22), (p.toNat, 16), (i.toNat, 0)]
  | .bar g n s => word 0xF4000000 [(g.toNat, 22), (n.toNat, 13), (s.toNat, 7)]
  | .reconv g m => word 0xF4080000 [(g.toNat, 22), (m.toNat, 13)]
  | .csign g c => word 0xF4100000 [(g.toNat, 22), (c.toNat, 4)]
  | .cvdecl g s c => word 0xF4180000 [(g.toNat, 22), (s.toNat, 13), (c.toNat, 4)]
  | .fence g p s c => word 0xF4200000 [(g.toNat, 22), (p.toNat, 12), (s.toNat, 5), (c.toNat, 2)]
  | .waitf g n t => word 0xF4280000 [(g.toNat, 22), (n.toNat, 13), (t.toNat, 7)]
  | .bara g n => word 0xF4300000 [(g.toNat, 22), (n.toNat, 13)]
  | .trap g c => word 0xF8000000 [(g.toNat, 22), (c.toNat, 13)]
  | .plmove g => word 0xF8060000 [(g.toNat, 22)]
  | .record g => word 0xF8064000 [(g.toNat, 22)]
  | .coderep g => word 0xF807C000 [(g.toNat, 22)]
  | .eret g => word 0xF8080000 [(g.toNat, 22)]
  | .csrr g r v c => word 0xF8100000 [(g.toNat, 22), (r.toNat, 13), (v.toNat, 12), (c.toNat, 0)]
  | .csrw g r v c => word 0xF8180000 [(g.toNat, 22), (r.toNat, 13), (v.toNat, 12), (c.toNat, 0)]
  | .graph g n p f => word 0xF8200000 [(g.toNat, 22), (n.toNat, 13), (p.toNat, 7), (f.toNat, 0)]
  | .exit g => word 0xF8280000 [(g.toNat, 22)]
  | .beat g => word 0xF8300000 [(g.toNat, 22)]
  | .nop g => word 0xF8380000 [(g.toNat, 22)]
  | .hintSched w a b c y => word 0xFC000000 [(w.toNat, 10), (a.toNat, 7), (b.toNat, 4), (c.toNat, 1), (y.toNat, 0)]
  | .hintImm p => word 0xFC400000 [(p.toNat, 0)]
  | .hintMod p => word 0xFC800000 [(p.toNat, 0)]
  | .hintPlace t l a b => word 0xFCC00000 [(t.toNat, 19), (l.toNat, 15), (a.toNat, 8), (b.toNat, 1)]
  | .hintChain n => word 0xFD000000 [(n.toNat, 0)]
  | .hintCbank b w => word 0xFD400000 [(b.toNat, 8), (w.toNat, 0)]
  | .hintOff o => word 0xFD800000 [(o.toNat, 0)]
  | .groupEnd .. | .teamPlacement .. | .migrLanding .. | .deferredFaultDelivery .. | .loadDataReturn .. |
  .storeCompletion .. | .scratchAccessPerformed .. | .atomicStep .. | .residApply .. | .copyExecution .. |
  .engineSectorRelease .. | .chainRecord .. | .chainRecordWake .. | .pushSlotFill .. | .readRequest .. |
  .ownRequest .. | .writeBack .. | .cleanNotice .. | .invalidation .. | .invalidationAck .. | .backInvalidation .. |
  .backInvalidationAck .. | .pendingWriteVisible .. | .l1LeaseExpiry .. | .fenceCompletion .. | .wcbDrain .. |
  .arrayOperation .. | .matrixOperationCompletion .. | .saccVerdict .. | .saaddApply .. | .saTimeout .. |
  .ticketVerdict .. | .ticketFill .. | .ticketDelivery .. | .ticketLeaseLapse .. | .placePart .. |
  .placeQueueRelease .. | .plsyncCompletion .. | .peerAcknowledgement .. | .peerRefusal .. | .peerAbandon .. |
  .inNetworkReduction .. | .preemptionRequest .. | .contextSave .. | .restoreRequest .. | .restoreGrant .. |
  .heartbeatExpiry .. | .runtimeLimitExpiry .. | .resume .. | .passOn .. | .kill .. | .serviceCall .. |
  .uncorrectableError .. | .correctedError .. | .layerCopy .. | .refresh .. | .scrub .. | .dictionaryResync .. |
  .performanceSampling .. | .groupForced .. | .yieldHoldExpiry .. | .clockStep .. | .launch .. | .replay .. |
  .replayDequeue .. | .transfer .. | .graphLoad .. | .graphUnload .. | .sliceKernelCommand .. | .kernelNode .. |
  .copyNode .. | .condNode .. | .loopNode .. | .waitNode .. | .waitNodeSatisfied .. | .signalNode .. |
  .asyncNodeCompletion .. | .doorbellWrite .. | .armWrite .. | .effectWindowRead .. | .bar2Read .. | .bar2Write .. |
  .getVersion .. | .getCapabilities .. | .negotiateAlgorithms .. | .getDigests .. | .getCertificate .. | .challenge ..
  | .getMeasurements .. | .keyExchange .. | .finish .. | .keyUpdate .. | .heartbeat .. | .endSession .. |
  .worldCreation .. | .worldTeardown .. | .attestationAcknowledgement .. | .attestationWatchdogExpiry .. |
  .bundleFetchRetry .. | .sliceVersionSwitch .. | .packageReset .. | .hostPortReset .. | .dsyn0Clear .. |
  .powerCapSet .. | .portModeSet .. | .firmwareUpdateStage .. | .registerWrite .. | .peerOperationArrival .. |
  .tdispRequest .. | .backInvalidationSnoopAnswer .. | .sliceKernelStore .. | .powerOrThermalTrip | .powerOn .. => none

/-- The instruction read from a table word laid out as stored: bit 0 is the least significant bit of the word (R4). -/
def decodeTableWord (nbits w : Nat) : Option Instr :=
  match decodeBytes (wordBytes (BitVec.ofNat 32 (w % 2 ^ nbits))) with
  | .ok (i, _) => some i
  | .error _ => none

end Sys2Proof
end

