-- ==== Sys2Proof/Machine/Fm.lean ====
section
/-! DEFINITION. Sparse tables keyed by a number, and byte memories in one canonical form: addresses strictly rising and no
entry equal to what an unlisted address reads as. -/

namespace Sys2Proof.Machine

/-- A sparse table. -/
abbrev Fm (β : Type) := List (Nat × β)

/-- The entry of a key. -/
def Fm.get? {β : Type} : Fm β → Nat → Option β
  | [], _ => none
  | (a, b) :: r, k => if k = a then some b else Fm.get? r k

/-- The entry of a key, or a default. -/
def Fm.getD {β : Type} (m : Fm β) (k : Nat) (d : β) : β := (Fm.get? m k).getD d

/-- Set the entry of a key; keys stay in rising order. -/
def Fm.put {β : Type} : Fm β → Nat → β → Fm β
  | [], k, v => [(k, v)]
  | (a, b) :: r, k, v => if k = a then (k, v) :: r else if k < a then (k, v) :: (a, b) :: r else (a, b) :: Fm.put r k v

/-- Drop the entry of a key. -/
def Fm.del {β : Type} (m : Fm β) (k : Nat) : Fm β := m.filter fun e => e.1 != k

/-- Change the entry of a key, where there is one. -/
def Fm.mod {β : Type} : Fm β → Nat → (β → β) → Fm β
  | [], _, _ => []
  | (a, b) :: r, k, f => if k = a then (a, f b) :: r else (a, b) :: Fm.mod r k f

/-- Keep the entries that a test accepts. -/
def Fm.keep {β : Type} (m : Fm β) (p : Nat → β → Bool) : Fm β := m.filter fun e => p e.1 e.2

/-- Change every entry. -/
def Fm.mapVals {β γ : Type} (m : Fm β) (f : Nat → β → γ) : Fm γ := m.map fun e => (e.1, f e.1 e.2)

/-- The lowest number from 0 that is no key, among the first `n`. -/
def Fm.free? {β : Type} (m : Fm β) (n : Nat) : Option Nat := (List.range n).find? fun k => (Fm.get? m k).isNone

/-- The first number above every key. -/
def Fm.next {β : Type} (m : Fm β) : Nat := m.foldl (fun n e => max n (e.1 + 1)) 0

/-- A byte memory. -/
abbrev Mem := List Host.Cell

/-- What an address that nothing has written reads as (DESIGN CHOICE, log entry 3: the spec clears no memory at reset). -/
def Mem.empty : Byte := 0

/-- The byte at an address. -/
def Mem.read (m : Mem) (a : Nat) : Byte := Fm.getD m a Mem.empty

/-- Set the byte at an address; a byte equal to `Mem.empty` is not listed. -/
def Mem.write : Mem → Nat → Byte → Mem
  | [], a, b => if b = Mem.empty then [] else [(a, b)]
  | (c, d) :: r, a, b =>
    if a = c then (if b = Mem.empty then r else (a, b) :: r)
    else if a < c then (if b = Mem.empty then (c, d) :: r else (a, b) :: (c, d) :: r)
    else (c, d) :: Mem.write r a b

/-- How far apart the cores' scratchpads are named in the model: a grant takes a place of its own under its core's number; only
the total is bounded by 512 KiB (R25, R143; log entry 2). -/
def scrSpan : Nat := 2 ^ 40

/-- The entries of `n` addresses from `a` on. -/
def Mem.within (m : Mem) (a n : Nat) : Mem := m.filter fun c => a ≤ c.1 && c.1 < a + n

/-- `n` bytes from an address, the lowest first. -/
def Mem.readN (m : Mem) (a n : Nat) : List Byte :=
  let near := m.within a n
  (List.range n).map fun i => Mem.read near (a + i)

/-- Write bytes from an address on. -/
def Mem.writeN (m : Mem) (a : Nat) : List Byte → Mem
  | [] => m
  | b :: r => Mem.writeN (Mem.write m a b) (a + 1) r

/-- Every address from `a` on for `n` bytes reads `Mem.empty` again. -/
def Mem.clear (m : Mem) (a n : Nat) : Mem := m.filter fun c => !(a ≤ c.1 && c.1 < a + n)

/-- The addresses rise strictly from `lo` and no entry is empty. -/
def Mem.wfFrom : Nat → Mem → Bool
  | _, [] => true
  | lo, (a, b) :: r => lo ≤ a && b != Mem.empty && Mem.wfFrom (a + 1) r

/-- The canonical form. -/
def Mem.wf (m : Mem) : Bool := Mem.wfFrom 0 m

/-- Bytes as a number, the first byte lowest (R4). -/
def leNat : List Byte → Nat
  | [] => 0
  | b :: r => b.toNat + 256 * leNat r

/-- A number as `n` bytes, the lowest first (R4). -/
def leBytes (n : Nat) (x : Nat) : List Byte := (List.range n).map fun i => BitVec.ofNat 8 (x / 2 ^ (8 * i))

end Sys2Proof.Machine
end

