-- ==== Sys2Proof/Machine/State.lean ====
section
/-! DEFINITION. The state of the Vuost-X1 as the manual names it, as plain data, and the state right after package reset.
Every field's docstring cites the rule that names it. -/

namespace Sys2Proof.Machine

/-- A 57-bit code address (R22). -/
abbrev Pc := BitVec 57

/-- A (PC, block priority) pair (R27). -/
abbrev Pair := Pc × BitVec 6

/-- A cause with its syndrome, TRAPADDR and the faulting word, as trap entry writes them (R173, R175). -/
structure LaneFault where
  cause : BitVec 8
  syn   : BitVec 56 := 0
  addr  : DWord := 0
  word  : Word := 0
  deriving DecidableEq, Repr

/-- Lane states (R22). -/
inductive LaneState where
  /-- In the frontier. -/
  | issuable
  /-- Waiting for the slice kernel, with the cause it was parked under (R35, R37). -/
  | parked (f : LaneFault)
  /-- WAITING at team barrier `b` (R169); the lane's PC is its BAR and `next` the bundle after it. -/
  | barrier (b : Nat) (next : Pc) (word : Word)
  /-- WAITING at a RECONV, with the set it arrived under (R38, R171). -/
  | reconv (set : LaneMask) (next : Pc) (word : Word)
  /-- Ended (R42). -/
  | exited
  deriving DecidableEq, Repr

/-- The control state of one lane (R22, R164). -/
structure Lane where
  pc        : Pc
  prio      : BitVec 6
  st        : LaneState := .issuable
  trapPc    : DWord := 0
  trapCause : DWord := 0
  trapAddr  : DWord := 0
  deriving DecidableEq, Repr

/-- A frontier entry; its lane mask is the ISSUABLE lanes that carry its pair (R27). -/
structure Ent where
  pc    : Pc
  prio  : BitVec 6
  age   : Nat := 0
  yield : Bool := false
  deriving DecidableEq, Repr

/-- Hint words already issued for the bundle in progress (R59, R66). -/
structure Hints where
  n      : Nat := 0
  kinds  : List Nat := []
  wait   : BitVec 12 := 0
  dists  : List (BitVec 3) := []
  yield  : Bool := false
  sched  : Bool := false
  imm    : Option (BitVec 22) := none
  md     : Option (BitVec 22) := none
  place  : Option (BitVec 3 × BitVec 4 × BitVec 7 × BitVec 7) := none
  chain  : Option (BitVec 2) := none
  cbank  : Option (BitVec 4 × BitVec 8) := none
  off    : Option (BitVec 22) := none
  deriving DecidableEq, Repr

/-- What is left of a SCHED cover: distances for the next instructions, and where the next bundle must lie (R68). -/
structure Cover where
  dists : List (BitVec 3)
  next  : Pc
  deriving DecidableEq, Repr

/-- A running latch chain: members still to issue, the latches written by it, its entry, the lanes that its head issued with, whether
a faulting lane has left it, which loses the latches and the cover when the chain ends (R75, R76), whether it holds its core no more,
since its last member has issued and waits for acceptance (R351), and whether it does not hold it yet, since its head's operation must complete
before the next member issues (F = 15; log entry 49). -/
structure Chain where
  left    : Nat
  wrote   : BitVec 4
  ent     : Pair
  lanes   : LaneMask := 0
  faulted : Bool := false
  ended   : Bool := false
  waits   : Bool := false
  deriving DecidableEq, Repr

/-- A register of a group that a fixed-latency instruction writes. -/
inductive Reg where
  | v (n : Nat) | s (n : Nat) | p (n : Nat) | b (n : Nat)
  deriving DecidableEq, Repr

/-- A register whose fixed-latency producer may not have written it yet: what it held before, per lane for a vector register
or a latch, and the cycles left (R68). -/
structure Settle where
  reg  : Reg
  old  : List DWord
  left : Nat
  deriving DecidableEq, Repr

/-- What stops a group from issuing (R347). -/
inductive Hold where
  | none
  /-- A synchronous operation (R64), or a verdict awaited (R206, R258, R303): the operation's number. -/
  | op (id : Nat)
  /-- WAITF: flag and threshold (R172). -/
  | waitf (f t : Nat)
  /-- CPY.WAIT: channel and count, its bundle and the lanes that issued it (R318). -/
  | copies (chan n : Nat) (pc : Pc) (lanes : LaneMask)
  deriving DecidableEq, Repr

/-- A pending FENCE (R226, R238): predecessor classes, successor classes, scope, the operations not yet complete, the latest ordering time
so far. -/
structure Fence where
  pred  : BitVec 7
  succ  : BitVec 7
  scope : BitVec 3
  ops   : List Nat
  time  : Nat
  deriving DecidableEq, Repr

/-- A fault found after its lane has moved on (R209, R267, R287, R305); `space` says that its address is an offset in a scratchpad, which has no
home slice (R208). -/
structure Deferred where
  lane  : Nat
  f     : LaneFault
  space : Bool := false
  deriving DecidableEq, Repr

/-- Batches of one channel number: accepted copies of the open batch that are not complete, and the outstanding committed
batches as counts of copies left (R315, R317). -/
structure Batch where
  openOps : List Nat := []
  outs    : List (List Nat) := []
  deriving DecidableEq, Repr

/-- A group (R22, R106, R164, R345); `gsq` holds GS bits on their way with the cycles left, as `settle` does writes (R52); `since` counts the
cycles of its core since its last instruction issued, up to 8, the default of a group that has issued none (R68); `stalled` says that its
word could not issue in this cycle (R347), `accepting` that it waits for acceptance (R224, R374), `fresh` that its yield hold was set in this cycle
(R348). -/
structure Group where
  team    : Nat
  index   : Nat
  core    : Nat
  slot    : Nat
  budget  : Nat
  lanes   : List Lane
  ents    : List Ent
  v       : Fm (List Word) := []
  s       : Fm DWord := []
  p       : Fm LaneMask := []
  b       : Fm (List Word) := []
  flags   : Fm Nat := []
  gs      : DWord := 0
  gsq     : List (DWord × Nat) := []
  gsarm   : DWord := 0
  crack   : Bool
  held    : Nat := 0
  trapvec : DWord
  trapinfo : DWord := 0
  kwin    : DWord
  word    : Word := 0
  hints   : Hints := {}
  ent     : Option Pair := none
  cover   : Option Cover := none
  chain   : Option Chain := none
  settle  : List Settle := []
  lastPipe : Option Nat := none
  hold    : Hold := .none
  fence   : Option Fence := none
  times   : Fm Nat := []
  deferred : List Deferred := []
  urg     : Nat := 0
  starve  : Nat := 0
  yieldHold : Nat := 0
  since   : Nat := 8
  stalled : Bool := false
  accepting : Bool := false
  fresh   : Bool := false
  batches : Fm Batch := []
  halted  : Bool := false
  ended   : Bool := false
  away    : Bool := false
  deriving DecidableEq, Repr

/-- A launch descriptor as the command engine copied it (R335). -/
structure Desc where
  codebase  : Nat
  entry     : Nat
  entryPrio : Nat
  level     : Nat
  dies      : Nat
  cluster   : Bool
  persistent : Bool
  crack     : Bool
  teams     : Nat
  groups    : Nat
  producers : Nat
  budgetP   : Nat
  budgetC   : Nat
  arrays    : Nat
  tiles     : Nat
  cvs       : Nat
  lanePriv  : Nat
  coreScr   : Nat
  clWin     : Nat
  trapvec   : Nat
  kwin      : Nat
  dsBase    : Nat
  dsSize    : Nat
  limit     : Nat
  banks     : List Nat
  params    : Option (List Byte) := none
  deriving DecidableEq, Repr

/-- A team barrier (R169): the count of the phase (0 stands for every group not yet ended), the groups that arrived, those
that arrived for the next phase, and the number of completed phases. -/
structure Barrier where
  count : Option Nat := none
  arr   : List Nat := []
  early : List Nat := []
  earlyCount : Option Nat := none
  phase : Nat := 0
  deriving DecidableEq, Repr

/-- What a team holds on one core (R25): byte ranges of the core scratchpad, matrix arrays, and bytes of register file. -/
structure Place where
  scr    : Nat
  scrLen : Nat
  lp     : Nat
  lpLen  : Nat
  cl     : Nat
  clLen  : Nat
  arrays : List Nat
  regs   : Nat
  deriving DecidableEq, Repr

/-- Whether a team runs, is halted and drains, is saved, or waits to be granted again (R43, R373 to R378). -/
inductive TeamPhase where
  | running | halting | saved | restoring
  deriving DecidableEq, Repr

/-- A convergence register (R142, R146 to R149): the declared set (0 when none is), the signed set, the recorded word with the
MOD payload, and by group index the signer's operation and deposit. -/
structure Cv where
  declared : BitVec 128 := 0
  signed   : BitVec 128 := 0
  record   : Option (Word × Option (BitVec 22)) := none
  sigs     : Fm (Nat × DWord × DWord) := []
  deriving DecidableEq, Repr

/-- A team (R23 to R25, R164, R345): its grant, its timer in ticks (R353), its context image as buffer, offset, length
and number while it is saved, and the bytes that the save wrote (R375). -/
structure Team where
  world    : Nat
  index    : Nat
  grid     : Nat
  die      : Nat
  d        : Desc
  places   : Fm Place := []
  barriers : Fm Barrier := []
  cvs      : Fm Cv := []
  timer    : Nat := 0
  wptrs    : Fm Nat := []
  phase    : TeamPhase := .running
  byWatchdog : Bool := false
  image    : Option (Nat × Nat × Nat × Nat) := none
  saved    : List Byte := []
  deriving DecidableEq, Repr

/-- MOESI state of a valid copy (R243). -/
inductive Moesi where
  | m | o | e | s
  deriving DecidableEq, Repr

/-- What a 32-byte unit in memory is encrypted under (R198, R360): the number of a world's key, and the tweak's buffer index and place in
the buffer, in sectors. -/
structure Seal where
  key  : Nat
  buf  : Nat
  soff : Nat
  deriving DecidableEq, Repr

/-- An accepted write that is not yet visible everywhere: its visibility time, the group and, byte by byte, the lanes that
wrote it (none for an engine), oldest first in `L2Sec.pend` (R230, R231); `doneAt` is the operation number from which the
group's engines see it early, once its flag has completed (R240); the die that accepted it (R233), the number of its free value (log
entry 2), what it is encrypted under. -/
structure PendW where
  v      : Nat
  group  : Nat
  op     : Nat
  doneAt : Option Nat := none
  die    : Nat
  free   : Nat := 0
  enc    : Option Seal := none
  bytes  : Fm (Byte × LaneMask)
  deriving DecidableEq, Repr

/-- A sector copy in an L2 part (R188); `encs` is what each of its four units is encrypted under, none for a unit that nothing has written. -/
structure L2Sec where
  st     : Moesi
  data   : List Byte
  encs   : List (Option Seal) := []
  pend   : List PendW := []
  stamp  : Nat := 0
  acks   : Nat := 0
  engine : Option Nat := none
  poison : Bool := false
  use    : Nat := 0
  deriving DecidableEq, Repr

/-- An L1 sector frame (R186); `asOf` is the reading of its die up to which early service is in its data (R233, R234; log entry 1). -/
structure L1Frame where
  core   : Nat
  world  : Nat
  buf    : Nat
  soff   : Nat
  sec    : Nat
  expiry : Nat
  data   : List Byte
  poison : Bool := false
  asOf   : Nat := 0
  use    : Nat
  deriving DecidableEq, Repr

/-- A snoop filter entry (R187, R226, R404): the dies that hold a copy, the owner die of each sector, the recorded stamp, order of use. -/
structure Snoop where
  dies   : BitVec 8
  owners : List (Option Nat) := []
  stamp  : Nat := 0
  use    : Nat
  deriving DecidableEq, Repr

/-- A back-invalidation in progress for an evicted snoop filter entry: the dies that have not acknowledged (R246), the dies that it has reached,
its place in the order of sending (R12). -/
structure BackInv where
  line : Nat
  dies : BitVec 8
  seen : BitVec 8
  order : Nat := 0
  deriving DecidableEq, Repr

/-- An Own in progress for a sector (R244, R245): the die that will write, the dies that have not invalidated their copies, the
acknowledgements on their way, each with the stamp it carries and its place in the order of sending (R12), the latest stamp so far, the
copy that the owner forwarded, the place of its invalidations in the order of sending, the L2LRU bit that the writer's fill takes (R275), whether
the write goes to the write-combining buffer and fills no copy (R191). -/
structure OwnTx where
  die    : Nat
  left   : BitVec 8
  flying : Fm (Nat × Nat) := []
  stamp  : Nat := 0
  copy   : Option L2Sec := none
  order  : Nat := 0
  lru    : Bool := false
  wcb    : Bool := false
  deriving DecidableEq, Repr

/-- A write-combining entry: its byte mask, its bytes, and the dial when it was taken (R191). -/
structure Wcb where
  bytes : Fm Byte
  since : Nat
  deriving DecidableEq, Repr

/-- A message from one slice-kernel instance to another: a store to state that the other owns, with the interface version (R366, R394). -/
structure KernelMsg where
  sender  : Nat
  to_     : Nat
  version : Nat
  store   : KernelStore
  deriving DecidableEq, Repr

/-- A cached page-table entry, leaf or non-leaf, of the level it stands at and the part of the address that selects it, tagged with the sectors
of the entries it was derived from (R273, R278). -/
structure Tlb where
  holder : Nat
  world  : Nat
  level  : Nat
  page   : Nat
  secs   : List Nat
  deriving DecidableEq, Repr

/-- A line of a core's constant cache: its world, its address in units of 128 bytes, its bytes (R110, R182). -/
structure ConstLine where
  core  : Nat
  world : Nat
  line  : Nat
  data  : List Byte
  deriving DecidableEq, Repr

/-- A place where a byte lies: translated memory by its place in the stacks, a core scratchpad, a die scratchpad, the host's
memory beyond a port (R391). -/
inductive Loc where
  | mem (phys : Nat)
  | core (core off : Nat)
  | die (die off : Nat)
  | host (off : Nat)
  deriving DecidableEq, Repr

/-- One lane's unit of a memory instruction: its address, where it lies, what it is encrypted under, store bytes or operands, the bytes
returned, the peer that performs it, when it was sent there and through which network port (R292, R393). -/
structure Acc where
  lane : Nat
  va   : Nat
  loc  : Loc
  enc  : Option Seal := none
  buf  : Nat := 0
  soff : Nat := 0
  l1   : BitVec 2 := 0
  data : List Byte := []
  got  : Option (List Byte) := none
  bad  : Bool := false
  peer : Option Nat := none
  sent : Option Nat := none
  port : Option Nat := none
  held : Bool := false
  lru  : Bool := false
  ctr  : Option Nat := none
  deriving DecidableEq, Repr

/-- The memory instructions of 11 that run unit by unit. -/
inductive MemKind where
  | ld | st | lds | sts | atom | atoms | resid
  deriving DecidableEq, Repr

/-- An accepted LD, ST, LDS, STS, ATOM, ATOMS or RESID: its register or count, its W code, its L1 policy and lease. -/
structure MemOp where
  k     : MemKind
  d     : Nat
  w     : Nat
  pol   : Nat := 0
  lease : Nat := 256
  gs    : DWord := 0
  accs  : List Acc
  deriving DecidableEq, Repr

/-- Where a ring object lies (R326): memory, by the descriptor that its check found (R192), or a die scratchpad, with the number of the key that
it is encrypted under (R198). -/
inductive RingLoc where
  | mem (d off : Nat)
  | die (die off key : Nat)
  deriving DecidableEq, Repr

/-- A side of a copy: translated memory by the descriptor, the buffer offset and the L2LRU bit of each 64 KiB page (R275), a buffer offset, a
core scratchpad, a cluster window (first core, window size, offset, bases), a die scratchpad (R220, R222). -/
inductive Side where
  | mem (va : Nat) (pages : Fm (Nat × Nat × Bool))
  | buf (d off : Nat)
  | core (core base : Nat)
  | cluster (first w off : Nat) (bases : Fm Nat)
  | die (die base : Nat)
  | host (base : Nat)
  deriving DecidableEq, Repr

/-- The shape of a tile (R220): element size, rows, columns, pitch in bytes, Morton order and space of each side. -/
structure Shape where
  e     : Nat
  rows  : Nat
  cols  : Nat
  pitch : Nat
  sm    : Bool
  dm    : Bool
  ss    : Nat
  ds    : Nat
  deriving DecidableEq, Repr

/-- A copy that runs: its sides and shape, the destination units that it owns and has written, the first poisoned address, and the old
values, each with its poison, of source bytes that it has written over (R222), keyed by place. -/
structure Copy where
  src   : Side
  dst   : Side
  sh    : Shape
  owned : Nat := 0
  done  : Nat := 0
  bad   : Option Nat := none
  old   : Fm (Byte × Bool) := []
  deriving DecidableEq, Repr

/-- A transfer record as the channel has read it: NEXT, CTL, SRC, DST, SHAPE (R321). -/
structure Record where
  next  : Nat
  ctl   : Nat
  src   : Nat
  dst   : Nat
  shape : Nat
  deriving DecidableEq, Repr

/-- A chain walk (R322, R331): the record's address, whether it waits for OWN, the slot reserved for a PUSH record with its
ring's epoch, the fill that it waits for, the record as it was read, the operation that asks the ring unit for a slot. -/
structure Walk where
  at_  : Nat
  wait : Bool := false
  push : Option (RingLoc × Nat × Nat) := none
  fill : Option Nat := none
  record : Option Record := none
  asks : Option Nat := none
  deriving DecidableEq, Repr

/-- A part of a lane's placed operation (R281): its bytes, its executor's number and die, the peer that runs it, its remote
sources, the counters it registered with, when it was sent to the peer and through which network port (R393), the GS bits of its elements where
every operand went with it (R56). -/
structure PPart where
  start : Nat
  n     : Nat
  exec  : Nat
  die   : Nat
  peer  : Option Nat := none
  remote : List Nat := []
  keys  : List Nat := []
  sent  : Option Nat := none
  port  : Option Nat := none
  gs    : Option DWord := none
  deriving DecidableEq, Repr

/-- A lane of a PLACE (R283, R289): its addresses, its pages by descriptor, offset and L2LRU bit, the parts still to run, whether it is held, and
on which pages, those that showed TRANSIT at its acceptance (R290). -/
structure PLane where
  lane    : Nat
  vas     : List Nat
  pages   : Fm (Nat × Nat × Bool) := []
  parts   : List PPart := []
  held    : Bool := false
  waits   : List Nat := []
  cracked : Bool := false
  deriving DecidableEq, Repr

/-- A PLACE (R282 to R286): function, TYPE, rounding mode, length, coefficients, PX.CRACK, its accepted lanes, GS bits. -/
structure PlaceOp where
  fn    : Nat
  ty    : Nat
  rm    : Nat
  len   : Nat
  ca    : DWord
  cb    : DWord
  crack : Bool
  lanes : List PLane
  gs    : DWord := 0
  deriving DecidableEq, Repr

/-- A matrix operation that a round issued (R148 to R151): what to do, its type and S bit, its core and unit (an array, or 4 for
MCOMP), its tile, its operands, the signers' operations, the groups that signed, whether it has run, GS.INV. -/
structure MtxOp where
  fn     : Nat
  ty     : Nat
  sparse : Bool
  core   : Nat
  unit   : Nat
  tile   : Nat
  a      : DWord
  b      : DWord
  sigs   : List Nat
  groups : List Nat
  ran    : Bool := false
  inv    : Bool := false
  deriving DecidableEq, Repr

/-- A stream-accumulator row (R254 to R263): state 0 FREE, 1 OPEN, 2 SEALED, 3 EVICTED; whether a SACLOSE or a SAEVICT has been
accepted; its parameters, counts and flags; its start bank; the integers of its elements; Σx, Σx²; the cached factors. -/
structure SaRow where
  st       : Nat := 0
  gen      : Nat := 1
  closing  : Bool := false
  evicting : Bool := false
  world    : Nat := 0
  log      : Nat := 0
  e        : Int := 0
  eps      : Nat := 0
  expect   : Nat := 0
  arrived  : Nat := 0
  timeout  : Nat := 0
  sat      : Bool := false
  inv      : Bool := false
  poison   : Bool := false
  bank     : Nat := 0
  xs       : Fm Int := []
  sx       : Int := 0
  sxx      : Int := 0
  rRms     : Option Nat := none
  rLayer   : Option Nat := none
  deriving DecidableEq, Repr

/-- What an operation in flight does. -/
inductive OpKind where
  | mem (m : MemOp)
  /-- A slot that is written and waits for its fill bit: ring, index, epoch (R331). -/
  | slotFill (ring : RingLoc) (slot epoch : Nat)
  /-- A RAWAIT that has claimed a slot and completes once the slot's bytes can be read (R332): its destination, its value, the die whose readers it
  serves. -/
  | claimed (ring : RingLoc) (slot size d : Nat) (val : DWord)
  /-- A slot that the ring unit has reserved for a PUSH record: index, epoch, bytes of a slot (R331). -/
  | reserved (ring : RingLoc) (slot epoch size : Nat)
  /-- A copy or a chain walk on a channel (R316). -/
  | copy (chan : Nat) (cur : Option Copy) (walk : Option Walk)
  /-- A CPY_WPWAIT that waits for a write pointer: its channel, its threshold (R320). -/
  | wpwait (chan t : Nat)
  /-- A RAWAIT (1), an RPUSH (3) or the reservation of a PUSH record (5) that waits at a ring unit: the ring, where its extent must end, its
  payload, its destination (R327, R329, R331). -/
  | ring (fn : Nat) (loc : RingLoc) (limit : Nat) (x : DWord) (d unit : Nat)
  /-- A PLACE (R285). -/
  | place (p : PlaceOp)
  /-- A PLSYNC: the completion counts it waits for (R291). -/
  | plsync (targets : Fm Nat)
  /-- A signature whose round has not completed (R150). -/
  | sign (cv : Nat)
  /-- A matrix operation (R151). -/
  | mtx (m : MtxOp)
  /-- An instruction that waits for a verdict; its group stands at it (R258, R303). -/
  | verdict (i : Instr)
  /-- An accepted SAADD: its row, segment and TYPE, and a code per lane (R262). -/
  | saAdd (row seg ty : Nat) (ds : List Nat)
  /-- A SANORM that waits for its row to seal: row word, segment, mode, TYPE, register, active lanes, gains (R264). -/
  | saNorm (row seg mode ty d : Nat) (act : LaneMask) (gains : List Nat) (word : DWord)
  /-- An accepted SACLOSE (R261). -/
  | saClose (row : Nat)
  /-- An accepted SAEVICT: the image's pages as descriptor, offset, length and L2LRU bit (R266). -/
  | saEvict (row : Nat) (pieces : List (Nat × Nat × Nat × Bool))
  /-- A TKT instruction sent to its slice: TKLD's address and its place, or the destination that TKRDM's core checked (R303). -/
  | ticket (i : Instr) (va d o : Nat)
  /-- An accepted TKLD whose fetch runs, and an accepted TKRDM: the ticket's number (R306, R308). -/
  | tkFetch (key : Nat)
  | tkRedeem (key : Nat)
  /-- A GRAPH request on its way to Escapement: graph number, patch bytes (R179). -/
  | graphReq (n : Nat) (patch : List Byte)
  deriving DecidableEq, Repr

/-- An operation in flight: who issued it, the flag it completes (none when it names none), whether its group waits for it
(F = 15), its fence classes, its latest ordering time so far, when it was accepted (R64, R236); the die of the table that an instruction is on
its way to (R12, R258, R303), the L2LRU bit of the page that a TKLD fetches from (R275). -/
structure Op where
  group : Option Nat
  team  : Nat := 0
  world : Nat
  core  : Nat
  die   : Nat
  pc    : Pc := 0
  word  : Word := 0
  lanes : LaneMask := 0
  flag  : Option Nat := none
  cls   : BitVec 7 := 0
  time  : Nat := 0
  since : Nat := 0
  chan  : Option Nat := none
  dest  : Option Nat := none
  lru   : Bool := false
  kind  : OpKind
  deriving DecidableEq, Repr

/-- The redeem that claims a ticket (R308): its operation, its group, its space, its offset in the space (for the die space, in
the die's scratchpad), its handle. -/
structure Redeem where
  op     : Nat
  gid    : Nat
  space  : Nat
  off    : Nat
  handle : DWord
  deriving DecidableEq, Repr

/-- A ticket entry (R297, R299): state 0 FREE, 1 PENDING, 2 FILLED, 3 POISONED, 4 REDEEMED, 5 EXPIRED; generation; world; size
code; expiry; source address; issuing group as the orphan record names it; its place as descriptor, offset and L2LRU bit; the fetch's group
and operation; the sectors fetched; whether one was uncorrectable; the redeem, and the units delivered. -/
structure Ticket where
  st     : Nat := 0
  gen    : Nat := 1
  world  : Nat := 0
  k      : Nat := 0
  expiry : Nat := 0
  src    : Nat := 0
  issuer : Nat := 0
  d      : Nat := 0
  o      : Nat := 0
  lru    : Bool := false
  gid    : Nat := 0
  op     : Nat := 0
  got    : Fm (List Byte) := []
  bad    : Bool := false
  red    : Option Redeem := none
  done   : Nat := 0
  deriving DecidableEq, Repr

/-- A plane of a matrix array (R142, R145): type (3 BF16, 4 E4M3, 5 E5M2, 6 E2M1), sparse bit, the bytes of its image. -/
structure Plane where
  ty     : Nat := 3
  sparse : Bool := false
  data   : Mem := []
  deriving DecidableEq, Repr

/-- A matrix array (R142, R143): its planes, the bytes of its tiles (16 KiB each), its queue with the rounds that wait to enter
it, its sparse row count. Number 4 of a core stands for the unit that runs MCOMP (R158). -/
structure Arr where
  act   : Plane := {}
  shd   : Plane := {}
  tiles : Mem := []
  queue : List Nat := []
  rows  : Nat := 0
  deriving DecidableEq, Repr

/-- A parking record in the queue of one slice kernel (R371): the dial, the group by the model's own number, the lane, its fault, the pair of
TRAPPC, and the world, die, core, group and team index as the lane parked. -/
structure ParkRec where
  slice : Nat
  dial  : Nat
  group : Nat
  lane  : Nat
  f     : LaneFault
  pc    : Pc
  prio  : BitVec 6 := 0
  world : Nat := 0
  core  : Nat := 0
  index : Nat := 0
  team  : Nat := 0
  deriving DecidableEq, Repr

/-- A service call in the queue of a slice kernel: its group, the lanes parked by it, its code, its word, s4 to s7; the step of R293 that a
PLMOVE has reached and its PLSYNC (R177, R395). -/
structure Call where
  slice : Nat
  group : Nat
  lanes : LaneMask
  code  : Nat
  word  : Word
  args  : List DWord
  stage : Nat := 0
  sync  : Nat := 0
  deriving DecidableEq, Repr

/-- A world record (R357): attributes fixed at creation, translation root, the buffer of its rings, die-scratch windows by die as
base and length (R184), save areas by die (R369), peer table (R393), measurement registers (R363), the number of its memory key, the peers
that it has sent a counted operation to since its creation (R291). -/
structure World where
  conf     : Bool
  replay   : Bool
  rootBuf  : Nat
  rootOff  : Nat
  ringBuf  : Nat
  errOff   : Nat
  orphanOff : Nat
  windows  : Fm (Nat × Nat) := []
  saves    : Fm Nat := []
  peers    : Fm (BitVec 128 × BitVec 8) := []
  mrs      : List (BitVec 384) := [0, 0, 0, 0]
  key      : Nat := 0
  sent     : List Nat := []
  deriving DecidableEq, Repr

/-- World 0 as the security monitor has just created it (R358): neither confidential nor replay-exact, which R357 and R58 leave open (DESIGN
CHOICE, log entry 42); its MR0 is SHA-384 of 48 zero bytes and of the digest of the bundle record, which reads 0 before any bundle (R363). -/
def World.platform : World :=
  { conf := false, replay := false, rootBuf := 0, rootOff := 0, ringBuf := 0, errOff := 0, orphanOff := 0,
    mrs := [0xf57bb7ed82c6ae4a29e6c9879338c592c7d42a39135583e8ccbe3940f2344b0eb6eb8503db0ffd6a39ddd00cd07d8317, 0, 0, 0] }

/-- A posted BAR2 write that waits to be accepted: its port, function, offset, whether it is a CXL.mem access, its bytes (R392). -/
structure Posted where
  port : Nat
  fn   : Nat
  off  : Nat
  cxl  : Bool
  bytes : List Byte
  deriving DecidableEq, Repr

/-- A record that hardware posts to a ring and that waits for the ring's sectors (R331). -/
structure Post where
  world : Nat
  ring  : RingLoc
  bytes : List Byte
  deriving DecidableEq, Repr

/-- A journal of one command queue (R342, R343): its buffer, its log2 length, the last sequence number, the visibility time of its
latest write, the sequence numbers of the entries that are still PENDING. -/
structure Journal where
  world : Nat
  buf   : Nat
  log   : Nat
  seq   : Nat := 0
  v     : Nat := 0
  opens : List Nat := []
  deriving DecidableEq, Repr

/-- A journal write that waits for the visibility times of its command, and for stores of killed teams that are on their way (R343,
R180). -/
structure JWrite where
  queue : Nat
  seq   : Nat
  after : Option Nat
  ops   : List Nat := []
  off   : Nat
  bytes : List Byte
  final : Bool
  deriving DecidableEq, Repr

/-- A grid in flight: its command's queue and number, the teams that have not retired, the cause of the first kill, the replay that
launched it, its writes' latest visibility time and those on their way, whether it ends ABORTED (R335, R342, R378). -/
structure Grid where
  world : Nat
  queue : Nat
  seq   : Nat
  left  : Nat
  fault : Option Nat := none
  node  : Option Nat := none
  latest : Option Nat := none
  ops   : List Nat := []
  abort : Bool := false
  deriving DecidableEq, Repr

/-- Teams of a grid that a die's dispatcher still holds: the next team index, the step to the one after it (R335, R349). -/
structure Pend where
  grid  : Nat
  die   : Nat
  world : Nat
  d     : Desc
  next  : Nat
  step  : Nat
  deriving DecidableEq, Repr

/-- A command queue (R387, R391, R396): its world, the buffer of its ring, its slots, the tail count, the commands taken, the final
entries that the effect window has not reported, as sequence number and status (R390). -/
structure Queue where
  world : Nat
  buf   : Nat
  slots : Nat
  tail  : Nat := 0
  taken : Nat := 0
  finals : List (Nat × Nat) := []
  deriving DecidableEq, Repr

/-- A replay request that waits in its graph's queue: its command, its parameter block (R340). -/
structure Request where
  queue : Nat
  seq   : Nat
  block : List Byte
  deriving DecidableEq, Repr

/-- A resident graph (R336). -/
structure Graph where
  world : Nat
  reentrant : Bool
  start : Nat
  nodes : List (List Byte)
  block : List Byte
  queue : List Request := []
  deriving DecidableEq, Repr

/-- An accepted GRAPH_LOAD or GRAPH_UNLOAD that waits for the visibility time of its journal entry (R343): its number in its queue, its graph's
number and world, the graph, none for an unload. -/
structure Load where
  seq   : Nat
  n     : Nat
  world : Nat
  graph : Option Graph
  deriving DecidableEq, Repr

/-- A slice-kernel command in the service-call queue of an instance (R396): its instance, its command, the interface version that it is tagged
with (R366), bytes 32 to 63. -/
structure KernelCmd where
  slice   : Nat
  queue   : Nat
  seq     : Nat
  version : Nat
  bytes   : List Byte
  deriving DecidableEq, Repr

/-- What a node of a replay runs: a grid, or a copy with what came of it: none while it runs, else the cause, 0 for success, and the address
concerned. -/
inductive Work where
  | grid (id : Nat)
  | copy (id : Nat) (result : Option (Nat × Nat))
  deriving DecidableEq, Repr

/-- A replay (R315, R337, R338): its graph and world, its command, its parameter block, the node that it stands at (0xFFFF at the
end), when that node started, the node's work, loop counters, events, runs of ASYNC nodes by a number of their own, each with its node and work, the fault that ends it as node, cause and
address, the latest visibility time of its completed nodes' writes. -/
structure Replay where
  graph  : Nat
  world  : Nat
  queue  : Nat
  seq    : Nat
  block  : List Byte
  node   : Nat
  since  : Option Nat := none
  work   : Option Work := none
  ctrs   : Fm Nat := []
  events : BitVec 16 := 0
  async  : Fm (Nat × Work) := []
  fault  : Option (Nat × Nat × Nat) := none
  latest : Option Nat := none
  deriving DecidableEq, Repr

/-- A BAR2 aperture (R387, R392). -/
structure Aperture where
  enabled : Bool
  world   : Nat
  buf     : Nat
  off     : Nat
  deriving DecidableEq, Repr

/-- An arm-table entry (R390): requester, effect-window offset, dial reading. -/
structure Arm where
  who : Nat
  off : Nat
  at_ : Nat
  deriving DecidableEq, Repr

/-- A memory key slot as KSTAT shows it (R357): STATE 0 EMPTY, 1 ACTIVE, 2 DRAINING; how many peer-traffic keys the world has: none
before its first KEY_UPDATE, then the current one, then the current and the previous one. -/
structure KeySlot where
  st    : Nat := 0
  conf  : Bool := false
  src   : Bool := false
  mgen  : BitVec 8 := 0
  pgen  : BitVec 8 := 0
  pprev : Bool := false
  peers : Nat := 0
  deriving DecidableEq, Repr

/-- An SPDM session (R361): how far its connection is negotiated (1 version, 2 capabilities, 3 algorithms), whether the session is
absent, in its handshake or open. -/
structure Session where
  conn  : Nat := 0
  phase : Nat := 0
  deriving DecidableEq, Repr

/-- A performance-monitor unit of a core or a slice (R354): selectors, counters, the last snapshot, the SAMPLE interval in ticks and
when it was last taken. -/
structure Pmu where
  sel  : Fm DWord := []
  cnt  : Fm Nat := []
  snap : List Nat := []
  ival : Nat := 0
  last : Nat := 0
  deriving DecidableEq, Repr

/-- What the base die reports to the slice kernel and to management (R199, R202): a takeover, a layer that is served through correction. -/
inductive RepairNote where
  | takeover (layer : Nat)
  | degraded (layer : Nat)
  deriving DecidableEq, Repr

/-- The repair state of a stack (R199 to R202): LAYER, ACTIVE, DONE, NOSPARE, BOUNDARY, CORR, failed layers that wait, the counts of
uncorrectable and corrected errors of each layer, the reports made. -/
structure Repair where
  layer    : Nat := 0
  active   : Bool := false
  done     : Bool := false
  nospare  : Bool := false
  boundary : Nat := 0
  corr     : Nat := 0
  waiting  : List Nat := []
  uncorr   : Fm Nat := []
  corrs    : Fm Nat := []
  notes    : List RepairNote := []
  deriving DecidableEq, Repr

/-- One direction of a die-to-die link (R12, R369, R382): its resyncs, those in a row that failed, the lines of the dictionary that both ends hold,
the last sequence number sent and the last one acknowledged, the bytes that have crossed. How many flits and bytes a message takes is open (log
entry 35). -/
structure Link where
  count : BitVec 32 := 0
  fails : Nat := 0
  dict  : List (List Byte) := []
  sent  : Nat := 0
  acked : Nat := 0
  bytes : Nat := 0
  deriving DecidableEq, Repr

/-- The bundle record, the anti-rollback counters, the attestation watchdog, a staged bundle, how often the held state has been reported to
management (R357, R365, R398). -/
structure Boot where
  current  : Bundle := { digest := 0, svnKernel := 0, svnMonitor := 0, svnFirmware := 0, kernelOnly := false, sig := 0, image := [] }
  previous : BitVec 384 := 0
  nonce    : BitVec 64 := 0
  counters : Nat × Nat × Nat := (0, 0, 0)
  deadline : Option Nat := none
  fetching : Option Nat := none
  staged   : Option Bundle := none
  reports  : Nat := 0
  deriving DecidableEq, Repr

/-- A core's cycle in progress: the pipe slots taken and the groups granted a word (R350). -/
structure Cycle where
  used    : List Nat := []
  granted : List Nat := []
  deriving DecidableEq, Repr

/-- What happens next, when something is on the agenda (the model's own field, log entry 1): a step of the part, dial ticks
that pass, or a core that issues a word. -/
inductive Move where
  | event (i : Instr)
  | elapse (ticks : Nat)
  | issue (core : Nat)
  deriving DecidableEq, Repr

/-- The state of the part. -/
structure State where
  /-- The group whose word issues now (the model's own, log entry 1). -/
  cur     : Option Nat := none
  /-- What happens next, in order (the model's own, log entry 1). -/
  agenda  : List Move := []
  /-- Counts uses of free values (the model's own, log entry 5). -/
  freeCtr : Nat := 0
  /-- The dial, in ticks (R227, R345). -/
  dial    : Nat := 0
  /-- How far each die's dial reads ahead, at most 2 (R6, R227); that it never changes, and is 0 from reset on, is the model's choice (DESIGN
  CHOICE, log entry 1). -/
  skews   : List Nat := [0, 0, 0, 0, 0, 0, 0, 0]
  /-- Groups, with their lanes and registers (R22, R106, R164). -/
  groups  : Fm Group := []
  /-- Teams (R23 to R25, R345). -/
  teams   : Fm Team := []
  /-- World records (R357). -/
  worlds  : Fm World := [(0, World.platform)]
  /-- The group that last used each pipe of a core (R74), by core × 4 + pipe. -/
  pipes   : Fm Nat := []
  /-- Regulator cycles in progress (R350). -/
  cycles  : Fm Cycle := []
  /-- The stacks' memory, by stack × 2^36 + offset (R182). -/
  hbm     : Mem := []
  /-- Core scratchpads, by core × scrSpan + place (R182). -/
  coreScr : Mem := []
  /-- Die scratchpads, by die × 2^25 + offset (R182). -/
  dieScr  : Mem := []
  /-- What the written 32-byte units of the die scratchpads are encrypted under, by die × 2^20 + offset div 32: the number of a key, and which
  bytes of the unit it explains (R183, R198). -/
  dieEncs : Fm (Nat × Nat) := []
  /-- Poisoned sectors of memory (R209, R380). -/
  poison  : List Nat := []
  /-- Poisoned sectors of the die scratchpads, by die × 2^18 + offset div 128 (R209, R380). -/
  dieBad  : List Nat := []
  /-- L2 copies, by sector × 8 + die (R187, R188). -/
  l2      : Fm L2Sec := []
  /-- Set floors of the L2 (R229). -/
  floors  : Fm Nat := []
  /-- Read counts of sectors (R190). -/
  rcounts : Fm Nat := []
  /-- What the units of sectors in memory and in the write-combining buffers are encrypted under (R198, R360). -/
  encs    : Fm (List (Option Seal)) := []
  /-- Requests that wait at the directory, by sector, in order of arrival: the die, whether it is an Own (R244). -/
  dirq    : Fm (List (Nat × Bool)) := []
  /-- Pending writes of sectors that only memory holds (R230, R244). -/
  memPend : Fm (List PendW) := []
  /-- The latest visibility time of each sector (R230). -/
  lastV   : Fm Nat := []
  /-- Snoop filters (R187, R404). -/
  snoop   : Fm Snoop := []
  /-- Owns in progress, by sector (R244, R245). -/
  owns    : Fm OwnTx := []
  /-- Back-invalidations in progress (R246). -/
  backs   : List BackInv := []
  /-- L1 frames (R186). -/
  l1      : List L1Frame := []
  /-- Write-combining buffers, by sector (R191). -/
  wcb     : Fm Wcb := []
  /-- Order of use of cache lines (R189). -/
  uses    : Nat := 0
  /-- The buffer table (R192, R193). -/
  desc    : Fm (BitVec 256) := []
  /-- Core TLBs (R273). -/
  tlb     : List Tlb := []
  /-- Die walk caches (R273). -/
  walk    : List Tlb := []
  /-- Constant caches (R110, R182). -/
  ccache  : List ConstLine := []
  /-- Descriptor caches of the memory ports: slice and descriptor (R182, R192). -/
  dcache  : List (Nat × Nat) := []
  /-- Operations in flight (R64). -/
  ops     : Fm Op := []
  /-- Copy channels: the operations accepted, in order (R315). -/
  chans   : Fm (List Nat) := []
  /-- Matrix arrays, by core × 8 + array; number 4 runs MCOMP (R142, R158). -/
  arrays  : Fm Arr := []
  /-- Stream-accumulator rows, by die × 16384 + entry (R254). -/
  rows    : Fm SaRow := []
  /-- The next number of an operation, team, group, grid or call (the model's own). -/
  nextOp  : Nat := 0
  /-- Parking records (R371). -/
  parking : List ParkRec := []
  /-- Service calls (R395). -/
  calls   : Fm Call := []
  /-- Journals, by command queue (R342). -/
  journals : Fm Journal := []
  /-- Journal writes that wait (R343). -/
  jwrites : List JWrite := []
  /-- Hardware posts that wait (R331). -/
  posts   : List Post := []
  /-- Grids in flight (R335). -/
  grids   : Fm Grid := []
  /-- Issue counts of the in-flight counters, by executor × 1024 + counter (R291). -/
  issues  : Fm Nat := []
  /-- Completion counts of the in-flight counters (R291). -/
  dones   : Fm Nat := []
  /-- Ticket entries, by slice × 4096 + entry (R297). -/
  tickets : Fm Ticket := []
  /-- Recently-expired memories, the newest first (R297). -/
  expired : Fm (List Nat) := []
  /-- Memory keys drawn so far: a key is named by its number (R357; the model's own). -/
  keyCtr  : Nat := 0
  /-- The ticket check key in force, by the number of package resets (R297; the model's own). -/
  tktKey  : Nat := 0
  /-- Level queues of the die dispatchers, in launch order (R349). -/
  pends   : List Pend := []
  /-- Command queues: host port × 2048 + world, 4096 + slice for a service core's, 8192 + world for a graph request queue (R342, R387, R396). -/
  queues  : Fm Queue := []
  /-- Commands that a copy in flight carries out: their queue and sequence number (R391). -/
  cmds    : Fm (Nat × Nat) := []
  /-- Resident graphs, by number (R336). -/
  graphs  : Fm Graph := []
  /-- Loads and unloads of graphs that wait, by command queue (R343). -/
  loads   : Fm Load := []
  /-- Commands for slice kernels in their service-call queues, oldest first (R396). -/
  kcmds   : List KernelCmd := []
  /-- Replays, by slot (R315). -/
  replays : Fm Replay := []
  /-- Memory key slots as KSTAT shows them, by world (R357). -/
  keys    : Fm KeySlot := [(0, { st := 1, mgen := 1 })]
  /-- SPDM sessions, by port × 2048 + world, 4096 for that of the management endpoint (R361, R398). -/
  sessions : Fm Session := []
  /-- TDI states, by port × 2048 + world: 0 CONFIG_UNLOCKED, 1 CONFIG_LOCKED, 2 RUN, 3 ERROR (R361, R362). -/
  tdis    : Fm Nat := []
  /-- The worlds that hold an IDE stream of a port, at most 64 (R357, R361). -/
  ides    : Fm (List Nat) := []
  /-- Arm tables, the newest entry first (R390). -/
  arms    : Fm (List Arm) := []
  /-- BAR2 apertures, by port × 64 + number (R387). -/
  apertures : Fm Aperture := []
  /-- The latest visibility time of a requester's BAR2 writes, by port × 2048 + function (R392). -/
  hostV   : Fm Nat := []
  /-- Posted BAR2 writes that wait, oldest first (R392). -/
  posted  : List Posted := []
  /-- Sectors that the host caches through CXL.mem, by port (R388). -/
  hostShare : List (Nat × Nat) := []
  /-- Port modes in force, true for CXL (R387). -/
  ports   : List Bool := [false, false]
  /-- Port modes from the next package reset on (R387). -/
  portsNext : List Bool := [false, false]
  /-- What the part last answered to the outside; none for an Unsupported Request or an SPDM error (the model's own). -/
  reply   : Option (List Byte) := none
  /-- The power cap in watts (R387, R397). -/
  cap     : Nat := 4500
  /-- The arithmetic clock in MHz (R19). -/
  clock   : Nat := 2100
  /-- Issue is gated (R19). -/
  gated   : Bool := false
  /-- Performance counters, by core, or 384 + slice (R354). -/
  pmus    : Fm Pmu := []
  /-- Repair state, by stack (R199 to R202). -/
  repairs : Fm Repair := []
  /-- Link directions (R369, R382). -/
  links   : Fm Link := []
  /-- DSYN0 and DSYN1, by die, 8 and 9 for the I/O dies (R385). -/
  dsyn    : Fm (DWord × DWord) := []
  /-- Spurious-fault counts, by slice (R372). -/
  spurious : Fm (BitVec 32) := []
  /-- Corrected on-die errors counted for management, by die (R381). -/
  onDie   : Fm Nat := []
  /-- Messages between slice-kernel instances, in the order sent (R394). -/
  kmsgs   : List KernelMsg := []
  /-- The UDP port number of peer traffic (R393). -/
  udpPort : BitVec 16 := 0
  /-- Management has set hold-in-reset (R383). -/
  holdReset : Bool := false
  /-- The slice-kernel version that each slice runs (R366). -/
  versions : Fm Nat := []
  /-- The newest slice-kernel version (R366). -/
  version : Nat := 0
  /-- Bundle record, anti-rollback counters, attestation watchdog (R357, R365). -/
  boot    : Boot := { deadline := some 600000000000 }
  /-- Uncorrectable internal errors reported through AER on both host ports, and to management (R383). -/
  aer     : Nat := 0
  /-- A fatal die error has stopped the part: when the package reset starts (R383). -/
  stopped : Option Nat := none
  deriving DecidableEq, Repr

/-- Why the machine stops. No step of this part does (every case the hardware meets has a stated outcome, R2). -/
inductive Fault where
  /-- Raised by no meaning; safe. -/
  | none
  deriving DecidableEq, Repr

/-- Why an instruction has no meaning. -/
inductive Refusal where
  /-- An instruction without a meaning yet, raised by its arm of exec; safe. -/
  | notModelled (mnemonic : String)
  deriving DecidableEq, Repr

/-- The machine right after package reset. -/
def State.reset : State := {}

end Sys2Proof.Machine
end

