-- ==== Sys2Proof/Machine/Pmu.lean ====
section
/-! DEFINITION. Fields of buffer descriptors (spec/10 R193, R197), and the performance counters (spec/17 R354). -/

namespace Sys2Proof.Machine

/-- A field of a number. -/
def nfield (x lo n : Nat) : Nat := x / 2 ^ lo % 2 ^ n

/-- A descriptor of the buffer table, with its index above its 256 bits; one never written has V = 0 (R182, R193). -/
def descOf (s : State) (buf : Nat) : Nat := ((Fm.get? s.desc buf).getD 0).toNat + buf * 2 ^ 256

/-- The stacks of a descriptor, ascending (R197). -/
def descStacks (d : Nat) : List Nat := (List.range 24).filter fun i => nfield d (32 + i) 1 == 1

/-- SIZE in bytes (R193). -/
def descSize (d : Nat) : Nat := nfield d 64 26 * 65536

/-- The granule in bytes (R193). -/
def descGranule (d : Nat) : Nat := 512 * 2 ^ nfield d 20 4

/-- The buffer offset that lies at a physical byte, where the descriptor reaches it (R197, read backwards). -/
def offsetOf (d phys : Nat) : Option Nat :=
  let g := descGranule d
  let ls := descStacks d
  let base := nfield d 128 27 * 512
  let at_ := phys % 2 ^ 36
  match (List.range ls.length).find? fun k => (ls[k]?).getD 24 == phys / 2 ^ 36 with
  | none => none
  | some k =>
    let r := at_ - base
    let o := (r / g * ls.length + k) * g + r % g
    if nfield d 0 1 == 1 && base ≤ at_ && o < descSize d then some o else none

/-- The worlds that own a physical byte. -/
def ownersOf (s : State) (phys : Nat) : List Nat :=
  s.desc.filterMap fun e => (offsetOf e.2.toNat phys).map fun _ => nfield e.2.toNat 8 11

/-- A selector counts an event of some worlds: its EVENT, its WORLD or ALL, a confidential world where the monitor permits it (R354;
log entry 10). -/
def selCounts (s : State) (sel ev : Nat) (worlds : List Nat) : Bool :=
  let conf (w : Nat) : Bool := match Fm.get? s.worlds w with
    | some x => x.conf && !Sys2Proof.Config.countPermitted w s.dial
    | none => false
  let plain := worlds.filter fun w => !conf w
  ev != 0 && nfield sel 0 8 == ev &&
    (if nfield sel 19 1 == 1 then worlds.isEmpty || !plain.isEmpty else plain.contains (nfield sel 8 11))

/-- Bit OVF of a selector (R354). -/
def setOvf (sel : Nat) : Nat := if nfield sel 20 1 == 1 then sel else sel + 2 ^ 20

/-- Eight counters after `n` events of some worlds; a counter that wraps sets its OVF (R354). -/
def Pmu.count (p : Pmu) (s : State) (ev : Nat) (worlds : List Nat) (n : Nat) : Pmu :=
  (List.range 8).foldl (fun p k =>
    let sel := (Fm.getD p.sel k 0).toNat
    if selCounts s sel ev worlds then
      let c := Fm.getD p.cnt k 0 + n
      { p with cnt := Fm.put p.cnt k (c % 2 ^ 48), sel := if c < 2 ^ 48 then p.sel else Fm.put p.sel k (BitVec.ofNat 64 (setOvf sel)) }
    else p) p

/-- Count `n` events of some worlds in a core, or in slice `unit - 384` (R354). -/
def countUnit (s : State) (unit ev : Nat) (worlds : List Nat) (n : Nat := 1) : State :=
  match Fm.get? s.pmus unit with
  | none => s
  | some p => if n == 0 then s else { s with pmus := Fm.put s.pmus unit (p.count s ev worlds n) }

/-- Count an event of a sector's home slice (R354). -/
def countSlice (s : State) (sec ev : Nat) : State :=
  let unit := 384 + sec / 2 ^ 29
  if (Fm.get? s.pmus unit).isSome then countUnit s unit ev (ownersOf s (sec * 128)) else s

end Sys2Proof.Machine
end

