-- ==== Sys2Proof/Machine/Coh.lean ====
section
/-! DEFINITION. The dial, the memory side of the slices, the L2 copies and the directory (spec/10 R186 to R191, spec/12 R227 to
R246, spec/23 R404). A sector is named by its place in the stacks: stack × 2^29 + offset div 128. -/

namespace Sys2Proof.Machine

/-- The reading of a die's dial; two readings differ by at most 2 ticks (R227). -/
def dialOf (s : State) (die : Nat) : Nat := s.dial + min 2 ((s.skews[die]?).getD 0)

/-- The two dies of each link: the ten boundaries, then the four links of the I/O dies (R11, R13). -/
def linkDies : List (Nat × Nat) :=
  [(0, 1), (1, 2), (2, 3), (4, 5), (5, 6), (6, 7), (0, 4), (1, 5), (2, 6), (3, 7), (0, 8), (4, 8), (3, 9), (7, 9)]

/-- The route of a message from die `a` to die `b` (R12): along its row to the column of `b`, then across. A link's direction is numbered
`2 × link` toward its second die, one more toward its first. -/
def hopsOf (a b : Nat) : List Nat :=
  let (r, x, y) := (a / 4, a % 4, b % 4)
  (if x ≤ y then (List.range (y - x)).map fun k => 2 * (3 * r + x + k) else (List.range (x - y)).map fun k => 2 * (3 * r + x - 1 - k) + 1) ++
    if r == b / 4 then [] else [2 * (6 + y) + r]

/-- The route from a compute die to the I/O die of a network port (R393): along its row to the die beside it, then over that die's link. -/
def portHops (a port : Nat) : List Nat :=
  let io := port / 4
  hopsOf a (a / 4 * 4 + 3 * io) ++ [2 * (10 + 2 * io + a / 4)]

/-- A route in reverse. -/
def backHops (hops : List Nat) : List Nat := hops.reverse.map fun d => if d % 2 == 0 then d + 1 else d - 1

/-- A message crosses a link: its flits carry the next sequence numbers, both ends update their dictionaries of 256 lines, and its bytes are counted
(R382, R387; log entry 35). -/
def Link.carry (l : Link) (dir : Nat) : Link :=
  let sent := l.sent + 1 + Config.flitsSent dir l.sent
  { l with sent := sent, acked := max l.acked (min sent (Config.flitAcked dir sent)), dict := (Config.dictLines dir sent).take 256,
           bytes := l.bytes + Config.messageBytes dir sent }

/-- A message takes a route. -/
def crossing (s : State) (hops : List Nat) : State :=
  { s with links := hops.foldl (fun m d => Fm.put m d ((Fm.getD m d {}).carry d)) s.links }

/-- A message goes from one compute die to another. -/
def message (s : State) (a b : Nat) : State := crossing s (hopsOf a b)

/-- The sector of a physical byte. -/
def secOf (phys : Nat) : Nat := phys / 128

/-- The home slice of a sector (R197). -/
def sliceOf (sec : Nat) : Nat := sec / 2 ^ 29

/-- The home die of a sector (R197). -/
def homeDie (sec : Nat) : Nat := sliceOf sec / 3

/-- The channel of a sector within its stack (R197). -/
def channelOf (sec : Nat) : Nat := sec % 2 ^ 29 / 4 % 32

/-- The home agent of a sector, the only point of coherence for it (R15, R197). -/
def homeAgent (sec : Nat) : Nat := 32 * sliceOf sec + channelOf sec

/-- The 512-byte line of a sector. -/
def lineOf (sec : Nat) : Nat := sec / 4

/-- The snoop-filter set of a line in its slice (R404). -/
def snoopSet (line : Nat) : Nat := line / 2 ^ 27 * 2048 + line % 2 ^ 27 % 2048

/-- The L2 set of a line on a die: its part and its set (R187, R404). -/
def l2Set (die line : Nat) : Nat := (die * 3 + line / 2 ^ 27 % 3) * 3072 + line % 2 ^ 27 % 3072

/-- The key of a die's copy of a sector. -/
def l2Key (die sec : Nat) : Nat := sec * 8 + die

/-- The copy of a sector that a die holds. -/
def copyOf (s : State) (die sec : Nat) : Option L2Sec := Fm.get? s.l2 (l2Key die sec)

/-- The dies that hold a copy of a sector, with their copies. -/
def copies (s : State) (sec : Nat) : List (Nat × L2Sec) :=
  (List.range 8).filterMap fun d => (copyOf s d sec).map fun x => (d, x)

/-- The owner of a sector: the die that holds it in M, O or E (R243). -/
def ownerOf (s : State) (sec : Nat) : Option (Nat × L2Sec) := (copies s sec).find? fun c => c.2.st != .s

/-- What memory holds for a byte of a sector: the write-combining buffer's byte over HBM (R191, R243). -/
def memByte (s : State) (sec i : Nat) : Byte :=
  match (Fm.get? s.wcb sec).bind fun w => Fm.get? w.bytes i with
  | some b => b
  | none => Mem.read s.hbm (sec * 128 + i)

/-- What memory holds for `n` bytes of a sector from byte `i` on. -/
def memBytes (s : State) (sec i n : Nat) : List Byte :=
  let w := (Fm.get? s.wcb sec).map fun w => w.bytes
  let near := s.hbm.within (sec * 128 + i) n
  (List.range n).map fun k =>
    match w.bind fun b => Fm.get? b (i + k) with
    | some b => b
    | none => Mem.read near (sec * 128 + i + k)

/-- What memory holds for a sector. -/
def memData (s : State) (sec : Nat) : List Byte := memBytes s sec 0 128

/-- The entries of a slice's write-combining buffer (R191). -/
def wcbOf (s : State) (slice : Nat) : Fm Wcb := s.wcb.filter fun e => sliceOf e.1 == slice

/-- The write-combining buffer of a slice has room for `n` more entries (R191). -/
def wcbRoom (s : State) (slice n : Nat) : Bool := n == 0 || (wcbOf s slice).length + n ≤ 32768

/-- Put bytes of a sector into the write-combining buffer of its slice, with what its units are encrypted under (R191, R198). -/
def toWcb (s : State) (sec : Nat) (encs : List (Option Seal)) (bytes : Fm Byte) : State :=
  let w := (Fm.get? s.wcb sec).getD { bytes := [], since := dialOf s (homeDie sec) }
  { s with wcb := Fm.put s.wcb sec { w with bytes := bytes.foldl (fun m e => Fm.put m e.1 e.2) w.bytes }, encs := Fm.put s.encs sec encs }

/-- Drain a write-combining entry to HBM (R191). -/
def drainWcb (s : State) (sec : Nat) : State :=
  match Fm.get? s.wcb sec with
  | none => s
  | some w =>
    countSlice { s with hbm := w.bytes.foldl (fun m e => Mem.write m (sec * 128 + e.1) e.2) s.hbm, wcb := Fm.del s.wcb sec } sec 34

/-- The number that stands where a world has no key: nothing decrypts under it (R359, R360). -/
def noKey : Nat := 2 ^ 64

/-- The number of a world's key. -/
def keyOf (s : State) (world : Nat) : Nat := ((Fm.get? s.worlds world).map fun w => w.key).getD noKey

/-- The tag of one unit of a die scratchpad: the number of its key, and which of its bytes that key explains. -/
def unitTag (key : Nat) (wrote : Nat) (old : Option (Nat × Nat)) : Nat × Nat :=
  match old with
  | none => (key, 2 ^ 32 - 1)
  | some (k, m) => (key, if k == key then m ||| wrote else wrote)

/-- Write bytes of a die scratchpad under a key (R183, R198): the rest of a unit that stood under another key is lost. -/
def dieWrite (s : State) (key die off : Nat) (bs : List Byte) : State :=
  let p := die * 2 ^ 25 + off
  let units := if bs.isEmpty then [] else (List.range ((p + bs.length - 1) / 32 - p / 32 + 1)).map fun k => p / 32 + k
  let wrote (u : Nat) : Nat := (List.range 32).foldl (fun n i => if p ≤ 32 * u + i && 32 * u + i < p + bs.length then n + 2 ^ i else n) 0
  { s with dieScr := Mem.writeN s.dieScr p bs,
           dieEncs := units.foldl (fun m u => Fm.put m u (unitTag key (wrote u) (Fm.get? m u))) s.dieEncs }

/-- Read bytes of a die scratchpad under a key (R183, R198): what another key makes of a unit is left open. -/
def dieRead (s : State) (key die off n : Nat) : List Byte :=
  let p := die * 2 ^ 25 + off
  let bs := Mem.readN s.dieScr p n
  let clear (i : Nat) : Bool := match Fm.get? s.dieEncs ((p + i) / 32) with
    | none => true
    | some (k, m) => k == key && m / 2 ^ ((p + i) % 32) % 2 == 1
  if (List.range n).all clear then bs
  else (List.range n).map fun i => if clear i then (bs[i]?).getD 0 else Config.junk s.freeCtr (2 ^ 60 + p + i)

/-- What a byte of a buffer is encrypted under: the key of the world that OWNER names, the tweak of its place (R198, R360); `descOf` keeps
the buffer's index above the descriptor's 256 bits. -/
def encOf (s : State) (d o : Nat) : Option Seal := some { key := keyOf s (nfield d 8 11), buf := d / 2 ^ 256, soff := o / 128 }

/-- Who reads: a lane of a group, an engine operation of a group with its number, any other agent (R233, R240), or an
indivisible step, which acts on the newest write in coherence order (R216, R232). -/
inductive Reader where
  | lane (g l : Nat)
  | engine (g op : Nat)
  | other
  | newest
  deriving DecidableEq, Repr

/-- The reading of a die's dial from which its agents are served a write: V on the die that accepted it; on another die a reading of the
hardware's own within 2 ticks of V (R233, R247), where `timed` lets it be before V. -/
def PendW.from_ (w : PendW) (die : Nat) : Nat :=
  if w.die == die then w.v else w.v + (Config.crossDie w.free die + 2) % 5 - 2

/-- Pending writes as a die serves them: one that it would serve before V waits for V while an L1 of the die holds the sector as it stood before,
since a lane's reads do not go backwards (R229, R234). -/
def timed (s : State) (die sec : Nat) (pend : List PendW) : List PendW :=
  if pend.isEmpty then pend
  else
    let t := dialOf s die
    let live := s.l1.filter fun f => f.sec == sec && f.core / 48 == die && t < f.expiry
    pend.map fun w => if w.from_ die < w.v && live.any fun f => f.asOf < w.from_ die then { w with die := die } else w

/-- A pending write is served to a reader of a die at reading `t` (R231, R233, R240); an operation sees what it has itself written. -/
def PendW.seen (w : PendW) (die t : Nat) (r : Reader) (lanes : LaneMask) : Bool :=
  w.from_ die ≤ t ||
    match r with
    | .lane g l => w.group == g && lanes.getLsbD l
    | .engine g op => w.group == g && (w.op == op || match w.doneAt with | some n => n ≤ op | none => false)
    | .other => false
    | .newest => true

/-- Byte `i` of contents under pending writes as a reader of a die sees it at reading `t`: the last write in coherence order that it may
see (R232, R233). -/
def seenByte (base : Byte) (pend : List PendW) (die t : Nat) (r : Reader) (i : Nat) : Byte :=
  pend.foldl (fun acc w =>
    match Fm.get? w.bytes i with
    | some (b, l) => if w.seen die t r l then b else acc
    | none => acc) base

/-- What unit `u` is encrypted under, as a reader sees it. -/
def seenEnc (base : Option Seal) (pend : List PendW) (die t : Nat) (r : Reader) (u : Nat) : Option Seal :=
  pend.foldl (fun acc w => if w.bytes.any fun e => e.1 / 32 == u && w.seen die t r e.2.2 then w.enc else acc) base

/-- The world that a place belongs to has no key. -/
def keyless (want : Option Seal) : Bool := want.any fun x => x.key == noKey

/-- A byte decrypted under what its reader wants: what a different key or tweak makes of it is left open (R198, R360); what nothing has
written, and what no tweak is asked for, reads as it is. -/
def decByte (s : State) (want have_ : Option Seal) (place : Nat) (b : Byte) : Byte :=
  if !keyless want && (want.isNone || have_.isNone || want == have_) then b else Config.junk s.freeCtr place

/-- `n` bytes of contents from byte `i` on as a reader of a die sees them, decrypted. -/
def seenPart (s : State) (want : Option Seal) (encs : List (Option Seal)) (pend : List PendW) (base : Nat → Byte) (die sec : Nat) (r : Reader)
    (i n : Nat) : List Byte :=
  let t := dialOf s die
  let same (e : Option Seal) : Bool := !keyless want && (want.isNone || e.isNone || want == e)
  let raw (k : Nat) : Byte := seenByte (base k) pend die t r (i + k)
  if encs.all same && pend.all fun w => same w.enc then (List.range n).map raw
  else
    let es := (List.range 4).map fun u => seenEnc ((encs[u]?).getD none) pend die t r u
    (List.range n).map fun k => decByte s want ((es[(i + k) / 32]?).getD none) (sec * 128 + i + k) (raw k)

/-- Fold some pending writes into contents. -/
def foldPend (data : List Byte) (ws : List PendW) : List Byte :=
  (List.range 128).map fun i => seenByte ((data[i]?).getD 0) ws 0 0 .newest i

/-- Fold what some pending writes are encrypted under. -/
def foldEncs (encs : List (Option Seal)) (ws : List PendW) : List (Option Seal) :=
  if ws.isEmpty then encs else (List.range 4).map fun u => seenEnc ((encs[u]?).getD none) ws 0 0 .newest u

/-- A write that every reader of a die is served, and will be on any die that the contents move to. -/
def PendW.ended (w : PendW) (die t : Nat) : Bool := (w.die == die && w.v ≤ t) || w.v + 2 ≤ t

/-- Fold the first writes of a copy that are visible at `t` on its die into the contents (R231). -/
def L2Sec.mature (x : L2Sec) (die t : Nat) : L2Sec :=
  let ws := x.pend.takeWhile fun w => w.ended die t
  if ws.isEmpty then x
  else { x with data := foldPend x.data ws, encs := foldEncs x.encs ws, pend := x.pend.drop ws.length }

/-- Use of a copy: it becomes the most recently used (R189). -/
def touchL2 (s : State) (die sec : Nat) : State :=
  { s with l2 := Fm.mod s.l2 (l2Key die sec) fun x => { x with use := s.uses + 1 }, uses := s.uses + 1 }

/-- The stamp that the snoop filter entry of a sector's line records (R230). -/
def snoopStamp (s : State) (sec : Nat) : Nat := ((Fm.get? s.snoop (lineOf sec)).map fun e => e.stamp).getD 0

/-- Set a bit of a die vector. -/
def setDie (m : BitVec 8) (d : Nat) (b : Bool) : BitVec 8 :=
  if b then m ||| BitVec.ofNat 8 (2 ^ d) else m &&& ~~~ BitVec.ofNat 8 (2 ^ d)

/-- A die holds some sector of a line. -/
def holdsLine (s : State) (die line : Nat) : Bool := (List.range 4).any fun i => (copyOf s die (line * 4 + i)).isSome

/-- The snoop filter entry of a sector's line names the sector's owner, where that is a remote die (R226). -/
def noteOwner (s : State) (sec : Nat) : State :=
  let owner : Option Nat := match ownerOf s sec with
    | some (o, _) => if o == homeDie sec then none else some o
    | none => none
  { s with snoop := Fm.mod s.snoop (lineOf sec) fun e =>
      { e with owners := (List.range 4).map fun i => if i == sec % 4 then owner else (e.owners[i]?).getD none } }

/-- A die's copy of a sector leaves it: the entry's die vector, owner and recorded stamp follow (R244). -/
def snoopLeave (s : State) (die sec stamp : Nat) : State :=
  let dies (e : Snoop) : BitVec 8 := if die == homeDie sec then e.dies else setDie e.dies die (holdsLine s die (lineOf sec))
  noteOwner { s with snoop := Fm.mod s.snoop (lineOf sec) fun e => { e with dies := dies e, stamp := max e.stamp stamp } } sec

/-- A stamp in the future raises the floor of its L2 set (R229). -/
def raiseFloor (s : State) (die sec stamp : Nat) : State :=
  let k := l2Set die (lineOf sec)
  if stamp > dialOf s die then { s with floors := Fm.put s.floors k (max (Fm.getD s.floors k 0) stamp) } else s

/-- A dirty copy goes to memory through the write-combining buffer, its pending writes and its mark with it (R191, R209, R244). -/
def toMemory (s : State) (sec : Nat) (x : L2Sec) : State :=
  let s := toWcb (countSlice s sec 33) sec x.encs ((List.range 128).map fun i => (i, (x.data[i]?).getD 0))
  { s with memPend := if x.pend.isEmpty then Fm.del s.memPend sec else Fm.put s.memPend sec x.pend,
           poison := if x.poison then sec :: s.poison.filter (· != sec) else s.poison.filter (· != sec) }

/-- Evict a die's copy of a sector: a write-back of M or O through the write-combining buffer, a clean notice of E or S; a
stamp in the future raises the set floor (R189, R229, R244). The uncorrectable mark stays with the sector (R380). -/
def evictSec (s : State) (die sec : Nat) : State :=
  match copyOf s die sec with
  | none => s
  | some x0 =>
    let x := x0.mature die (dialOf s die)
    let stamp := max x.stamp x.acks
    let s := raiseFloor { s with l2 := Fm.del s.l2 (l2Key die sec) } die sec stamp
    let s := if die == homeDie sec then { s with rcounts := Fm.del s.rcounts sec } else s
    let s := message (snoopLeave s die sec stamp) die (homeDie sec)
    if x.st == .m || x.st == .o then toMemory s sec x
    else if x.poison then { s with poison := sec :: s.poison.filter (· != sec) }
    else s

/-- The write-back of some sectors of a die finds room in the write-combining buffers (R191). -/
def backRoom (s : State) (die : Nat) (secs : List Nat) : Bool :=
  let needs (sec : Nat) : Bool := (Fm.get? s.wcb sec).isNone && match copyOf s die sec with
    | some x => x.st == .m || x.st == .o
    | none => false
  secs.all fun sec => wcbRoom s (sliceOf sec) (secs.filter needs).length

/-- The sectors of a line. -/
def lineSecs (line : Nat) : List Nat := (List.range 4).map fun i => line * 4 + i

/-- Evict every sector of a line from a die. -/
def evictLine (s : State) (die line : Nat) : State := (lineSecs line).foldl (fun s x => evictSec s die x) s

/-- The lines a die holds in one L2 set, each with its latest use and whether an engine owns one of its sectors. -/
def setLines (s : State) (die set : Nat) : List (Nat × Nat × Bool) :=
  s.l2.foldl (fun acc e =>
    let line := lineOf (e.1 / 8)
    if e.1 % 8 == die && l2Set die line == set then
      match acc.find? fun c => c.1 == line with
      | some c => (line, max c.2.1 e.2.use, c.2.2 || e.2.engine.isSome) :: acc.filter fun c => c.1 != line
      | none => (line, e.2.use, e.2.engine.isSome) :: acc
    else acc) []

/-- The entry with the lowest key. -/
def leastBy {α : Type} (f : α → Nat) : List α → Option α
  | [] => none
  | a :: r =>
    match leastBy f r with
    | none => some a
    | some b => if f a ≤ f b then some a else some b

/-- Room for a line in its L2 set: the least recently used candidate is evicted; none when there is no candidate (R189) or the
write-combining buffer has no room for what it writes back (R191). -/
def roomL2 (s : State) (die line : Nat) : Option State :=
  let ls := setLines s die (l2Set die line)
  if ls.any (fun c => c.1 == line) || ls.length < 16 then some s
  else (leastBy (fun c => c.2.1) (ls.filter fun c => !c.2.2)).bind fun c =>
    if backRoom s die (lineSecs c.1) then some (evictLine s die c.1) else none

/-- Put a copy into a die's L2, stamped with at least its set floor (R229); through a leaf with L2LRU it enters as the least recently used
(R275). -/
def fillL2 (s : State) (die sec : Nat) (x : L2Sec) (lru : Bool := false) : Option State :=
  (roomL2 s die (lineOf sec)).map fun s =>
    let x := { x with stamp := max x.stamp (Fm.getD s.floors (l2Set die (lineOf sec)) 0), use := if lru then 0 else s.uses + 1 }
    noteOwner { s with l2 := Fm.put s.l2 (l2Key die sec) x, uses := s.uses + 1 } sec

/-- What a request comes to: the state it leaves, whether it has been served, a time that comes with it. -/
structure Reply where
  s  : State
  ok : Bool
  stamp : Nat := 0
  deriving DecidableEq, Repr

/-- A snoop filter entry for a remote line: taken or made the most recently used (R404). A full set gives up its least recently
used entry: at once if its vector is empty and the home dial has passed its stamp by 2, else by back-invalidation, for which
the request waits (R244, R246). -/
def snoopTake (s : State) (line die : Nat) : Reply :=
  match Fm.get? s.snoop line with
  | some e =>
    let e := { e with dies := setDie e.dies die true, use := s.uses + 1 }
    { s := { s with snoop := Fm.put s.snoop line e, uses := s.uses + 1 }, ok := true }
  | none =>
    -- what the home evicted from this set may still stand in an L1 of the home die (R229)
    let fresh : Snoop := { dies := setDie 0 die true, stamp := Fm.getD s.floors (l2Set (line / 2 ^ 27 / 3) line) 0, use := s.uses + 1 }
    let same := s.snoop.filter fun e => snoopSet e.1 == snoopSet line
    if same.length < 16 then
      { s := { s with snoop := Fm.put s.snoop line fresh, uses := s.uses + 1 }, ok := true }
    else
      match leastBy (fun e : Nat × Snoop => e.2.use) same with
      | none => { s := s, ok := false }
      | some (l, e) =>
        if e.dies == 0 then
          if e.stamp + 2 < dialOf s (line / 2 ^ 27 / 3) then
            { s := { s with snoop := Fm.put (Fm.del s.snoop l) line fresh, uses := s.uses + 1 }, ok := true }
          else { s := s, ok := false }
        else if s.backs.any fun b => b.line == l then { s := s, ok := false }
        else
          let home := homeDie (l * 4)
          let s := ((List.range 8).filter fun d => e.dies.getLsbD d).foldl (fun s d => message s home d)
            { s with backs := s.backs ++ [{ line := l, dies := e.dies, seen := 0, order := s.uses + 1 }], uses := s.uses + 1 }
          { s := countSlice s (l * 4) 36, ok := false }

/-- An engine other than the requester's owns a copy of the sector (R250). -/
def marked (s : State) (sec : Nat) (engine : Option Nat) : Bool :=
  (copies s sec).any fun c => c.2.engine.isSome && c.2.engine != engine

/-- The sector is an engine's, an Own of it is in progress, or its line is being back-invalidated: every other request waits
(R244, R246, R250). -/
def blocked (s : State) (sec : Nat) (engine : Option Nat) : Bool :=
  marked s sec engine || (Fm.get? s.owns sec).isSome || s.backs.any fun b => b.line == lineOf sec

/-- The requests that wait at the directory for a sector and that nothing has met since (R244). -/
def turns (s : State) (sec : Nat) : List (Nat × Bool) :=
  (Fm.getD s.dirq sec []).filter fun q => match copyOf s q.1 sec with
    | some x => q.2 && x.st != .m && x.st != .e
    | none => true

/-- The directory serves the requests for a sector in order of arrival (R244). -/
def myTurn (s : State) (sec die : Nat) (own : Bool) : Bool :=
  match turns s sec with
  | [] => true
  | q :: _ => q == (die, own)

/-- A request that must wait takes its place at the directory (R244). -/
def enqueue (s : State) (sec die : Nat) (own : Bool) : State :=
  let q := turns s sec
  { s with dirq := Fm.put s.dirq sec (if q.contains (die, own) then q else q ++ [(die, own)]) }

/-- A request that has been served leaves the directory. -/
def dequeue (s : State) (sec die : Nat) (own : Bool) : State :=
  if (Fm.get? s.dirq sec).isNone then s
  else
    let q := (turns s sec).filter (· != (die, own))
    { s with dirq := if q.isEmpty then Fm.del s.dirq sec else Fm.put s.dirq sec q }

/-- Discard every copy and every pending byte of a sector, without write-back (R190). -/
def discardSec (s : State) (sec : Nat) : State :=
  let s := (copies s sec).foldl (fun s c =>
    let stamp := max c.2.stamp c.2.acks
    snoopLeave (raiseFloor { s with l2 := Fm.del s.l2 (l2Key c.1 sec) } c.1 sec stamp) c.1 sec stamp) s
  { s with rcounts := Fm.del s.rcounts sec, wcb := Fm.del s.wcb sec, memPend := Fm.del s.memPend sec }

/-- A read request reaches the home agent: its read count falls by 1; at 0 every copy and every pending byte of the sector is
discarded (R190). -/
def countRead (s : State) (sec : Nat) : State :=
  match Fm.get? s.rcounts sec with
  | none => s
  | some n => if n ≤ 1 then discardSec s sec else { s with rcounts := Fm.put s.rcounts sec (n - 1) }

/-- The mask of a sector's write-combining entry covers all of it (R191). -/
def wcbFull (s : State) (sec : Nat) : Bool := ((Fm.get? s.wcb sec).map fun w => decide (128 ≤ w.bytes.length)).getD false

/-- What a die that gets a copy of a sector is supplied with: the owner's data, or memory's with the write-combining buffer's over it
(R191, R243, R244). -/
def supplied (s : State) (sec : Nat) (st : Moesi) : L2Sec :=
  match ownerOf s sec with
  | some (_, x) => { st := st, data := x.data, encs := x.encs, pend := x.pend, poison := x.poison }
  | none =>
    { st := st, data := memData s sec, encs := Fm.getD s.encs sec [], pend := Fm.getD s.memPend sec [], poison := s.poison.contains sec }

/-- The owner of a sector forwards it: it goes from M to O or from E to S (R243). -/
def forward (s : State) (sec : Nat) : State :=
  match ownerOf s sec with
  | some (o, x) =>
    noteOwner { s with l2 := Fm.put s.l2 (l2Key o sec) { x with st := if x.st == .m then .o else if x.st == .e then .s else x.st } } sec
  | none => s

/-- The pending bytes of the write-combining buffer move into the home's copy (R191). -/
def takeWcb (s : State) (sec : Nat) : State := { s with wcb := Fm.del s.wcb sec, memPend := Fm.del s.memPend sec }

/-- A die gets a copy of a sector to read: E if no other die holds one, else S; a fill of the home L2 takes the write-combining buffer's
bytes with it, as dirty (R191, R244). -/
def readFill (s : State) (die sec : Nat) (lru : Bool) : Option State :=
  let alone := (copies s sec).isEmpty
  let x := supplied s sec (if alone then .e else .s)
  if die == homeDie sec && (Fm.get? s.wcb sec).isSome && (ownerOf s sec).isNone then
    fillL2 (takeWcb s sec) die sec { x with st := if alone then .m else .o } lru
  else fillL2 (forward s sec) die sec x lru

/-- A request of a remote die needs a snoop filter entry; the home die needs none (R187). -/
def snoopFor (s : State) (die sec : Nat) : Reply :=
  if die == homeDie sec then { s := s, ok := true } else snoopTake s (lineOf sec) die

/-- The messages of a Read or an Own that is served: the request to the home agent, the data from the owner or from memory (R244). -/
def fetched (s : State) (die sec : Nat) : State :=
  let src := ((ownerOf s sec).map fun o => o.1).getD (homeDie sec)
  message (message s die (homeDie sec)) src die

/-- A Read: a die that holds no copy of a sector gets one, from the owner or from memory (R244); a copy that another engine owns waits
for its release (R250). -/
def readReq (s : State) (die sec : Nat) (engine : Option Nat := none) (lru : Bool := false) : Reply :=
  match copyOf s die sec with
  | some x => if x.engine.isSome && x.engine != engine then { s := s, ok := false } else { s := touchL2 s die sec, ok := true }
  | none =>
    if !myTurn s sec die false || blocked s sec engine then { s := enqueue s sec die false, ok := false }
    else
      let r := snoopFor s die sec
      if !r.ok then { s := enqueue r.s sec die false, ok := false }
      else
        match readFill (fetched r.s die sec) die sec lru with
        | some u => { s := countSlice (dequeue u sec die false) sec 32, ok := true }
        | none => { s := s, ok := false }

/-- The host caches the sector through CXL.mem: a write waits for its back-invalidation answer (R388). -/
def hostShared (s : State) (sec : Nat) : Bool := s.hostShare.any fun e => e.2 == sec

/-- The copies of other dies go, as an Own has it (R244, R245); their stamps go to the writer, and to the snoop filter entry, which covers the
leases granted under it (R244, R246). -/
def dropOthers (s : State) (die sec : Nat) : State :=
  ((copies s sec).filter fun c => c.1 != die).foldl (fun s c =>
    message (message (snoopLeave { s with l2 := Fm.del s.l2 (l2Key c.1 sec) } c.1 sec (max c.2.stamp c.2.acks)) (homeDie sec) c.1) c.1 die) s

/-- The latest stamp that the acknowledgements of other dies carry (R245). -/
def ackStamp (s : State) (die sec : Nat) : Nat :=
  ((copies s sec).filter fun c => c.1 != die).foldl (fun n c => max n (max c.2.stamp c.2.acks)) 0

/-- A die holds a sector in M or E, so that it writes with no request (R243). -/
def mayWrite (s : State) (die sec : Nat) : Bool := ((copyOf s die sec).map fun x => x.st == .m || x.st == .e).getD false

/-- The state of a die's copy becomes M. -/
def toM (s : State) (die sec : Nat) : State :=
  noteOwner { s with l2 := Fm.mod s.l2 (l2Key die sec) fun x => { x with st := .m } } sec

/-- A die that will write a sector gets it; the home's own fill frees the write-combining entry, whose bytes it has (R191). -/
def fillOwn (s : State) (die sec : Nat) (x : L2Sec) (lru : Bool) : Option State :=
  fillL2 (if die == homeDie sec then takeWcb s sec else s) die sec x lru

/-- An Own: a die that will write a sector gets it in M; every other copy is invalidated, and the stamps that the
acknowledgements carry come back with the reply (R244, R245). -/
def ownReq (s : State) (die sec : Nat) (engine : Option Nat := none) (lru : Bool := false) : Reply :=
  if mayWrite s die sec then
    if blocked s sec engine || hostShared s sec then { s := s, ok := false }
    else { s := toM (touchL2 s die sec) die sec, ok := true }
  else if !myTurn s sec die true || blocked s sec engine || hostShared s sec then { s := enqueue s sec die true, ok := false }
  else
    let r := snoopFor s die sec
    if !r.ok then { s := enqueue r.s sec die true, ok := false }
    else
      let ack := ackStamp s die sec
      let got : Option State :=
        if (copyOf s die sec).isSome then some (touchL2 r.s die sec) else fillOwn (fetched r.s die sec) die sec (supplied r.s sec .m) lru
      match got with
      | some u => { s := countSlice (dequeue (toM (dropOthers u die sec) die sec) sec die true) sec 33, ok := true, stamp := ack }
      | none => { s := s, ok := false }

/-- A write of a part of a unit that is encrypted under another key or tweak leaves the rest of the unit as what the new one makes of it,
which is left open (R198). -/
def resealed (s : State) (enc : Option Seal) (encs : List (Option Seal)) (pend : List PendW) (sec : Nat) (bytes : Fm (Byte × LaneMask)) :
    Fm (Byte × LaneMask) :=
  let stale (u : Nat) : Bool :=
    let e := seenEnc ((encs[u]?).getD none) pend 0 0 .newest u
    e.isSome && enc.isSome && e != enc && bytes.any fun b => b.1 / 32 == u
  let us := if encs.all Option.isNone && pend.all (fun w => w.enc.isNone) then [] else (List.range 4).filter stale
  us.foldl (fun m u => (List.range 32).foldl (fun m k =>
    let i := 32 * u + k
    if (Fm.get? m i).isSome then m else Fm.put m i (Config.junk s.freeCtr (sec * 128 + i), 0)) m) bytes

/-- A write of some bytes of a sector is accepted on a die that holds it in M, with its visibility time (R228, R230, R231);
`ack` is the latest stamp of the invalidations' acknowledgements. Each byte carries the lanes that wrote it. -/
def acceptHeld (s : State) (die sec : Nat) (enc : Option Seal) (bytes : Fm (Byte × LaneMask)) (group op ack : Nat) : Reply :=
  let a := dialOf s die
  match copyOf s die sec with
  | none => { s := s, ok := false }
  | some x0 =>
    let x := x0.mature die a
    let v := max a (max x.stamp (max (Fm.getD s.lastV sec 0) (max (max ack x.acks) (snoopStamp s sec))))
    let w : PendW := { v := v, group := group, op := op, die := die, free := s.freeCtr, enc := enc,
                       bytes := resealed s enc x.encs x.pend sec bytes }
    let x := { x with pend := x.pend ++ [w], poison := x.poison && bytes.length < 128, acks := 0 }
    let s := { s with l2 := Fm.put s.l2 (l2Key die sec) (x.mature die a), lastV := Fm.put s.lastV sec v, freeCtr := s.freeCtr + 1 }
    let s := { s with rcounts := Fm.del s.rcounts sec, memPend := Fm.del s.memPend sec, wcb := Fm.del s.wcb sec }
    { s := s, ok := true, stamp := v }

/-- A partial write at the home die, by no engine, to a sector that the home L2 does not hold goes to the write-combining buffer (R191). -/
def wcbTakes (s : State) (die sec : Nat) (bytes : Fm (Byte × LaneMask)) (engine : Option Nat) : Bool :=
  die == homeDie sec && engine.isNone && !bytes.isEmpty && bytes.length < 128 && (copyOf s die sec).isNone

/-- The copies of other dies are invalidated for a write that goes to the write-combining buffer; what the owner held dirty goes there too (R191,
R244). -/
def dropToWcb (s : State) (die sec : Nat) : State :=
  let t := dropOthers s die sec
  match ownerOf s sec with
  | some (_, x) => if x.st == .m || x.st == .o then toMemory t sec x else t
  | none => t

/-- A write is accepted into the write-combining buffer, which counts as the point of coherence (R191, R228, R230): it waits for its turn,
for the host's copy, and for an entry; no die keeps a copy. -/
def acceptWcb (s : State) (die sec : Nat) (enc : Option Seal) (bytes : Fm (Byte × LaneMask)) (group op : Nat) : Reply :=
  if !myTurn s sec die true || blocked s sec none || hostShared s sec then { s := enqueue s sec die true, ok := false }
  else if (Fm.get? s.wcb sec).isNone && !wcbRoom s (sliceOf sec) 1 then { s := s, ok := false }
  else
    let s := countSlice (dropToWcb s die sec) sec 33
    let a := dialOf s die
    let v := max a (max (Fm.getD s.floors (l2Set die (lineOf sec)) 0) (max (Fm.getD s.lastV sec 0) (snoopStamp s sec)))
    let encs := Fm.getD s.encs sec []
    let pend := Fm.getD s.memPend sec []
    let w : PendW := { v := v, group := group, op := op, die := die, free := s.freeCtr, enc := enc,
                       bytes := resealed s enc encs pend sec bytes }
    let all := pend ++ [w]
    let ws := all.takeWhile fun w => w.ended die a
    let late := all.drop ws.length
    let was := wcbFull s sec
    let now := ws.foldl (fun m w => w.bytes.foldl (fun m e => Fm.put m e.1 e.2.1) m) ([] : Fm Byte)
    let s := toWcb (dequeue s sec die true) sec (foldEncs encs ws) now
    let s := { s with memPend := if late.isEmpty then Fm.del s.memPend sec else Fm.put s.memPend sec late, lastV := Fm.put s.lastV sec v,
                      rcounts := Fm.del s.rcounts sec, freeCtr := s.freeCtr + 1 }
    let s := if !was && wcbFull s sec then { s with poison := s.poison.filter (· != sec) } else s
    { s := s, ok := true, stamp := v }

/-- A write by an agent that waits for nothing but the sector: the Own and its acknowledgements in one step. -/
def acceptWrite (s : State) (die sec : Nat) (enc : Option Seal) (bytes : Fm (Byte × LaneMask)) (group op : Nat)
    (engine : Option Nat := none) : Reply :=
  if wcbTakes s die sec bytes engine then acceptWcb s die sec enc bytes group op
  else
    let r := ownReq s die sec engine
    if !r.ok then r else acceptHeld r.s die sec enc bytes group op r.stamp

/-- An Own that runs step by step (R244, R245): at once where no other die holds a copy; else the invalidations go out and the
request waits. With `wcb` the write goes to the write-combining buffer in the end, and no copy is filled (R191). -/
def ownStep (s : State) (die sec : Nat) (engine : Option Nat := none) (lru : Bool := false) (wcb : Bool := false) : Reply :=
  let others := (copies s sec).filter fun c => c.1 != die
  if others.isEmpty || mayWrite s die sec then ownReq s die sec engine lru
  else if !myTurn s sec die true || blocked s sec engine || hostShared s sec then { s := enqueue s sec die true, ok := false }
  else
    let r := snoopFor s die sec
    if !r.ok then { s := enqueue r.s sec die true, ok := false }
    else
      let left := others.foldl (fun m c => setDie m c.1 true) 0
      let t : OwnTx := { die := die, left := left, order := r.s.uses + 1, lru := lru, wcb := wcb }
      let u := others.foldl (fun s c => message s (homeDie sec) c.1) (message (dequeue r.s sec die true) die (homeDie sec))
      let u := { u with owns := Fm.put u.owns sec t, uses := u.uses + 1 }
      { s := if wcb then u else countSlice u sec 33, ok := false }

/-- A write by an agent whose Own runs step by step. -/
def acceptStep (s : State) (die sec : Nat) (enc : Option Seal) (bytes : Fm (Byte × LaneMask)) (group op : Nat)
    (engine : Option Nat := none) (lru : Bool := false) : Reply :=
  if wcbTakes s die sec bytes engine then
    if (copies s sec).isEmpty then acceptWcb s die sec enc bytes group op else ownStep s die sec engine lru true
  else
    let r := ownStep s die sec engine lru
    if !r.ok then r else acceptHeld r.s die sec enc bytes group op r.stamp

/-- The copy whose contents stand for a sector where a die holds none: the owner's, one that travels to a writer, or none. -/
def standing (s : State) (sec : Nat) : Option L2Sec :=
  match ownerOf s sec with
  | some (_, x) => some x
  | none => (Fm.get? s.owns sec).bind fun t => t.copy

/-- The uncorrectable mark of a sector as a die finds it: its own copy's, that of the copy that stands for it, or memory's (R188, R209). -/
def poisonAt (s : State) (die sec : Nat) : Bool :=
  match copyOf s die sec with
  | some x => x.poison
  | none => ((standing s sec).map fun x => x.poison).getD (s.poison.contains sec)

/-- `n` bytes of a sector from byte `i` on, as an agent of a die sees them now and decrypts them, without a request: its own copy's, the
owner's, or memory's. -/
def peekPart (s : State) (die : Nat) (want : Option Seal) (sec i n : Nat) (r : Reader) : List Byte :=
  let from_ (x : L2Sec) : List Byte := seenPart s want x.encs (timed s die sec x.pend) (fun k => (x.data[i + k]?).getD 0) die sec r i n
  match copyOf s die sec with
  | some x => from_ x
  | none =>
    match standing s sec with
    | some x => from_ x
    | none =>
      let m := memBytes s sec i n
      seenPart s want (Fm.getD s.encs sec []) (timed s die sec (Fm.getD s.memPend sec [])) (fun k => (m[k]?).getD 0) die sec r i n

/-- The bytes of a sector as an agent of a die sees them now. -/
def peekSec (s : State) (die : Nat) (want : Option Seal) (sec : Nat) (r : Reader) : List Byte := peekPart s die want sec 0 128 r

/-- One byte as an agent of a die sees it now. -/
def peekByte (s : State) (die : Nat) (want : Option Seal) (phys : Nat) (r : Reader := .other) : Byte :=
  ((peekPart s die want (secOf phys) (phys % 128) 1 r)[0]?).getD 0

/-- Bytes of one sector as an agent of a die sees them now. -/
def peek (s : State) (die : Nat) (want : Option Seal) (phys n : Nat) (r : Reader := .other) : List Byte :=
  peekPart s die want (secOf phys) (phys % 128) n r

/-- A byte changes in the last of some pending writes that covers it; none where no write does. -/
def pokePend (pend : List PendW) (i : Nat) (b : Byte) : Option (List PendW) :=
  match pend.reverse.findIdx? fun w => (Fm.get? w.bytes i).isSome with
  | none => none
  | some k => some (pend.mapIdx fun j w =>
      if j + k + 1 == pend.length then { w with bytes := Fm.mod w.bytes i fun x => (b, x.2) } else w)

/-- A byte of a copy changes, in the newest write that covers it. -/
def L2Sec.poke (x : L2Sec) (i : Nat) (b : Byte) : L2Sec :=
  match pokePend x.pend i b with
  | some p => { x with pend := p }
  | none => { x with data := x.data.set i b }

/-- Change one byte wherever it is held, with no request and no visibility time: the walker's A and D bits, merged at the home
(R277), into a store of the entry that is still pending too. -/
def pokeByte (s : State) (phys : Nat) (b : Byte) : State :=
  let sec := secOf phys
  let i := phys % 128
  let cs := copies s sec
  let s := cs.foldl (fun s c => { s with l2 := Fm.put s.l2 (l2Key c.1 sec) (c.2.poke i b) }) s
  if cs.any fun c => c.2.st != .s then s
  else if let some p := pokePend (Fm.getD s.memPend sec []) i b then { s with memPend := Fm.put s.memPend sec p }
  else if (Fm.get? s.wcb sec).isSome then toWcb s sec (Fm.getD s.encs sec []) [(i, b)]
  else { s with hbm := Mem.write s.hbm phys b }

/-- Several writes as one step: all of them, or none while one must wait, whose request alone stands (R327). -/
def whole (s : State) (ws : List (State → Reply)) : Reply :=
  let r := ws.foldl (fun (x : Reply × Option (State → Reply)) w =>
    if !x.1.ok then x
    else
      let q := w x.1.s
      ({ q with stamp := max x.1.stamp q.stamp }, if q.ok then none else some w)) (({ s := s, ok := true } : Reply), none)
  match r.2 with
  | none => r.1
  | some w =>
    let q := w s
    { s := if q.ok then s else q.s, ok := false }

/-- An engine reads sectors: all of them as one request, or none while one must wait, so that no fill goes uncounted (R190, R251). -/
def readAll (s : State) (die : Nat) (engine : Option Nat) (secs : List (Nat × Bool)) : Reply :=
  whole s (secs.map fun e t => readReq t die e.1 engine e.2)

/-- Some sector bytes as a write of an agent that is no lane takes them. -/
def bytesOf (off : Nat) (bs : List Byte) : Fm (Byte × LaneMask) :=
  (List.range bs.length).map fun i => (off + i, ((bs[i]?).getD 0, 0))

/-- A write of bytes that lie in one sector, by an agent that is no lane: accepted on a die at once, or it must wait. -/
def writePhys (s : State) (die phys : Nat) (enc : Option Seal) (bs : List Byte) (group op : Nat) (engine : Option Nat := none) : Reply :=
  acceptWrite s die (secOf phys) enc (bytesOf (phys % 128) bs) group op engine

end Sys2Proof.Machine
end

