-- ==== Sys2Proof/Machine/Xlate.lean ====
section
/-! DEFINITION. Buffers and their descriptors (spec/10 R192 to R197), page tables and the walk (spec/14 R274 to R279), and the
checks of an access at a memory port (spec/10 R195, R196; spec/11 R206, R207). -/

namespace Sys2Proof.Machine

/-- Cause codes (R174). -/
def cIllegal : Nat := 0x01
def cLatchChain : Nat := 0x03
def cFlagOverflow : Nat := 0x04
def cMisaligned : Nat := 0x05
def cTranslation : Nat := 0x08
def cPermission : Nat := 0x09
def cBounds : Nat := 0x0A
def cOwner : Nat := 0x0B
def cKind : Nat := 0x0C
def cPlaceBound : Nat := 0x10
def cSplitPlace : Nat := 0x11
def cExecutor : Nat := 0x12
def cPoison : Nat := 0x28
def cPlacePoison : Nat := 0x29
def cSatArmed : Nat := 0x30
def cReplay : Nat := 0x31
def cCodeWrite : Nat := 0x32
def cConvergence : Nat := 0x38
def cBarrier : Nat := 0x39
def cSoftware : Nat := 0x40
def cWatchdog : Nat := 0x41

/-- R194: the descriptor is usable. -/
def descUsable (d : Nat) : Bool :=
  let m := (descStacks d).length
  let g := descGranule d
  let base := nfield d 128 27 * 512
  nfield d 0 1 == 1 && nfield d 5 3 ≤ 4 && nfield d 20 4 ≤ 7 && m != 0 && 1 ≤ nfield d 64 26 && nfield d 64 26 ≤ 2 ^ 25 &&
    base % g == 0 && base + (descSize d + m * g - 1) / (m * g) * g ≤ 2 ^ 36 - 2 ^ 21

/-- R197: the physical byte of buffer offset `o`: stack × 2^36 + offset within the stack. -/
def physOf (d o : Nat) : Nat :=
  let g := descGranule d
  let ls := descStacks d
  let m := ls.length
  let gi := o / g
  let stack := (ls[gi % m]?).getD 0
  stack * 2 ^ 36 + nfield d 128 27 * 512 + gi / m * g + o % g

/-- R197: the slice of buffer offset `o`, beyond the buffer's end too. -/
def sliceOfDesc (d o : Nat) : Nat := ((descStacks d)[o / descGranule d % (descStacks d).length]?).getD 0

/-- The pieces of `n` bytes from an offset on in each sector, at most `k` of them. -/
def secPieces : Nat → Nat → Nat → List (Nat × Nat)
  | 0, _, _ => []
  | k + 1, o, n =>
    if n == 0 then []
    else
      let m := min n (128 - o % 128)
      (o, m) :: secPieces k (o + m) (n - m)

/-- `n` bytes of a buffer from an offset on, each sector as an agent of the die that `die` gives for it sees it now. -/
def peekBuf (s : State) (d o n : Nat) (die : Nat → Nat) (r : Reader := .other) : List Byte :=
  (secPieces (n / 128 + 2) o n).flatMap fun p =>
    let ph := physOf d p.1
    peekPart s (die (secOf ph)) (encOf s d p.1) (secOf ph) (ph % 128) p.2 r

/-- An engine owns a sector of a range of a buffer: every other access waits for its release (R250). -/
def bufMarked (s : State) (d o n : Nat) : Bool := (secPieces (n / 128 + 2) o n).any fun p => marked s (secOf (physOf d p.1)) none

/-- A write of a range of a buffer, each sector on the die that `die` gives for it; the latest visibility time comes back. Nothing is written
while a sector must wait. -/
def writeRange (s : State) (d o : Nat) (bs : List Byte) (die : Nat → Nat) (group op : Nat) (engine : Option Nat := none) : Reply :=
  whole s ((secPieces (bs.length / 128 + 2) o bs.length).map fun p t =>
    let ph := physOf d p.1
    writePhys t (die (secOf ph)) ph (encOf t d p.1) ((bs.drop (p.1 - o)).take p.2) group op engine)

/-- What an access does at a memory port (R195, R196). -/
inductive Access where
  | load | store | atom | resid | fetch | copyRead | copyWrite | placeRead | placeWrite | ticket | saWrite | saRead | walk
  | journal | hostRead | hostWrite | image | kernel
  deriving DecidableEq, Repr

/-- The access reads data, writes data, or fetches (R196). -/
def Access.reads : Access → Bool
  | .load | .atom | .copyRead | .placeRead | .ticket | .saRead | .walk | .hostRead => true
  | _ => false

/-- The access writes. -/
def Access.writes : Access → Bool
  | .store | .atom | .resid | .copyWrite | .placeWrite | .saWrite | .journal | .hostWrite => true
  | _ => false

/-- R195: what each KIND allows. -/
def kindAllows (k : Nat) (a : Access) : Bool :=
  match k, a with
  | 0, .walk => false
  | 0, _ => true
  | 1, .walk | 1, .kernel => true
  | 1, _ => false
  | 2, .saWrite | 2, .saRead => true
  | 2, _ => false
  | 3, .journal | 3, .load | 3, .copyRead | 3, .hostRead => true
  | 3, _ => false
  | 4, .ticket | 4, .store | 4, .copyWrite | 4, .placeWrite => true
  | _, _ => false

/-- The causes of R196 for `n` bytes at offset `o` of a buffer; the save engine checks only OWNER and bounds (R375). -/
def portCauses (d world o n : Nat) (a : Access) : List Nat :=
  let rights := a != .image && a != .kernel &&
    ((a.reads && nfield d 1 1 == 0) || (a.writes && nfield d 2 1 == 0) || (a == .fetch && nfield d 3 1 == 0))
  (if rights then [cPermission] else []) ++
    (if !descUsable d || descSize d < o + n then [cBounds] else []) ++
    (if nfield d 8 11 != world then [cOwner] else []) ++
    (if a != .image && !kindAllows (nfield d 5 3) a then [cKind] else [])

/-- R203: an address is canonical when [63:57] all equal bit 56. -/
def canonical (va : Nat) : Bool := va / 2 ^ 56 == 0 || va / 2 ^ 56 == 2 ^ 8 - 1

/-- A leaf found by a walk: the entry, the level it stands at, its physical place and what it is encrypted under, the sectors the walk
read. -/
structure Leaf where
  pte   : Nat
  level : Nat
  at_   : Nat
  enc   : Option Seal
  secs  : List Nat
  deriving DecidableEq, Repr

/-- The bytes a leaf's page covers (R274). -/
def pageSize (level : Nat) : Nat := if level == 2 then 2 ^ 34 else if level == 3 then 2 ^ 21 else 2 ^ 16

/-- The size of a table of each level (R274). -/
def tableSize (level : Nat) : Nat := if level == 1 then 16384 else if level == 4 then 512 else 131072

/-- The walk from one table on (R276): level, lowest index bit and index width of each level still to go. It reads an entry as it stands from
the acceptance of the latest store to it (R278). -/
def walkFrom (s : State) (die world va : Nat) : List (Nat × Nat × Nat) → Nat → Nat → List Nat → Except Nat Leaf
  | [], _, _, _ => .error cTranslation
  | (level, lo, n) :: rest, buf, off, secs =>
    if off % tableSize level != 0 then .error cTranslation
    else
      let o := off + nfield va lo n * 16
      let d := descOf s buf
      match portCauses d world o 16 .walk with
      | c :: _ => .error c
      | [] =>
        let p := physOf d o
        let e := leNat (peek s die (encOf s d o) p 16 .newest)
        let secs := secs ++ [secOf p]
        if nfield e 0 1 == 0 then .error cTranslation
        else if nfield e 1 1 == 1 then
          if level == 1 || nfield e 84 44 % (pageSize level / 65536) != 0 then .error cTranslation
          else .ok { pte := e, level := level, at_ := p, enc := encOf s d o, secs := secs }
        else walkFrom s die world va rest (nfield e 64 20) (nfield e 84 44 * 512) secs

/-- The walk of an address for a world on a die (R276). -/
def walk (s : State) (die world va : Nat) : Except Nat Leaf :=
  if !canonical va then .error cTranslation
  else
    match Fm.get? s.worlds world with
    | none => .error cTranslation
    | some w => walkFrom s die world va [(1, 47, 10), (2, 34, 13), (3, 21, 13), (4, 16, 5)] w.rootBuf w.rootOff []

/-- A translation: the leaf, the buffer and offset, the descriptor, the physical byte. -/
structure Xl where
  leaf : Leaf
  buf  : Nat
  o    : Nat
  d    : Nat
  phys : Nat
  deriving DecidableEq, Repr

/-- The EXEC field: class, mode, target (R275, R21). -/
def Xl.cls (x : Xl) : Nat := nfield x.leaf.pte 21 3
def Xl.mode (x : Xl) : Nat := nfield x.leaf.pte 19 2
def Xl.target (x : Xl) : Nat := nfield x.leaf.pte 8 11
def Xl.transit (x : Xl) : Bool := nfield x.leaf.pte 7 1 == 1
def Xl.code (x : Xl) : Bool := nfield x.d 4 1 == 1

/-- R276: the buffer offset a leaf gives. -/
def xlate (s : State) (die world va : Nat) : Except Nat Xl :=
  match walk s die world va with
  | .error c => .error c
  | .ok l =>
    let o := nfield l.pte 84 44 * 65536 + va % pageSize l.level
    let buf := nfield l.pte 64 20
    let d := descOf s buf
    .ok { leaf := l, buf := buf, o := o, d := d, phys := physOf d o }

/-- R21: the class exists and the target lies in its range. -/
def execValid (cls target : Nat) : Bool :=
  match cls with
  | 0 => true
  | 1 => target ≤ 7
  | 2 | 3 | 4 => target ≤ 23
  | 5 => true
  | _ => false

/-- R276: the causes a leaf raises by itself: rights, EXEC. -/
def leafCauses (x : Xl) (a : Access) : List Nat :=
  (if (a.reads && nfield x.leaf.pte 2 1 == 0) || (a.writes && nfield x.leaf.pte 3 1 == 0) ||
      (a == .fetch && nfield x.leaf.pte 4 1 == 0) then [cPermission] else []) ++
    (if !execValid x.cls x.target || x.mode == 3 then [cExecutor] else [])

/-- R207: the core is the executor of the page: LOCAL, or DIE naming its own die. -/
def isExecutor (x : Xl) (die : Nat) : Bool := x.cls == 0 || (x.cls == 1 && x.target == die)

/-- R207: the access is allowed only on the executor. -/
def onlyExecutor (x : Xl) (a : Access) : Bool :=
  x.mode == 1 || (x.mode == 2 && a.writes)

/-- R207: PLACE_BOUND for a plain access on a core that is not the executor. -/
def placeCauses (x : Xl) (die : Nat) (a : Access) : List Nat :=
  if onlyExecutor x a && !isExecutor x die then [cPlaceBound] else []

/-- CODE_WRITE (R206): a write that reaches a buffer of measured code. -/
def codeCauses (x : Xl) (a : Access) : List Nat :=
  if a.writes && x.code then [cCodeWrite] else []

/-- The lowest of some causes (R174). -/
def lowest : List Nat → Option Nat
  | [] => none
  | c :: r =>
    match lowest r with
    | none => some c
    | some d => some (min c d)

/-- The checks of `n` bytes of translated memory without the executor rule: a translation or the lowest cause. -/
def checkVa (s : State) (die world va n : Nat) (a : Access) (extra : Xl → List Nat) : Except Nat Xl :=
  match xlate s die world va with
  | .error c => .error c
  | .ok x =>
    match lowest (leafCauses x a ++ portCauses x.d world x.o n a ++ codeCauses x a ++ extra x) with
    | some c => .error c
    | none => .ok x

/-- The slice kernel a cause goes to when it has no home (R208). -/
def coreSlice (core : Nat) : Nat := 3 * (core / 48) + core % 48 % 3

/-- The slice kernel a cause of `va` goes to (R174, R208): the home slice where one is known, else the core's. -/
def causeSlice (s : State) (core world va cause : Nat) : Nat :=
  if cause == cTranslation then coreSlice core
  else
    match xlate s (core / 48) world va with
    | .ok x => if descUsable x.d then sliceOfDesc x.d x.o else coreSlice core
    | .error _ => coreSlice core

/-- The walker sets A, and D for a write (R277). -/
def markUsed (s : State) (x : Xl) (write : Bool) : State :=
  let b := nfield x.leaf.pte 0 8
  let n := if nfield b 5 1 == 0 then b + 32 else b
  let n := if write && nfield b 6 1 == 0 then n + 64 else n
  if n == b then s else pokeByte s x.leaf.at_ (BitVec.ofNat 8 n)

/-- Keep a cached translation in a table of at most `cap` entries, the newest first (R273, R278). -/
def keepTlb (cap : Nat) (t : List Tlb) (e : Tlb) : List Tlb :=
  let mine := (t.filter fun x => x.holder == e.holder && !(x.world == e.world && x.level == e.level && x.page == e.page))
  let rest := t.filter fun x => x.holder != e.holder
  (e :: mine.take (cap - 1)) ++ rest

/-- A translation that the core TLB lacks fills it, and the die walk cache with the leaf and every entry that led to it (R273). -/
def noteWalk (s : State) (core world va : Nat) (x : Xl) : State :=
  let p := va % 2 ^ 57 / 65536
  let lows := [47, 34, 21, 16].take x.leaf.secs.length
  if s.tlb.any fun e => e.holder == core && e.world == world && e.page == p then s
  else
  let s := countUnit s core 10 [world]
  let cached (t : List Tlb) (k : Nat) : List Tlb :=
    keepTlb 8192 t { holder := core / 48, world := world, level := k + 1, page := va % 2 ^ 57 / 2 ^ ((lows[k]?).getD 16),
                     secs := x.leaf.secs.take (k + 1) }
  { s with tlb := keepTlb 256 s.tlb { holder := core, world := world, level := x.leaf.level, page := p, secs := x.leaf.secs },
           walk := (List.range x.leaf.secs.length).foldl cached s.walk }

/-- The memory port of a place's home slice caches its descriptor (R182, R192). -/
def noteDesc (s : State) (x : Xl) : State :=
  let e := (sliceOfDesc x.d x.o, x.buf)
  if s.dcache.contains e then s else { s with dcache := e :: s.dcache }

/-- What a translation that is used leaves behind: the walker's bits, the cached translations and descriptor (R273, R277). -/
def useXl (s : State) (core world va : Nat) (write : Bool) (x : Xl) : State := noteWalk (noteDesc (markUsed s x write) x) core world va x

/-- A store to a sector of page-table entries drops every cached translation derived from it (R278). -/
def dropWalks (s : State) (sec : Nat) : State :=
  { s with tlb := s.tlb.filter fun e => !e.secs.contains sec, walk := s.walk.filter fun e => !e.secs.contains sec }

/-- An engine owns a sector of a range of a world's memory (R250). All bytes lie in one page. -/
def vaMarked (s : State) (die world va n : Nat) : Bool :=
  match xlate s die world va with
  | .ok x => bufMarked s x.d x.o n
  | .error _ => false

/-- Bytes of a world's memory as an agent of a die reads them now, or the lowest cause. All bytes lie in one page. -/
def readVa (s : State) (die world va n : Nat) (a : Access := .load) (r : Reader := .other) (extra : Xl → List Nat := fun _ => []) :
    Except Nat (List Byte) :=
  match checkVa s die world va n a extra with
  | .error c => .error c
  | .ok x => .ok (peekBuf s x.d x.o n (fun _ => die) r)

end Sys2Proof.Machine
end

