-- ==== Sys2Proof/Machine/Post.lean ====
section
/-! DEFINITION. Ring headers, hardware posts to the error queue and the orphan ring, and journal entries (spec/16 R326, R331,
R334, R342, R343). -/

namespace Sys2Proof.Machine

/-- A ring header (R326). -/
structure RingHdr where
  cfg    : Nat
  res    : Nat
  fil    : Nat
  clm    : Nat
  rel    : Nat
  epoch  : Nat
  lost   : Nat
  misuse : Nat
  fills  : Nat
  rels   : Nat
  deriving DecidableEq, Repr

/-- SLOTS and SIZE of a header (R326). -/
def RingHdr.slots (h : RingHdr) : Nat := nfield h.cfg 0 11
def RingHdr.size (h : RingHdr) : Nat := nfield h.cfg 16 13 * 8

/-- A CFG word within its limits (R326, R329). -/
def cfgOk (c : Nat) : Bool :=
  2 ≤ nfield c 0 11 && nfield c 0 11 ≤ 1024 && 1 ≤ nfield c 16 13 && nfield c 16 13 ≤ 4096 && nfield c 11 5 == 0 &&
    c / 2 ^ 29 == 0

/-- The bytes of a ring object, as an indivisible step at its unit sees them (R327). -/
def ringBytes (s : State) (r : RingLoc) (i n : Nat) : List Byte :=
  match r with
  | .mem d off => peekBuf s d (off + i) n homeDie .newest
  | .die die off key => dieRead s key die (off + i) n

/-- An engine owns a sector of some bytes of a ring object: every other access waits for its release (R250). -/
def ringMarked (s : State) (r : RingLoc) (i n : Nat) : Bool :=
  match r with
  | .mem d off => bufMarked s d (off + i) n
  | .die .. => false

/-- Who acts on a ring: its die, its group and its operation's number (R240). -/
structure RingWho where
  die   : Nat := 0
  group : Nat := 2 ^ 64
  op    : Nat := 0
  deriving DecidableEq, Repr

/-- Write bytes of a ring object at its unit (R327). -/
def ringWrite (s : State) (r : RingLoc) (i : Nat) (bs : List Byte) (who : RingWho := {}) : Reply :=
  match r with
  | .mem d off => writeRange s d (off + i) bs homeDie who.group who.op
  | .die die off key => { s := dieWrite s key die (off + i) bs, ok := true, stamp := dialOf s die }

/-- Read a ring header. -/
def readHdr (s : State) (r : RingLoc) : RingHdr :=
  let b := ringBytes s r 0 512
  let w (k : Nat) : Nat := leNat ((b.drop (8 * k)).take 8)
  { cfg := w 0, res := w 1, fil := w 2, clm := w 3, rel := w 4, epoch := w 5, lost := w 6, misuse := w 7,
    fills := leNat ((b.drop 128).take 128), rels := leNat ((b.drop 256).take 128) }

/-- The bytes of a ring header; counters count modulo 2^64 (R326). -/
def RingHdr.bytes (h : RingHdr) : List Byte :=
  leBytes 8 h.cfg ++ leBytes 8 h.res ++ leBytes 8 h.fil ++ leBytes 8 h.clm ++ leBytes 8 h.rel ++ leBytes 8 h.epoch ++
    leBytes 8 h.lost ++ leBytes 8 h.misuse ++ leBytes 64 0 ++ leBytes 128 h.fills ++ leBytes 128 h.rels ++ leBytes 128 0

/-- The bytes that differ, with their places. -/
def changed (old new : List Byte) : Fm Byte :=
  (List.range new.length).filterMap fun i =>
    let b := (new[i]?).getD 0
    if (old[i]?).getD 0 == b then none else some (i, b)

/-- Write some bytes of a ring header at its unit, in one step (R327). -/
def ringPatch (s : State) (r : RingLoc) (bs : Fm Byte) (who : RingWho := {}) : Reply :=
  match r with
  | .die die off key => { s := bs.foldl (fun t e => dieWrite t key die (off + e.1) [e.2]) s, ok := true, stamp := dialOf s die }
  | .mem d off =>
    let part (k : Nat) : Fm Byte := bs.filter fun e => e.1 / 128 == k
    whole s (((List.range 4).filter fun k => !(part k).isEmpty).map fun k t =>
      let p := physOf d (off + 128 * k)
      acceptWrite t (homeDie (secOf p)) (secOf p) (encOf t d (off + 128 * k)) ((part k).map fun e => (p % 128 + e.1 % 128, (e.2, 0)))
        who.group who.op)

/-- Write a ring header: the bytes that change. -/
def writeHdr (s : State) (r : RingLoc) (h : RingHdr) (who : RingWho := {}) : Reply :=
  ringPatch s r (changed (readHdr s r).bytes h.bytes) who

/-- Bit `j` of a bitmap. -/
def bitAt (m j : Nat) : Bool := m / 2 ^ j % 2 == 1

/-- Set or clear bit `j` of a bitmap. -/
def bitSet (m j : Nat) (b : Bool) : Nat := if bitAt m j == b then m else if b then m + 2 ^ j else m - 2 ^ j

/-- The ring's extent lies within its buffer or window (R328). -/
def extentOk (r : RingLoc) (cfg limit : Nat) : Bool :=
  let len := 512 + nfield cfg 0 11 * (nfield cfg 16 13 * 8)
  match r with
  | .mem d off => descUsable d && off + len ≤ descSize d
  | .die _ off _ => off + len ≤ limit

/-- Two names of one ring: by its buffer and offset, or its place in a die scratchpad. -/
def sameRing : RingLoc → RingLoc → Bool
  | .mem d o, .mem e p => d / 2 ^ 256 == e / 2 ^ 256 && o == p
  | .die d o _, .die e p _ => d == e && o == p
  | _, _ => false

/-- A new operation number. -/
def newOp (s : State) (o : Op) : State × Nat :=
  ({ s with ops := Fm.put s.ops s.nextOp { o with since := dialOf s o.die }, nextOp := s.nextOp + 1 }, s.nextOp)

/-- One post (R331): it takes the next slot, writes the record and leaves the fill bit to PUSH_SLOT_FILL; a full or invalid
ring drops the record and counts it in LOST; one that fails its check at the port (R196) changes nothing. None where the ring's sectors must
be waited for. -/
def tryPost (s : State) (p : Post) : Option State :=
  let r : RingLoc := match p.ring with
    | .mem d o => .mem (descOf s (d / 2 ^ 256)) o
    | x => x
  let refused := match r with
    | .mem d o => !(portCauses d p.world o 512 .atom).isEmpty
    | _ => false
  let h := readHdr s r
  if refused then some s
  else if ringMarked s r 0 512 then none
  else if !(cfgOk h.cfg && extentOk r h.cfg (2 ^ 25)) || p.bytes.length > h.size || (h.res + 2 ^ 64 - h.rel) % 2 ^ 64 ≥ h.slots then
    let a := writeHdr s r { h with lost := (h.lost + 1) % 2 ^ 64 }
    if a.ok then some a.s else none
  else
    let j := h.res % h.slots
    let a := writeHdr s r { h with res := (h.res + 1) % 2 ^ 64 }
    let b := ringWrite a.s r (512 + j * h.size) p.bytes
    if a.ok && b.ok then
      some (newOp b.s { group := none, world := p.world, core := 0, die := 0, time := b.stamp, kind := .slotFill r j h.epoch }).1
    else none

/-- Posts that can be made are made, in order for each ring (R331). -/
def flushPosts (s : State) : State :=
  let (s, rest) := s.posts.foldl (fun (x : State × List Post) p =>
    if x.2.any fun q => sameRing q.ring p.ring then (x.1, x.2 ++ [p])
    else match tryPost x.1 p with
      | some t => (t, x.2)
      | none => (x.1, x.2 ++ [p])) (s, [])
  { s with posts := rest }

/-- Hardware posts a record to a ring (R331). -/
def hwPost (s : State) (world : Nat) (r : RingLoc) (rec : List Byte) : State :=
  flushPosts { s with posts := s.posts ++ [{ world := world, ring := r, bytes := rec }] }

/-- The record of the error queue (R334). -/
structure ErrRec where
  source : Nat
  cause  : Nat := 0
  die    : Nat := 0
  core   : Nat := 0
  group  : Nat := 0
  slice  : Nat := 0
  index  : Nat := 0
  addr   : Nat := 0
  pc     : Nat := 0
  seq    : Nat := 0
  deriving DecidableEq, Repr

/-- Its 64 bytes (R334). -/
def ErrRec.bytes (e : ErrRec) (dial : Nat) : List Byte :=
  leBytes 8 dial ++ leBytes 1 e.source ++ leBytes 1 e.cause ++ leBytes 2 0 ++
    leBytes 4 (e.die % 8 + e.core % 64 * 8 + e.group % 128 * 512 + e.slice % 32 * 65536) ++ leBytes 8 e.index ++
    leBytes 8 e.addr ++ leBytes 8 e.pc ++ leBytes 8 e.seq ++ leBytes 16 0

/-- Post to a world's error queue (R334). -/
def postError (s : State) (world : Nat) (e : ErrRec) : State :=
  match Fm.get? s.worlds world with
  | none => s
  | some w => hwPost s world (.mem (descOf s w.ringBuf) w.errOff) (e.bytes (dialOf s e.die))

/-- Post to a world's orphan ring (R301, R334). -/
def postOrphan (s : State) (world : Nat) (rec : List Byte) : State :=
  match Fm.get? s.worlds world with
  | none => s
  | some w => hwPost s world (.mem (descOf s w.ringBuf) w.orphanOff) rec

/-- The die whose dial times a command queue's engine: a service core's own, else the I/O die of the queue's port, whose dial is the package
time base (R227). -/
def queueDie (q : Nat) : Nat := if 4096 ≤ q && q < 8192 then (q - 4096) / 3 else 8

/-- Writes up to a visibility time have passed it by 2 ticks on a die (R343). -/
def passed (s : State) (die : Nat) (after : Option Nat) : Bool :=
  match after with
  | some v => v + 2 < dialOf s die
  | none => true

/-- A journal write waits for another: entries are first written in SEQ order, and an entry becomes final after it is written (R343). -/
def JWrite.waitsFor (w u : JWrite) : Bool :=
  u.queue == w.queue && u.off == 0 && (if w.off == 0 then u.seq < w.seq else u.seq == w.seq)

/-- Bookkeeping of a written journal entry: its visibility time, and the end of its command (R343, R390). -/
def noteEntry (s : State) (w : JWrite) (v : Nat) : State :=
  let s := { s with journals := Fm.mod s.journals w.queue fun j => { j with v := max j.v v } }
  let status := ((w.bytes[24 - w.off]?).getD 0).toNat
  if w.final then
    { s with journals := Fm.mod s.journals w.queue (fun j => { j with opens := j.opens.filter (· != w.seq) }),
             queues := Fm.mod s.queues w.queue fun x => { x with finals := x.finals ++ [(w.seq, status)] } }
  else s

/-- Write journal entries that are due: their command's writes have passed their visibility times by 2 ticks (R343). A write that fails its
check at the port changes nothing (R196). -/
def flushJournal (s : State) : State :=
  s.jwrites.foldl (fun s w =>
    match Fm.get? s.journals w.queue with
    | none => { s with jwrites := s.jwrites.erase w }
    | some j =>
      if w.ops.isEmpty && passed s (queueDie w.queue) w.after && !s.jwrites.any (JWrite.waitsFor w) then
        let d := descOf s j.buf
        let o := w.seq % 2 ^ j.log * 64 + w.off
        if !(portCauses d j.world o w.bytes.length .journal).isEmpty then noteEntry { s with jwrites := s.jwrites.erase w } w 0
        else
          let r := writeRange s d o w.bytes homeDie 0 0
          if r.ok then noteEntry { r.s with jwrites := r.s.jwrites.erase w } w r.stamp else s
      else s) s

/-- The journal has room for one more command: the entry at the next index is empty or final (R343). -/
def journalRoom (s : State) (q : Nat) : Bool :=
  match Fm.get? s.journals q with
  | none => false
  | some j => !j.opens.any fun o => o % 2 ^ j.log == (j.seq + 1) % 2 ^ j.log

/-- Write the entry of a newly accepted command, PENDING, or final at once when it is refused (R342, R343). -/
def journalAccept (s : State) (q kind status node : Nat) (digest : List Byte) : State × Nat :=
  match Fm.get? s.journals q with
  | none => (s, 0)
  | some j =>
    let seq := j.seq + 1
    let pending := status == 0
    let now := dialOf s (queueDie q)
    let e := leBytes 8 seq ++ leBytes 8 now ++ leBytes 8 (if pending then 0 else now) ++
      leBytes 4 (status + node * 65536) ++ leBytes 4 kind ++ digest.take 32
    let s := { s with journals := Fm.put s.journals q { j with seq := seq, opens := seq :: j.opens },
                      jwrites := s.jwrites ++ [{ queue := q, seq := seq, after := none, off := 0, bytes := e, final := !pending }] }
    (flushJournal s, seq)

/-- Rewrite an entry as final: the dial, the status, the cause and the node (R342, R343). -/
def journalFinal (s : State) (q seq status cause node : Nat) (after : Option Nat) (ops : List Nat := []) : State :=
  let e := leBytes 8 (dialOf s (queueDie q)) ++ leBytes 4 (status + cause * 256 + node * 65536)
  flushJournal { s with jwrites := s.jwrites ++ [{ queue := q, seq := seq, after := after, ops := ops, off := 16, bytes := e, final := true }] }

/-- The command's acceptance is written and has reached its visibility time (R343). -/
def started (s : State) (queue seq : Nat) : Bool :=
  !(s.jwrites.any fun w => w.queue == queue && w.seq == seq && !w.final) &&
    match Fm.get? s.journals queue with
    | some j => j.v ≤ dialOf s (queueDie queue)
    | none => true

end Sys2Proof.Machine
end

