-- ==== Sys2Proof/Machine/Ops.lean ====
section
/-! DEFINITION. The named operations that the meanings share: lane masks, the frontier (spec/02 R27 to R34), retiring an issue,
taking an exception and returning from one (spec/02 R35 to R37, spec/09 R174 to R177), parking, the kill of a team, RECONV and
barrier releases, the completion of an operation in flight. -/

namespace Sys2Proof.Machine

/-- The set of the lanes below `n` that a test accepts, as a number. -/
def maskBelow (f : Nat → Bool) : Nat → Nat
  | 0 => 0
  | n + 1 => maskBelow f n + if f n then 2 ^ n else 0

/-- The lane mask of a test. -/
def maskOf (f : Nat → Bool) : LaneMask := BitVec.ofNat 64 (maskBelow f 64)

/-- A value per lane. -/
def lanesOf {α : Type} (f : Nat → α) : List α := (List.range 64).map f

/-- Lane `l` of a vector value. -/
def laneW (v : List Word) (l : Nat) : Word := (v[l]?).getD 0

/-- A lane of a group. -/
def Group.lane (g : Group) (l : Nat) : Lane := (g.lanes[l]?).getD { pc := 0, prio := 0, st := .exited }

/-- The pair of a lane. -/
def Lane.pair (x : Lane) : Pair := (x.pc, x.prio)

/-- The lane sits in the frontier entry of a pair (R27). -/
def Lane.at_ (x : Lane) (p : Pair) : Bool := x.st == .issuable && x.pc == p.1 && x.prio == p.2

/-- The lane mask of a frontier entry (R27). -/
def Group.entMask (g : Group) (p : Pair) : LaneMask := maskOf fun l => (g.lane l).at_ p

/-- The effective priority of an entry (R28). -/
def Ent.eff (e : Ent) : Nat := if e.age ≥ 1024 then 64 else e.prio.toNat

/-- The order of R28: `a` issues before `b`. Where two entries of one PC stand alike under R28's three keys, the higher block priority comes first
(DESIGN CHOICE, log entry 1). -/
def Ent.before (a b : Ent) : Bool :=
  if a.eff != b.eff then b.eff < a.eff
  else if a.yield != b.yield then b.yield
  else a.pc.toNat < b.pc.toNat || (a.pc == b.pc && b.prio.toNat < a.prio.toNat)

/-- The first entry in the order of R28. -/
def headEnt : List Ent → Option Ent
  | [] => none
  | e :: r =>
    match headEnt r with
    | none => some e
    | some f => if f.before e then some f else some e

/-- The entry that a group issues next: the one whose bundle or chain is in progress, else the head (R28, R59, R75). -/
def Group.issuing (g : Group) : Option Ent :=
  match g.ent with
  | some p => g.ents.find? fun e => e.pc == p.1 && e.prio == p.2
  | none =>
    match g.chain with
    | some c => g.ents.find? fun e => e.pc == c.ent.1 && e.prio == c.ent.2
    | none => headEnt g.ents

/-- Drop equal pairs. -/
def dedup {α : Type} [BEq α] : List α → List α
  | [] => []
  | a :: r => if r.contains a then dedup r else a :: dedup r

/-- Lanes join the frontier at their pairs: an existing entry keeps its age and its yield mark only if the lanes carry one
too; a new entry has age 0 (R29, R31). -/
def joinEnts (ents : List Ent) (ps : List Pair) (y : Bool) : List Ent :=
  ps.foldl (fun es p =>
    if es.any (fun e => e.pc == p.1 && e.prio == p.2) then
      es.map fun e => if e.pc == p.1 && e.prio == p.2 then { e with yield := e.yield && y } else e
    else es ++ [{ pc := p.1, prio := p.2, age := 0, yield := y }]) ents

/-- The frontier after an issue of entry `e`: the others age by one; the moved lanes join (R29, R31, R32). -/
def afterIssue (ents : List Ent) (e : Ent) (moved : List Pair) (y : Bool) : List Ent :=
  let others := (ents.filter fun x => !(x.pc == e.pc && x.prio == e.prio)).map fun x =>
    { x with age := min 1024 (x.age + 1) }
  joinEnts others (dedup moved) y

/-- The entries that still have lanes (R27). -/
def Group.liveEnts (g : Group) (ents : List Ent) : List Ent :=
  ents.filter fun e => (List.range 64).any fun l => (g.lane l).at_ (e.pc, e.prio)

/-- Latches are lost: they read 0 (R74). -/
def Group.loseLatches (g : Group) : Group := { g with b := [] }

/-- A lane stays alive until it executes EXIT (R42). -/
def Lane.live (x : Lane) : Bool := x.st != .exited

/-- A lane is WAITING (R22). -/
def Lane.waiting (x : Lane) : Bool :=
  match x.st with
  | .barrier .. => true
  | .reconv .. => true
  | _ => false

/-- PC + 4 in 57 bits (R29). -/
def pcNext (pc : Pc) : Pc := pc + 4

/-- An address of code as a canonical 64-bit address (R165). -/
def pcVa (pc : Pc) : Nat := if pc.msb then pc.toNat + (2 ^ 64 - 2 ^ 57) else pc.toNat

/-- TRAPPC (R173): the pair in one word. -/
def trapPcOf (p : Pair) : DWord := BitVec.ofNat 64 (p.2.toNat * 2 ^ 58 + p.1.toNat / 4 * 4)

/-- TRAPCAUSE (R173): {syndrome, code}. -/
def trapCauseOf (f : LaneFault) : DWord := BitVec.ofNat 64 (f.syn.toNat * 256 + f.cause.toNat)

/-- The handler address (R173). -/
def Group.vec (g : Group) : Pc := BitVec.ofNat 57 (g.trapvec.toNat % 2 ^ 57 / 4 * 4)

/-- R174: the causes sent first to a slice kernel. -/
def toKernel (cause : BitVec 8) : Bool := (0x08 ≤ cause.toNat && cause.toNat ≤ 0x0C) || cause.toNat == cPoison

/-- The entry of a lane into (TRAPVEC, 63), with TRAPPC, TRAPCAUSE and TRAPADDR written (R35, R175). -/
def Lane.trap (x : Lane) (f : LaneFault) (at_ : Pair) (vec : Pc) : Lane :=
  { x with pc := vec, prio := 63, st := .issuable, trapPc := trapPcOf at_, trapCause := trapCauseOf f, trapAddr := f.addr }

/-- Write TRAPINFO.WORD (R173, R175). -/
def infoWord (t : DWord) (w : Word) : DWord := BitVec.ofNat 64 (t.toNat % 256 + w.toNat * 256)

/-- Write TRAPINFO.CODE (R173, R177). -/
def infoCode (t : DWord) (c : Nat) : DWord := BitVec.ofNat 64 (t.toNat / 64 * 64 + c % 64)

/-- Change a group. -/
def State.modGroup (s : State) (gid : Nat) (f : Group → Group) : State := { s with groups := Fm.mod s.groups gid f }

/-- Change a team. -/
def State.modTeam (s : State) (t : Nat) (f : Team → Team) : State := { s with teams := Fm.mod s.teams t f }

/-- Teams that hold their reservation (R43). -/
def holding (t : Team) : Bool := t.phase == .running || t.phase == .halting

/-- The group's team holds its reservation: it is not saved (R43). -/
def onCores (s : State) (g : Group) : Bool :=
  match Fm.get? s.teams g.team with
  | some t => holding t
  | none => false

/-- The groups of a team. -/
def State.groupsOf (s : State) (t : Nat) : List (Nat × Group) := s.groups.filter fun e => e.2.team == t

/-- Release every engine owner mark of some operations (R249, R250). -/
def releaseMarks (s : State) (p : Nat → Bool) : State :=
  { s with l2 := Fm.mapVals s.l2 fun _ x => match x.engine with
      | some e => if p e then { x with engine := none } else x
      | none => x }

/-- The engine marks of a sector's copy on a die. -/
def markEngine (s : State) (die sec op : Nat) : State :=
  { s with l2 := Fm.mod s.l2 (l2Key die sec) fun x => { x with engine := some op } }

/-- A grid loses a team; its journal entry becomes final with the last one (R335, R342). -/
def gridLeaves (s : State) (grid : Nat) (cause : Option Nat) : State :=
  match Fm.get? s.grids grid with
  | none => s
  | some g =>
    let f := match g.fault with
      | some c => some c
      | none => cause
    let g := { g with left := g.left - 1, fault := f }
    if g.left != 0 then { s with grids := Fm.put s.grids grid g }
    else if g.node.isSome then { s with grids := Fm.put s.grids grid g }
    else
      let s := { s with grids := Fm.del s.grids grid }
      match f with
      | none => journalFinal s g.queue g.seq (if g.abort then 7 else 1) 0 0 g.latest g.ops
      | some c => journalFinal s g.queue g.seq (if g.abort then 7 else 6) (if g.abort then 0 else c) 0 g.latest g.ops

/-- The later of two visibility times that may be absent. -/
def laterOf (a b : Option Nat) : Option Nat :=
  match a, b with
  | some x, some y => some (max x y)
  | none, y => y
  | x, none => x

/-- The latest ordering time of a team's completed accesses (R236). -/
def teamTime (s : State) (t : Nat) : Option Nat :=
  (s.groups.filter fun e => e.2.team == t).foldl (fun m e => e.2.times.foldl (fun m x => laterOf m (some x.2)) m) none

/-- Core scratchpads with the places of a reservation at zero (R25, R185). -/
def clearPlaces (m : Mem) (ps : Fm Place) : Mem :=
  ps.foldl (fun m e =>
    let b := e.1 * scrSpan
    Mem.clear (Mem.clear (Mem.clear m (b + e.2.scr) e.2.scrLen) (b + e.2.lp) e.2.lpLen) (b + e.2.cl) e.2.clLen) m

/-- A team retires: its groups, its scratch, its matrix state where an image holds it, and its reservation go (R42, R185); the arrays of a core
keep their bits until the next grant (R106, R142). -/
def retireTeam (s : State) (t : Nat) (cause : Option Nat) : State :=
  match Fm.get? s.teams t with
  | none => s
  | some tm =>
    let late := teamTime s t
    let s := { s with grids := Fm.mod s.grids tm.grid fun g => { g with latest := laterOf g.latest late } }
    let scr := clearPlaces s.coreScr tm.places
    let s := { s with arrays := s.arrays.filter fun e => !(2 ^ 20 ≤ e.1 && e.1 / 64 == 2 ^ 14 + t) }
    let s := { s with coreScr := scr, teams := Fm.del s.teams t, groups := s.groups.filter (fun e => e.2.team != t),
                      parking := s.parking.filter fun r => match Fm.get? s.groups r.group with
                        | some g => g.team != t
                        | none => false }
    gridLeaves s tm.grid cause

/-- Count a registration, or a completion, modulo 2^32 (R291). -/
def countIssue (s : State) (k : Nat) : State := { s with issues := Fm.put s.issues k ((Fm.getD s.issues k 0 + 1) % 2 ^ 32) }
def countDone (s : State) (k : Nat) : State := { s with dones := Fm.put s.dones k ((Fm.getD s.dones k 0 + 1) % 2 ^ 32) }

/-- Some registrations of a world's operation: a peer among their executors has been sent a counted operation (R291). -/
def countIssues (s : State) (world : Nat) (keys : List Nat) : State :=
  let peers := dedup ((keys.filter fun k => 464 ≤ k / 1024).map fun k => k / 1024 - 464)
  let s := if peers.isEmpty then s
    else { s with worlds := Fm.mod s.worlds world fun w => { w with sent := peers.foldl (fun l x => if l.contains x then l else x :: l) w.sent } }
  keys.foldl countIssue s

/-- An operation counted on some counters is over at ordering time `t`: a PLSYNC that waits for one of them takes the time
(R291). -/
def doneKeys (s : State) (keys : List Nat) (t : Nat) : State :=
  let waits (k : OpKind) : Bool := match k with
    | .plsync ts => keys.any fun c => (Fm.get? ts c).isSome
    | _ => false
  let s := keys.foldl countDone s
  { s with ops := Fm.mapVals s.ops fun _ o => if waits o.kind then { o with time := max o.time t } else o }

/-- The counters of the parts of a PLACE that have not run. -/
def PlaceOp.keys (p : PlaceOp) : List Nat := p.lanes.flatMap fun l => l.parts.flatMap fun q => q.keys

/-- The record of a chain's end (R323, R334): the team and the group that issued the walk, the record's address. -/
def copyErr (s : State) (o : Op) (w : Walk) (cause : Nat) : ErrRec :=
  let e : ErrRec := { source := 4, cause := cause, die := o.die, core := o.core % 48, addr := w.at_, pc := pcVa o.pc }
  let e := match o.group.bind fun gid => Fm.get? s.groups gid with
    | some g => { e with group := g.index }
    | none => e
  match Fm.get? s.teams o.team with
  | some t => { e with index := t.index, seq := ((Fm.get? s.grids t.grid).map fun x => x.seq).getD 0 }
  | none => e

/-- A walk that ends asks the ring unit for no slot any more; a slot that the unit has reserved for it is filled over whatever it holds, so that
the ring does not stall (R331). The number of that fill comes back. -/
def dropAsk (s : State) (w : Walk) : State × Option Nat :=
  match w.asks with
  | none => (s, none)
  | some k =>
    match Fm.get? s.ops k with
    | none => (s, none)
    | some o =>
      match o.kind with
      | .reserved r j epoch _ => ({ s with ops := Fm.put s.ops k { o with kind := .slotFill r j epoch } }, some k)
      | _ => ({ s with ops := Fm.del s.ops k }, none)

/-- A PUSH record of a killed team whose CTL is not written: its slot is filled over whatever was written, and an error record is posted (R331).
The numbers of the fills under way come back. -/
def endPush (s : State) (id : Nat) (o : Op) (w : Walk) : State × List Nat :=
  let err (s : State) : State := postError s o.world (copyErr s o w 0)
  match w.push, w.fill, w.asks with
  | some (r, j, epoch), _, _ =>
    let (t, k) := newOp s { group := none, world := o.world, core := o.core, die := o.die, time := o.time, kind := .slotFill r j epoch }
    (err t, [k])
  | none, some f, _ => if f == id then (s, []) else (err s, if (Fm.get? s.ops f).isSome then [f] else [])
  | none, none, _ =>
    match dropAsk s w with
    | (t, some k) => (err t, [k])
    | (t, none) => (t, [])

/-- A ticket entry is free again; its generation stays as the ticket's end advanced it (R299). -/
def freeTicket (s : State) (key : Nat) : State :=
  { s with tickets := Fm.mod s.tickets key fun t => { gen := t.gen } }

/-- A redeem of a killed team: nothing more is written, and the entry is free once its fill has landed (R299, R314). -/
def dropRedeem (s : State) (key : Nat) : State :=
  match Fm.get? s.tickets key with
  | none => s
  | some t => if t.got.length == 2 ^ t.k then freeTicket s key else { s with tickets := Fm.put s.tickets key { t with red := none } }

/-- What a memory instruction still does beyond the core scratchpads, which go with its team's reservation (R42, R185). -/
def MemOp.offCore (m : MemOp) : MemOp :=
  { m with accs := m.accs.filter fun a => match a.loc with
      | .core .. => false
      | _ => true }

/-- What is left of an operation whose team has ended: it names no group. -/
def Op.orphan (o : Op) : Op :=
  { o with group := none, flag := none, kind := match o.kind with
      | .mem m => .mem m.offCore
      | k => k }

/-- What a team's end leaves of its operations: memory and stream-accumulator instructions that were accepted keep their
effects outside the reservation and no longer name a group (R180); engine operations end, their marks are released (R250), and they leave their
channels (R325). The writes of both count for the grid's journal entry (R343). -/
def dropOps (s : State) (t : Nat) : State :=
  let mine (o : Op) : Bool := o.team == t && (o.group.isSome || (match o.kind with
    | .mtx _ => true
    | _ => false))
  let stays (o : Op) : Bool := match o.kind with
    | .mem m => m.offCore.accs.any fun a => a.got.isNone
    | .slotFill .. | .saAdd .. | .saClose _ | .saEvict .. => true
    | _ => false
  let gone := s.ops.filter fun e => mine e.2 && !stays e.2
  let s := gone.foldl (fun s e => match e.2.kind with
    | .place p => p.keys.foldl countDone s
    | _ => s) s
  let left := (s.ops.filter fun e => mine e.2 && stays e.2).map fun e => e.1
  let s := releaseMarks s fun e => gone.any fun g => g.1 == e
  let s : State := { s with
    chans := Fm.mapVals s.chans (fun _ q => q.filter fun id => !(gone.any fun g => g.1 == id)),
    arrays := Fm.mapVals s.arrays (fun _ a => { a with queue := a.queue.filter fun id => !(gone.any fun g => g.1 == id) }),
    ops := (s.ops.filter fun e => !(mine e.2 && !stays e.2)).map fun e =>
      if mine e.2 then (e.1, e.2.orphan) else e }
  let (s, fills) := gone.foldl (fun (x : State × List Nat) e => match e.2.kind with
    | .copy _ _ (some w) =>
      let (t, ks) := endPush x.1 e.1 e.2 w
      (t, x.2 ++ ks)
    | .tkRedeem k => (dropRedeem x.1 k, x.2)
    | _ => x) (s, [])
  let late := gone.foldl (fun m e => laterOf m (some e.2.time)) none
  match Fm.get? s.teams t with
  | some tm => { s with grids := Fm.mod s.grids tm.grid fun g => { g with ops := g.ops ++ left ++ fills, latest := laterOf g.latest late } }
  | none => s

/-- A team is killed: a record goes to its world's error queue and the team retires at once (R42, R176). -/
def killTeam (s : State) (t : Nat) (e : ErrRec) : State :=
  match Fm.get? s.teams t with
  | none => s
  | some tm =>
    let seq := match Fm.get? s.grids tm.grid with
      | some g => g.seq
      | none => 0
    let s := postError s tm.world { e with index := tm.index, seq := seq }
    retireTeam (dropOps s t) t (some e.cause)

/-- The error record of a group (R334). -/
def groupErr (g : Group) (source cause addr pc : Nat) : ErrRec :=
  { source := source, cause := cause, die := g.core / 48, core := g.core % 48, group := g.index, addr := addr, pc := pc }

/-- A fault of a lane with the pair that TRAPPC takes. -/
structure TrapAt where
  f   : LaneFault
  at_ : Pair
  deriving DecidableEq, Repr

/-- The lanes of a group that a trap would kill the team for: at priority 63, or with no handler (R36, R176). -/
def fatalTrap (g : Group) (t : TrapAt) : Bool := t.at_.2 == 63 || g.vec == 0

/-- The lowest lane with a fatal trap. -/
def firstFatal (g : Group) (tr : Nat → Option TrapAt) : Option TrapAt :=
  (List.range 64).findSome? fun l => match tr l with
    | some t => if fatalTrap g t then some t else none
    | none => none

/-- The kill that a fatal trap brings (R176, R334). -/
def killByTrap (s : State) (g : Group) (t : TrapAt) : State :=
  killTeam s g.team (groupErr g 1 t.f.cause.toNat t.f.addr.toNat (pcVa t.at_.1))

/-- Group-wide effects of a trap entry or of parking: latches and SCHED cover are lost, at the chain's end when one runs
(R74 to R76, R175). -/
def Group.disturb (g : Group) : Group :=
  match g.chain with
  | some c => { g with chain := some { c with faulted := true } }
  | none => { g.loseLatches with cover := none }

/-- A running chain ends when no lane is left in its entry (R76). -/
def Group.endChain (g : Group) : Group :=
  match g.chain with
  | some c =>
    if g.ents.any fun e => e.pc == c.ent.1 && e.prio == c.ent.2 then g else { g.loseLatches with chain := none, cover := none }
  | none => g

/-- Lanes that are not issuing enter TRAPVEC together (R35, R39, R170, R209). -/
def enterTraps (s : State) (gid : Nat) (tr : Nat → Option TrapAt) : State :=
  match Fm.get? s.groups gid with
  | none => s
  | some g =>
    match firstFatal g tr with
    | some t => killByTrap s g t
    | none =>
      let lanes := lanesOf fun l => match tr l with
        | some t => (g.lane l).trap t.f t.at_ g.vec
        | none => g.lane l
      let word := (List.range 64).findSome? fun l => (tr l).map fun t => t.f.word
      match word with
      | none => s
      | some w =>
        let g := { g with lanes := lanes, trapinfo := infoWord g.trapinfo w }
        s.modGroup gid fun _ => ({ g.disturb with ents := joinEnts (g.liveEnts g.ents) [(g.vec, 63)] false } : Group).endChain

/-- Groups of a team that have not ended (R169). -/
def liveGroups (s : State) (t : Nat) : Nat := (s.groupsOf t).foldl (fun n e => if e.2.ended then n else n + 1) 0

/-- The arrivals a phase needs (R169). -/
def Barrier.needs (b : Barrier) (live : Nat) : Nat :=
  match b.count with
  | some 0 | none => live
  | some c => c

/-- Lanes of a group waiting at barrier `b` rejoin at the next bundle (R169). -/
def Group.releaseBarrier (g : Group) (b : Nat) : Group :=
  let rel (x : Lane) : Lane := match x.st with
    | .barrier k n _ => if k == b then { x with st := .issuable, pc := n } else x
    | _ => x
  let freed := g.lanes.filterMap fun x => match x.st with
    | .barrier k n _ => if k == b then some (n, x.prio) else none
    | _ => none
  { g with lanes := g.lanes.map rel, ents := joinEnts g.ents (dedup freed) false }

/-- A phase of barrier `k` whose arrivals reach its count completes: every lane that waits at the barrier goes on, and the early arrivals are the
arrivals of the next phase (R169, R347). -/
def barrierPhase (s : State) (t k : Nat) : State :=
  match (Fm.get? s.teams t).bind fun x => Fm.get? x.barriers k with
  | none => s
  | some b =>
    if !b.arr.isEmpty && b.needs (liveGroups s t) ≤ b.arr.length then
      let s := (s.groupsOf t).foldl (fun s ge =>
        s.modGroup ge.1 fun g => { g.releaseBarrier k with urg := 0 }) s
      s.modTeam t fun tm => { tm with barriers := Fm.put tm.barriers k { count := b.earlyCount, arr := b.early, phase := b.phase + 1 } }
    else s

/-- Complete the phases of a team's barriers; the early arrivals may complete the next one at once (R169). -/
def barrierCheck (s : State) (t : Nat) : State :=
  match Fm.get? s.teams t with
  | none => s
  | some tm => tm.barriers.foldl (fun s e => barrierPhase (barrierPhase s t e.1) t e.1) s

/-- The group waits at barrier `b`. -/
def Group.waitsAt (g : Group) (b : Nat) : Bool := g.lanes.any fun x => match x.st with
  | .barrier k _ _ => k == b
  | _ => false

/-- A group leaves the arrival set of a barrier; a phase left with no arrivals loses its count (R170). -/
def Barrier.leave (b : Barrier) (g : Nat) : Barrier :=
  let arr := b.arr.filter (· != g)
  let early := b.early.filter (· != g)
  { b with arr := arr, early := early, count := if arr.isEmpty then none else b.count,
           earlyCount := if early.isEmpty then none else b.earlyCount }

/-- RECONV releases of a group: every lane of the union of the sets waits at the same RECONV or has exited (R38, R171). -/
def reconvRelease (g : Group) : Group :=
  let pcs := dedup (g.lanes.filterMap fun x => match x.st with
    | .reconv .. => some x.pc
    | _ => none)
  pcs.foldl (fun g pc =>
    let here (x : Lane) : Bool := match x.st with
      | .reconv .. => x.pc == pc
      | _ => false
    let union : LaneMask := g.lanes.foldl (fun m x => match x.st with
      | .reconv set _ _ => if x.pc == pc then m ||| set else m
      | _ => m) 0
    let reached (l : Nat) : Bool := !union.getLsbD l || here (g.lane l) || (g.lane l).st == .exited
    if (List.range 64).all reached then
      let prio := g.lanes.foldl (fun n x => if here x then min n x.prio.toNat else n) 63
      let next := (g.lanes.findSome? fun x => match x.st with
        | .reconv _ n _ => if x.pc == pc then some n else none
        | _ => none).getD (pcNext pc)
      { g with lanes := g.lanes.map (fun x =>
                 if here x then { x with st := .issuable, pc := next, prio := BitVec.ofNat 6 prio } else x),
               ents := joinEnts g.ents [(next, BitVec.ofNat 6 prio)] false }
    else g) g

/-- A lane that keeps R39 from applying: PARKED, or alive at priority 63. -/
def Lane.keepsOff (x : Lane) : Bool :=
  match x.st with
  | .parked _ => true
  | .exited => false
  | _ => x.prio == 63

/-- The lane waits at a RECONV (R171). -/
def Lane.atReconv (x : Lane) : Bool :=
  match x.st with
  | .reconv .. => true
  | _ => false

/-- R39: the frontier is empty, lanes wait at a RECONV, none is PARKED and none is at priority 63. -/
def reconvStuck (g : Group) : Bool :=
  !(g.lanes.any fun x => x.st == .issuable) && g.lanes.any Lane.atReconv && !(g.lanes.any Lane.keepsOff)

/-- A fault with no syndrome and no address. -/
def plainFault (cause : Nat) (word : Word) : LaneFault := { cause := BitVec.ofNat 8 cause, word := word }

/-- The value of a flag (R64). -/
def Group.flag (g : Group) (n : Nat) : Nat := Fm.getD g.flags n 0

/-- Every lane has exited and every flag reads 0, so that the group's end is due (R170, R180). -/
def Group.endDue (g : Group) : Bool := !g.ended && !(g.lanes.any Lane.live) && (List.range 12).all fun n => g.flag n == 0

/-- R170: every live lane of the team is WAITING; a group whose end is due ends first. -/
def allWaiting (s : State) (t : Nat) : Bool :=
  (s.groupsOf t).any (fun e => e.2.lanes.any Lane.live) &&
    (s.groupsOf t).all fun e => !e.2.endDue && e.2.lanes.all fun x => !x.live || x.waiting

/-- R39: a group that is stuck at its RECONVs traps there. -/
def reconvTraps (s : State) (gid : Nat) : State :=
  match Fm.get? s.groups gid with
  | none => s
  | some g =>
    if reconvStuck g then
      enterTraps s gid fun l => match (g.lane l).st with
        | .reconv _ _ w => some { f := plainFault cConvergence w, at_ := (g.lane l).pair }
        | _ => none
    else s

/-- The lanes of a group that wait at barriers trap there, and the group leaves its phases (R170). -/
def barrierTraps (s : State) (t : Nat) : State :=
  let gs := s.groupsOf t
  let leaves (g : Group) (k : Nat) (b : Barrier) : Barrier := if g.waitsAt k then b.leave g.index else b
  let s := gs.foldl (fun s e =>
    s.modTeam t fun tm => { tm with barriers := Fm.mapVals tm.barriers (leaves e.2) }) s
  gs.foldl (fun s e =>
    match Fm.get? s.groups e.1 with
    | none => s
    | some g => enterTraps s e.1 fun l => match (g.lane l).st with
      | .barrier _ _ w => some { f := plainFault cBarrier w, at_ := (g.lane l).pair }
      | _ => none) s

/-- After lanes have moved: RECONV releases, phases that complete, and the two rules for lanes that could wait for ever
(R38, R39, R169, R170, R171). -/
def afterLanes (s : State) (gid : Nat) : State :=
  match Fm.get? s.groups gid with
  | none => s
  | some g0 =>
    let s := reconvTraps (barrierCheck (s.modGroup gid reconvRelease) g0.team) gid
    if allWaiting s g0.team then barrierTraps s g0.team else s

/-- Where an issuing lane goes (R29, R35). -/
inductive Fx where
  /-- To the bundle after the instruction. -/
  | seq
  /-- To another pair. -/
  | goto (p : Pair)
  /-- Into (TRAPVEC, 63). -/
  | trap (t : TrapAt)
  /-- PARKED for a slice kernel, with the PC at which it resumes. -/
  | park (f : LaneFault) (pc : Pc) (slice : Nat)
  /-- PARKED for a service call (R177). -/
  | call (f : LaneFault) (pc : Pc)
  | exit
  | wait (st : LaneState)
  deriving DecidableEq, Repr

/-- What an instruction issues with: its group (with the distance to its producers applied), its entry, its lanes, its bundle
and its hints. -/
structure Iss where
  gid   : Nat
  g     : Group
  e     : Ent
  lanes : LaneMask
  act   : LaneMask
  pcI   : Pc
  deriving DecidableEq, Repr

/-- The pair of the issuing entry; its PC is the first word of the bundle (R59). -/
def Iss.pair (i : Iss) : Pair := (i.e.pc, i.e.prio)

/-- The lane's effect of an issue. -/
def Fx.apply (x : Lane) (pcI vec : Pc) : Fx → Lane
  | .seq => { x with pc := pcNext pcI }
  | .goto p => { x with pc := p.1, prio := p.2 }
  | .trap t => x.trap t.f t.at_ vec
  | .park f pc _ => { x with st := .parked f, pc := pc }
  | .call f pc => { x with st := .parked f, pc := pc }
  | .exit => { x with st := .exited, pc := pcNext pcI }
  | .wait st => { x with st := st }

/-- The trap that a lane takes. -/
def Fx.trap? : Fx → Option TrapAt
  | .trap t => some t
  | _ => none

/-- The fault, the PC and the slice of a lane that parks for a fault. -/
def Fx.park? : Fx → Option (LaneFault × Pc × Nat)
  | .park f pc slice => some (f, pc, slice)
  | _ => none

/-- The lane parks for a service call. -/
def Fx.isCall : Fx → Bool
  | .call .. => true
  | _ => false

/-- The distance that the issue of the instruction keeps from the group's previous one (R68): its own SCHED's D0, the cover's
next distance, or 6; hint words take a cycle each (R59). -/
def Group.distance (g : Group) (pc0 : Pc) : Nat :=
  let d : Nat :=
    if g.hints.sched then ((g.hints.dists[0]?).getD 0).toNat
    else match g.cover with
      | some c => if c.next == pc0 then ((c.dists[0]?).getD 6).toNat else 6
      | none => 6
  max (g.hints.n + 1) (max 1 d)

/-- The cover after the issue: the instruction's own SCHED covers the next two; an earlier cover goes on only if the bundle
directly follows in memory (R68). -/
def Group.nextCover (g : Group) (pc0 pcI : Pc) : Option Cover :=
  if g.hints.sched then some { dists := g.hints.dists.drop 1, next := pcNext pcI }
  else match g.cover with
    | some c => if c.next == pc0 && 1 < c.dists.length then some { dists := c.dists.drop 1, next := pcNext pcI } else none
    | none => none

/-- The GS bits on their way that come within some cycles (R52). -/
def gsDue (q : List (DWord × Nat)) (cycles : Nat) : DWord :=
  match q with
  | [] => 0
  | w :: r => (if w.2 ≤ cycles then w.1 else 0) ||| gsDue r cycles

/-- After some cycles the writes that are settled drop out (R68), and the GS bits of completed instructions are set (R52). -/
def Group.advance (g : Group) (cycles : Nat) : Group :=
  { g with settle := g.settle.filterMap fun w => if w.left ≤ cycles then none else some { w with left := w.left - cycles },
           gs := g.gs ||| gsDue g.gsq cycles,
           gsq := g.gsq.filterMap fun w => if w.2 ≤ cycles then none else some (w.1, w.2 - cycles) }

/-- A predicate register, 12 for constant true (R109, R61). -/
def Group.pred (g : Group) (n : Nat) : LaneMask := if n == 12 then BitVec.allOnes 64 else Fm.getD g.p n 0

/-- What is being issued (R9, R61): the current group's next entry, its lanes, and those whose guard is true. An entry without
lanes is none (R27). -/
def issueOf (s : State) (guard : BitVec 4) : Option Iss :=
  match s.cur with
  | none => none
  | some gid =>
    match Fm.get? s.groups gid with
    | none => none
    | some g0 =>
      match g0.issuing with
      | none => none
      | some e =>
        let g := g0.advance (max g0.since (g0.distance e.pc))
        let lanes := g.entMask (e.pc, e.prio)
        if lanes == 0 then none
        else some { gid := gid, g := g, e := e, lanes := lanes, act := lanes &&& g.pred guard.toNat,
                    pcI := e.pc + BitVec.ofNat 57 (4 * g.hints.n) }

/-- The world of a group. -/
def worldOf (s : State) (g : Group) : Nat := ((Fm.get? s.teams g.team).map fun t => t.world).getD 0

/-- The parking record of a lane, as the slice kernel that a fault goes to receives it (R371). -/
def parkRec (s : State) (gid : Nat) (g : Group) (l : Nat) (f : LaneFault) (p : Pair) (slice : Nat) : ParkRec :=
  { slice := slice, dial := dialOf s (g.core / 48), group := gid, lane := l, f := f, pc := p.1, prio := p.2, world := worldOf s g, core := g.core,
    index := g.index, team := ((Fm.get? s.teams g.team).map fun t => t.index).getD 0 }

/-- Its 64 bytes (R371). -/
def ParkRec.bytes (r : ParkRec) : List Byte :=
  leBytes 8 r.dial ++ leBytes 4 (r.world % 2048 + r.core / 48 * 2048 + r.core % 48 * 16384 + r.index % 128 * 2 ^ 20) ++
    leBytes 4 (r.lane % 64 + r.f.cause.toNat * 256) ++ leBytes 8 (trapPcOf (r.pc, r.prio)).toNat ++ leBytes 8 r.f.addr.toNat ++
    leBytes 8 r.f.syn.toNat ++ leBytes 8 r.team ++ leBytes 16 0

/-- The chain after an issue: one member less; it ends early when no lane is left in its entry (R75, R76). -/
def nextChain (g : Group) (i : Iss) (stays : Bool) : Option Chain :=
  match g.chain with
  | some c =>
    if c.left ≤ 1 || !stays then none
    else some { c with left := c.left - 1, ent := (pcNext i.pcI, i.e.prio), waits := c.waits && i.g.hints.chain.isSome }
  | none => none

/-- Other groups that used a pipe of the core before lose their latches (R74). -/
def takePipe (s : State) (core gid : Nat) (pipe : Option Nat) : State :=
  match pipe with
  | none => s
  | some p =>
    let k := core * 4 + p
    let s := match Fm.get? s.pipes k with
      | some o => if o != gid then s.modGroup o Group.loseLatches else s
      | none => s
    { s with pipes := Fm.put s.pipes k gid }

/-- Retire an issue (R29, R35): each issuing lane goes where `fx` sends it; `g` holds the group's registers after the
instruction, `pipe` the pipe it took. A bundle with Y sets the yield hold, which falls from the next cycle's end on (R348); the core counts
an instruction (R354). -/
def retire (s : State) (i : Iss) (g : Group) (fx : Nat → Fx) (pipe : Option Nat) : State :=
  let s := countUnit s i.g.core 2 [worldOf s i.g]
  let issuing (l : Nat) : Bool := i.lanes.getLsbD l
  let tr (l : Nat) : Option TrapAt := if issuing l then (fx l).trap? else none
  match firstFatal g tr with
  | some t => killByTrap s g t
  | none =>
    let lanes := lanesOf fun l => if issuing l then (fx l).apply (g.lane l) i.pcI g.vec else g.lane l
    let moved := (List.range 64).filterMap fun l =>
      let x := (fx l).apply (g.lane l) i.pcI g.vec
      if issuing l && x.st == .issuable then some x.pair else none
    let parks := (List.range 64).filterMap fun l =>
      (if issuing l then (fx l).park? else none).map fun x => parkRec s i.gid i.g l x.1 (x.2.1, i.e.prio) x.2.2
    let trapped := (List.range 64).findSome? fun l => tr l
    let stays := (List.range 64).any fun l => issuing l && fx l == .seq
    let ch0 := nextChain g i stays
    let g := { g with lanes := lanes, ents := afterIssue g.ents i.e moved i.g.hints.yield,
                      cover := i.g.nextCover i.e.pc i.pcI, hints := {}, ent := none,
                      urg := min 0xFFFF (g.urg + 1), starve := 0,
                      yieldHold := if i.g.hints.yield then 8 else g.yieldHold, fresh := i.g.hints.yield || g.fresh, since := 0,
                      accepting := false }
    let g := match trapped with
      | some t => { g with trapinfo := infoWord g.trapinfo t.f.word }
      | none => g
    let called := (List.range 64).any fun l => issuing l && (fx l).isCall
    let hit := trapped.isSome || !parks.isEmpty || called
    let head := i.g.hints.chain.isSome
    -- a fault in the head acts at once; in a later member its group-wide effects wait for the chain's end (R76)
    let pending := (g.chain.map fun c => c.faulted).getD false
    let g := match ch0 with
      | some c => if hit && head then { g.loseLatches with chain := some c, cover := none }
                  else { g with chain := some { c with faulted := c.faulted || hit } }
      | none => if hit || pending then { g.loseLatches with chain := none, cover := none } else { g with chain := none }
    let s := takePipe { s with parking := s.parking ++ parks } i.g.core i.gid pipe
    afterLanes (s.modGroup i.gid fun _ => g) i.gid

/-- A fault at the bundle: to the slice kernel or to TRAPVEC by its cause (R35, R174). -/
def faultFx (i : Iss) (slice : Nat) (f : LaneFault) : Fx :=
  let f := { f with word := i.g.word }
  if toKernel f.cause then .park f i.e.pc slice else .trap { f := f, at_ := i.pair }

/-- Every issuing lane takes one cause at the bundle, and nothing else happens (R35, R86). -/
def trapAll (s : State) (i : Iss) (cause : Nat) (syn : BitVec 56 := 0) : State :=
  retire s i i.g (fun _ => faultFx i (coreSlice i.g.core) { cause := BitVec.ofNat 8 cause, syn := syn }) none

/-- Every active lane takes a cause at the bundle; the other issuing lanes move on (R75). -/
def trapActive (s : State) (i : Iss) (cause : Nat) : State :=
  retire s i i.g (fun l =>
    if i.act.getLsbD l then faultFx i (coreSlice i.g.core) { cause := BitVec.ofNat 8 cause } else .seq) none

/-- What a group waits for is over (R347). -/
def Group.holdMet (g : Group) : Bool :=
  match g.hold with
  | .none => true
  | .op _ => false
  | .waitf f t => Fm.getD g.flags f 0 ≤ t
  | .copies c n _ _ => ((Fm.get? g.batches c).getD {}).outs.length ≤ n

/-- A wait that is met is over, whatever the flag or the batches count later (R172, R318). -/
def Group.freed (g : Group) : Group := if g.holdMet then { g with hold := .none } else g

/-- Change the pending writes wherever they stand: on copies, over memory, on copies that travel to a writer. -/
def mapPends (s : State) (f : PendW → PendW) : State :=
  let up (x : L2Sec) : L2Sec := { x with pend := x.pend.map f }
  { s with l2 := Fm.mapVals s.l2 fun _ x => up x, memPend := Fm.mapVals s.memPend fun _ ws => ws.map f,
           owns := Fm.mapVals s.owns fun _ t => { t with copy := t.copy.map up } }

/-- An operation completes: its flag falls by 1, its group stops waiting for it, its ordering time counts for its fence
classes, for a pending fence and for its batch, and its group's engines see its writes early from now on (R64, R236, R238,
R240, R317, R376). -/
def completeOp (s : State) (id : Nat) : State :=
  match Fm.get? s.ops id with
  | none => s
  | some o =>
    let early (w : PendW) : PendW :=
      if w.op == id && w.doneAt.isNone && o.group.isSome then { w with doneAt := some s.nextOp } else w
    let s := mapPends { s with ops := Fm.del s.ops id } early
    match o.group with
    | none =>
      let late (after : Option Nat) (ops : List Nat) : Option Nat := if ops.contains id then laterOf after (some o.time) else after
      { s with
        grids := Fm.mapVals s.grids fun _ g => { g with latest := late g.latest g.ops, ops := g.ops.filter (· != id) },
        jwrites := s.jwrites.map fun w => { w with after := late w.after w.ops, ops := w.ops.filter (· != id) } }
    | some gid =>
      s.modGroup gid fun g =>
        let g := match o.flag with
          | some f => { g with flags := Fm.put g.flags f (g.flag f - 1) }
          | none => g
        let times := (List.range 7).foldl (fun t c =>
          if o.cls.getLsbD c then Fm.put t c (max (Fm.getD t c 0) o.time) else t) g.times
        let fence := g.fence.map fun f =>
          if f.ops.contains id then { f with ops := f.ops.filter (· != id), time := max f.time o.time } else f
        let bs := Fm.mapVals g.batches fun _ b =>
          { openOps := b.openOps.filter (· != id),
            outs := (b.outs.map fun x => x.filter (· != id)).dropWhile List.isEmpty }
        Group.freed { g with times := times, fence := fence, batches := bs, hold := if g.hold == .op id then .none else g.hold }
/-- Raise an operation's latest ordering time (R236). -/
def noteTime (s : State) (id t : Nat) : State := { s with ops := Fm.mod s.ops id fun o => { o with time := max o.time t } }

/-- The lanes of an operation that wait in the place queue (R289). -/
def Op.heldLanes (o : Op) : Nat :=
  match o.kind with
  | .mem m => (m.accs.filter fun a => a.held).length
  | .place p => (p.lanes.filter fun l => l.held).length
  | _ => 0

/-- An accepted operation starts: its number, its flag raised by 1, its group held when it names none (R64, R206). The group
comes back changed. -/
def startOp (s : State) (g : Group) (f : BitVec 4) (o : Op) : State × Group × Nat :=
  let (s, id) := newOp (countUnit s o.core 11 [o.world] o.heldLanes) { o with flag := if f.toNat == 15 then none else some f.toNat }
  let g := if f.toNat == 15 then { g with hold := .op id, chain := g.chain.map fun c => { c with waits := true } } else { g with flags := Fm.put g.flags f.toNat (g.flag f.toNat + 1) }
  (s, g, id)

/-- The flag would pass 63 (R346). -/
def flagFull (g : Group) (f : BitVec 4) : Bool := f.toNat ≤ 11 && g.flag f.toNat ≥ 63

/-- A full flag: every issuing lane takes FLAG_OVERFLOW at the bundle, and the instruction is not issued, so that it counts for no age, no URG
and no yield (R346). -/
def trapFull (s : State) (i : Iss) (f : Nat) (syn : BitVec 56 := 0) : State :=
  afterLanes (enterTraps (s.modGroup i.gid fun g => { g with hints := {}, ent := none, starve := 0 }) i.gid fun l =>
    if i.lanes.getLsbD l then
      some { f := { cause := BitVec.ofNat 8 cFlagOverflow, syn := syn, addr := BitVec.ofNat 64 f, word := i.g.word }, at_ := i.pair }
    else none) i.gid

/-- The word cannot issue now: the group is not ready for the rest of the cycle, and its pipe is free for another (R347, R350). -/
def holdOff (s : State) (gid : Nat) : State :=
  match Fm.get? s.groups gid with
  | none => s
  | some g =>
    { s with groups := Fm.put s.groups gid { g with stalled := true },
             cycles := Fm.mod s.cycles g.core fun c => if c.granted.head? = some gid then { c with used := c.used.drop 1 } else c }

/-- The word has issued and cannot be accepted now (R206, R224). A chain whose last member waits for acceptance holds its core no more (R351). -/
def stall (s : State) (gid : Nat) : State :=
  let ended (c : Chain) : Chain := if c.left ≤ 1 then { c with ended := true } else c
  (holdOff s gid).modGroup gid fun g => { g with accepting := true, chain := g.chain.map ended }

/-- Set GS bits of a group (R51). -/
def Group.orGs (g : Group) (b : DWord) : Group := { g with gs := g.gs ||| b }

/-- GS bits that a fixed-latency instruction sets when it completes (R52). -/
def Group.orGsAt (g : Group) (lat : Nat) (b : DWord) : Group := if b == 0 then g else { g with gsq := (b, lat) :: g.gsq }

end Sys2Proof.Machine
end

