-- ==== Sys2Proof/Machine/Operands.lean ====
section
/-! DEFINITION. Every operand form: what hints an instruction accepts, the source bytes, literals, constants, destinations and
latches (spec/04 R62 to R75, spec/03 R53, spec/06 R106 to R112), and the checks that come before an instruction's effect. -/

namespace Sys2Proof.Machine

/-- The MOD fields of the arithmetic layout (R70). -/
structure MdA where
  rm  : Nat := 0
  sat : Bool := false
  n   : Bool := false
  ty  : Nat := 0
  sh  : Nat := 0
  deriving DecidableEq, Repr

/-- The MOD fields of the memory layout (R70). -/
structure MdM where
  pol    : Nat := 0
  lease  : Nat := 0
  stride : Nat := 1
  deriving DecidableEq, Repr

/-- The arithmetic fields of a bundle; all 0 without a MOD hint. -/
def Hints.arith (h : Hints) : MdA :=
  match h.md with
  | none => {}
  | some p =>
    let x := p.toNat
    { rm := nfield x 19 2, sat := nfield x 18 1 == 1, n := nfield x 17 1 == 1, ty := nfield x 13 4, sh := nfield x 11 2 }

/-- The memory fields of a bundle; STRIDE is 1 without a MOD hint. -/
def Hints.memory (h : Hints) : MdM :=
  match h.md with
  | none => {}
  | some p => { pol := nfield p.toNat 19 2, lease := nfield p.toNat 6 13, stride := nfield p.toNat 0 6 }

/-- The OFF of a bundle, as a number modulo 2^64 (R71). -/
def Hints.offset (h : Hints) : Int :=
  match h.off with
  | none => 0
  | some o => o.toInt

/-- MOD TYPE codes (R70). -/
def tyF32 : Nat := 1
def tyF16 : Nat := 2
def tyBf16 : Nat := 3
def tyE4m3 : Nat := 4
def tyE5m2 : Nat := 5
def tyE2m1 : Nat := 6
def tyI8 : Nat := 7
def tyI16 : Nat := 8
def tyI32 : Nat := 9
def tyI64 : Nat := 10

/-- What MOD an instruction accepts (R70, R111, R128). -/
inductive ModRule where
  | none
  | arith (types : List Nat) (n sat rm sh : Bool)
  /-- The memory layout with STRIDE, and POL and LEASE too when `lease`; `vec` says that the address is a vector. -/
  | memory (lease vec : Bool)
  /-- The memory layout of the ticket instructions: POL 01 and a ticket lease. -/
  | ticket
  deriving DecidableEq, Repr

/-- The ticket lease of a MOD hint in ticks, m × 2^e µs; m = 0 selects 1 ms (R70). -/
def ticketLease (lease : Nat) : Nat :=
  let m := lease % 512
  let e := lease / 512
  if m == 0 then 1000000 else m * 2 ^ e * 1000

/-- The MOD hint of the bundle is one the instruction accepts. -/
def modAccepted (h : Hints) (r : ModRule) : Bool :=
  match h.md with
  | .none => true
  | .some p =>
    let isMem := nfield p.toNat 21 1 == 1
    match r with
    | .none => false
    | .arith types n sat rm sh =>
      let a := h.arith
      !isMem && types.contains a.ty && (n || !a.n) && (sat || !a.sat) && (rm || a.rm == 0) && (sh || a.sh == 0)
    | .memory lease vec =>
      let m := h.memory
      isMem && (if lease then m.lease ≤ 4096 && (m.pol == 1 || m.lease == 0) else m.pol == 0 && m.lease == 0) &&
        (!vec || m.stride == 0)
    | .ticket =>
      let m := h.memory
      isMem && m.pol == 0 && m.stride == 0 && 1000 ≤ ticketLease m.lease && ticketLease m.lease ≤ 1000000000

/-- What kind of IMM an instruction accepts (R69): none, target I, target B as an integer, target B as FP32. -/
inductive ImmRule where
  | none | i | bInt (b : BitVec 8) | bFp (b : BitVec 8)
  deriving DecidableEq, Repr

/-- The IMM hint of the bundle is one the instruction accepts; target B needs a literal tag in B. -/
def immAccepted (h : Hints) (r : ImmRule) : Bool :=
  match h.imm with
  | .none => true
  | .some p =>
    let t := nfield p.toNat 21 1
    let fp := nfield p.toNat 20 1
    match r with
    | .none => false
    | .i => t == 0
    | .bInt b => t == 1 && fp == 0 && srcTag b == 3
    | .bFp b => t == 1 && fp == 1 && srcTag b == 3

/-- The form of an instruction, for the checks that come before its effect. -/
structure Form where
  /-- The pipe it takes (R85). -/
  pipe   : Option Nat := some 3
  /-- It may stand in a chain after the head (R75). -/
  member : Bool := true
  /-- It accepts CHAIN (R66, R75). -/
  chain  : Bool := true
  imm    : ImmRule := .none
  md     : ModRule := .none
  place  : Bool := false
  off    : Bool := false
  /-- It has a source of kind 10, so it accepts CBANK (R66). -/
  konst  : Bool := false
  /-- The F field, when it has one. -/
  f      : Option (BitVec 4) := none
  /-- The vector registers it names, for the role budget (R24). -/
  vregs  : List Nat := []
  /-- The latches it reads (R75). -/
  latches : List Nat := []
  /-- Its 64-bit operands name even registers or scalars, and a 64-bit result no latch (R62, R63, R112). -/
  legal  : Bool := true
  /-- Every issuing lane counts as active (SEL, R121). -/
  every  : Bool := false
  /-- The syndrome of a cause found at decode (R208, R287, R305). -/
  syn    : BitVec 56 := 0
  deriving DecidableEq, Repr

/-- A source byte names a constant word. -/
def isConst (a : BitVec 8) : Bool := srcTag a == 2

/-- The vector registers that a source byte names at a width. -/
def srcRegs (wide : Bool) (a : BitVec 8) : List Nat :=
  if isVec a && srcIdx a < 60 then (if wide then [srcIdx a, srcIdx a + 1] else [srcIdx a]) else []

/-- The latches that a source byte names. -/
def srcLatch (a : BitVec 8) : List Nat := if isVec a && 60 ≤ srcIdx a then [srcIdx a - 60] else []

/-- The vector registers of a destination at a width, when the destination is a vector (R63). -/
def destRegs (wide : Bool) (a : BitVec 8) (d : BitVec 6) : List Nat :=
  if isScalar a || 60 ≤ d.toNat then [] else if wide then [d.toNat, d.toNat + 1] else [d.toNat]

/-- R24, R62, R63, R66, R70, R75: the bundle and the registers of the instruction are legal. -/
def formOk (g : Group) (f : Form) : Bool :=
  let h := g.hints
  f.legal && immAccepted h f.imm && modAccepted h f.md && (h.place.isNone || f.place) && (h.off.isNone || f.off) &&
    (h.cbank.isNone || f.konst) && (h.chain.isNone || f.chain) &&
    (f.vregs.all fun n => n < g.budget) &&
    match g.chain with
    | none => true
    | some c => f.member && h.chain.isNone && !(h.sched && h.wait != 0) && (f.f != some 15) && (f.pipe != some 3 || c.left == 1)

/-- R75: every latch read is of a member after the head whose chain wrote that latch before. -/
def latchesOk (g : Group) (f : Form) : Bool :=
  f.latches.all fun b => match g.chain with
    | none => false
    | some c => c.wrote.getLsbD b

/-- An unsettled write of a register (R68). -/
def Group.race (g : Group) (r : Reg) : Option Settle := g.settle.find? fun w => w.reg == r

/-- A vector register in a lane; a register race returns the old value or the new one (R68, log entry 5). -/
def readV (s : State) (g : Group) (n l : Nat) : Word :=
  let new := laneW (Fm.getD g.v n []) l
  match g.race (.v n) with
  | none => new
  | some w => if Config.raceOld s.freeCtr 0 n l then ((w.old[l]?).getD 0).setWidth 32 else new

/-- A scalar register; s0 reads 0 (R108). -/
def readS (s : State) (g : Group) (n : Nat) : DWord :=
  if n == 0 then 0
  else
    let new := Fm.getD g.s n 0
    match g.race (.s n) with
    | none => new
    | some w => if Config.raceOld s.freeCtr 1 n 0 then (w.old[0]?).getD 0 else new

/-- A predicate register, 12 for true in every lane (R109). -/
def readP (s : State) (g : Group) (n : Nat) : LaneMask :=
  if n == 12 then BitVec.allOnes 64
  else
    let new := Fm.getD g.p n 0
    match g.race (.p n) with
    | none => new
    | some w => maskOf fun l => if Config.raceOld s.freeCtr 2 n l then ((w.old[0]?).getD 0).getLsbD l else new.getLsbD l

/-- R75, R76: active lanes that read a latch in a running chain whose head they did not issue in: they joined its entry from elsewhere. -/
def strays (i : Iss) (f : Form) : LaneMask :=
  match i.g.chain with
  | some c => if f.latches.isEmpty then 0 else i.act &&& ~~~ c.lanes
  | none => 0

/-- Those lanes take LATCH_CHAIN at the bundle; the others then issue it (R76). -/
def strayTraps (s : State) (i : Iss) (m : LaneMask) : State :=
  if i.lanes &&& ~~~ m == 0 then trapActive s i cLatchChain
  else
    afterLanes (enterTraps s i.gid fun l =>
      if m.getLsbD l then some { f := { cause := BitVec.ofNat 8 cLatchChain, word := i.g.word }, at_ := i.pair } else none) i.gid

/-- The checks before an instruction's effect: nothing to issue, an illegal bundle, a latch read outside a chain, or go on.
A CHAIN hint starts the chain, which the lanes that fault in the head leave (R75, R76, R86). -/
def prelude (s : State) (guard : BitVec 4) (f : Form) : Except State Iss :=
  match issueOf s guard with
  | none => .error s
  | some i0 =>
    let i := { i0 with act := i0.lanes &&& readP s i0.g guard.toNat }
    if !formOk i.g f then .error (trapAll s i cIllegal f.syn)
    else
      let i := match i.g.hints.chain with
        | none => i
        | some n => { i with g := { i.g with chain := some { left := n.toNat + 1, wrote := 0, ent := i.pair, lanes := i.lanes } } }
      let t := if f.every then { i with act := i.lanes } else i
      if !latchesOk i.g f then .error (trapActive s t cLatchChain)
      else if strays t f != 0 then .error (strayTraps s t (strays t f))
      else .ok i

/-- A latch in a lane; a lost latch reads 0 (R74). -/
def readB (s : State) (g : Group) (n l : Nat) : Word :=
  let new := laneW (Fm.getD g.b n []) l
  match g.race (.b n) with
  | none => new
  | some w => if Config.raceOld s.freeCtr 3 n l then ((w.old[l]?).getD 0).setWidth 32 else new

/-- A wide pair in a lane (R107). -/
def readW (s : State) (g : Group) (n l : Nat) : DWord := (readV s g (n + 1) l) ++ (readV s g n l)

/-- The integer reading of a literal (R53). -/
def litInt (i : Nat) : Word :=
  if i ≤ 31 then BitVec.ofNat 32 i
  else if i ≤ 47 then BitVec.ofInt 32 ((i : Int) - 48)
  else ([32, 48, 64, 100, 128, 255, 256, 512, 1024, 4096, 0xFFFF, 0x10000, 0x7FFFFFFF, 0x80000000, 0x55555555,
    0x33333333] : List Word)[i - 48]?.getD 0

/-- FP32 bits of the integers 0 to 31 (R53). -/
def litFpSmall (n : Nat) : Nat :=
  if n == 0 then 0
  else
    let e := Nat.log2 n
    (127 + e) * 2 ^ 23 + (n - 2 ^ e) * 2 ^ (23 - e)

/-- The FP32 reading of a literal (R53). -/
def litFp (i : Nat) : Word :=
  if i ≤ 31 then BitVec.ofNat 32 (litFpSmall i)
  else if i ≤ 47 then BitVec.ofNat 32 (2 ^ 31 + litFpSmall (48 - i))
  else ([0x3F000000, 0x3E800000, 0x3E000000, 0x3FC00000, 0x3C800000, 0x3F3504F3, 0x3F317218, 0x3FB8AA3B, 0x40490FDB,
    0x40C90FDB, 0x477FE000, 0x43E00000, 0x7F7FFFFF, 0x00800000, 0x7F800000, 0x7FC00000] : List Word)[i - 48]?.getD 0

/-- The constant bank and window that a bundle reads (R72, R110). -/
def constBank (g : Group) : Nat × Nat :=
  match g.hints.cbank with
  | some (b, w) => (b.toNat, w.toNat)
  | none => (nfield g.kwin.toNat 8 4, nfield g.kwin.toNat 0 8)

/-- The address of word `k` of the window in a bank that is bound to memory: none for an unbound bank, and for bank 15 of a KERNEL node's
grid (R110, R337). -/
def constVa (tm : Team) (g : Group) (k : Nat) : Option Nat :=
  let base := (tm.d.banks[(constBank g).1]?).getD 0
  if base == 0 || ((constBank g).1 == 15 && tm.d.params.isSome) then none else some (base + 256 * (constBank g).2 + 4 * k)

/-- The line that a core's constant cache holds for an address (R110). -/
def constLine (s : State) (core world va : Nat) : Option ConstLine :=
  s.ccache.find? fun c => c.core == core && c.world == world && c.line == va / 128

/-- A word of a constant window (R110, R72): 0 for an unbound bank or beyond the buffer's end; a KERNEL node binds bank 15 to its
replay's parameter block (R337). A read never faults: where the page's leaf, its buffer or a poisoned sector would stop an LD, it
returns the bytes that lie there (DEDUCED, log entry 7). -/
def constWord (s : State) (g : Group) (k : Nat) : Word :=
  match Fm.get? s.teams g.team with
  | none => 0
  | some tm =>
    match constVa tm g k with
    | none =>
      if (constBank g).1 == 15 then BitVec.ofNat 32 (leNat (((tm.d.params.getD []).drop (256 * (constBank g).2 + 4 * k)).take 4)) else 0
    | some va =>
      match xlate s (g.core / 48) tm.world va with
      | .error _ => Config.constUnmapped (constBank g).1 (64 * (constBank g).2 + k)
      | .ok x =>
        if descSize x.d < x.o + 4 then 0
        else
          match constLine s g.core tm.world va with
          | some c => BitVec.ofNat 32 (leNat ((c.data.drop (va % 128)).take 4))
          | none => BitVec.ofNat 32 (leNat (peek s (g.core / 48) (encOf s x.d x.o) x.phys 4))

/-- A 32-bit source operand in a lane (R62); `lit` is the reading of literals that the instruction takes (R53). -/
def src32 (s : State) (g : Group) (lit : Nat → Word) (a : BitVec 8) (l : Nat) : Word :=
  let n := srcIdx a
  match srcTag a with
  | 0 => if n < 60 then readV s g n l else readB s g (n - 60) l
  | 1 => (readS s g n).setWidth 32
  | 2 => constWord s g n
  | _ => lit n

/-- A 64-bit source operand in a lane: a pair, a whole scalar, a sign-extended constant or literal (R62). -/
def src64 (s : State) (g : Group) (a : BitVec 8) (l : Nat) : DWord :=
  let n := srcIdx a
  match srcTag a with
  | 0 => readW s g n l
  | 1 => readS s g n
  | 2 => (constWord s g n).signExtend 64
  | _ => (litInt n).signExtend 64

/-- The source fields of an instruction that may name a constant (R62). -/
def constFields : Instr → List (BitVec 8)
  | .iadd _ _ a b | .isub _ _ a b | .imul _ _ a b | .imulhi _ _ a b | .imulhn _ _ a b | .imad _ _ a b | .imin _ _ a b | .imax _ _ a b
  | .nmin _ _ a b | .nmax _ _ a b | .and _ _ a b | .or _ _ a b | .xor _ _ a b | .andn _ _ a b | .shl _ _ a b | .shr _ _ a b | .sar _ _ a b
  | .jmpi _ a b | .lea _ _ a b | .icmp _ _ _ a b | .ncmp _ _ _ a b | .fcmp _ _ _ a b | .sel _ _ a b | .fadd _ _ a b | .fsub _ _ a b
  | .fmul _ _ a b | .ffma _ _ a b | .fmin _ _ a b | .fmax _ _ a b | .hadd2 _ _ a b | .hmul2 _ _ a b | .hfma2 _ _ a b | .fdot2 _ _ a b
  | .shfl _ _ a b => [a, b]
  | .mov _ _ a | .bitu _ _ a _ | .cvt _ _ a _ | .sfu _ _ a _ | .reds _ _ a _ => [a]
  | _ => []

/-- The words of the constant window that an instruction reads: its fields, and the coefficients of a PLACE hint (R73). -/
def constWords (i : Instr) (h : Hints) : List Nat :=
  ((constFields i).filter fun a => srcTag a == 2).map srcIdx ++ (match i, h.place with
    | .place .., some (_, _, ca, cb) => ([ca, cb].filter fun c => c.msb).map fun c => c.toNat % 64
    | _, _ => [])

/-- The lines of memory that an instruction's constant words need, with their translations. -/
def constNeeds (s : State) (g : Group) (i : Instr) : List (Nat × Xl) :=
  match Fm.get? s.teams g.team with
  | none => []
  | some tm => (dedup (((constWords i g.hints).filterMap fun k => constVa tm g k).map fun va => va / 128 * 128)).filterMap fun va =>
      match xlate s (g.core / 48) tm.world va with
      | .ok x => if descSize x.d < x.o + 128 then none else some (va, x)
      | .error _ => none

/-- The line is not in the core's constant cache: it was never read, or it has left it, which is left open (R182). -/
def constMiss (s : State) (g : Group) (va : Nat) : Bool :=
  (constLine s g.core (worldOf s g) va).isNone || Config.constDropped s.freeCtr (va / 128)

/-- A line that must be read lies in a sector that an engine owns: the read waits (R250). -/
def constWaits (s : State) (g : Group) (i : Instr) : Bool :=
  (constNeeds s g i).any fun n => constMiss s g n.1 && marked s (secOf n.2.phys) none

/-- The constant cache of a group's core reads the lines that an instruction needs and it lacks (R110). -/
def fillConsts (s : State) (g : Group) (i : Instr) : State :=
  let world := worldOf s g
  (constNeeds s g i).foldl (fun t n =>
    if !constMiss s g n.1 then t
    else
      let keep := t.ccache.filter fun c => !(c.core == g.core && c.world == world && c.line == n.1 / 128)
      let line : ConstLine := { core := g.core, world := world, line := n.1 / 128,
                                data := peekSec s (g.core / 48) (encOf s n.2.d n.2.o) (secOf n.2.phys) .other }
      { useXl t g.core world n.1 false n.2 with ccache := line :: keep }) s

/-- The immediate that an IMM hint gives B (R69). -/
def immB (h : Hints) (b : BitVec 8) : Option Word :=
  match h.imm with
  | none => none
  | some p =>
    if nfield p.toNat 20 1 == 0 then
      some ((BitVec.ofNat 26 (nfield p.toNat 0 20 * 64 + srcIdx b)).signExtend 32)
    else some (BitVec.ofNat 32 (nfield p.toNat 0 20 * 2 ^ 12 + srcIdx b * 64))

/-- B as a 32-bit operand, with its immediate (R62, R69). -/
def srcB32 (s : State) (g : Group) (lit : Nat → Word) (b : BitVec 8) (l : Nat) : Word :=
  match immB g.hints b with
  | some x => x
  | none => src32 s g lit b l

/-- B as a 64-bit operand, with its immediate sign-extended (R62, R69). -/
def srcB64 (s : State) (g : Group) (b : BitVec 8) (l : Nat) : DWord :=
  match immB g.hints b with
  | some x => x.signExtend 64
  | none => src64 s g b l

/-- The immediate of an I-form instruction (R69). -/
def immI (h : Hints) (i : BitVec 16) : DWord :=
  match h.imm with
  | none => i.signExtend 64
  | some p => (BitVec.ofNat 37 (nfield p.toNat 0 21 * 2 ^ 16 + i.toNat)).signExtend 64

/-- Write some lanes of a vector register, which settles after the producer's latency (R68). -/
def putV (g : Group) (lat n : Nat) (act : LaneMask) (val : Nat → Word) : Group :=
  let old := Fm.getD g.v n []
  let new := lanesOf fun l => if act.getLsbD l then val l else laneW old l
  { g with v := Fm.put g.v n new,
           settle := { reg := .v n, old := lanesOf fun l => (laneW old l).setWidth 64, left := lat } :: g.settle }

/-- Write a latch: the active lanes take the value, the others 0 (R74); a chain member's write is noted (R75). -/
def putB (g : Group) (lat n : Nat) (act : LaneMask) (val : Nat → Word) : Group :=
  let old := Fm.getD g.b n []
  { g with b := Fm.put g.b n (lanesOf fun l => if act.getLsbD l then val l else 0),
           settle := { reg := .b n, old := lanesOf fun l => (laneW old l).setWidth 64, left := lat } :: g.settle,
           chain := g.chain.map fun c => { c with wrote := c.wrote ||| BitVec.ofNat 4 (2 ^ n) } }

/-- Write a scalar register; s0 ignores it (R108). -/
def putS (g : Group) (lat n : Nat) (x : DWord) : Group :=
  if n == 0 then g
  else { g with s := Fm.put g.s n x, settle := { reg := .s n, old := [Fm.getD g.s n 0], left := lat } :: g.settle }

/-- Write some lanes of a predicate (R109). -/
def putP (g : Group) (lat n : Nat) (act val : LaneMask) : Group :=
  let old := Fm.getD g.p n 0
  { g with p := Fm.put g.p n ((old &&& ~~~ act) ||| (val &&& act)),
           settle := { reg := .p n, old := [old], left := lat } :: g.settle }

/-- A 32-bit result of pipe `p` to a vector destination and its latch, or to the latch alone (R63, R74). -/
def putVec32 (g : Group) (p lat : Nat) (d : BitVec 6) (act : LaneMask) (val : Nat → Word) : Group :=
  let g := putB g lat p act val
  if 60 ≤ d.toNat then g else putV g lat d.toNat act val

/-- A 64-bit result to a pair; the latch takes the low half (R74, R112). -/
def putVec64 (g : Group) (p lat : Nat) (d : BitVec 6) (act : LaneMask) (val : Nat → DWord) : Group :=
  let g := putB g lat p act fun l => (val l).setWidth 32
  let g := putV g lat d.toNat act fun l => (val l).setWidth 32
  putV g lat (d.toNat + 1) act fun l => (val l >>> 32).setWidth 32

/-- A scalar result, written if the guard is met (R108). -/
def putScalar (g : Group) (lat : Nat) (d : BitVec 6) (act : LaneMask) (x : DWord) : Group :=
  if act == 0 then g else putS g lat d.toNat x

/-- Write registers that an operation's completion writes; nothing races with them, since the flag tells (R64, R68). -/
def Group.setV (g : Group) (n l : Nat) (x : Word) : Group :=
  let old := Fm.getD g.v n []
  { g with v := Fm.put g.v n (lanesOf fun k => if k == l then x else laneW old k) }

/-- Write a scalar register at a completion. -/
def Group.setS (g : Group) (n : Nat) (x : DWord) : Group := if n == 0 then g else { g with s := Fm.put g.s n x }

/-- The lowest active lane, for what the group does once (R108). -/
def firstLane (m : LaneMask) : Nat := ((List.range 64).find? fun l => m.getLsbD l).getD 0

/-- Finish an instruction that raised nothing: every issuing lane moves on (R29). -/
def finish (s : State) (i : Iss) (g : Group) (pipe : Option Nat) : State :=
  retire { s with freeCtr := s.freeCtr + 1 } i g (fun _ => .seq) pipe

end Sys2Proof.Machine
end

