-- ==== Sys2Proof/Machine/Fetch.lean ====
section
/-! DEFINITION. Fetching a bundle through translation (spec/09 R168), what holds it back (spec/04 R59, R68; spec/12 R238;
spec/17 R347, R351), and the choice of the regulator (spec/17 R350). -/

namespace Sys2Proof.Machine

/-- A word of code, or the cause that a 32-bit load of it would take, with right X in place of R (R168). -/
def fetchWord (s : State) (core world : Nat) (pc : Pc) : Except Nat Word :=
  match checkVa s (core / 48) world (pcVa pc) 4 .fetch fun x => placeCauses x (core / 48) .load with
  | .error c => .error c
  | .ok x =>
    if poisonAt s (core / 48) (secOf x.phys) then .error cPoison
    else .ok (BitVec.ofNat 32 (leNat (peek s (core / 48) (encOf s x.d x.o) x.phys 4)))

/-- The word is a hint word (R60). -/
def isHint (w : Word) : Bool := w.toNat / 2 ^ 26 == 0x3F

/-- What the words of a bundle say before it issues: its SCHED wait mask and distance, a CHAIN hint, the number of its hint words, its
instruction word. -/
structure Look where
  wait  : Option (BitVec 12) := none
  dist  : Nat := 0
  hints : Nat := 0
  chain : Bool := false
  word  : Option Word := none
  deriving DecidableEq, Repr

/-- The hint words and the instruction word from an address on (R59). -/
def lookFrom (s : State) (core world : Nat) : Nat → Pc → Look → Look
  | 0, _, k => k
  | n + 1, pc, k =>
    match fetchWord s core world pc with
    | .error _ => k
    | .ok w =>
      if isHint w then
        let kind := nfield w.toNat 22 4
        lookFrom s core world n (pcNext pc)
          { k with wait := if kind == 0 && k.wait.isNone then some (BitVec.ofNat 12 (nfield w.toNat 10 12)) else k.wait,
                   dist := if kind == 0 && k.wait.isNone then nfield w.toNat 7 3 else k.dist, hints := k.hints + 1,
                   chain := k.chain || kind == 4 }
      else { k with word := some w }

/-- The bundle at the head of a group's frontier. -/
def Group.look (s : State) (g : Group) (pc : Pc) : Look := lookFrom s g.core (worldOf s g) 4 pc {}

/-- The fence classes of an instruction: R 0, W 1, CR 2, CW 3, MR 4, MW 5, PX 6 (R223, R236, R332). -/
def fenceCls : Instr → BitVec 7
  | .ld .. | .lds .. | .graph .. | .rqry .. => 0x01
  | .st .. | .sts .. | .resid .. => 0x02
  | .atom .. | .atoms .. | .rinit .. | .rpush .. | .rawait .. | .rrel .. => 0x03
  | .cpyT .. | .cpyHead .. => 0x0C
  | .mloadw .. | .mma .. | .maccld .. => 0x10
  | .maccst .. => 0x20
  | .mcomp .. => 0x30
  | .tkld .. | .tkrdm .. | .tkdrop .. | .tkxtnd .. | .saopen .. | .saadd .. | .sanorm .. | .saevict .. | .safill .. | .sastat .. | .saclose ..
  | .place .. | .plsync .. => 0x40
  | _ => 0

/-- The fence classes of a word. -/
def wordCls (w : Word) : BitVec 7 :=
  match Sys2Proof.decode w with
  | .ok i => fenceCls i
  | .error _ => 0

/-- The word is a FENCE. -/
def wordIsFence (w : Word) : Bool :=
  match Sys2Proof.decode w with
  | .ok (.fence ..) => true
  | _ => false

/-- R68: the flags allow the bundle at `pc` to start. -/
def Group.waitMet (g : Group) (k : Look) (pc : Pc) : Bool :=
  let zero (n : Nat) : Bool := Fm.getD g.flags n 0 == 0
  if g.chain.isSome then true
  else match k.wait with
    | some m => (List.range 12).all fun n => !m.getLsbD n || zero n
    | none => (match g.cover with
        | some c => c.next == pc && !c.dists.isEmpty
        | none => false) || (List.range 12).all zero

/-- R68, R59: the cycles since the group's previous instruction, and those of the bundle's hint words, meet its minimum distance: its own
SCHED's D0, the cover's next distance, or 6. -/
def Group.distMet (g : Group) (k : Look) (pc : Pc) : Bool :=
  let d : Nat := match k.wait, g.cover with
    | some _, _ => k.dist
    | none, some c => if c.next == pc then ((c.dists[0]?).getD 6).toNat else 6
    | none, none => 6
  d ≤ g.since + k.hints

/-- R238: a pending FENCE holds an access of its successor set, a later FENCE, and a chain head (R351). -/
def Group.fenceMet (g : Group) (k : Look) : Bool :=
  match g.fence with
  | none => true
  | some f =>
    match k.word with
    | none => true
    | some w => wordCls w &&& f.succ == 0 && !wordIsFence w && !k.chain

/-- The group is inside a latch chain that holds its core (R351). -/
def Group.chaining (g : Group) : Bool := g.chain.any fun c => !c.ended && !c.waits

/-- Some group of a core is inside a latch chain other than `gid` (R75, R351). -/
def chainElsewhere (s : State) (core gid : Nat) : Bool :=
  s.groups.any fun e => e.1 != gid && e.2.core == core && e.2.chaining

/-- A group of the core is forced (R347). -/
def forcedElsewhere (s : State) (core gid : Nat) : Bool :=
  s.groups.any fun e => e.1 != gid && e.2.core == core && 64 ≤ e.2.starve

/-- What the words of a bundle say from its next word on, with what its hint words said before. -/
def Group.lookOn (s : State) (g : Group) (pc : Pc) : Look :=
  let k := g.look s (pc + BitVec.ofNat 57 (4 * g.hints.n))
  { k with chain := k.chain || g.hints.chain.isSome }

/-- The team runs, or is being halted while the group is inside a bundle or a chain and does not wait for acceptance (R43, R59, R374). -/
def goesOn (s : State) (g : Group) : Bool :=
  match Fm.get? s.teams g.team with
  | some t => t.phase == .running || (t.phase == .halting && !g.accepting && (g.hints.n != 0 || g.chain.any fun c => !c.ended))
  | none => false

/-- A group of a core may be granted a word (R347): the first word of a bundle when its wait mask and distance are met and no pending FENCE holds
the bundle's instruction (R59, R238), a later one at once; the head of a chain issues only while no other group is forced (R351). -/
def ready (s : State) (gid : Nat) (g : Group) : Bool :=
  if !goesOn s g || g.halted || g.ended || g.away || g.stalled || !g.holdMet || chainElsewhere s g.core gid then false
  else
    match g.issuing with
    | none => false
    | some e =>
      let lanes := g.entMask (e.pc, e.prio)
      let k := g.lookOn s e.pc
      let first := g.hints.n == 0
      (!first || (!(g.deferred.any fun d => lanes.getLsbD d.lane) && g.waitMet k e.pc && g.distMet k e.pc && g.fenceMet k)) &&
        !(k.chain && (first || k.hints == 0) && forcedElsewhere s g.core gid)

/-- The pipe of a major opcode; none for SYNC, SYS and hint words (R85). -/
def pipeOf (op : Nat) : Option Nat :=
  if op == 0x1F || op == 0x2A || op == 0x2B || op == 0x2C then some 2
  else if op == 0x16 || op == 0x1D || (0x20 ≤ op && op ≤ 0x29) then some 1
  else if 0x2D ≤ op && op ≤ 0x3A then some 3
  else if 0x3D ≤ op then none
  else some 0

/-- The pipe slot that a group's next word needs: 0 to 3, or 4 for the slots without a pipe (R350). -/
def slotOf (s : State) (g : Group) : Nat :=
  match g.issuing with
  | none => 4
  | some e =>
    match fetchWord s g.core (worldOf s g) (e.pc + BitVec.ofNat 57 (4 * g.hints.n)) with
    | .error _ => 4
    | .ok w => (pipeOf (w.toNat / 2 ^ 26)).getD 4

/-- The order of R350 among candidates: forced by starvation count, unheld, URG, GROUP, slot. -/
def candBefore (a b : Group) : Bool :=
  let fa := if 64 ≤ a.starve then a.starve else 0
  let fb := if 64 ≤ b.starve then b.starve else 0
  if fa != fb then fb < fa
  else if (a.yieldHold == 0) != (b.yieldHold == 0) then a.yieldHold == 0
  else if a.urg != b.urg then a.urg < b.urg
  else if a.index != b.index then a.index < b.index
  else a.slot < b.slot

/-- The first candidate in that order. -/
def bestCand : List (Nat × Group) → Option (Nat × Group)
  | [] => none
  | a :: r =>
    match bestCand r with
    | none => some a
    | some b => if candBefore b.2 a.2 then some b else some a

/-- The groups that a core could grant a word in the rest of its cycle, with the slot each needs. -/
def candidates (s : State) (core : Nat) : List (Nat × Nat × Group) :=
  let c := (Fm.get? s.cycles core).getD {}
  s.groups.filterMap fun e =>
    if e.2.core == core && !c.granted.contains e.1 && ready s e.1 e.2 then
      let k := slotOf s e.2
      if (c.used.filter (· == k)).length < (if k == 4 then 2 else 1) then some (e.1, k, e.2) else none
    else none

/-- The next grant of a core's cycle: pipes 0 to 3 in order, then the slots without a pipe (R350); none in a gated cycle (R19). -/
def nextGrant (s : State) (core : Nat) : Option (Nat × Nat) :=
  let cs := if s.gated then [] else candidates s core
  (List.range 5).findSome? fun k =>
    (bestCand ((cs.filter fun c => c.2.1 == k).map fun c => (c.1, c.2.2))).map fun b => (b.1, k)

/-- A group would be ready but for its wait mask (R354 code 4). -/
def waitLost (s : State) (gid : Nat) (g : Group) : Bool :=
  match g.issuing with
  | none => false
  | some e => g.holdMet && g.hints.n == 0 && !(g.waitMet (g.look s e.pc) e.pc) && ready s gid { g with flags := [] }

/-- A group would be ready but for its minimum distance (R354 code 5). -/
def distLost (s : State) (gid : Nat) (g : Group) : Bool := !ready s gid g && ready s gid { g with since := 8 }

/-- The events of a cycle that a core's counters count (R354): the cycle, cycles lost to wait masks, a cycle lost to a minimum distance,
cycles inside a chain. -/
def countCycle (s : State) (core : Nat) : State :=
  let granted := ((Fm.get? s.cycles core).getD {}).granted
  let here := s.groups.filter fun e => e.2.core == core
  let idle := here.filter fun e => !granted.contains e.1
  let ws (l : List (Nat × Group)) : List Nat := l.map fun e => worldOf s e.2
  let lost := idle.filter fun e => waitLost s e.1 e.2
  let chained := here.filter fun e => e.2.chaining
  let s1 := countUnit s core 1 (ws here)
  let s1 := lost.foldl (fun t e => countUnit t core 4 [worldOf s e.2]) s1
  let late := idle.filter fun e => distLost s e.1 e.2
  let s1 := if late.isEmpty then s1 else countUnit s1 core 5 (ws late)
  chained.foldl (fun t e => countUnit t core 6 [worldOf s e.2]) s1

/-- The end of a core's cycle: starvation counts and yield holds, which a gated cycle leaves alone (R19, R347, R348); the cycles since
each group's last instruction (R68). -/
def endCycle (s : State) (core : Nat) : State :=
  let c := (Fm.get? s.cycles core).getD {}
  let upd (gid : Nat) (g : Group) : Group :=
    if g.core != core then g
    else if s.gated then { g with since := min 8 (g.since + 1), stalled := false, fresh := false }
    else
      let got := c.granted.contains gid
      { g with starve := if !got && ready s gid g then min 127 (g.starve + 1) else 0,
               yieldHold := if g.fresh then g.yieldHold else g.yieldHold - 1,
               since := min 8 (g.since + 1), stalled := false, fresh := false }
  let s1 := if (Fm.get? s.pmus core).isSome then countCycle s core else s
  { s1 with groups := Fm.mapVals s.groups upd, cycles := Fm.del s.cycles core }

/-- The events of a grant (R354): a hint word, a forced grant. An instruction counts when it issues. -/
def countGrant (s : State) (core gid : Nat) : State :=
  match Fm.get? s.groups gid with
  | none => s
  | some g =>
    let w := worldOf s g
    let hint := match g.issuing with
      | some e => (match fetchWord s core w (e.pc + BitVec.ofNat 57 (4 * g.hints.n)) with
          | .ok x => isHint x
          | .error _ => false)
      | none => false
    countUnit (countUnit s core 3 [w] (if hint then 1 else 0)) core 7 [w] (if 64 ≤ g.starve then 1 else 0)

/-- A cycle of a core grants no further word and did not grant the group one. -/
def cycleOver (s : State) (core gid : Nat) : Bool :=
  !s.gated && (nextGrant s core).isNone && !((Fm.get? s.cycles core).getD {}).granted.contains gid

/-- Grant a word: the group becomes the issuing one and the cycle notes it (R350). -/
def grant (s : State) (core gid slot : Nat) : State :=
  let c := (Fm.get? s.cycles core).getD {}
  let s1 := if (Fm.get? s.pmus core).isSome then countGrant s core gid else s
  { s1 with cur := some gid,
            cycles := Fm.put s.cycles core { used := slot :: c.used, granted := gid :: c.granted } }

end Sys2Proof.Machine
end

