-- ==== Sys2Proof/Machine/Access.lean ====
section
/-! DEFINITION. What the memory instructions share: addresses, scratch places, the verdict of each lane (spec/10 R183; spec/11
R203 to R209), in-flight counters (spec/14 R291), and the order of one lane's accesses (spec/11 R213). -/

namespace Sys2Proof.Machine

/-- The number of an executor: cores, die pools, slice ALUs, near-memory units, service cores, peers (R279). -/
def execNum (cls target core : Nat) : Nat :=
  match cls with
  | 0 => core
  | 1 => 384 + target
  | 2 => 392 + target
  | 3 => 416 + target
  | 4 => 440 + target
  | _ => 464 + target

/-- The executor of an ATOM (R215). -/
def atomExec (x : Xl) : Nat :=
  if x.cls == 3 then execNum 3 x.target 0 else if x.cls == 5 then execNum 5 x.target 0 else execNum 2 (x.phys / 2 ^ 36) 0

/-- The counter of a page at an executor (R291). -/
def ctrKey (world va exec : Nat) : Nat := exec * 1024 + Config.hashCounter world (va % 2 ^ 57 / 65536) % 1024

/-- Access sizes: LD and ST by W (R91), LDS and STS by W[1:0] (R92), ATOM and ATOMS by W (R93). -/
def ldSize (w : Nat) : Nat := if w ≤ 1 then 1 else if w ≤ 3 then 2 else if w == 4 then 4 else if w == 5 then 8 else 16
def ldsSize (z : Nat) : Nat := 2 * 2 ^ z
def atomSize (w : Nat) : Nat := if 12 ≤ w then 8 else 4

/-- Bytes of operand that an atomic reads from D on (R93). -/
def atomOperand (w : Nat) : Nat := if w == 11 || w == 12 || w == 13 then 8 else if w == 14 then 16 else 4

/-- The address of a lane (R203). -/
def laneVa (s : State) (i : Iss) (a : BitVec 8) (size l : Nat) : Nat :=
  let off := i.g.hints.offset
  if isScalar a then
    ((((readS s i.g (srcIdx a)).toNat : Int) + off + l * i.g.hints.memory.stride * size) % 2 ^ 64).toNat
  else ((((readW s i.g (srcIdx a) l).toNat : Int) + off) % 2 ^ 64).toNat

/-- The base of a scratch offset (R204). -/
def scratchBase (s : State) (i : Iss) (a : BitVec 8) (l : Nat) : Nat :=
  if isScalar a then (readS s i.g (srcIdx a)).toNat % 2 ^ 32 else (readV s i.g (srcIdx a) l).toNat

/-- The offset of a lane in its space: exact, with no wrap (R204). -/
def scratchOff (i : Iss) (a : BitVec 8) (base size l : Nat) : Int :=
  (base : Int) + i.g.hints.offset + if isScalar a then l * i.g.hints.memory.stride * size else 0

/-- The group stands in a landing slot: the storage of its reservation stayed behind (R41). -/
def Group.landed (g : Group) : Bool := 32 ≤ g.slot

/-- The number of a group among its team's groups on its core (R23). -/
def localIndex (d : Desc) (index : Nat) : Nat := if d.cluster then index / 8 else index

/-- The die-scratch window that a group of a team reaches, as base and length (R184): that of its world on the die where it runs now, as the
world's record has it. -/
def windowOf (s : State) (t : Team) (die : Nat) : Option (Nat × Nat) := (Fm.get? s.worlds t.world).bind fun w => Fm.get? w.windows die

/-- R183: where `n` bytes at offset `o` of a scratch space lie; none gives PERMISSION. -/
def scratchLoc (s : State) (g : Group) (space lane : Nat) (o : Int) (n : Nat) : Option Loc :=
  match Fm.get? s.teams g.team with
  | none => none
  | some tm =>
    if o < 0 then none
    else
      let k := o.toNat
      if space == 3 then
        match windowOf s tm (g.core / 48) with
        | some (base, len) => if k + n ≤ len then some (.die (g.core / 48) (base + k)) else none
        | none => none
      else if g.landed then none
      else
        match Fm.get? tm.places g.core with
        | none => none
        | some p =>
          if space == 0 then
            let sz := tm.d.lanePriv
            if k + n ≤ sz then some (.core g.core (p.lp + (localIndex tm.d g.index * 64 + lane) * sz + k)) else none
          else if space == 1 then (if k + n ≤ p.scrLen then some (.core g.core (p.scr + k)) else none)
          else
            let w := tm.d.clWin
            if !tm.d.cluster || w == 0 || 8 * w < k + n then none
            else
              let core := g.core / 8 * 8 + k / w
              match Fm.get? tm.places core with
              | some q => some (.core core (q.cl + k % w))
              | none => none

/-- The bytes at a scratch place; a die scratchpad's are decrypted under the key of `world` (R183, R198). -/
def scratchRead (s : State) (world : Nat) (loc : Loc) (n : Nat) : List Byte :=
  match loc with
  | .core c o => Mem.readN s.coreScr (c * scrSpan + o) n
  | .die d o => dieRead s (keyOf s world) d o n
  | .mem _ | .host _ => []

/-- Write bytes at a scratch place (R235), a die scratchpad's under the key of `world`; a write that covers a sector of a die scratchpad clears its
mark (R380). -/
def scratchWrite (s : State) (world : Nat) (loc : Loc) (bs : List Byte) : State :=
  match loc with
  | .core c o => { s with coreScr := Mem.writeN s.coreScr (c * scrSpan + o) bs }
  | .die d o =>
    let p := d * 2 ^ 25 + o
    let covered (sec : Nat) : Bool := p ≤ sec * 128 && sec * 128 + 128 ≤ p + bs.length
    let t := dieWrite s (keyOf s world) d o bs
    { t with dieBad := t.dieBad.filter fun x => !covered x }
  | .mem _ | .host _ => s

/-- A scratch place lies in a sector with a poison mark (R209): only a die scratchpad has such. -/
def scratchBad (s : State) : Loc → Bool
  | .die d o => s.dieBad.contains ((d * 2 ^ 25 + o) / 128)
  | _ => false

/-- The words of D and the registers after it, as bytes (R211, R212). -/
def regBytes (s : State) (g : Group) (d n l : Nat) : List Byte :=
  ((List.range ((n + 3) / 4)).flatMap fun k => leBytes 4 (readV s g (d + k) l).toNat).take n

/-- The syndrome of R208. SIZE is three bits wide: of the 9 that RESID.line would need it holds the low three, 1 (DESIGN CHOICE, log entry 47). -/
def memSyn (kind size : Nat) (defer : Bool) (aux : Nat) : BitVec 56 :=
  BitVec.ofNat 56 (kind + Nat.log2 size % 8 * 16 + (if defer then 128 else 0) + aux % 2 ^ 32 * 2 ^ 24)

/-- The syndrome's KIND (R208). -/
def kindCode : MemKind → Nat
  | .ld => 0 | .st => 1 | .atom => 2 | .resid => 3 | .lds => 4 | .sts => 5 | .atoms => 6

/-- The check of an access at its port (R195, R196). -/
def accessOf : MemKind → Access
  | .st | .sts => .store
  | .atom | .atoms => .atom
  | .resid => .resid
  | _ => .load

/-- The network port that an operation on a page leaves for a peer through: one of its entry's mask, by a hash of the page (R393). A mask of no
port leaves none, and the operation is abandoned in the end (R292; log entry 24). -/
def peerPort (s : State) (world peer va : Nat) : Option Nat :=
  match (Fm.get? s.worlds world).bind fun w => Fm.get? w.peers peer with
  | none => none
  | some (_, mask) =>
    let ps := (List.range 8).filter fun k => mask.getLsbD k
    ps[Config.portHash world peer (va % 2 ^ 57 / 65536) % ps.length]?

/-- The number of an address's 64 KiB page. -/
def pageOf (va : Nat) : Nat := va % 2 ^ 57 / 65536

/-- A memory instruction still has to leave for a peer on a page. -/
def MemOp.unsent (m : MemOp) (peer page : Nat) : Bool :=
  m.accs.any fun a => !a.held && a.got.isNone && a.sent.isNone && a.peer == some peer && pageOf a.va == page

/-- A part of a PLACE still has to leave for a peer on a page, the one that its destination begins in. -/
def PlaceOp.unsent (p : PlaceOp) (peer page : Nat) : Bool :=
  p.lanes.any fun l => l.parts.any fun q => q.sent.isNone && q.peer == some peer && pageOf ((l.vas[0]?).getD 0 + q.start) == page

/-- The operations of a world on one page leave for a peer in issue order (R393): no earlier one has still to leave. -/
def peerFirst (s : State) (id world peer page : Nat) : Bool :=
  s.ops.all fun e => id ≤ e.1 || e.2.world != world || match e.2.kind with
    | .mem m => !m.unsent peer page
    | .place p => !p.unsent peer page
    | _ => true

/-- A message leaves a die for a network port (R393). -/
def toPort (s : State) (die : Nat) (port : Option Nat) : State :=
  match port with
  | some p => crossing s (portHops die p)
  | none => s

/-- A message comes to a die from a network port, the same way in reverse (R393). -/
def fromPort (s : State) (die : Nat) (port : Option Nat) : State :=
  match port with
  | some p => crossing s (backHops (portHops die p))
  | none => s

/-- A world's peer entry is valid (R393). -/
def peerOk (s : State) (world peer : Nat) : Bool :=
  ((Fm.get? s.worlds world).bind fun w => Fm.get? w.peers peer).isSome

/-- What acceptance finds for a lane (R206): its access, or a cause with its address and the syndrome's AUX. -/
inductive Verdict where
  | ok (a : Acc)
  | bad (cause : Nat) (addr : DWord) (aux : Nat)
  deriving DecidableEq, Repr

/-- The verdict on `n` bytes of translated memory at `va`, for a lane (R206, R207, R215, R289); `data` is what it stores. -/
def checkLane (s : State) (core world : Nat) (k : MemKind) (size n lane va : Nat) (data : List Byte) : Verdict :=
  let die := core / 48
  let acc := accessOf k
  let a := if k == .resid then va / n * n else va
  let extra (x : Xl) : List Nat :=
    if k == .atom then (if x.transit then [] else if x.cls == 4 then [cSplitPlace] else if x.cls == 5 && !peerOk s world x.target then [cExecutor] else [])
    else if x.transit && onlyExecutor x acc then [] else placeCauses x die acc
  if k != .resid && va % size != 0 then .bad cMisaligned (BitVec.ofNat 64 va) 0
  else
    match checkVa s die world a n acc extra with
    | .error c => .bad c (BitVec.ofNat 64 va) 0
    | .ok x =>
      .ok { lane := lane, va := a, loc := .mem x.phys, enc := encOf s x.d x.o, buf := x.buf, soff := x.o / 128,
            l1 := BitVec.ofNat 2 (nfield x.leaf.pte 24 2), data := data, lru := nfield x.leaf.pte 26 1 == 1,
            held := x.transit && (k == .atom || onlyExecutor x acc),
            ctr := if k == .atom && !x.transit then some (ctrKey world a (atomExec x)) else none,
            peer := if k == .atom && x.cls == 5 then some x.target else none }

/-- The verdict on a scratch access of a lane (R204, R205, R208). -/
def checkScratch (s : State) (g : Group) (space size lane : Nat) (o : Int) (data : List Byte) : Verdict :=
  let aux := (o % 2 ^ 32).toNat
  if o % (size : Int) != 0 then .bad cMisaligned (BitVec.ofInt 64 o) aux
  else
    match scratchLoc s g space lane o size with
    | none => .bad cPermission 0 aux
    | some loc => .ok { lane := lane, va := aux, loc := loc, data := data }

/-- Where an access lies, for the order of one lane's accesses: the space and its first byte. -/
def Acc.start (a : Acc) : Nat × Nat :=
  match a.loc with
  | .mem p => (0, p)
  | .core c o => (1, c * scrSpan + o)
  | .die d o => (2, d * 2 ^ 25 + o)
  | .host o => (3, o)

/-- The size of a memory operation's units. -/
def MemOp.size (m : MemOp) : Nat :=
  match m.k with
  | .ld | .st => ldSize m.w
  | .lds | .sts => ldsSize m.w
  | .atom | .atoms => atomSize m.w
  | .resid => if m.w == 0 then 128 else 512

/-- Two accesses touch a common byte. -/
def overlap (a b : Acc) (na nb : Nat) : Bool :=
  a.start.1 == b.start.1 && a.start.2 < b.start.2 + nb && b.start.2 < a.start.2 + na

/-- An earlier access of the same lane to a common byte, in an operation that `p` picks, is not performed yet (R213). -/
def earlierOpen (s : State) (id : Nat) (o : Op) (size : Nat) (a : Acc) (p : MemKind → Bool) : Bool :=
  o.group.isSome && s.ops.any fun e =>
    e.1 < id && e.2.group == o.group && (match e.2.kind with
      | .mem m => p m.k && m.accs.any fun b => b.lane == a.lane && b.got.isNone && overlap a b size m.size
      | _ => false)

/-- A lane's own stores that are not accepted yet, laid over the bytes that a load reads (R213). A byte stored under another tweak reads as
its encryption makes of it (R198). -/
def forwarded (s : State) (id : Nat) (o : Op) (size : Nat) (a : Acc) (bs : List Byte) : List Byte :=
  if o.group.isNone then bs
  else s.ops.foldl (fun bs e =>
    if e.1 < id && e.2.group == o.group then
      match e.2.kind with
      | .mem m =>
        if m.k != .st then bs
        else m.accs.foldl (fun bs b =>
          if b.lane == a.lane && b.got.isNone && overlap a b size m.size then
            (List.range size).map fun j =>
              let k := a.start.2 + j
              if b.start.2 ≤ k && k < b.start.2 + b.data.length then decByte s a.enc b.enc k ((b.data[k - b.start.2]?).getD 0)
              else (bs[j]?).getD 0
          else bs) bs
      | _ => bs
    else bs) bs

/-- An operation has lanes that wait in the place queue (R289). -/
def Op.holds (o : Op) : Bool :=
  match o.kind with
  | .mem m => m.accs.any fun a => a.held
  | .place p => p.lanes.any fun l => l.held
  | _ => false

/-- The entries of a core's place queue that are taken (R289). -/
def placeHeld (s : State) (core : Nat) : Nat := (s.ops.filter fun e => e.2.core == core && e.2.holds).length

/-- A lane's fault at acceptance (R206, R208). -/
def accFx (s : State) (i : Iss) (kind size : Nat) : Verdict → Fx
  | .ok _ => .seq
  | .bad c addr aux =>
    let slice := if 4 ≤ kind then coreSlice i.g.core else causeSlice s i.g.core (worldOf s i.g) addr.toNat c
    faultFx i slice { cause := BitVec.ofNat 8 c, syn := memSyn kind size false aux, addr := addr }

/-- Translations that accepted lanes used: the walker's bits and the caches (R273, R277). -/
def useWalks (s : State) (core world : Nat) (write : Bool) (vas : List Nat) : State :=
  let pages := dedup (vas.map fun v => v / 65536 * 65536)
  pages.foldl (fun s va =>
    match xlate s (core / 48) world va with
    | .ok x => useXl s core world va write x
    | .error _ => s) s

/-- The counters of some accesses (R291). -/
def accKeys (accs : List Acc) : List Nat := accs.filterMap fun a => a.ctr

/-- Accept a memory instruction (R206): `verdict` per active lane. -/
def acceptMem (s : State) (i : Iss) (f : BitVec 4) (m : MemOp) (verdict : Nat → Verdict) : State :=
  let world := worldOf s i.g
  if i.act == 0 then finish s i i.g (some 3)
  else if flagFull i.g f then trapFull s i f.toNat (memSyn (kindCode m.k) m.size false 0)
  else
    let vs := lanesOf fun l => if i.act.getLsbD l then some (verdict l) else none
    let accs := vs.filterMap fun v => match v with
      | some (.ok a) => some a
      | _ => none
    let hold := accs.any fun a => a.held
    let fx (l : Nat) : Fx := match (vs[l]?).getD none with
      | some v => accFx s i (kindCode m.k) m.size v
      | none => .seq
    if hold && 64 ≤ placeHeld s i.g.core then stall s i.gid
    else if accs.isEmpty then retire { s with freeCtr := s.freeCtr + 1 } i i.g fx (some 3)
    else
      let cls : BitVec 7 := match m.k with
        | .ld | .lds => 1
        | .st | .sts | .resid => 2
        | _ => 3
      let write := (accessOf m.k).writes
      let mem := accs.filter fun a => match a.loc with
        | .mem _ => true
        | _ => false
      let s := useWalks s i.g.core world write (mem.map fun a => a.va)
      let s := countIssues s world (accKeys accs)
      let s := if m.k != .atom then s else
        let hit (x : L1Frame) : Bool :=
          x.core == i.g.core && x.world == world && accs.any fun a => a.buf == x.buf && a.soff == x.soff
        { s with l1 := s.l1.filter fun x => !hit x }
      let o : Op :=
        { group := some i.gid, team := i.g.team, world := world, core := i.g.core, die := i.g.core / 48, pc := i.e.pc,
          word := i.g.word, lanes := i.act, cls := cls, kind := .mem { m with accs := accs } }
      let (s, g, _) := startOp s (if hold then { i.g with held := i.g.held + 1 } else i.g) f o
      retire { s with freeCtr := s.freeCtr + 1 } i g fx (some 3)

end Sys2Proof.Machine
end

