-- ==== Sys2Proof/Machine/Flags.lean ====
section
/-! DEFINITION. Flag computations: the GS bits (spec/03 R49 to R52) and the condition codes of the compares (spec/05 R87). -/

namespace Sys2Proof.Machine

/-- GS.SAT, GS.INV and GS.SASAT (R51). -/
def gsBits (sat inv : Bool) : DWord := (if sat then 1 else 0) ||| (if inv then 2 else 0)
def gsSasat : DWord := 5

/-- A result with the GS bits that computing it sets. -/
structure Res (α : Type) where
  val : α
  sat : Bool := false
  inv : Bool := false
  deriving DecidableEq, Repr

/-- The GS bits of the active lanes of an instruction (R51). -/
def gsOf {α : Type} (act : LaneMask) (r : Nat → Res α) : DWord :=
  gsBits ((List.range 64).any fun l => act.getLsbD l && (r l).sat) ((List.range 64).any fun l => act.getLsbD l && (r l).inv)

/-- The GS bits of one result. -/
def Res.gs {α : Type} (r : Res α) : DWord := gsBits r.sat r.inv

/-- The trap SAT_ARMED is due at a BAR, BARA or RECONV (R52). -/
def satArmed (g : Group) : Bool := g.gsarm.getLsbD 0 && g.gs.getLsbD 0

/-- The conditions of ICMP and NCMP on operands read as numbers, and on their bits for TEST (R87, R120). -/
def intCond (c : Nat) (a b : Int) (test : Bool) : Bool :=
  match c with
  | 0 => a == b
  | 1 => a != b
  | 2 => a < b
  | 3 => a ≤ b
  | 4 => b < a
  | 5 => b ≤ a
  | _ => test

/-- The bounds of an integer type of width `n` (R47). -/
def intMax (n : Nat) (nat : Bool) : Int := if nat then 2 ^ n - 1 else 2 ^ (n - 1) - 1
def intMin (n : Nat) (nat : Bool) : Int := if nat then 0 else -(2 ^ (n - 1))

/-- An exact integer into a type of width `n`: saturated, or wrapped (R114). -/
def intInto (t : Int) (n : Nat) (nat sat : Bool) : Res Int :=
  if sat then
    if t > intMax n nat then { val := intMax n nat, sat := true }
    else if t < intMin n nat then { val := intMin n nat, sat := true }
    else { val := t }
  else { val := t % 2 ^ n }

end Sys2Proof.Machine
end

