-- ==== Sys2Proof/Machine/Int.lean ====
section
/-! DEFINITION. The integer instructions (spec/06 R111 to R127), conversions apart. -/

namespace Sys2Proof.Machine

/-- The operand width under R111: TYPE 0 gives 64 with a scalar A and 32 otherwise. -/
def widthOf (m : MdA) (a : BitVec 8) : Nat :=
  if m.ty == tyI8 then 8 else if m.ty == tyI16 then 16 else if m.ty == tyI32 then 32 else if m.ty == tyI64 then 64
  else if isScalar a then 64 else 32

/-- A bit pattern of width `n` as a number (R112). -/
def readAs (x : Nat) (n : Nat) (nat : Bool) : Int :=
  let y := x % 2 ^ n
  if nat || y < 2 ^ (n - 1) then (y : Int) else (y : Int) - 2 ^ n

/-- Operand A at width `n`, as bits (R112). -/
def opA (s : State) (g : Group) (n : Nat) (a : BitVec 8) (l : Nat) : Nat :=
  if n == 64 then (src64 s g a l).toNat else (src32 s g litInt a l).toNat % 2 ^ n

/-- Operand B at width `n`, as bits (R112). -/
def opB (s : State) (g : Group) (n : Nat) (b : BitVec 8) (l : Nat) : Nat :=
  if n == 64 then (srcB64 s g b l).toNat else (srcB32 s g litInt b l).toNat % 2 ^ n

/-- The old D at width `n`, for IMAD: a scalar, a pair, a register, or the latch of pipe `p` (R63, R114). -/
def opD (s : State) (g : Group) (p n : Nat) (a : BitVec 8) (d : BitVec 6) (l : Nat) : Nat :=
  let k := d.toNat
  if isScalar a then (readS s g k).toNat % 2 ^ n
  else if n == 64 then (readW s g k l).toNat
  else (if 60 ≤ k then readB s g p l else readV s g k l).toNat % 2 ^ n

/-- A result of width `n` placed in a 64-bit register: extended by its sign or with zeros (R112). -/
def placeInt (t : Int) (n : Nat) (nat : Bool) (room : Nat) : Nat :=
  let y := (t % 2 ^ n).toNat
  if nat || y < 2 ^ (n - 1) then y else y + (2 ^ room - 2 ^ n)

/-- Write an integer result of width `n` to the destination that A selects (R63, R112). -/
def putInt (g : Group) (lat n : Nat) (nat : Bool) (a : BitVec 8) (d : BitVec 6) (act : LaneMask) (val : Nat → Int) : Group :=
  if isScalar a then putScalar g lat d act (BitVec.ofNat 64 (placeInt (val (firstLane act)) n nat 64))
  else if n == 64 then putVec64 g 0 lat d act fun l => BitVec.ofNat 64 (placeInt (val l) 64 true 64)
  else putVec32 g 0 lat d act fun l => BitVec.ofNat 32 (placeInt (val l) n nat 32)

/-- Alignment of 64-bit vector operands and destinations (R62, R112). -/
def wideOk (n : Nat) (srcs : List (BitVec 8)) (a : BitVec 8) (d : BitVec 6) : Bool :=
  n != 64 || (srcs.all pairSrcOk && pairDestOk a d)

/-- The form of an R-form integer instruction at the width its MOD gives. -/
def intForm (types : List Nat) (n sat : Bool) (a b : BitVec 8) (d : BitVec 6) (wide : Bool) (dRead : Bool) : Form :=
  { legal := !wide || ([a, b].all pairSrcOk && pairDestOk a d),
    pipe := some 0, imm := .bInt b, md := .arith types n sat false false, konst := isConst a || isConst b,
    vregs := srcRegs wide a ++ srcRegs wide b ++ destRegs wide a d,
    latches := if wide then [] else srcLatch a ++ srcLatch b ++ (if dRead && !isScalar a && 60 ≤ d.toNat then [d.toNat - 60] else []) }

/-- The hints of the group that would issue next. -/
def hintsNow (s : State) : Hints :=
  match s.cur.bind fun gid => Fm.get? s.groups gid with
  | some g => g.hints
  | none => {}

/-- An R-form integer instruction: its operands at width n, its function on exact integers, and how its result is extended. -/
structure IntOp where
  types : List Nat
  nOk   : Bool := false
  satOk : Bool := false
  /-- Latency in cycles (R85). -/
  lat   : Nat
  /-- Width, naturals, saturation, a, b, old D as bits: the result. -/
  f     : Nat → Bool → Bool → Nat → Nat → Nat → Res Int
  /-- The result is extended with zeros (R112); given N. -/
  zext  : Bool → Bool
  dRead : Bool := false

/-- Run an R-form integer instruction (R111 to R113). -/
def runInt (o : IntOp) (guard : BitVec 4) (d : BitVec 6) (a b : BitVec 8) (s : State) : State :=
  let m := (hintsNow s).arith
  let n := widthOf m a
  match prelude s guard (intForm o.types o.nOk o.satOk a b d (n == 64) o.dRead) with
  | .error t => t
  | .ok i =>
    let r (l : Nat) : Res Int := o.f n m.n m.sat (opA s i.g n a l) (opB s i.g n b l) (if o.dRead then opD s i.g 0 n a d l else 0)
    let act := if isScalar a then maskOf fun l => l == firstLane i.act && i.act != 0 else i.act
    let g := (putInt i.g o.lat n (o.zext m.n) a d i.act fun l => (r l).val).orGsAt o.lat (gsOf act r)
    finish s i g (some 0)

/-- Types of the arithmetic instructions (R111). -/
def tyArith : List Nat := [0, tyI8, tyI16, tyI32, tyI64]
def tyPlain : List Nat := [0, tyI32, tyI64]

/-- IADD, ISUB, IMUL and IMAD (R114). -/
def arithOp (lat : Nat) (dRead : Bool) (f : Int → Int → Int → Int) : IntOp :=
  { types := tyArith, nOk := true, satOk := true, lat := lat, zext := fun n => n, dRead := dRead,
    f := fun n nat sat a b d => intInto (f (readAs a n nat) (readAs b n nat) (readAs d n nat)) n nat sat }

/-- Instructions that read at width n by a fixed reading and neither saturate nor accept N. -/
def plainOp (lat : Nat) (nat : Bool) (f : Nat → Int → Int → Int) : IntOp :=
  { types := tyPlain, lat := lat, zext := fun _ => nat, f := fun n _ _ a b _ => { val := f n (readAs a n nat) (readAs b n nat) } }

/-- Bitwise instructions (R117). -/
def bitOp (f : Nat → Nat → Nat) : IntOp :=
  { types := tyPlain, lat := 2, zext := fun _ => true, f := fun _ _ _ a b _ => { val := (f a b : Nat) } }

/-- IADD (R114). -/
def execIadd (g : BitVec 4) (d : BitVec 6) (a b : BitVec 8) (s : State) : Host.Outcome State Fault Refusal :=
  .next (runInt (arithOp 2 false fun x y _ => x + y) g d a b s)
/-- ISUB (R114). -/
def execIsub (g : BitVec 4) (d : BitVec 6) (a b : BitVec 8) (s : State) : Host.Outcome State Fault Refusal :=
  .next (runInt (arithOp 2 false fun x y _ => x - y) g d a b s)
/-- IMUL (R114). -/
def execImul (g : BitVec 4) (d : BitVec 6) (a b : BitVec 8) (s : State) : Host.Outcome State Fault Refusal :=
  .next (runInt (arithOp 4 false fun x y _ => x * y) g d a b s)
/-- IMAD (R114). -/
def execImad (g : BitVec 4) (d : BitVec 6) (a b : BitVec 8) (s : State) : Host.Outcome State Fault Refusal :=
  .next (runInt (arithOp 4 true fun x y z => x * y + z) g d a b s)
/-- IMULHI (R115). -/
def execImulhi (g : BitVec 4) (d : BitVec 6) (a b : BitVec 8) (s : State) : Host.Outcome State Fault Refusal :=
  .next (runInt (plainOp 4 false fun n x y => (x * y) / 2 ^ n) g d a b s)
/-- IMULHN (R115). -/
def execImulhn (g : BitVec 4) (d : BitVec 6) (a b : BitVec 8) (s : State) : Host.Outcome State Fault Refusal :=
  .next (runInt (plainOp 4 true fun n x y => (x * y) / 2 ^ n) g d a b s)
/-- IMIN (R116). -/
def execImin (g : BitVec 4) (d : BitVec 6) (a b : BitVec 8) (s : State) : Host.Outcome State Fault Refusal :=
  .next (runInt (plainOp 2 false fun _ x y => min x y) g d a b s)
/-- IMAX (R116). -/
def execImax (g : BitVec 4) (d : BitVec 6) (a b : BitVec 8) (s : State) : Host.Outcome State Fault Refusal :=
  .next (runInt (plainOp 2 false fun _ x y => max x y) g d a b s)
/-- NMIN (R116). -/
def execNmin (g : BitVec 4) (d : BitVec 6) (a b : BitVec 8) (s : State) : Host.Outcome State Fault Refusal :=
  .next (runInt (plainOp 2 true fun _ x y => min x y) g d a b s)
/-- NMAX (R116). -/
def execNmax (g : BitVec 4) (d : BitVec 6) (a b : BitVec 8) (s : State) : Host.Outcome State Fault Refusal :=
  .next (runInt (plainOp 2 true fun _ x y => max x y) g d a b s)
/-- AND (R117). -/
def execAnd (g : BitVec 4) (d : BitVec 6) (a b : BitVec 8) (s : State) : Host.Outcome State Fault Refusal :=
  .next (runInt (bitOp fun x y => x &&& y) g d a b s)
/-- OR (R117). -/
def execOr (g : BitVec 4) (d : BitVec 6) (a b : BitVec 8) (s : State) : Host.Outcome State Fault Refusal :=
  .next (runInt (bitOp fun x y => x ||| y) g d a b s)
/-- XOR (R117). -/
def execXor (g : BitVec 4) (d : BitVec 6) (a b : BitVec 8) (s : State) : Host.Outcome State Fault Refusal :=
  .next (runInt (bitOp fun x y => x ^^^ y) g d a b s)
/-- ANDN (R117): a AND NOT b. -/
def execAndn (g : BitVec 4) (d : BitVec 6) (a b : BitVec 8) (s : State) : Host.Outcome State Fault Refusal :=
  .next (runInt (bitOp fun x y => x ^^^ (x &&& y)) g d a b s)

/-- The three shifts at width n with an unmasked amount (R118). -/
inductive Shift where
  | shl | shr | sar
  deriving DecidableEq, Repr

/-- R118: the shifted value, as bits of width n. -/
def Shift.eval (k : Shift) (n a amt : Nat) : Nat :=
  match k with
  | .shl => if amt ≥ n then 0 else a * 2 ^ amt % 2 ^ n
  | .shr => if amt ≥ n then 0 else a / 2 ^ amt
  | .sar =>
    let neg := a / 2 ^ (n - 1) % 2 == 1
    if amt ≥ n then (if neg then 2 ^ n - 1 else 0)
    else if neg then a / 2 ^ amt + (2 ^ n - 2 ^ (n - amt)) else a / 2 ^ amt

/-- The form of a shift: B stays a 32-bit operand at both widths (R118). -/
def shiftForm (a b : BitVec 8) (d : BitVec 6) (n : Nat) : Form :=
  { intForm tyPlain false false a b d (n == 64) false with
    legal := wideOk n [a] a d,
    vregs := srcRegs (n == 64) a ++ srcRegs false b ++ destRegs (n == 64) a d, latches := (if n == 64 then [] else srcLatch a) ++ srcLatch b }

/-- Run a shift (R118). -/
def runShift (k : Shift) (guard : BitVec 4) (d : BitVec 6) (a b : BitVec 8) (s : State) : State :=
  let n := widthOf (hintsNow s).arith a
  match prelude s guard (shiftForm a b d n) with
  | .error t => t
  | .ok i =>
    let v (l : Nat) : Int := (k.eval n (opA s i.g n a l) (srcB32 s i.g litInt b l).toNat : Nat)
    finish s i (putInt i.g 2 n (k != .sar) a d i.act v) (some 0)

/-- SHL (R118). -/
def execShl (g : BitVec 4) (d : BitVec 6) (a b : BitVec 8) (s : State) : Host.Outcome State Fault Refusal :=
  .next (runShift .shl g d a b s)
/-- SHR (R118). -/
def execShr (g : BitVec 4) (d : BitVec 6) (a b : BitVec 8) (s : State) : Host.Outcome State Fault Refusal :=
  .next (runShift .shr g d a b s)
/-- SAR (R118). -/
def execSar (g : BitVec 4) (d : BitVec 6) (a b : BitVec 8) (s : State) : Host.Outcome State Fault Refusal :=
  .next (runShift .sar g d a b s)

/-- The scale of LEA by TYPE (R119). -/
def leaScale (ty : Nat) : Nat :=
  if ty == 0 || ty == tyI32 || ty == tyF32 then 4
  else if ty == tyI64 then 8
  else if ty == tyI16 || ty == tyF16 || ty == tyBf16 then 2
  else 1

/-- The form of LEA (R119). -/
def leaForm (a b : BitVec 8) (d : BitVec 6) : Form :=
  { pipe := some 0, imm := .bInt b, konst := isConst a || isConst b,
    md := .arith [0, tyI8, tyI16, tyI32, tyI64, tyF32, tyF16, tyBf16, tyE4m3, tyE5m2] true false false false,
    vregs := srcRegs true a ++ srcRegs false b ++ destRegs true a d, latches := srcLatch b }

/-- LEA (R119). -/
def execLea (g : BitVec 4) (d : BitVec 6) (a b : BitVec 8) (s : State) : Host.Outcome State Fault Refusal :=
  let m := (hintsNow s).arith
  match prelude s g (leaForm a b d) with
  | .error t => .next t
  | .ok i =>
    let v (l : Nat) : DWord :=
      let b := srcB32 s i.g litInt b l
      src64 s i.g a l + (if m.n then b.setWidth 64 else b.signExtend 64) * BitVec.ofNat 64 (leaScale m.ty)
    let gr := if isScalar a then putScalar i.g 2 d i.act (v (firstLane i.act)) else putVec64 i.g 0 2 d i.act v
    .next (finish s i gr (some 0))

/-- Write a compare's predicate pair in the active lanes (R87, R109). -/
def putPair (g : Group) (lat : Nat) (k : BitVec 3) (act : LaneMask) (c : Nat → Bool) : Group :=
  let m := maskOf c
  putP (putP g lat (2 * k.toNat) act m) lat (2 * k.toNat + 1) act (~~~ m)

/-- The form of ICMP and NCMP (R120). -/
def cmpForm (a b : BitVec 8) (n : Nat) : Form :=
  { legal := n != 64 || (pairSrcOk a && pairSrcOk b),
    pipe := some 0, imm := .bInt b, konst := isConst a || isConst b, md := .arith tyPlain false false false false,
    vregs := srcRegs (n == 64) a ++ srcRegs (n == 64) b, latches := if n == 64 then [] else srcLatch a ++ srcLatch b }

/-- ICMP and NCMP (R120). -/
def runCmp (nat : Bool) (guard : BitVec 4) (k c : BitVec 3) (a b : BitVec 8) (s : State) : State :=
  let n := widthOf (hintsNow s).arith a
  match prelude s guard (cmpForm a b n) with
  | .error t => t
  | .ok i =>
    let v (l : Nat) : Bool :=
      let x := opA s i.g n a l
      let y := opB s i.g n b l
      intCond c.toNat (readAs x n nat) (readAs y n nat) (x &&& y != 0)
    finish s i (putPair i.g 2 k i.act v) (some 0)

/-- ICMP (R120). -/
def execIcmp (g : BitVec 4) (k c : BitVec 3) (a b : BitVec 8) (s : State) : Host.Outcome State Fault Refusal :=
  .next (runCmp false g k c a b s)
/-- NCMP (R120). -/
def execNcmp (g : BitVec 4) (k c : BitVec 3) (a b : BitVec 8) (s : State) : Host.Outcome State Fault Refusal :=
  .next (runCmp true g k c a b s)

/-- SEL (R121): the guard is the selector, and every issuing lane writes. -/
def execSel (g : BitVec 4) (d : BitVec 6) (a b : BitVec 8) (s : State) : Host.Outcome State Fault Refusal :=
  let n := widthOf (hintsNow s).arith a
  match prelude s g { intForm tyPlain false false a b d (n == 64) false with every := true } with
  | .error t => .next t
  | .ok i =>
    let pick (l : Nat) : Bool := if isScalar a then i.act != 0 else i.act.getLsbD l
    let v (l : Nat) : Int := ((if pick l then opA s i.g n a l else opB s i.g n b l : Nat) : Int)
    let v (l : Nat) : Int := readAs (v l).toNat n false
    .next (finish s i (putInt i.g 2 n false a d i.lanes v) (some 0))

/-- The form of MOV and BITU (R122, R124). -/
def movForm (a : BitVec 8) (d : BitVec 6) (n : Nat) : Form :=
  { legal := wideOk n [a] a d, pipe := some 0, konst := isConst a, md := .arith tyPlain false false false false,
    vregs := srcRegs (n == 64) a ++ destRegs (n == 64) a d, latches := if n == 64 then [] else srcLatch a }

/-- MOV (R122). -/
def execMov (g : BitVec 4) (d : BitVec 6) (a : BitVec 8) (s : State) : Host.Outcome State Fault Refusal :=
  let n := widthOf (hintsNow s).arith a
  match prelude s g (movForm a d n) with
  | .error t => .next t
  | .ok i => .next (finish s i (putInt i.g 2 n false a d i.act fun l => readAs (opA s i.g n a l) n false) (some 0))

/-- MOVIV (R123). -/
def execMoviv (g : BitVec 4) (d : BitVec 6) (imm : BitVec 16) (s : State) : Host.Outcome State Fault Refusal :=
  match prelude s g { pipe := some 0, imm := .i, vregs := if d.toNat < 60 then [d.toNat] else [] } with
  | .error t => .next t
  | .ok i => .next (finish s i (putVec32 i.g 0 2 d i.act fun _ => (immI i.g.hints imm).setWidth 32) (some 0))

/-- MOVIS (R123). -/
def execMovis (g : BitVec 4) (d : BitVec 6) (imm : BitVec 16) (s : State) : Host.Outcome State Fault Refusal :=
  match prelude s g { pipe := some 0, imm := .i } with
  | .error t => .next t
  | .ok i => .next (finish s i (putScalar i.g 2 d i.act (immI i.g.hints imm)) (some 0))

/-- ADDIS (R123). -/
def execAddis (g : BitVec 4) (d : BitVec 6) (imm : BitVec 16) (s : State) : Host.Outcome State Fault Refusal :=
  match prelude s g { pipe := some 0, imm := .i } with
  | .error t => .next t
  | .ok i => .next (finish s i (putScalar i.g 2 d i.act (readS s i.g d.toNat + immI i.g.hints imm)) (some 0))

/-- The number of one bits among the lowest `n`. -/
def popBits (x : Nat) : Nat → Nat
  | 0 => 0
  | n + 1 => popBits x n + x / 2 ^ n % 2

/-- Bit `i` to bit n − 1 − i (R124). -/
def revBits (x n : Nat) : Nat → Nat
  | 0 => 0
  | k + 1 => revBits x n k + (x / 2 ^ k % 2) * 2 ^ (n - 1 - k)

/-- Byte `j` to byte n/8 − 1 − j (R124). -/
def revBytes (x n : Nat) : Nat → Nat
  | 0 => 0
  | k + 1 => revBytes x n k + (x / 2 ^ (8 * k) % 256) * 2 ^ (n - 8 - 8 * k)

/-- Zero bits below the lowest one bit, `n` when there is none (R124). -/
def ctz (x n : Nat) : Nat := ((List.range n).find? fun i => x / 2 ^ i % 2 == 1).getD n

/-- The functions of BITU at width n (R124). -/
def bituEval (sel n x : Nat) : Nat :=
  match sel with
  | 0 => popBits x n
  | 1 => if x == 0 then n else n - 1 - Nat.log2 x
  | 2 => ctz x n
  | 3 => revBits x n n
  | _ => revBytes x n (n / 8)

/-- BITU (R124). -/
def execBitu (g : BitVec 4) (d : BitVec 6) (a : BitVec 8) (sel : BitVec 6) (s : State) : Host.Outcome State Fault Refusal :=
  let n := widthOf (hintsNow s).arith a
  match prelude s g (movForm a d n) with
  | .error t => .next t
  | .ok i => .next (finish s i (putInt i.g 3 n true a d i.act fun l => (bituEval sel.toNat n (opA s i.g n a l) : Nat)) (some 0))

/-- PLOG (R126): `v` is A[3:0], the predicate a of the truth table, and `u` is A[7:4], its b. -/
def execPlog (g : BitVec 4) (d u v t : BitVec 4) (s : State) : Host.Outcome State Fault Refusal :=
  match prelude s g { pipe := some 0 } with
  | .error e => .next e
  | .ok i =>
    let a := readP s i.g v.toNat
    let b := readP s i.g u.toNat
    let r (l : Nat) : Bool := t.getLsbD ((if a.getLsbD l then 2 else 0) + if b.getLsbD l then 1 else 0)
    .next (finish s i (putP i.g 2 d.toNat i.act (maskOf r)) (some 0))

/-- VOTE (R127). -/
def execVote (g : BitVec 4) (d : BitVec 6) (a : BitVec 4) (sel : BitVec 6) (s : State) : Host.Outcome State Fault Refusal :=
  match prelude s g { pipe := some 2 } with
  | .error e => .next e
  | .ok i =>
    let m := readP s i.g a.toNat &&& i.act
    let all := m == i.act
    let any := m != 0
    if sel.toNat == 3 then .next (finish s i (putScalar i.g 3 d i.act m) (some 2))
    else
      let r := if sel.toNat == 0 then all else if sel.toNat == 1 then any else all || !any
      .next (finish s i (putP i.g 3 d.toNat i.act (if r then BitVec.allOnes 64 else 0)) (some 2))

end Sys2Proof.Machine
end

