-- ==== Sys2Proof/Machine/Ctl.lean ====
section
/-! DEFINITION. Hint words (spec/04 R59, R66 to R75), branches, barriers, RECONV, WAITF, FENCE, the CSRs, traps and the other
system instructions (spec/09 R165 to R181, spec/12 R237, R238). -/

namespace Sys2Proof.Machine

/-- A hint word issues by itself and waits for its bundle's instruction word (R59). A second hint of its kind and a fourth hint
word are illegal (R66). -/
def runHint (kind : Nat) (f : Hints → Hints) (s : State) : State :=
  match issueOf s 12 with
  | none => s
  | some i =>
    if i.g.hints.kinds.contains kind || 3 ≤ i.g.hints.n then trapAll s i cIllegal
    else s.modGroup i.gid fun g =>
      let h := f g.hints
      { g with hints := { h with n := h.n + 1, kinds := kind :: h.kinds }, ent := some i.pair, starve := 0 }

/-- HINT_SCHED (R68). -/
def execHintSched (w : BitVec 12) (a b c : BitVec 3) (y : BitVec 1) (s : State) : Host.Outcome State Fault Refusal :=
  .next (runHint 0 (fun h => { h with sched := true, wait := w, dists := [a, b, c], yield := y == 1 }) s)
/-- HINT_IMM (R69). -/
def execHintImm (p : BitVec 22) (s : State) : Host.Outcome State Fault Refusal :=
  .next (runHint 1 (fun h => { h with imm := some p }) s)
/-- HINT_MOD (R70). -/
def execHintMod (p : BitVec 22) (s : State) : Host.Outcome State Fault Refusal :=
  .next (runHint 2 (fun h => { h with md := some p }) s)
/-- HINT_PLACE (R73). -/
def execHintPlace (t : BitVec 3) (l : BitVec 4) (a b : BitVec 7) (s : State) : Host.Outcome State Fault Refusal :=
  .next (runHint 3 (fun h => { h with place := some (t, l, a, b) }) s)
/-- HINT_CHAIN (R75). -/
def execHintChain (n : BitVec 2) (s : State) : Host.Outcome State Fault Refusal :=
  .next (runHint 4 (fun h => { h with chain := some n }) s)
/-- HINT_CBANK (R72). -/
def execHintCbank (b : BitVec 4) (w : BitVec 8) (s : State) : Host.Outcome State Fault Refusal :=
  .next (runHint 5 (fun h => { h with cbank := some (b, w) }) s)
/-- HINT_OFF (R71). -/
def execHintOff (o : BitVec 22) (s : State) : Host.Outcome State Fault Refusal :=
  .next (runHint 6 (fun h => { h with off := some o }) s)

/-- The code base of a group's kernel (R165). -/
def codebaseOf (s : State) (g : Group) : Pc :=
  BitVec.ofNat 57 (((Fm.get? s.teams g.team).map fun t => t.d.codebase).getD 0)

/-- R67: a lane that branches to `p` traps there if the word before the target is a hint word; a word there that cannot be fetched counts as none
(DEDUCED, log entry 21). -/
def branchTo (s : State) (i : Iss) (p : Pair) : Fx :=
  match fetchWord s i.g.core (worldOf s i.g) (p.1 - 4) with
  | .ok w =>
    if isHint w then .trap { f := { cause := BitVec.ofNat 8 cIllegal, word := i.g.word }, at_ := p } else .goto p
  | .error _ => .goto p

/-- The form of the control instructions: none of them may stand in a chain after the head (R75). -/
def ctlForm : Form := { pipe := none, member := false }

/-- The target of a B-form branch: a signed count of words from the branch word (R165). -/
def branchTarget (pc : Pc) (disp : BitVec 16) : Pc := pc + disp.signExtend 57 * 4

/-- BR (R165). -/
def execBr (g : BitVec 4) (p : BitVec 6) (d : BitVec 16) (s : State) : Host.Outcome State Fault Refusal :=
  match prelude s g { ctlForm with pipe := some 0 } with
  | .error t => .next t
  | .ok i =>
    let fx := branchTo s i (branchTarget i.pcI d, p)
    .next (retire s i i.g (fun l => if i.act.getLsbD l then fx else .seq) (some 0))

/-- A register write with no settling time, by an instruction without a fixed latency (R85, R166). -/
def putNow (g : Group) (n : Nat) (act : LaneMask) (val : Nat → Word) : Group :=
  let old := Fm.getD g.v n []
  { g with v := Fm.put g.v n (lanesOf fun l => if act.getLsbD l then val l else laneW old l),
           settle := g.settle.filter fun w => w.reg != .v n }

/-- The same for a scalar register; s0 ignores it (R108). -/
def putNowS (g : Group) (n : Nat) (x : DWord) : Group :=
  if n == 0 then g else { g with s := Fm.put g.s n x, settle := g.settle.filter fun w => w.reg != .s n }

/-- CALL (R165, R166). -/
def execCall (g : BitVec 4) (p : BitVec 6) (d : BitVec 16) (s : State) : Host.Outcome State Fault Refusal :=
  match prelude s g { ctlForm with pipe := some 0, vregs := [58, 59] } with
  | .error t => .next t
  | .ok i =>
    let fx := branchTo s i (branchTarget i.pcI d, p)
    let ret : Word := (pcNext i.pcI - codebaseOf s i.g).setWidth 32
    let gr := putNow (putNow i.g 58 i.act fun _ => ret) 59 i.act fun _ => i.e.prio.setWidth 32
    .next (retire s i gr (fun l => if i.act.getLsbD l then fx else .seq) (some 0))

/-- The form of JMPI (R167). -/
def jmpiForm (a b : BitVec 8) : Form :=
  { pipe := some 0, member := false, imm := .bInt b, konst := isConst a || isConst b,
    vregs := srcRegs false a ++ srcRegs false b, latches := srcLatch a ++ srcLatch b }

/-- JMPI (R165, R167): MISALIGNED, then ILLEGAL_INSTRUCTION, then the jump. -/
def execJmpi (g : BitVec 4) (a b : BitVec 8) (s : State) : Host.Outcome State Fault Refusal :=
  match prelude s g (jmpiForm a b) with
  | .error t => .next t
  | .ok i =>
    let base := codebaseOf s i.g
    let fx (l : Nat) : Fx :=
      let x := src32 s i.g litInt a l
      let t : Pc := base + x.setWidth 57
      let prio : BitVec 6 := (srcB32 s i.g litInt b l).setWidth 6
      if x.toNat % 4 != 0 then
        faultFx i 0 { cause := BitVec.ofNat 8 cMisaligned, addr := BitVec.ofNat 64 (pcVa t) }
      else if prio == 63 then faultFx i 0 { cause := BitVec.ofNat 8 cIllegal }
      else branchTo s i (t, prio)
    .next (retire { s with freeCtr := s.freeCtr + 1 } i i.g (fun l => if i.act.getLsbD l then fx l else .seq) (some 0))

/-- A group has lanes WAITING at a barrier, and the group's place in its phase (R169). -/
inductive Arrival where
  | joins | arrives | early | stalls
  deriving DecidableEq, Repr

/-- How a group arrives at a barrier (R169). -/
def arrival (g : Group) (n : Nat) (b : Barrier) : Arrival :=
  if g.waitsAt n then .joins
  else if !b.arr.contains g.index then .arrives
  else if b.early.contains g.index then .stalls
  else .early

/-- BAR (R169). SAT_ARMED is due in its issuing lanes whatever its guard (R52; DEDUCED, log entry 22). -/
def execBar (g : BitVec 4) (n x : BitVec 6) (s : State) : Host.Outcome State Fault Refusal :=
  match prelude s g ctlForm with
  | .error t => .next t
  | .ok i =>
    if satArmed i.g then .next (trapAll s i cSatArmed)
    else if i.act == 0 then .next (finish s i i.g none)
    else
      let c := (readS s i.g x.toNat).toNat % 256
      match Fm.get? s.teams i.g.team with
      | none => .next s
      | some tm =>
        let b := Fm.getD tm.barriers n.toNat {}
        let bad (o : Option Nat) : Bool := match o with
          | some k => k != c
          | none => false
        if c > tm.d.groups || bad b.count then .next (trapAll s i cBarrier)
        else
          let a := arrival i.g n.toNat b
          if a == .stalls then .next (stall s i.gid)
          else if a == .early && bad b.earlyCount then .next (trapAll s i cBarrier)
          else
            let nb := match a with
              | .arrives => { b with arr := b.arr ++ [i.g.index], count := some c }
              | .early => { b with early := b.early ++ [i.g.index], earlyCount := some c }
              | _ => b
            let s := s.modTeam i.g.team fun tm => { tm with barriers := Fm.put tm.barriers n.toNat nb }
            let st : LaneState := .barrier n.toNat (pcNext i.pcI) i.g.word
            .next (retire { s with freeCtr := s.freeCtr + 1 } i i.g (fun l => if i.act.getLsbD l then .wait st else .seq) none)

/-- BARA (R169): an arrival with no count and no wait. -/
def execBara (g : BitVec 4) (n : BitVec 6) (s : State) : Host.Outcome State Fault Refusal :=
  match prelude s g ctlForm with
  | .error t => .next t
  | .ok i =>
    if satArmed i.g then .next (trapAll s i cSatArmed)
    else if i.act == 0 then .next (finish s i i.g none)
    else
      match Fm.get? s.teams i.g.team with
      | none => .next s
      | some tm =>
        let b := Fm.getD tm.barriers n.toNat {}
        let a := arrival i.g n.toNat b
        if a == .stalls then .next (stall s i.gid)
        else
          let nb := match a with
            | .arrives => { b with arr := b.arr ++ [i.g.index] }
            | .early => { b with early := b.early ++ [i.g.index] }
            | _ => b
          .next (finish (s.modTeam i.g.team fun tm => { tm with barriers := Fm.put tm.barriers n.toNat nb }) i i.g none)

/-- RECONV (R38, R171). -/
def execReconv (g : BitVec 4) (m : BitVec 6) (s : State) : Host.Outcome State Fault Refusal :=
  match prelude s g ctlForm with
  | .error t => .next t
  | .ok i =>
    if satArmed i.g then .next (trapAll s i cSatArmed)
    else if i.act == 0 then .next (finish s i i.g none)
    else
      let x := readS s i.g m.toNat
      let st : LaneState := .reconv (if x == 0 then BitVec.allOnes 64 else x) (pcNext i.pcI) i.g.word
      .next (retire { s with freeCtr := s.freeCtr + 1 } i i.g (fun l => if i.act.getLsbD l then .wait st else .seq) none)

/-- WAITF (R172). -/
def execWaitf (g : BitVec 4) (n : BitVec 4) (t : BitVec 6) (s : State) : Host.Outcome State Fault Refusal :=
  match prelude s g ctlForm with
  | .error e => .next e
  | .ok i =>
    let gr := if i.act == 0 || i.g.flag n.toNat ≤ t.toNat then i.g else { i.g with hold := .waitf n.toNat t.toNat }
    .next (finish s i gr none)

/-- The operations of a group in the classes of a set that are not complete (R238). -/
def fenceOps (s : State) (gid : Nat) (pred : BitVec 7) : List Nat :=
  (s.ops.filter fun e => e.2.group == some gid && e.2.cls &&& pred != 0).map fun e => e.1

/-- The latest ordering time among the completed accesses of a set, if there is one (R236, R238). -/
def fenceTime (g : Group) (pred : BitVec 7) : Option Nat :=
  (List.range 7).foldl (fun t c =>
    if pred.getLsbD c then (match Fm.get? g.times c with
      | some x => some (max (t.getD 0) x)
      | none => t) else t) none

/-- The guard of each scope (R238). -/
def fenceGuard (s : State) (g : Group) (scope : Nat) : Nat :=
  match scope with
  | 0 => 0
  | 1 => if (s.groupsOf g.team).all fun e => e.2.ended || e.2.core / 48 == g.core / 48 then 0 else 2
  | 2 => 0
  | _ => 2

/-- A pending FENCE is over: its accesses are complete and the dial has passed their ordering times by the guard, which follows where the team's
groups run now (R238). -/
def fenceOver (s : State) (g : Group) (f : Fence) : Bool :=
  f.ops.isEmpty && f.time + fenceGuard s g f.scope.toNat < dialOf s (g.core / 48)

/-- FENCE (R237, R238). -/
def execFence (g : BitVec 4) (p q : BitVec 7) (c : BitVec 3) (s : State) : Host.Outcome State Fault Refusal :=
  match prelude s g { ctlForm with chain := false } with
  | .error t => .next t
  | .ok i =>
    if i.act == 0 then .next (finish s i i.g none)
    else if i.g.fence.isSome then .next (stall s i.gid)
    else
      let ops := fenceOps s i.gid p
      let t := fenceTime i.g p
      if p == 0 || q == 0 || (ops.isEmpty && t.isNone) then .next (finish s i i.g none)
      else
        let f : Fence := { pred := p, succ := q, scope := c, ops := ops, time := t.getD 0 }
        .next (finish s i (if fenceOver s i.g f then i.g else { i.g with fence := some f }) none)

/-- FENCE_COMPLETION (R238). -/
def execFenceCompletion (gid : Nat) (s : State) : Host.Outcome State Fault Refusal :=
  .next (s.modGroup gid fun g =>
    match g.fence with
    | some f => if fenceOver s g f then { g with fence := none } else g
    | none => g)

/-- Parking for a service call (R177): the lanes park with the bundle after the TRAP as their place. -/
def runCall (c : Nat) (guard : BitVec 4) (s : State) : State :=
  match prelude s guard ctlForm with
  | .error t => t
  | .ok i =>
    if i.act == 0 then finish s i i.g none
    else
      let gr := { i.g with trapinfo := infoCode i.g.trapinfo c }
      let f : LaneFault := { cause := BitVec.ofNat 8 cSoftware, word := i.g.word }
      let call : Call := { slice := coreSlice i.g.core, group := i.gid, lanes := i.act, code := c, word := i.g.word,
                           args := [4, 5, 6, 7].map (readS s i.g) }
      let s := { s with calls := Fm.put s.calls s.nextOp call, nextOp := s.nextOp + 1, freeCtr := s.freeCtr + 1 }
      retire s i gr (fun l => if i.act.getLsbD l then .call f (pcNext i.pcI) else .seq) none

/-- TRAP (R177): SOFTWARE for codes 0 to 47, a service call for the others. -/
def execTrap (g : BitVec 4) (c : BitVec 6) (s : State) : Host.Outcome State Fault Refusal :=
  if 48 ≤ c.toNat then .next (runCall c.toNat g s)
  else
    match prelude s g ctlForm with
    | .error t => .next t
    | .ok i =>
      if i.act == 0 then .next (finish s i i.g none)
      else
        let gr := { i.g with trapinfo := infoCode i.g.trapinfo c.toNat }
        let t : TrapAt :=
          { f := { cause := BitVec.ofNat 8 cSoftware, word := i.g.word }, at_ := (pcNext i.pcI, i.e.prio) }
        .next (retire s i gr (fun l => if i.act.getLsbD l then .trap t else .seq) none)

/-- PLMOVE (R395): TRAP 48. -/
def execPlmove (g : BitVec 4) (s : State) : Host.Outcome State Fault Refusal := .next (runCall 48 g s)
/-- RECORD (R395): TRAP 50. -/
def execRecord (g : BitVec 4) (s : State) : Host.Outcome State Fault Refusal := .next (runCall 50 g s)
/-- CODEREP (R364): TRAP 62. -/
def execCoderep (g : BitVec 4) (s : State) : Host.Outcome State Fault Refusal := .next (runCall 62 g s)

/-- ERET (R177): a saved priority of 63 is illegal (R30); SCHED cover ends (R68). -/
def execEret (g : BitVec 4) (s : State) : Host.Outcome State Fault Refusal :=
  match prelude s g ctlForm with
  | .error t => .next t
  | .ok i =>
    let fx (l : Nat) : Fx :=
      let t := (i.g.lane l).trapPc.toNat
      if nfield t 58 6 == 63 then faultFx i 0 { cause := BitVec.ofNat 8 cIllegal }
      else .goto (BitVec.ofNat 57 (t % 2 ^ 57 / 4 * 4), BitVec.ofNat 6 (nfield t 58 6))
    let t := retire s i i.g (fun l => if i.act.getLsbD l then fx l else .seq) none
    .next (if i.act == 0 then t else t.modGroup i.gid fun g => { g with cover := none })

/-- The value of a CSR in a lane (R173). -/
def csrRead (s : State) (g : Group) (c l : Nat) : DWord :=
  let tm := Fm.get? s.teams g.team
  let d := tm.map fun t => t.d
  let x : Nat :=
    match c with
    | 0x00 => 64
    | 0x01 => l
    | 0x02 => g.index
    | 0x03 => (tm.map fun t => t.index).getD 0
    | 0x04 =>
      match d with
      | some d => (d.teams - 1) + d.groups * 2 ^ 32 + d.producers * 2 ^ 40 + if d.cluster then 2 ^ 48 else 0
      | none => 0
    | 0x05 => if g.index < (d.map fun d => d.producers).getD 0 then 0 else 1
    | 0x06 => g.core % 48
    | 0x07 => g.core / 48
    | 0x10 => g.gs.toNat
    | 0x11 => g.gsarm.toNat
    | 0x20 =>
      let full := 64 ≤ placeHeld s g.core
      (if g.crack then 1 else 0) + g.held * 2 + if full then 256 else 0
    | 0x30 => g.trapvec.toNat
    | 0x31 => (g.lane l).trapPc.toNat
    | 0x32 => (g.lane l).trapCause.toNat
    | 0x33 => (g.lane l).trapAddr.toNat
    | 0x34 => g.trapinfo.toNat
    | 0x40 => dialOf s (g.core / 48)
    | 0x41 => g.kwin.toNat
    | 0x50 =>
      match tm with
      | none => 0
      | some t =>
        let w := Fm.get? s.worlds t.world
        t.world + (if (w.map fun w => w.replay).getD false then 2 ^ 15 else 0) +
          if (w.map fun w => w.conf).getD false then 2 ^ 16 else 0
    | _ => if 0x60 ≤ c && c ≤ 0x6B then g.flag (c - 0x60) else 0
  BitVec.ofNat 64 x

/-- CSRR (R177, R178). -/
def execCsrr (g : BitVec 4) (r : BitVec 6) (v : BitVec 1) (c : BitVec 12) (s : State) : Host.Outcome State Fault Refusal :=
  let n := c.toNat
  let k := r.toNat
  let vec := v == 1
  match prelude s g { ctlForm with vregs := (if !vec then [] else if csrWide n then [k, k + 1] else [k]) } with
  | .error t => .next t
  | .ok i =>
    let x := csrRead s i.g n
    let gr :=
      if i.act == 0 then i.g
      else if !vec then putNowS i.g k (x 0)
      else if csrWide n then
        putNow (putNow i.g k i.act fun l => (x l).setWidth 32) (k + 1) i.act fun l => (x l >>> 32).setWidth 32
      else putNow i.g k i.act fun l => (x l).setWidth 32
    .next (finish s i gr none)

/-- Writable bits of the CSRs (R173, R7). -/
def csrMask (c : Nat) : DWord :=
  match c with
  | 0x11 | 0x20 => 1
  | 0x30 => BitVec.ofNat 64 (2 ^ 57 - 4)
  | 0x31 => BitVec.ofNat 64 (2 ^ 64 - 2 ^ 58 + (2 ^ 57 - 4))
  | 0x32 | 0x33 => BitVec.allOnes 64
  | 0x34 => BitVec.ofNat 64 (2 ^ 40 - 256 + 63)
  | 0x41 => 0xFFF
  | _ => 0

/-- A group CSR after a write of `x` (R7, R173): GS is write-1-to-clear; other fields keep what is not writable. -/
def csrWriteGroup (g : Group) (c : Nat) (x : DWord) : Group :=
  let y := x &&& csrMask c
  match c with
  | 0x10 => { g with gs := g.gs &&& ~~~ x }
  | 0x11 => { g with gsarm := y }
  | 0x20 => { g with crack := y == 1 }
  | 0x30 => { g with trapvec := y }
  | 0x34 => { g with trapinfo := y }
  | 0x41 => { g with kwin := y }
  | _ => g

/-- A lane CSR after a write. -/
def csrWriteLane (x : Lane) (c : Nat) (w : DWord) : Lane :=
  let y := w &&& csrMask c
  match c with
  | 0x31 => { x with trapPc := y }
  | 0x32 => { x with trapCause := y }
  | 0x33 => { x with trapAddr := y }
  | _ => x

/-- CSRW (R177, R178). -/
def execCsrw (g : BitVec 4) (r : BitVec 6) (v : BitVec 1) (c : BitVec 12) (s : State) : Host.Outcome State Fault Refusal :=
  let n := c.toNat
  let k := r.toNat
  let vec := v == 1
  match prelude s g { ctlForm with vregs := (if !vec then [] else if csrWide n then [k, k + 1] else [k]) } with
  | .error t => .next t
  | .ok i =>
    let val (l : Nat) : DWord :=
      if !vec then readS s i.g k else if csrWide n then readW s i.g k l else (readV s i.g k l).setWidth 64
    let gr :=
      if i.act == 0 then i.g
      else if csrLane n then
        { i.g with lanes := lanesOf fun l => if i.act.getLsbD l then csrWriteLane (i.g.lane l) n (val l) else i.g.lane l }
      else csrWriteGroup i.g n (val 0)
    .next (finish s i gr none)

/-- EXIT (R177). -/
def execExit (g : BitVec 4) (s : State) : Host.Outcome State Fault Refusal :=
  match prelude s g ctlForm with
  | .error t => .next t
  | .ok i => .next (retire s i i.g (fun l => if i.act.getLsbD l then .exit else .seq) none)

/-- BEAT (R177, R353): it reloads the heartbeat timer; one that has lapsed stands (R379). -/
def execBeat (g : BitVec 4) (s : State) : Host.Outcome State Fault Refusal :=
  match prelude s g ctlForm with
  | .error t => .next t
  | .ok i =>
    let beat (t : Team) : Team := if t.d.persistent && t.timer != 0 then { t with timer := t.d.limit } else t
    .next (finish (if i.act == 0 then s else s.modTeam i.g.team beat) i i.g none)

/-- NOP (R177). -/
def execNop (g : BitVec 4) (s : State) : Host.Outcome State Fault Refusal :=
  match prelude s g ctlForm with
  | .error t => .next t
  | .ok i => .next (finish s i i.g none)

/-- GROUP_FORCED (R347): the end of the cycle in which a ready group that is not granted counts to 64; none in a gated cycle (R19). -/
def execGroupForced (gid : Nat) (s : State) : Host.Outcome State Fault Refusal :=
  match Fm.get? s.groups gid with
  | none => .next s
  | some g => .next (if g.starve == 63 && ready s gid g && cycleOver s g.core gid then endCycle s g.core else s)

/-- YIELD_HOLD_EXPIRY (R348): the end of the cycle in which a hold falls from 1 to 0; none in a gated cycle (R19). -/
def execYieldHoldExpiry (gid : Nat) (s : State) : Host.Outcome State Fault Refusal :=
  match Fm.get? s.groups gid with
  | none => .next s
  | some g => .next (if g.yieldHold == 1 && (nextGrant s g.core).isNone && !s.gated then endCycle s g.core else s)

/-- Of the causes found late only DATA_POISON parks its lane; every other one enters TRAPVEC (R209, R267, R287, R305). -/
def Deferred.parks (d : Deferred) : Bool := d.f.cause == BitVec.ofNat 8 cPoison

/-- DEFERRED_FAULT_DELIVERY (R209, R267, R287, R305): every lane of a group that would next issue and holds a deferred cause
takes its lowest one: it parks, or enters TRAPVEC, with its next bundle as its place. It does so before the first word of a bundle, in a running
chain too, which the other lanes finish (R76). A saved team's lanes take theirs after the restore (R377). -/
def execDeferredFaultDelivery (gid : Nat) (s : State) : Host.Outcome State Fault Refusal :=
  match Fm.get? s.groups gid with
  | none => .next s
  | some g =>
    if g.hints.n != 0 || g.ent.isSome || !onCores s g then .next s
    else
      let pick (l : Nat) : Option Deferred :=
        if (g.lane l).st == .issuable then
          leastBy (fun d : Deferred => d.f.cause.toNat) (g.deferred.filter fun d => d.lane == l)
        else none
      let due := (List.range 64).filterMap pick
      if due.isEmpty then .next s
      else
        let taken (d : Deferred) : Bool := due.any fun x => x.lane == d.lane
        let parks := due.filter Deferred.parks
        let slice (d : Deferred) : Nat :=
          if d.space then coreSlice g.core else causeSlice s g.core (worldOf s g) d.f.addr.toNat d.f.cause.toNat
        let recs := parks.map fun d => parkRec s gid g d.lane d.f (g.lane d.lane).pair (slice d)
        let parkLane (l : Nat) : Lane :=
          match parks.find? fun d => d.lane == l with
          | some d => { g.lane l with st := .parked d.f }
          | none => g.lane l
        let g1 : Group := { g.disturb with deferred := g.deferred.filter fun d => !taken d, lanes := lanesOf parkLane }
        let s1 := s.modGroup gid fun _ => ({ g1 with ents := g1.liveEnts g1.ents } : Group).endChain
        let s2 := { s1 with parking := s1.parking ++ recs }
        let tr (l : Nat) : Option TrapAt :=
          match due.find? fun d => d.lane == l with
          | some d => if d.parks then none else some { f := d.f, at_ := (g.lane l).pair }
          | none => none
        .next (afterLanes (enterTraps s2 gid tr) gid)

end Sys2Proof.Machine
end

