-- ==== Sys2Proof/Machine/Fp.lean ====
section
/-! DEFINITION. The number formats and exact arithmetic with one rounding (spec/03 R45 to R50, R54 to R56; spec/07 R131 to R135). -/

namespace Sys2Proof.Machine

/-- A floating-point format: exponent and fraction bits, bias, and its largest finite code; `ieee` formats have infinities, and
E4M3 has NaNs only at the top code (R45). -/
structure Fmt where
  eb   : Nat
  fb   : Nat
  bias : Nat
  ieee : Bool
  maxc : Nat
  narrow : Bool := true
  deriving DecidableEq, Repr

def f32 : Fmt := { eb := 8, fb := 23, bias := 127, ieee := true, maxc := 0x7F7FFFFF, narrow := false }
def f16 : Fmt := { eb := 5, fb := 10, bias := 15, ieee := true, maxc := 0x7BFF }
def bf16 : Fmt := { eb := 8, fb := 7, bias := 127, ieee := true, maxc := 0x7F7F }
def e4m3 : Fmt := { eb := 4, fb := 3, bias := 7, ieee := false, maxc := 0x7E }
def e5m2 : Fmt := { eb := 5, fb := 2, bias := 15, ieee := true, maxc := 0x7B }
def e2m1 : Fmt := { eb := 2, fb := 1, bias := 1, ieee := false, maxc := 0x7 }

/-- The weight of the sign bit. -/
def Fmt.signW (f : Fmt) : Nat := 2 ^ (f.eb + f.fb)

/-- The code of +∞ in an IEEE format. -/
def Fmt.infC (f : Fmt) : Nat := (2 ^ f.eb - 1) * 2 ^ f.fb

/-- The canonical NaN (R50). -/
def Fmt.canon (f : Fmt) : Nat := f.infC + 2 ^ (f.fb - 1)

/-- What a code stands for: a value (−1)^neg × m × 2^e, an infinity or a NaN (R45). -/
inductive Fp where
  | nan (neg : Bool) (frac : Nat)
  | inf (neg : Bool)
  | fin (neg : Bool) (m : Nat) (e : Int)
  deriving DecidableEq, Repr

/-- A code's meaning (R45). -/
def Fmt.decode (f : Fmt) (c : Nat) : Fp :=
  let neg := c / f.signW % 2 == 1
  let ex := c / 2 ^ f.fb % 2 ^ f.eb
  let fr := c % 2 ^ f.fb
  if f.ieee && ex == 2 ^ f.eb - 1 then (if fr == 0 then .inf neg else .nan neg fr)
  else if !f.ieee && f.fb == 3 && c % f.signW == 0x7F then .nan neg fr
  else if ex == 0 then .fin neg fr (1 - (f.bias : Int) - f.fb)
  else .fin neg (2 ^ f.fb + fr) ((ex : Int) - f.bias - f.fb)

/-- A sign with a magnitude code. -/
def Fmt.signed (f : Fmt) (neg : Bool) (c : Nat) : Nat := if neg then c + f.signW else c

/-- Round a positive magnitude m × 2^e up or not under a mode: 0 RNE, 1 RZ, 2 RP, 3 RM (R48). `rem` of `2^shift` is cut off, and
`sticky` says that the exact value lies strictly above m × 2^e. -/
def roundUp (mode : Nat) (neg : Bool) (kept rem shift : Nat) (sticky : Bool) : Bool :=
  let inexact := rem != 0 || sticky
  match mode with
  | 0 =>
    if shift == 0 then false
    else
      let half := 2 ^ (shift - 1)
      half < rem || (rem == half && (sticky || kept % 2 == 1))
  | 1 => false
  | 2 => inexact && !neg
  | _ => inexact && neg

/-- Round an exact magnitude m × 2^e (with `sticky` when more follows below) to a format (R48, R49): its code with the sign, and
whether a narrow destination overflowed. -/
def Fmt.round (f : Fmt) (mode : Nat) (neg : Bool) (m : Nat) (e : Int) (sticky : Bool := false) : Res Nat :=
  let lsb0 : Int := 1 - (f.bias : Int) - f.fb
  let q : Int := max ((Nat.log2 m : Int) + e - f.fb) lsb0
  -- with something below m × 2^e there must be bits to hold it
  let (m, e) := if sticky then (m * 4, e - 2) else (m, e)
  let mant : Nat :=
    if q ≤ e then m * 2 ^ (e - q).toNat
    else
      let sh := (q - e).toNat
      let kept := m / 2 ^ sh
      if roundUp mode neg kept (m % 2 ^ sh) sh sticky then kept + 1 else kept
  let code := (q - lsb0).toNat * 2 ^ f.fb + mant
  if code ≤ f.maxc then { val := f.signed neg code }
  else if f.narrow then { val := f.signed neg f.maxc, sat := true }
  else
    let toInf := mode == 0 || (mode == 2 && !neg) || (mode == 3 && neg)
    { val := f.signed neg (if toInf then f.infC else f.maxc) }

/-- A signed exact number S × 2^e rounded; a zero takes the sign given (R48, R56). -/
def Fmt.roundInt (f : Fmt) (mode : Nat) (x : Int) (e : Int) (zeroNeg : Bool) : Res Nat :=
  if x == 0 then { val := f.signed zeroNeg 0 } else f.round mode (x < 0) x.natAbs e

/-- The signed mantissa of a finite value. -/
def sgn (neg : Bool) (m : Nat) : Int := if neg then -(m : Int) else m

/-- Exact sum of two numbers a × 2^e and b × 2^f: the mantissa at the lower exponent. -/
def addExact (a : Int) (e : Int) (b : Int) (f : Int) : Int × Int :=
  if e ≤ f then (a + b * 2 ^ (f - e).toNat, e) else (a * 2 ^ (e - f).toNat + b, f)

/-- A NaN's quiet bit is clear (R45, R50). -/
def Fmt.isSnan (f : Fmt) : Fp → Bool
  | .nan _ fr => f.ieee && fr < 2 ^ (f.fb - 1)
  | _ => false

/-- A code is a NaN. -/
def Fp.isNan : Fp → Bool
  | .nan .. => true
  | _ => false

/-- A code with its quiet bit set (R50). -/
def Fmt.quiet (f : Fmt) (c : Nat) : Nat := if c / 2 ^ (f.fb - 1) % 2 == 1 then c else c + 2 ^ (f.fb - 1)

/-- The NaN result of R50: the first NaN among the operand codes, quieted; invalid if any of them is signalling. -/
def Fmt.nanResult (f : Fmt) (cs : List Nat) (inv : Bool := false) : Option (Res Nat) :=
  match cs.find? fun c => (f.decode c).isNan with
  | none => none
  | some c => some { val := f.quiet c, inv := inv || cs.any fun c => f.isSnan (f.decode c) }

/-- An invalid operation without a NaN operand (R50). -/
def Fmt.invalid (f : Fmt) : Res Nat := { val := f.canon, inv := true }

/-- The sign of a zero sum of two terms, given whether each is itself a zero and its sign (R56, R131). -/
def zeroSign (mode : Nat) (aNeg bNeg aZero bZero : Bool) : Bool :=
  if aZero && bZero && aNeg == bNeg then aNeg else mode == 3

/-- The sum of two values that are no NaNs. -/
def Fmt.addV (f : Fmt) (mode : Nat) (a b : Fp) : Res Nat :=
  match a, b with
  | .inf x, .inf y => if x == y then { val := f.signed x f.infC } else f.invalid
  | .inf x, _ => { val := f.signed x f.infC }
  | _, .inf y => { val := f.signed y f.infC }
  | .fin x m e, .fin y n d =>
    let (t, q) := addExact (sgn x m) e (sgn y n) d
    f.roundInt mode t q (zeroSign mode x y (m == 0) (n == 0))
  | _, _ => f.invalid

/-- The negation of a value. -/
def Fp.neg : Fp → Fp
  | .nan s x => .nan s x
  | .inf s => .inf !s
  | .fin s m e => .fin (!s) m e

/-- FADD and one element of HADD2 (R131, R134). -/
def Fmt.add (f : Fmt) (mode a b : Nat) : Res Nat :=
  (f.nanResult [a, b]).getD (f.addV mode (f.decode a) (f.decode b))

/-- FSUB (R131). -/
def Fmt.sub (f : Fmt) (mode a b : Nat) : Res Nat :=
  (f.nanResult [a, b]).getD (f.addV mode (f.decode a) (f.decode b).neg)

/-- The exact product of two values that are no NaNs; none when it is invalid, 0 × ∞ (R50). -/
def mulV (a b : Fp) : Option Fp :=
  match a, b with
  | .inf x, .inf y => some (.inf (x != y))
  | .inf x, .fin y n _ => if n == 0 then none else some (.inf (x != y))
  | .fin x m _, .inf y => if m == 0 then none else some (.inf (x != y))
  | .fin x m e, .fin y n d => some (.fin (x != y) (m * n) (e + d))
  | _, _ => none

/-- A value rounded to a format. -/
def Fmt.roundV (f : Fmt) (mode : Nat) : Fp → Res Nat
  | .nan .. => { val := f.canon }
  | .inf s => { val := f.signed s f.infC }
  | .fin s m e => if m == 0 then { val := f.signed s 0 } else f.round mode s m e

/-- FMUL and one element of HMUL2 (R131, R134). -/
def Fmt.mul (f : Fmt) (mode a b : Nat) : Res Nat :=
  (f.nanResult [a, b]).getD (match mulV (f.decode a) (f.decode b) with
    | none => f.invalid
    | some p => f.roundV mode p)

/-- FFMA and one element of HFMA2 (R131, R134): 0 × ∞ is invalid even beside a quiet NaN in D. -/
def Fmt.fma (f : Fmt) (mode a b c : Nat) : Res Nat :=
  let p := mulV (f.decode a) (f.decode b)
  let bad := !(f.decode a).isNan && !(f.decode b).isNan && p.isNone
  (f.nanResult [a, b, c] bad).getD (match p with
    | none => f.invalid
    | some p => f.addV mode p (f.decode c))

/-- a < b for values that are no NaNs; −0 and +0 are equal. -/
def Fp.lt (a b : Fp) : Bool :=
  match a, b with
  | .inf x, .inf y => x && !y
  | .inf x, _ => x
  | _, .inf y => !y
  | .fin x m e, .fin y n d =>
    let (t, _) := addExact (sgn x m) e (-sgn y n) d
    t < 0
  | _, _ => false

/-- The sign of a value. -/
def Fp.isNeg : Fp → Bool
  | .nan s _ | .inf s | .fin s _ _ => s

/-- FMIN and FMAX (R132). -/
def Fmt.minmax (f : Fmt) (max : Bool) (a b : Nat) : Res Nat :=
  let x := f.decode a
  let y := f.decode b
  if f.isSnan x || f.isSnan y then f.invalid
  else if x.isNan then { val := a }
  else if y.isNan then { val := b }
  else
    let less := x.lt y || (!y.lt x && x.isNeg && !y.isNeg)
    { val := if less != max then a else b }

/-- The conditions of FCMP (R87, R133). -/
def fpCond (c a b : Nat) : Bool :=
  let x := f32.decode a
  let y := f32.decode b
  let un := x.isNan || y.isNan
  let eq := !x.lt y && !y.lt x
  match c with
  | 0 => !un && eq
  | 1 => un || !eq
  | 2 => !un && x.lt y
  | 3 => !un && (x.lt y || eq)
  | 4 => !un && y.lt x
  | 5 => !un && (y.lt x || eq)
  | 6 => un
  | _ => !un

/-- What a dot product finds among its terms (R56). -/
structure DotAcc where
  nan  : Bool := false
  inv  : Bool := false
  pinf : Bool := false
  ninf : Bool := false
  sum  : Int := 0
  e    : Int := 0
  /-- Every term so far is −0. -/
  allNegZero : Bool := true
  /-- Every term so far is a zero. -/
  allPosZero : Bool := true
  deriving DecidableEq, Repr

/-- Add a value to an exact sum (R56). -/
def DotAcc.term (d : DotAcc) (x : Fp) : DotAcc :=
  match x with
  | .nan .. => { d with nan := true }
  | .inf s => if s then { d with ninf := true, allNegZero := false, allPosZero := false }
              else { d with pinf := true, allNegZero := false, allPosZero := false }
  | .fin s m e =>
    let (t, q) := if m == 0 then (d.sum, d.e) else if d.sum == 0 then (sgn s m, e) else addExact d.sum d.e (sgn s m) e
    { d with sum := t, e := q, allNegZero := d.allNegZero && m == 0 && s, allPosZero := d.allPosZero && m == 0 && !s }

/-- Add the product of two values to an exact sum (R56). -/
def DotAcc.prod (d : DotAcc) (a b : Fp) : DotAcc :=
  if a.isNan || b.isNan then { d with nan := true }
  else match mulV a b with
    | none => { d with inv := true, allNegZero := false, allPosZero := false }
    | some p => d.term p

/-- Round an exact sum once (R56): NaN inputs, invalid combinations, infinities, then the number; a zero is −0 when every term
is, +0 when every term is, and otherwise follows the mode. -/
def DotAcc.round (d : DotAcc) (f : Fmt) (mode : Nat) (snan : Bool) : Res Nat :=
  if d.nan then { val := f.canon, inv := snan }
  else if d.inv || (d.pinf && d.ninf) then f.invalid
  else if d.pinf then { val := f.signed false f.infC }
  else if d.ninf then { val := f.signed true f.infC }
  else f.roundInt mode d.sum d.e (d.allNegZero || (!d.allPosZero && mode == 3))

/-- FDOT2 (R135): two packed products and an FP32 addend, one rounding. -/
def fdot2 (f : Fmt) (mode a b c : Nat) : Res Nat :=
  let h (x i : Nat) : Fp := f.decode (x / 2 ^ (16 * i) % 65536)
  let d := (((({} : DotAcc).prod (h a 0) (h b 0)).prod (h a 1) (h b 1)).term (f32.decode c))
  let sn := f.isSnan (h a 0) || f.isSnan (h a 1) || f.isSnan (h b 0) || f.isSnan (h b 1) || f32.isSnan (f32.decode c)
  d.round f32 mode sn

/-- Narrowing an FP32 code (R48, R49, R55). -/
def narrowTo (f : Fmt) (mode x : Nat) : Res Nat :=
  match f32.decode x with
  | .nan s fr =>
    if f.fb == 1 then { val := f.signed s 0, inv := true }
    else if !f.ieee then { val := f.signed s 0x7F }
    else
      let top := fr / 2 ^ (23 - f.fb)
      { val := f.signed s (f.infC + if top == 0 then 2 ^ (f.fb - 1) else top) }
  | .inf s => if f.ieee then { val := f.signed s f.infC } else { val := f.signed s f.maxc, sat := true }
  | .fin s m e => if m == 0 then { val := f.signed s 0 } else f.round mode s m e

/-- Widening a narrow code to FP32 (R55). -/
def widen (f : Fmt) (c : Nat) : Nat :=
  match f.decode c with
  | .nan s fr => if f.ieee then f32.signed s (f32.infC + fr * 2 ^ (23 - f.fb)) else f32.signed s f32.canon
  | .inf s => f32.signed s f32.infC
  | .fin s m e => if m == 0 then f32.signed s 0 else (f32.round 1 s m e).val

/-- A finite value rounded to an integer (R48). -/
def roundToInt (mode : Nat) (neg : Bool) (m : Nat) (e : Int) : Int :=
  if 0 ≤ e then sgn neg (m * 2 ^ e.toNat)
  else
    let sh := (-e).toNat
    let kept := m / 2 ^ sh
    sgn neg (if roundUp mode neg kept (m % 2 ^ sh) sh false then kept + 1 else kept)

/-- An FP32 code to an integer type (R49, R50, R54). -/
def fpToInt (mode n : Nat) (nat : Bool) (x : Nat) : Res Int :=
  match f32.decode x with
  | .nan .. => { val := 0, inv := true }
  | .inf s => { val := if s then intMin n nat else intMax n nat, sat := true }
  | .fin s m e => intInto (roundToInt mode s m e) n nat true

/-- An integer to FP32 (R125). -/
def intToFp (mode : Nat) (x : Int) : Nat := (f32.roundInt mode x 0 false).val

/-- FP32 to E8M0, code 10 (R54). -/
def toE8m0 (x : Nat) : Res Nat :=
  match f32.decode x with
  | .nan .. => { val := 0xFF }
  | .inf _ => { val := 0xFE, sat := true }
  | .fin _ m e =>
    if m == 0 then { val := 0 }
    else
      let k : Int := (Nat.log2 m : Int) + e + 127
      { val := (max 0 (min 254 k)).toNat }

/-- E8M0 to FP32, code 11 (R54). -/
def fromE8m0 (s : Nat) : Nat := if s == 0xFF then f32.canon else (f32.round 1 false 1 ((s : Int) - 127)).val

/-- The value of an E8M0 scale (R46). -/
def e8m0Val (s : Nat) : Fp := if s == 0xFF then .nan false (2 ^ 22) else .fin false 1 ((s : Int) - 127)

end Sys2Proof.Machine
end

