-- ==== Sys2Proof/Machine/Mem.lean ====
section
/-! DEFINITION. LD, ST, LDS, STS, ATOM, ATOMS and RESID: their acceptance (spec/11 R206 to R219) and the steps that perform and
complete them (spec/10 R186, R190; spec/12 R228 to R235). -/

namespace Sys2Proof.Machine

/-- The form of a memory instruction (R210, R214, R215, R219). -/
def memForm (k : MemKind) (size : Nat) (a : BitVec 8) (f : BitVec 4) (lease : Bool) (wide : Bool) (d n : Nat) : Form :=
  { syn := memSyn (kindCode k) size false 0, md := .memory lease (isVec a), off := true, f := some f,
    vregs := srcRegs wide a ++ (List.range ((n + 3) / 4)).map fun k => d + k }

/-- LD (R211). -/
def execLd (g : BitVec 4) (d : BitVec 6) (a : BitVec 8) (f w : BitVec 4) (s : State) : Host.Outcome State Fault Refusal :=
  let size := ldSize w.toNat
  match prelude s g (memForm .ld size a f true true d.toNat size) with
  | .error t => .next t
  | .ok i =>
    let md := i.g.hints.memory
    let m : MemOp := { k := .ld, d := d.toNat, w := w.toNat, pol := md.pol, lease := if md.pol == 1 then md.lease else 256, accs := [] }
    .next (acceptMem s i f m fun l => checkLane s i.g.core (worldOf s i.g) .ld size size l (laneVa s i a size l) [])

/-- ST (R212). -/
def execSt (g : BitVec 4) (d : BitVec 6) (a : BitVec 8) (f w : BitVec 4) (s : State) : Host.Outcome State Fault Refusal :=
  let size := ldSize w.toNat
  match prelude s g (memForm .st size a f false true d.toNat size) with
  | .error t => .next t
  | .ok i =>
    let m : MemOp := { k := .st, d := d.toNat, w := w.toNat, accs := [] }
    .next (acceptMem s i f m fun l =>
      checkLane s i.g.core (worldOf s i.g) .st size size l (laneVa s i a size l) (regBytes s i.g d.toNat size l))

/-- LDS (R214). -/
def execLds (g : BitVec 4) (d : BitVec 6) (a : BitVec 8) (f : BitVec 4) (sp z : BitVec 2) (s : State) :
    Host.Outcome State Fault Refusal :=
  let size := ldsSize z.toNat
  match prelude s g (memForm .lds size a f false false d.toNat size) with
  | .error t => .next t
  | .ok i =>
    let m : MemOp := { k := .lds, d := d.toNat, w := z.toNat, accs := [] }
    .next (acceptMem s i f m fun l =>
      checkScratch s i.g sp.toNat size l (scratchOff i a (scratchBase s i a l) size l) [])

/-- STS (R214). -/
def execSts (g : BitVec 4) (d : BitVec 6) (a : BitVec 8) (f : BitVec 4) (sp z : BitVec 2) (s : State) :
    Host.Outcome State Fault Refusal :=
  let size := ldsSize z.toNat
  match prelude s g (memForm .sts size a f false false d.toNat size) with
  | .error t => .next t
  | .ok i =>
    let m : MemOp := { k := .sts, d := d.toNat, w := z.toNat, accs := [] }
    .next (acceptMem s i f m fun l =>
      checkScratch s i.g sp.toNat size l (scratchOff i a (scratchBase s i a l) size l) (regBytes s i.g d.toNat size l))

/-- R58: a floating-point atomic in a replay-exact world. -/
def replayTrap (s : State) (i : Iss) (w : Nat) : Bool :=
  (w == 1 || w == 2) && ((Fm.get? s.worlds (worldOf s i.g)).map fun x => x.replay).getD false

/-- Every active lane takes REPLAY_ORDER, with the virtual address of its access (R58, R174). -/
def trapReplay (s : State) (i : Iss) (kind size : Nat) (addr : Nat → DWord) : State :=
  retire s i i.g (fun l =>
    if i.act.getLsbD l then
      faultFx i 0 { cause := BitVec.ofNat 8 cReplay, syn := memSyn kind size false 0, addr := addr l }
    else .seq) none

/-- ATOM (R215, R216). -/
def execAtom (g : BitVec 4) (d : BitVec 6) (a : BitVec 8) (f w : BitVec 4) (s : State) : Host.Outcome State Fault Refusal :=
  let size := atomSize w.toNat
  match prelude s g (memForm .atom size a f false true d.toNat (atomOperand w.toNat)) with
  | .error t => .next t
  | .ok i =>
    if replayTrap s i w.toNat then .next (trapReplay s i 2 size fun l => BitVec.ofNat 64 (laneVa s i a size l))
    else
      let m : MemOp := { k := .atom, d := d.toNat, w := w.toNat, accs := [] }
      .next (acceptMem s i f m fun l =>
        checkLane s i.g.core (worldOf s i.g) .atom size size l (laneVa s i a size l)
          (regBytes s i.g d.toNat (atomOperand w.toNat) l))

/-- ATOMS (R218): the space comes from the top bits of the base. -/
def execAtoms (g : BitVec 4) (d : BitVec 6) (a : BitVec 8) (f w : BitVec 4) (s : State) : Host.Outcome State Fault Refusal :=
  let size := atomSize w.toNat
  match prelude s g (memForm .atoms size a f false false d.toNat (atomOperand w.toNat)) with
  | .error t => .next t
  | .ok i =>
    let base (l : Nat) : Nat := scratchBase s i a l
    let off (l : Nat) : Int := scratchOff i a (base l % 2 ^ 30) size l
    if replayTrap s i w.toNat then .next (trapReplay s i 6 size fun _ => 0)
    else
      let m : MemOp := { k := .atoms, d := d.toNat, w := w.toNat, accs := [] }
      .next (acceptMem s i f m fun l =>
        checkScratch s i.g (base l / 2 ^ 30) size l (off l) (regBytes s i.g d.toNat (atomOperand w.toNat) l))

/-- RESID (R219). -/
def execResid (g : BitVec 4) (c : BitVec 6) (a : BitVec 8) (f w : BitVec 4) (s : State) : Host.Outcome State Fault Refusal :=
  let n := if w.toNat == 0 then 128 else 512
  match prelude s g (memForm .resid n a f false true 0 0) with
  | .error t => .next t
  | .ok i =>
    let m : MemOp := { k := .resid, d := c.toNat, w := w.toNat, accs := [] }
    .next (acceptMem s i f m fun l => checkLane s i.g.core (worldOf s i.g) .resid n n l (laneVa s i a n l) [])

/-- A memory operation in flight and one of its accesses. -/
def memOpOf (s : State) (id u : Nat) (p : MemKind → Bool) : Option (Op × MemOp × Acc) :=
  match Fm.get? s.ops id with
  | some o =>
    match o.kind with
    | .mem m =>
      if p m.k then
        match m.accs[u]? with
        | some a => if a.got.isNone && !a.held then some (o, m, a) else none
        | none => none
      else none
    | _ => none
  | none => none

/-- The registers that a returned unit writes (R211, R214, R216). -/
def loadWords (k : MemKind) (w : Nat) (bs : List Byte) : List Word :=
  let word (j : Nat) : Word := BitVec.ofNat 32 (leNat ((bs.drop (4 * j)).take 4))
  match k with
  | .ld =>
    if w == 0 then [(BitVec.ofNat 8 (leNat bs)).signExtend 32]
    else if w == 2 then [(BitVec.ofNat 16 (leNat bs)).signExtend 32]
    else (List.range ((bs.length + 3) / 4)).map word
  | .lds | .atom | .atoms => (List.range ((bs.length + 3) / 4)).map word
  | _ => []

/-- The lanes' results reach the group's registers together, as the operation completes; until then a read that does not wait finds the old values
(R68, R211, R216; DESIGN CHOICE, log entry 5). -/
def writeBack (g : Group) (m : MemOp) : Group :=
  m.accs.foldl (fun g a =>
    match a.got with
    | some bs =>
      ((loadWords m.k m.w bs).foldl (fun (p : Group × Nat) x => (p.1.setV p.2 a.lane x, p.2 + 1)) (g, m.d)).1
    | none => g) g

/-- Poison found by a memory instruction, delivered before the lane's next bundle (R209). -/
def poisonOf (s : State) (g : Group) (o : Op) (m : MemOp) : List Deferred :=
  (m.accs.filter fun a => a.bad).map fun a =>
    { lane := a.lane,
      f := { cause := BitVec.ofNat 8 cPoison, addr := BitVec.ofNat 64 a.va, word := o.word,
             syn := memSyn (kindCode m.k) m.size true (o.pc - codebaseOf s g).toNat },
      space := m.k == .lds || m.k == .atoms }
where
  codebaseOf (s : State) (g : Group) : Pc :=
    BitVec.ofNat 57 (((Fm.get? s.teams g.team).map fun t => t.d.codebase).getD 0)

/-- Put back an operation's accesses; when every one is performed, the operation completes (R211, R212, R214, R216, R219). -/
def putMem (s : State) (id : Nat) (o : Op) (m : MemOp) (t : Nat) : State :=
  let s := { s with ops := Fm.put s.ops id { o with kind := .mem m, time := max o.time t } }
  if m.accs.any fun a => a.got.isNone then s
  else
    let s := match o.group with
      | none => s
      | some gid =>
        s.modGroup gid fun g =>
          let g := (writeBack g m).orGs m.gs
          { g with deferred := g.deferred ++ poisonOf s g o m }
    completeOp s id

/-- Change some accesses of an operation. -/
def MemOp.mapAcc (m : MemOp) (p : Acc → Bool) (f : Acc → Acc) : MemOp :=
  { m with accs := m.accs.map fun a => if p a then f a else a }

/-- The physical byte of an access to translated memory. -/
def Acc.phys (a : Acc) : Nat :=
  match a.loc with
  | .mem p => p
  | _ => 0

/-- The pending writes that stand on a sector for a die: its own copy's, those of the copy that stands for it, or memory's. -/
def pendOf (s : State) (die sec : Nat) : List PendW :=
  match copyOf s die sec with
  | some x => x.pend
  | none => ((standing s sec).map fun x => x.pend).getD (Fm.getD s.memPend sec [])

/-- The number under which writes of an operation are kept: its group, or no group (R240). -/
def writerOf (o : Op) : Nat := o.group.getD (2 ^ 64)

/-- A sector read for the lanes of a core (R186, R190, R229): from the core's L1 while its lease holds, else from the die's
copy, which grants a lease. The contents without early service, the poison mark, whether the read must wait. -/
structure SecRead where
  s    : State
  ok   : Bool
  base : List Byte := []
  bad  : Bool := false
  deriving DecidableEq, Repr

/-- The L1 set of a sector: by its place in its buffer (R186). -/
def l1Set (soff : Nat) : Nat := soff % 256

/-- Keep a sector in a core's L1; the least recently used of eight ways goes (R186). -/
def fillL1 (s : State) (x : L1Frame) : State :=
  let mine := s.l1.filter fun f => f.core == x.core && l1Set f.soff == l1Set x.soff && !(f.world == x.world && f.buf == x.buf && f.soff == x.soff)
  let rest := s.l1.filter fun f => !(f.core == x.core && l1Set f.soff == l1Set x.soff)
  let mine := if mine.length < 8 then mine else
    match leastBy (fun f : L1Frame => f.use) mine with
    | some v => mine.filter fun f => f != v
    | none => mine
  { s with l1 := x :: mine ++ rest }

/-- When a lease of `len` ticks granted at `t` ends: no later than the visibility time of a pending write (R229); where the die is not served a
write at its V yet, that is in the past and nothing is granted (R233). -/
def leaseEnd (pend : List PendW) (die t len : Nat) : Nat :=
  (pend.filter fun w => t < w.v || t < w.from_ die).foldl (fun n w => min n w.v) (t + len)

/-- The reading of a die up to which early service is in what it serves of a sector now: no later than that of an L1 frame that still serves it
(R234). -/
def asOfNow (s : State) (die sec : Nat) : Nat :=
  let t := dialOf s die
  (s.l1.filter fun f => f.sec == sec && f.core / 48 == die && t < f.expiry).foldl (fun n f => min n f.asOf) t

/-- Read a sector for an LD (R186, R211, R229). -/
def readSector (s : State) (core world : Nat) (a : Acc) (pol lease : Nat) : SecRead :=
  let die := core / 48
  let t := dialOf s die
  let sec := secOf a.phys
  let bypass := pol == 2 || (pol == 1 && lease == 0) || a.l1 == 1
  let hit := s.l1.find? fun f => f.core == core && f.world == world && f.buf == a.buf && f.soff == a.soff && t < f.expiry
  match (if bypass then none else hit) with
  | some f =>
    let touch (x : L1Frame) : L1Frame := if x == f then { x with use := s.uses + 1 } else x
    { s := countUnit { s with l1 := s.l1.map touch, uses := s.uses + 1 } core 8 [world], ok := true, base := f.data, bad := f.poison }
  | none =>
    let had := (copyOf s die sec).isSome
    let r := readReq s die sec none a.lru
    if !r.ok then { s := r.s, ok := false }
    else
      match copyOf r.s die sec with
      | none => { s := r.s, ok := false }
      | some x =>
        let data := peekSec r.s die a.enc sec .other
        let s1 := r.s
        let len := if a.l1 == 2 then min 64 lease else lease
        let cap := leaseEnd (timed r.s die sec x.pend) die t len
        let s2 :=
          if bypass || cap ≤ t then s1
          else
            let s1 := { s1 with l2 := Fm.mod s1.l2 (l2Key die sec) fun y => { y with stamp := max y.stamp cap }, uses := s1.uses + 1 }
            let fr : L1Frame := { core := core, world := world, buf := a.buf, soff := a.soff, sec := sec, expiry := cap, data := data,
                                  poison := x.poison, asOf := asOfNow s1 die sec, use := s1.uses }
            fillL1 (countUnit s1 core 9 [world]) fr
        let s3 := if die == homeDie sec || !had then countRead s2 sec else s2
        { s := s3, ok := true, base := data, bad := x.poison }

/-- The bytes of a lane's unit: the sector's, with the lane's own pending writes and its own stores in flight over them
(R213, R240). -/
def unitBytes (s : State) (id : Nat) (o : Op) (size : Nat) (base : List Byte) (a : Acc) : List Byte :=
  let t := dialOf s o.die
  let pend := timed s o.die (secOf a.phys) (pendOf s o.die (secOf a.phys))
  let own := pend.filter fun w => t < w.from_ o.die && w.group == writerOf o
  let bs := (List.range size).map fun j =>
    let k := a.phys % 128 + j
    let e := seenEnc a.enc own o.die t (.lane (writerOf o) a.lane) (k / 32)
    decByte s a.enc e (a.phys + j) (seenByte ((base[k]?).getD 0) own o.die t (.lane (writerOf o) a.lane) k)
  forwarded s id o size a bs

/-- LOAD_DATA_RETURN (R211, R209): one read of the sector of unit `u` serves every lane whose unit lies in it. -/
def execLoadDataReturn (op unit : Nat) (s : State) : Host.Outcome State Fault Refusal :=
  match memOpOf s op unit fun k => k == .ld with
  | none => .next s
  | some (o, m, a) =>
    let mine (b : Acc) : Bool := b.got.isNone && !b.held && secOf b.phys == secOf a.phys
    if m.accs.any fun b => mine b && earlierOpen s op o m.size b fun k => k != .st then .next s
    else
      let r := readSector s o.core o.world a m.pol m.lease
      if !r.ok then .next r.s
      else
        let done (b : Acc) : Acc :=
          if r.bad then { b with got := some (List.replicate m.size 0), bad := true }
          else { b with got := some (unitBytes s op o m.size r.base b) }
        .next (putMem r.s op o (m.mapAcc mine done) (dialOf s o.die))

/-- The bytes that some lanes store to one sector: the highest lane stands, byte by byte, and every lane that wrote the byte is
named (R8, R212). -/
def storeBytes (accs : List Acc) : Fm (Byte × LaneMask) :=
  accs.foldl (fun m a =>
    ((List.range a.data.length).foldl (fun m j =>
      let k := a.phys % 128 + j
      let old := ((Fm.get? m k).map fun x => x.2).getD 0
      Fm.put m k ((a.data[j]?).getD 0, old ||| BitVec.ofNat 64 (2 ^ a.lane))) m)) []

/-- STORE_COMPLETION (R212, R228): the stores to the sector of unit `u` are accepted at the die's point of coherence. -/
def execStoreCompletion (op unit : Nat) (s : State) : Host.Outcome State Fault Refusal :=
  match memOpOf s op unit fun k => k == .st with
  | none => .next s
  | some (o, m, a) =>
    let mine (b : Acc) : Bool := b.got.isNone && !b.held && secOf b.phys == secOf a.phys
    if m.accs.any fun b => mine b && earlierOpen s op o m.size b fun _ => true then .next s
    else
      let r := acceptStep s o.die (secOf a.phys) a.enc (storeBytes (m.accs.filter mine)) (writerOf o) op none a.lru
      if !r.ok then .next r.s
      else .next (putMem r.s op o (m.mapAcc mine fun b => { b with got := some [] }) r.stamp)

/-- The op of an atomic on numbers: old value and operand to the new value and its GS bits (R216, R217). -/
def atomEval (w old d : Nat) : Res Nat :=
  let lo := d % 2 ^ 32
  match w with
  | 0 => { val := (old + lo) % 2 ^ 32 }
  | 1 => f32.add 0 old lo
  | 2 =>
    let h (i : Nat) : Res Nat := bf16.add 0 (old / 2 ^ (16 * i) % 65536) (lo / 2 ^ (16 * i) % 65536)
    { val := (h 0).val + 65536 * (h 1).val, sat := (h 0).sat || (h 1).sat, inv := (h 0).inv || (h 1).inv }
  | 3 => { val := if (BitVec.ofNat 32 old).toInt ≤ (BitVec.ofNat 32 lo).toInt then old else lo }
  | 4 => { val := min old lo }
  | 5 => { val := if (BitVec.ofNat 32 old).toInt ≤ (BitVec.ofNat 32 lo).toInt then lo else old }
  | 6 => { val := max old lo }
  | 7 => { val := old &&& lo }
  | 8 => { val := old ||| lo }
  | 9 => { val := old ^^^ lo }
  | 10 => { val := lo }
  | 11 => { val := if old == lo then d / 2 ^ 32 % 2 ^ 32 else old }
  | 12 => { val := (old + d) % 2 ^ 64 }
  | 13 => { val := d % 2 ^ 64 }
  | _ => { val := if old == d % 2 ^ 64 then d / 2 ^ 64 else old }

/-- One step at an address: its lanes in ascending order (R216). The new value, each lane's old value, the GS bits. -/
def atomLanes (w : Nat) : List Acc → Nat → Nat × List (Nat × Nat) × DWord
  | [], v => (v, [], 0)
  | a :: r, v =>
    let x := atomEval w v (leNat a.data)
    let (v', olds, gs) := atomLanes w r x.val
    (v', (a.lane, v) :: olds, x.gs ||| gs)

/-- The accesses after a step: each lane gets the old value it saw. -/
def atomDone (m : MemOp) (mine : Acc → Bool) (olds : List (Nat × Nat)) (gs : DWord) (bad : Bool) : MemOp :=
  let m := m.mapAcc mine fun b =>
    let old := ((olds.find? fun x => x.1 == b.lane).map fun x => x.2).getD 0
    { b with got := some (leBytes m.size (if bad then 0 else old)), bad := bad }
  { m with gs := m.gs ||| gs }

/-- The operand read of a slice ALU (R191): where the home L2 does not hold the sector it reads what stands for it, memory under the
write-combining buffer's bytes or a remote owner's copy, with no fill (R244). -/
def operandRead (s : State) (phys : Nat) : Reply :=
  let sec := secOf phys
  let home := homeDie sec
  if (copyOf s home sec).isNone then
    if !myTurn s sec home true || blocked s sec none then { s := enqueue s sec home true, ok := false } else { s := s, ok := true }
  else readReq s home sec

/-- An operand has been read and nothing is written: the request leaves the directory (R244). -/
def readDone (s : State) (sec : Nat) : State := dequeue s sec (homeDie sec) true

/-- A write to some of `n` bytes is pending that a die is not served yet. -/
def unserved (s : State) (die phys n : Nat) : Bool :=
  let sec := secOf phys
  (timed s die sec (pendOf s die sec)).any fun w =>
    dialOf s die < w.from_ die && w.bytes.any fun e => phys % 128 ≤ e.1 && e.1 < phys % 128 + n

/-- The lanes of an atomic on one page of a peer leave for it, through the port of the page, no earlier than earlier operations on the page
(R215, R393). -/
def sendAtom (s : State) (id : Nat) (o : Op) (m : MemOp) (peer va : Nat) : State :=
  if !peerFirst s id o.world peer (pageOf va) then s
  else
    let port := peerPort s o.world peer va
    let mine (b : Acc) : Bool := b.got.isNone && !b.held && b.sent.isNone && b.peer == some peer && pageOf b.va == pageOf va
    putMem (toPort s o.die port) id o (m.mapAcc mine fun b => { b with sent := some (dialOf s o.die), port := port }) 0

/-- ATOMIC_STEP (R216, R209): the lanes of the address of unit `u`, as one indivisible step at its executor; for a peer, they leave. -/
def execAtomicStep (op unit : Nat) (s : State) : Host.Outcome State Fault Refusal :=
  match memOpOf s op unit fun k => k == .atom || k == .atoms with
  | none => .next s
  | some (o, m, a) =>
    let mine (b : Acc) : Bool := b.got.isNone && !b.held && b.loc == a.loc
    if m.accs.any fun b => mine b && earlierOpen s op o m.size b fun _ => true then .next s
    else if let some p := a.peer then .next (if a.sent.isNone then sendAtom s op o m p a.va else s)
    else
      let lanes := m.accs.filter mine
      match a.loc with
      | .mem p =>
        let home := homeDie (secOf p)
        let r := operandRead s p
        if !r.ok then .next r.s
        else
          let bad := poisonAt r.s home (secOf p)
          let old := leNat (peek r.s home a.enc p m.size .newest)
          let (new, olds, gs) := atomLanes m.w lanes old
          let finished (s : State) (t : Nat) : State := doneKeys s (accKeys lanes) t
          if bad || new == old then
            -- it counts as a read at its read time (R236): it waits until what it read is served to its lanes too (R234; log entry 5)
            if !bad && (unserved r.s home p m.size || unserved r.s o.die p m.size) then .next r.s
            else
            let s0 := readDone r.s (secOf p)
            let s1 := if bad then countRead s0 (secOf p) else { s0 with rcounts := Fm.del s0.rcounts (secOf p) }
            .next (putMem (finished s1 (dialOf s home)) op o (atomDone m mine olds (if bad then 0 else gs) bad) (dialOf s home))
          else
            let mask : LaneMask := lanes.foldl (fun n b => n ||| BitVec.ofNat 64 (2 ^ b.lane)) 0
            let bytes := (List.range m.size).map fun j => (p % 128 + j, (BitVec.ofNat 8 (new / 2 ^ (8 * j)), mask))
            let q := acceptStep r.s home (secOf p) a.enc bytes (writerOf o) op none a.lru
            if !q.ok then .next q.s
            else .next (putMem (finished q.s q.stamp) op o (atomDone m mine olds gs false) q.stamp)
      | loc =>
        let bad := scratchBad s loc
        let old := leNat (scratchRead s o.world loc m.size)
        let (new, olds, gs) := atomLanes m.w lanes old
        .next (putMem (if bad then s else scratchWrite s o.world loc (leBytes m.size new)) op o (atomDone m mine olds (if bad then 0 else gs) bad)
          (dialOf s o.die))

/-- SCRATCH_ACCESS_PERFORMED (R214, R235): the lanes that address the place of unit `u`, in ascending order. -/
def execScratchAccessPerformed (op unit : Nat) (s : State) : Host.Outcome State Fault Refusal :=
  match memOpOf s op unit fun k => k == .lds || k == .sts with
  | none => .next s
  | some (o, m, a) =>
    let mine (b : Acc) : Bool := b.got.isNone && !b.held && b.loc == a.loc
    if m.accs.any fun b => mine b && earlierOpen s op o m.size b fun _ => true then .next s
    else if m.k == .lds then
      let got (b : Acc) : Acc :=
        if scratchBad s b.loc then { b with got := some (List.replicate m.size 0), bad := true }
        else { b with got := some (scratchRead s o.world b.loc m.size) }
      .next (putMem s op o (m.mapAcc mine got) (dialOf s o.die))
    else
      let s := (m.accs.filter mine).foldl (fun s b => scratchWrite s o.world b.loc b.data) s
      .next (putMem s op o (m.mapAcc mine fun b => { b with got := some [] }) (dialOf s o.die))

/-- The sectors of a RESID request (R219). -/
def residSecs (m : MemOp) (a : Acc) : List Nat :=
  if m.w == 0 then [secOf a.phys] else (List.range 4).map fun k => lineOf (secOf a.phys) * 4 + k

/-- RESID_APPLY (R219, R190): the home agent fills an absent sector, takes the request as a write of no byte, and sets the
count; a line's sectors take it together, or none while one must wait. -/
def execResidApply (op unit : Nat) (s : State) : Host.Outcome State Fault Refusal :=
  match memOpOf s op unit fun k => k == .resid with
  | none => .next s
  | some (o, m, a) =>
    let mine (b : Acc) : Bool := b.got.isNone && !b.held && b.loc == a.loc
    let one (sec : Nat) (t : State) : Reply :=
      let q := acceptStep t (homeDie sec) sec none [] (writerOf o) op none a.lru
      if !q.ok then q
      else { q with s := { q.s with rcounts := if m.d == 0 then Fm.del q.s.rcounts sec else Fm.put q.s.rcounts sec m.d } }
    if m.accs.any fun b => mine b && earlierOpen s op o m.size b fun _ => true then .next s
    else
      let r := whole s ((residSecs m a).map one)
      if !r.ok then .next r.s
      else .next (putMem r.s op o (m.mapAcc mine fun b => { b with got := some [] }) r.stamp)

/-- L1_LEASE_EXPIRY (R186): a sector whose lease has lapsed no longer serves hits; its frame is free. -/
def execL1LeaseExpiry (core sec : Nat) (s : State) : Host.Outcome State Fault Refusal :=
  .next { s with l1 := s.l1.filter fun f => !(f.core == core && f.sec == sec && f.expiry ≤ dialOf s (core / 48)) }

end Sys2Proof.Machine
end

