-- ==== Sys2Proof/Machine/Coherence.lean ====
section
/-! DEFINITION. The steps of the directory, the L2 parts and the write-combining buffers (spec/12 R231, R243 to R246; spec/10
R191). -/

namespace Sys2Proof.Machine

/-- READ_REQUEST (R244): a die that holds no copy asks for the sector; the fill of a remote copy counts as a read (R190). -/
def execReadRequest (die sec : Nat) (s : State) : Host.Outcome State Fault Refusal :=
  if 8 ≤ die || (copyOf s die sec).isSome then .next s
  else
    let r := readReq s die sec
    .next (if r.ok && die != homeDie sec then countRead r.s sec else r.s)

/-- OWN_REQUEST (R244): a die that may not write asks for the sector; every other copy is to be invalidated. -/
def execOwnRequest (die sec : Nat) (s : State) : Host.Outcome State Fault Refusal :=
  .next (if die < 8 then (ownStep s die sec).s else s)

/-- A copy may be evicted: no engine owns it (R189), and what it writes back finds room (R191). -/
def evictable (s : State) (die sec : Nat) (p : Moesi → Bool) : Bool :=
  match copyOf s die sec with
  | some x => p x.st && x.engine.isNone && (Fm.get? s.owns sec).isNone && backRoom s die [sec]
  | none => false

/-- WRITE_BACK (R244): an evicted M or O copy goes to memory through the write-combining buffer. -/
def execWriteBack (die sec : Nat) (s : State) : Host.Outcome State Fault Refusal :=
  .next (if evictable s die sec fun st => st == .m || st == .o then evictSec s die sec else s)

/-- CLEAN_NOTICE (R244): an evicted E or S copy. -/
def execCleanNotice (die sec : Nat) (s : State) : Host.Outcome State Fault Refusal :=
  .next (if evictable s die sec fun st => st == .e || st == .s then evictSec s die sec else s)

/-- No invalidation or back-invalidation that a home sent to a die earlier is still on its way: one route keeps the order of sending (R12). -/
def snoopFirst (s : State) (home die order : Nat) : Bool :=
  (s.owns.all fun e => homeDie e.1 != home || !e.2.left.getLsbD die || order ≤ e.2.order) &&
    s.backs.all fun b => homeDie (b.line * 4) != home || !b.dies.getLsbD die || b.seen.getLsbD die || order ≤ b.order

/-- INVALIDATION (R245): a die gives up its copy for an Own and acknowledges at once with its stamp, which the snoop filter entry records too
(R244); the owner's data travels. -/
def execInvalidation (die sec : Nat) (s : State) : Host.Outcome State Fault Refusal :=
  match Fm.get? s.owns sec with
  | none => .next s
  | some t =>
    if !(t.left.getLsbD die && snoopFirst s (homeDie sec) die t.order) then .next s
    else
      let s := message { s with uses := s.uses + 1 } die t.die
      let t := { t with left := setDie t.left die false }
      match copyOf s die sec with
      | none => .next { s with owns := Fm.put s.owns sec { t with flying := Fm.put t.flying die (0, s.uses) } }
      | some x =>
        let stamp := max x.stamp x.acks
        let t := { t with flying := Fm.put t.flying die (stamp, s.uses), copy := if x.st == .s then t.copy else some x }
        .next (snoopLeave { s with l2 := Fm.del s.l2 (l2Key die sec), owns := Fm.put s.owns sec t } die sec stamp)

/-- No acknowledgement that a die sent to the same writer earlier is still on its way: one route keeps the order of sending (R12). -/
def ackFirst (s : State) (die dst order : Nat) : Bool :=
  s.owns.all fun e => e.2.die != dst || match Fm.get? e.2.flying die with
    | some (_, n) => order ≤ n
    | none => true

/-- The end of an Own for a write that goes to the write-combining buffer: what the owner held dirty goes there, once it finds room (R191). -/
def wcbDone (s : State) (sec : Nat) (t : OwnTx) : Option State :=
  match t.copy with
  | some x =>
    if x.st != .m && x.st != .o then some s
    else if (Fm.get? s.wcb sec).isNone && !wcbRoom s (sliceOf sec) 1 then none
    else some (toMemory s sec x)
  | none => some s

/-- The end of an Own: the writing die holds the sector in M, with the stamps of the acknowledgements (R230, R244). -/
def ownDone (s : State) (sec : Nat) (t : OwnTx) : Option State :=
  let s := { s with owns := Fm.del s.owns sec }
  if t.wcb then wcbDone s sec t
  else
  match copyOf s t.die sec with
  | some x => some (noteOwner { s with l2 := Fm.put s.l2 (l2Key t.die sec) { x with st := .m, acks := max x.acks t.stamp } } sec)
  | none =>
    let x := match t.copy with
      | some y => { st := .m, data := y.data, encs := y.encs, pend := y.pend, poison := y.poison : L2Sec }
      | none => supplied s sec .m
    fillOwn (message s (homeDie sec) t.die) t.die sec { x with acks := t.stamp } t.lru

/-- INVALIDATION_ACK (R245): an acknowledgement reaches the writer; the last one ends the Own. -/
def execInvalidationAck (die sec : Nat) (s : State) : Host.Outcome State Fault Refusal :=
  match Fm.get? s.owns sec with
  | none => .next s
  | some t =>
    match Fm.get? t.flying die with
    | none => .next s
    | some (n, order) =>
      let t := { t with flying := Fm.del t.flying die, stamp := max t.stamp n }
      if !ackFirst s die t.die order then .next s
      else if t.left == 0 && t.flying.isEmpty then
        match ownDone s sec t with
        | some u => .next u
        | none => .next s
      else .next { s with owns := Fm.put s.owns sec t }

/-- BACK_INVALIDATION (R246): it reaches a die, which waits for its L1 leases on the line to expire. -/
def execBackInvalidation (die line : Nat) (s : State) : Host.Outcome State Fault Refusal :=
  .next { s with backs := s.backs.map fun b =>
    if b.line == line && b.dies.getLsbD die && snoopFirst s (homeDie (line * 4)) die b.order then { b with seen := setDie b.seen die true } else b }

/-- Every L1 lease that a die granted on a line has expired (R246), those of sectors that its L2 has evicted too. -/
def leasesOver (s : State) (die line : Nat) : Bool :=
  ((lineSecs line).all fun x => match copyOf s die x with
    | some x => x.stamp ≤ dialOf s die && x.engine.isNone
    | none => true) && s.l1.all fun f => f.core / 48 != die || lineOf f.sec != line || f.expiry ≤ dialOf s die

/-- BACK_INVALIDATION_ACK (R246): after the acknowledgements that the die sent the home earlier (R12), the die's copies are gone, dirty data is held at home; the last acknowledgement frees the
snoop filter entry, which stays with an empty vector while the stamp that it records has not passed (R244). -/
def execBackInvalidationAck (die line : Nat) (s : State) : Host.Outcome State Fault Refusal :=
  match s.backs.find? fun b => b.line == line with
  | none => .next s
  | some b =>
    let first := s.owns.all fun e => e.2.die != homeDie (line * 4) || (Fm.get? e.2.flying die).isNone
    if !(b.dies.getLsbD die && b.seen.getLsbD die && first && leasesOver s die line && backRoom s die (lineSecs line)) then .next s
    else
      let s := message (evictLine s die line) die (homeDie (line * 4))
      let b1 := { b with dies := setDie b.dies die false }
      if b1.dies == 0 then
        let s := { s with backs := s.backs.filter fun x => x.line != line }
        .next (if snoopStamp s (line * 4) + 2 < dialOf s (homeDie (line * 4)) then { s with snoop := Fm.del s.snoop line } else s)
      else .next { s with backs := s.backs.map fun x => if x.line == line then b1 else x }

/-- The writes over memory's contents that have passed their visibility times become part of them (R231). -/
def settleMem (s : State) (sec : Nat) : State :=
  let pend := Fm.getD s.memPend sec []
  let ws := pend.takeWhile fun w => w.ended (homeDie sec) (dialOf s (homeDie sec))
  let late := pend.drop ws.length
  if ws.isEmpty then s
  else
    let now := ws.foldl (fun m w => w.bytes.foldl (fun m e => Fm.put m e.1 e.2.1) m) ([] : Fm Byte)
    let encs := foldEncs (Fm.getD s.encs sec []) ws
    let s := { s with memPend := if late.isEmpty then Fm.del s.memPend sec else Fm.put s.memPend sec late }
    if (Fm.get? s.wcb sec).isSome then toWcb s sec encs now
    else { s with hbm := now.foldl (fun m e => Mem.write m (sec * 128 + e.1) e.2) s.hbm, encs := Fm.put s.encs sec encs }

/-- PENDING_WRITE_VISIBLE (R231): from V on the contents are the new ones, in a die's copy and, at home, in memory. -/
def execPendingWriteVisible (die sec : Nat) (s : State) : Host.Outcome State Fault Refusal :=
  let s := { s with l2 := Fm.mod s.l2 (l2Key die sec) fun x => x.mature die (dialOf s die) }
  .next (if die == homeDie sec then settleMem s sec else s)

/-- Every sector of the 1 KiB row of a sector is complete (R191). Which sectors form a row is open: the model takes 8 that follow each other in the
stack, though two of their lines lie in different channels (DESIGN CHOICE, log entry 46). -/
def rowComplete (s : State) (sec : Nat) : Bool :=
  (List.range 8).all fun i => wcbFull s (sec / 8 * 8 + i)

/-- The entry is due: its age, or the oldest of an occupancy past 28,672 (R191). -/
def wcbDue (s : State) (sec : Nat) : Bool :=
  match Fm.get? s.wcb sec with
  | none => false
  | some w =>
    w.since + 2048 ≤ dialOf s (homeDie sec) ||
      (28672 < s.wcb.length && 28672 < (wcbOf s (sliceOf sec)).length && (wcbOf s (sliceOf sec)).all fun e => w.since ≤ e.2.since)

/-- WCB_DRAIN (R191): a complete row in one burst, or one entry by age or occupancy. -/
def execWcbDrain (sec : Nat) (s : State) : Host.Outcome State Fault Refusal :=
  let drain (s : State) (x : Nat) : State := drainWcb (settleMem s x) x
  if rowComplete s sec then .next ((List.range 8).foldl (fun s i => drain s (sec / 8 * 8 + i)) s)
  else if wcbDue s sec then .next (drain s sec)
  else .next s

end Sys2Proof.Machine
end

