-- ==== Sys2Proof/Machine/Ring.lean ====
section
/-! DEFINITION. The ring instructions, their waiters and the fill of posted slots (spec/16 R326 to R333). -/

namespace Sys2Proof.Machine

/-- Difference of two counters modulo 2^64 (R326). -/
def ctrSub (a b : Nat) : Nat := (a + 2 ^ 64 - b) % 2 ^ 64

/-- FIL moves over filled slots up to RES (R329, advance). -/
def advanceFil : Nat → RingHdr → RingHdr
  | 0, h => h
  | n + 1, h =>
    if ctrSub h.res h.fil != 0 && bitAt h.fills (h.fil % h.slots) then advanceFil n { h with fil := (h.fil + 1) % 2 ^ 64 } else h

/-- REL moves over released slots, whose bits are cleared (R329). -/
def advanceRel : Nat → RingHdr → RingHdr
  | 0, h => h
  | n + 1, h =>
    let j := h.rel % h.slots
    if bitAt h.rels j then
      advanceRel n { h with rels := bitSet h.rels j false, fills := bitSet h.fills j false, rel := (h.rel + 1) % 2 ^ 64 }
    else h

/-- What the unit answers to a ring operation (R329, R330). -/
inductive RingOut where
  /-- Performed: the state, the destination's value, the ordering time. -/
  | done (s : State) (val : Option DWord) (time : Nat)
  | wait
  /-- A sector of the ring must be waited for. -/
  | again (s : State)
  deriving DecidableEq, Repr

/-- Put a header back (R327). -/
def ringPut (s : State) (r : RingLoc) (h : RingHdr) (val : Option DWord) (time : Nat) (who : RingWho) : RingOut :=
  let w := writeHdr s r h who
  if w.ok then .done w.s val (max time w.stamp) else .again w.s

/-- A refusal (R330): MISUSE counts it where the header is valid. -/
def ringRefuse (s : State) (r : RingLoc) (h : RingHdr) (valid : Bool) (fn time : Nat) (who : RingWho) : RingOut :=
  let val := if fn == 1 || fn == 4 then some (BitVec.allOnes 64) else none
  if valid then ringPut s r { h with misuse := (h.misuse + 1) % 2 ^ 64 } val time who else .done s val time

/-- The die whose dial times a ring. -/
def ringDie (r : RingLoc) : Nat :=
  match r with
  | .mem d off => homeDie (secOf (physOf d off))
  | .die d _ _ => d

/-- The latest writes to a slot can be read on a die: a consumer whose RAWAIT has completed sees them (R332, R233). -/
def slotShown (s : State) (r : RingLoc) (j size die : Nat) : Bool :=
  match r with
  | .mem d off => (secPieces (size / 128 + 2) (off + 512 + j * size) size).all fun p =>
      let sec := secOf (physOf d p.1)
      Fm.getD s.lastV sec 0 + (if die == homeDie sec then 0 else 2) ≤ dialOf s die
  | .die .. => true

/-- A tile of some bytes, with the alignment that its elements need, may go to the next slot of a ring (R220, R331): the cause that it ends its
chain with, if not. `x` holds the bytes, and the alignment above bit 32. -/
def pushCause (r : RingLoc) (h : RingHdr) (limit : Nat) (x : Nat) : Option Nat :=
  if !(cfgOk h.cfg && extentOk r h.cfg limit) || h.size < x % 2 ^ 32 then some cBounds
  else if (512 + h.res % h.slots * h.size) % (x / 2 ^ 32) != 0 then some cMisaligned
  else none

/-- One ring operation at its unit (R329): 0 RINIT, 1 RAWAIT, 2 RREL, 3 RPUSH, 4 RQRY, 5 the reservation of a PUSH record's slot (R331), which
answers all ones where the tile may not go there; `split` says that a RINIT's pages do not lie in one buffer at consecutive offsets. It is one
indivisible step: while a sector must be waited for, nothing is written (R250, R327). -/
def ringOp (s : State) (fn : Nat) (r : RingLoc) (limit : Nat) (x : DWord) (split : Bool) (who : RingWho) : RingOut :=
  let h := readHdr s r
  let valid := cfgOk h.cfg && extentOk r h.cfg limit
  let t := dialOf s (ringDie r)
  let n := h.slots
  if ringMarked s r 0 512 then .again s
  else
  match fn with
  | 0 =>
    if !cfgOk x.toNat || split || !extentOk r x.toNat limit then ringRefuse s r h valid fn t who
    else ringPut s r { h with cfg := x.toNat, res := 0, fil := 0, clm := 0, rel := 0, epoch := (h.epoch + 1) % 2 ^ 64, fills := 0, rels := 0 } none t who
  | 1 =>
    if !valid then ringRefuse s r h valid fn t who
    else if h.fil == h.clm then .wait
    else
      let word := BitVec.ofNat 64 (h.clm % 2 ^ 53 * 2 ^ 11 + h.clm % n)
      ringPut s r { h with clm := (h.clm + 1) % 2 ^ 64 } (some word) t who
  | 2 =>
    let j := x.toNat % 2048
    if !valid || n ≤ j || ctrSub h.clm h.rel ≤ (j + n - h.rel % n) % n || bitAt h.rels j then ringRefuse s r h valid fn t who
    else ringPut s r (advanceRel n { h with rels := bitSet h.rels j true }) none t who
  | 3 =>
    if !valid then ringRefuse s r h valid fn t who
    else if n ≤ ctrSub h.res h.rel then .wait
    else
      let j := h.res % n
      let w := ringWrite s r (512 + j * h.size) (leBytes 8 x.toNat) who
      if !w.ok then .again w.s
      else
        let h := advanceFil n { h with res := (h.res + 1) % 2 ^ 64, fills := bitSet h.fills j true }
        match ringPut w.s r h none (max t w.stamp) who with
        | .again _ =>
          let q := writeHdr s r h who
          .again (if q.ok then s else q.s)
        | out => out
  | 5 =>
    if (pushCause r h limit x.toNat).isSome then .done s (some (BitVec.allOnes 64)) t
    else if n ≤ ctrSub h.res h.rel then .wait
    else ringPut s r { h with res := (h.res + 1) % 2 ^ 64 } (some 0) t who
  | _ =>
    if !valid then ringRefuse s r h valid fn t who
    else
      let v := h.fil % 2 ^ 31 * 2 ^ 33 + ctrSub h.res h.fil % 2 ^ 11 * 2 ^ 22 + ctrSub h.clm h.rel % 2 ^ 11 * 2 ^ 11 +
        ctrSub h.fil h.clm % 2 ^ 11
      .done s (some (BitVec.ofNat 64 v)) t

/-- The waiters of a ring, in order of arrival (R327). -/
def ringWaiters (s : State) (r : RingLoc) : List (Nat × Op) :=
  s.ops.filter fun e => match e.2.kind with
    | .ring _ loc .. => sameRing loc r
    | _ => false

/-- The destination of an operation of a group is written and its flag completes (R329). -/
def ringDone (s : State) (id : Nat) (o : Op) (d : Nat) (val : Option DWord) : State :=
  completeOp (match o.group, val with
    | some gid, some v => s.modGroup gid fun g => g.setS d v
    | _, _ => s) id

/-- A RAWAIT has claimed a slot: it completes now, or once the slot's bytes can be read (R332). -/
def claimOr (s : State) (id : Nat) (o : Op) (r : RingLoc) (size d : Nat) (v : DWord) : State :=
  let j := v.toNat % 2048
  if v == BitVec.allOnes 64 || slotShown s r j size o.die then ringDone s id o d (some v)
  else { s with ops := Fm.mod s.ops id fun x => { x with kind := .claimed r j size d v } }

/-- A waiter is served if it can proceed (R329, R331). -/
def serveOne (s : State) (e : Nat × Op) : RingOut :=
  match e.2.kind with
  | .ring fn loc limit x d _ =>
    let h := readHdr s loc
    match ringOp s fn loc limit x false { die := e.2.die, group := e.2.group.getD (2 ^ 64), op := e.1 } with
    | .done t val time =>
      let t := noteTime t e.1 time
      if fn == 5 then
        .done { t with ops := if val == some 0 then Fm.mod t.ops e.1 fun o => { o with kind := .reserved loc (h.res % h.slots) h.epoch h.size }
                              else Fm.del t.ops e.1 } none time
      else
        match fn, val with
        | 1, some v => .done (claimOr t e.1 e.2 loc h.size d v) none time
        | _, _ => .done (ringDone t e.1 e.2 d val) none time
    | out => out
  | _ => .wait

/-- The first of some waiters that can proceed is served (R327). -/
def serveFirst (s : State) : List (Nat × Op) → RingOut
  | [] => .wait
  | e :: r =>
    match serveOne s e with
    | .wait => serveFirst s r
    | out => out

/-- Serve the waiters of a ring in order of arrival while one can proceed; whether none is left that could (R327, R329). -/
def serveRing : Nat → State → RingLoc → State × Bool
  | 0, s, _ => (s, true)
  | n + 1, s, r =>
    match serveFirst s (ringWaiters s r) with
    | .done t _ _ => serveRing n t r
    | .again t => (t, false)
    | .wait => (s, true)

/-- Serve all that can proceed; whether none is left that could. -/
def ringServe (s : State) (r : RingLoc) : State × Bool := serveRing (ringWaiters s r).length s r

/-- Serve all that can proceed. -/
def ringAdvance (s : State) (r : RingLoc) : State := (ringServe s r).1

/-- Where a ring operand leads (R326 to R328). -/
inductive RingAt where
  | at_ (r : RingLoc) (limit unit : Nat) (split : Bool)
  /-- A cause with its address, and whether it concerns translated memory (R208). -/
  | fault (cause : Nat) (addr : Nat) (home : Bool)
  | stall
  deriving DecidableEq, Repr

/-- The pieces of a byte range in each 64 KiB page, at most `n` of them. -/
def pagePieces : Nat → Nat → Nat → List (Nat × Nat)
  | 0, _, _ => []
  | n + 1, va, len =>
    if len == 0 then []
    else
      let k := min len (65536 - va % 65536)
      (va, k) :: pagePieces n (va + k) (len - k)

/-- The pages of a RINIT's object are checked (R328): the lowest cause with its address, or whether they are not consecutive. -/
def ringPages (s : State) (core world va len : Nat) (x : Xl) : Except (Nat × Nat) Bool :=
  let checks := (pagePieces (len / 65536 + 2) va len).map fun p => (p.1, checkVa s (core / 48) world p.1 p.2 .atom fun _ => [])
  let bad := checks.filterMap fun c => match c.2 with
    | .error e => some (e, c.1)
    | .ok _ => none
  match leastBy (fun b : Nat × Nat => b.1) bad with
  | some b => .error b
  | none => .ok (checks.any fun c => match c.2 with
      | .ok y => y.buf != x.buf || y.o != x.o + (c.1 - va)
      | .error _ => true)

/-- The acceptance of a ring operation (R327, R328). -/
def ringAt (s : State) (g : Group) (va : Nat) (init : Option Nat) : RingAt :=
  let world := worldOf s g
  let die := g.core / 48
  if va / 2 ^ 62 == 2 then
    let off := va % 2 ^ 32
    if off % 512 != 0 then .fault cMisaligned va false
    else
      match (Fm.get? s.teams g.team).bind fun t => windowOf s t die with
      | none => .fault cPermission 0 false
      | some (base, len) =>
        let need := match init with
          | some c => if cfgOk c then 512 + nfield c 0 11 * (nfield c 16 13 * 8) else 512
          | none => 512
        if len < off + need then .fault cPermission 0 false else .at_ (.die die (base + off) (keyOf s world)) (base + len) (3000 + die) false
  else if va % 512 != 0 then .fault cMisaligned va true
  else
    match checkVa s die world va 512 .atom fun x => if (x.cls == 4 || x.cls == 5) && !x.transit then [cSplitPlace] else [] with
    | .error c => .fault c va true
    | .ok x =>
      if x.transit then .stall
      else
        match init with
        | some c =>
          if !cfgOk c then .at_ (.mem x.d x.o) 0 (atomExec x) false
          else
            match ringPages s g.core world va (512 + nfield c 0 11 * (nfield c 16 13 * 8)) x with
            | .error (c, a) => .fault c a true
            | .ok split => .at_ (.mem x.d x.o) 0 (atomExec x) split
        | none => .at_ (.mem x.d x.o) 0 (atomExec x) false

/-- Waiters that a ring unit holds (R327). -/
def unitWaiters (s : State) (unit : Nat) : Nat :=
  (s.ops.filter fun e => match e.2.kind with
    | .ring _ _ _ _ _ u => u == unit
    | _ => false).length

/-- Ordering times of a completed access enter its classes (R236). -/
def Group.noteTimes (g : Group) (cls : BitVec 7) (t : Nat) : Group :=
  { g with times := (List.range 7).foldl (fun m c => if cls.getLsbD c then Fm.put m c (max (Fm.getD m c 0) t) else m) g.times }

/-- Every issuing lane takes a cause found for the group (R35, R174); `home` says that it concerns translated memory (R208). -/
def groupFault (s : State) (i : Iss) (cause addr : Nat) (syn : BitVec 56 := 0) (home : Bool := true) : State :=
  let slice := if home then causeSlice s i.g.core (worldOf s i.g) addr cause else coreSlice i.g.core
  retire s i i.g (fun _ => faultFx i slice { cause := BitVec.ofNat 8 cause, syn := syn, addr := BitVec.ofNat 64 addr }) none

/-- Run a ring instruction (R327 to R330): `x` its operand register, `d` its destination. -/
def runRing (fn : Nat) (guard : BitVec 4) (r x d : BitVec 6) (f : BitVec 4) (s : State) : State :=
  match prelude s guard { f := some f } with
  | .error t => t
  | .ok i =>
    if i.act == 0 then finish s i i.g (some 3)
    else if flagFull i.g f then trapFull s i f.toNat
    else
      let v := readS s i.g x.toNat
      let va := (readS s i.g r.toNat).toNat
      match ringAt s i.g va (if fn == 0 then some v.toNat else none) with
      | .stall => stall s i.gid
      | .fault c a home => groupFault s i c a 0 home
      | .at_ loc limit unit split =>
        let cls : BitVec 7 := if fn == 4 then 1 else 3
        let s := match loc with
          | .mem .. =>
            let len := if fn == 0 && cfgOk v.toNat then 512 + nfield v.toNat 0 11 * (nfield v.toNat 16 13 * 8) else 512
            useWalks s i.g.core (worldOf s i.g) true ((pagePieces (len / 65536 + 2) va len).map fun p => p.1)
          | .die .. => s
        -- the unit takes the operations on a ring in order of arrival: those that wait and can proceed go first (R327)
        let (u, clear) := ringServe s loc
        if !clear || (ringWaiters u loc).length != (ringWaiters s loc).length then stall u i.gid
        else
        let op (kind : OpKind) : Op :=
          { group := some i.gid, team := i.g.team, world := worldOf s i.g, core := i.g.core, die := i.g.core / 48, pc := i.e.pc,
            word := i.g.word, lanes := i.act, cls := cls, kind := kind }
        let size := (readHdr s loc).size
        match ringOp s fn loc limit v split { die := i.g.core / 48, group := i.gid, op := s.nextOp } with
        | .again t => stall t i.gid
        | .done t val time =>
          let j := (val.getD 0).toNat % 2048
          if fn == 1 && val != some (BitVec.allOnes 64) && !slotShown t loc j size (i.g.core / 48) then
            let (t, g, _) := startOp t i.g f { op (.claimed loc j size d.toNat (val.getD 0)) with time := time }
            finish t i g (some 3)
          else
          -- its flag has completed: the group's later engine operations see its writes early (R240)
          let t := mapPends { t with nextOp := t.nextOp + 1 } fun w => if w.op == s.nextOp then { w with doneAt := some s.nextOp } else w
          let g := match val with
            | some w => i.g.setS d.toNat w
            | none => i.g
          ringAdvance (finish t i (g.noteTimes cls time) (some 3)) loc
        | .wait =>
          if 256 ≤ unitWaiters s unit then stall s i.gid
          else
            let (s, g, _) := startOp s i.g f (op (.ring fn loc limit v d.toNat unit))
            finish s i g (some 3)

/-- RINIT (R329). -/
def execRinit (g : BitVec 4) (r x : BitVec 6) (f : BitVec 4) (s : State) : Host.Outcome State Fault Refusal :=
  .next (runRing 0 g r x 0 f s)
/-- RAWAIT (R329). -/
def execRawait (g : BitVec 4) (r d : BitVec 6) (f : BitVec 4) (s : State) : Host.Outcome State Fault Refusal :=
  .next (runRing 1 g r 0 d f s)
/-- RREL (R329). -/
def execRrel (g : BitVec 4) (r x : BitVec 6) (f : BitVec 4) (s : State) : Host.Outcome State Fault Refusal :=
  .next (runRing 2 g r x 0 f s)
/-- RPUSH (R329). -/
def execRpush (g : BitVec 4) (r x : BitVec 6) (f : BitVec 4) (s : State) : Host.Outcome State Fault Refusal :=
  .next (runRing 3 g r x 0 f s)
/-- RQRY (R329). -/
def execRqry (g : BitVec 4) (r d : BitVec 6) (f : BitVec 4) (s : State) : Host.Outcome State Fault Refusal :=
  .next (runRing 4 g r 0 d f s)

/-- PUSH_SLOT_FILL (R331): once the writes of the record have passed their visibility times by 2 ticks, the slot's fill bit is
set, FIL advances over the filled slots and waiters are served; a fill of an old epoch sets no bit. Named for a waiter, it is the end of an
advance() that had to wait for the ring's sectors: the waiters that can proceed are served (R329); named for a RAWAIT that has claimed its slot,
it is the RAWAIT's completion (R332). -/
def execPushSlotFill (op : Nat) (s : State) : Host.Outcome State Fault Refusal :=
  match Fm.get? s.ops op with
  | none => .next s
  | some o =>
    match o.kind with
    | .slotFill r j epoch =>
      if !(o.time + 2 < dialOf s o.die) || ringMarked s r 0 512 then .next s
      else
        let h := readHdr s r
        if h.epoch != epoch || !cfgOk h.cfg || h.slots ≤ j then .next (completeOp s op)
        else
          let w := writeHdr s r (advanceFil h.slots { h with fills := bitSet h.fills j true })
          .next (if w.ok then ringAdvance (completeOp (noteTime w.s op w.stamp) op) r else w.s)
    | .claimed r j size d v => .next (if slotShown s r j size o.die then ringDone s op o d (some v) else s)
    | .ring _ r .. => .next (ringAdvance s r)
    | _ => .next s

end Sys2Proof.Machine
end

