-- ==== Sys2Proof/Machine/Copy.lean ====
section
/-! DEFINITION. Copy channels: CPY_T, chain walks, batches and write pointers (spec/11 R220 to R222; spec/12 R249 to R251; spec/16
R316 to R325, R331). -/

namespace Sys2Proof.Machine

/-- A power of two. -/
def isPow2 (n : Nat) : Bool := n != 0 && 2 ^ Nat.log2 n == n

/-- The shape word of R220; none where it is invalid. -/
def shapeOf (w : Nat) : Option Shape :=
  let e := 2 ^ nfield w 0 3
  let rows := nfield w 16 12 + 1
  let cols := nfield w 28 12 + 1
  let p := nfield w 40 24
  let sh : Shape :=
    { e := e, rows := rows, cols := cols, pitch := if p == 0 then cols * e else p, sm := nfield w 7 1 == 1, dm := nfield w 8 1 == 1,
      ss := nfield w 3 2, ds := nfield w 5 2 }
  if 4 < nfield w 0 3 || nfield w 9 7 != 0 || 4194304 < rows * cols * e then none
  else if (sh.sm || sh.dm) && !(isPow2 rows && isPow2 cols) then none
  else if p != 0 && (p < cols * e || p % e != 0) then none
  else some sh

/-- Bit `i` of `x` at place 2i, for the lowest `m` bits. -/
def spread (x : Nat) : Nat → Nat
  | 0 => 0
  | m + 1 => spread x m + x / 2 ^ m % 2 * 4 ^ m

/-- Bit 2i of `x` at place i, for the lowest `m`. -/
def gather (x : Nat) : Nat → Nat
  | 0 => 0
  | m + 1 => gather x m + x / 4 ^ m % 2 * 2 ^ m

/-- The Morton index z(r, c) (R221). -/
def mortonOf (rows cols r c : Nat) : Nat :=
  let m := Nat.log2 (min rows cols)
  spread c m + 2 * spread r m + (if rows < cols then c / 2 ^ m else r / 2 ^ m) * 4 ^ m

/-- The element at a Morton index (R221). -/
def unMorton (rows cols z : Nat) : Nat × Nat :=
  let m := Nat.log2 (min rows cols)
  let hi := z / 4 ^ m
  (gather (z / 2) m + (if rows < cols then 0 else hi * 2 ^ m), gather z m + if rows < cols then hi * 2 ^ m else 0)

/-- The byte offset of an element from its side's address (R221). -/
def elemOff (sh : Shape) (morton : Bool) (r c : Nat) : Nat :=
  if morton then sh.e * mortonOf sh.rows sh.cols r c else r * sh.pitch + c * sh.e

/-- The elements in ascending order of their destination (R222). -/
def elemAt (sh : Shape) (k : Nat) : Nat × Nat := if sh.dm then unMorton sh.rows sh.cols k else (k / sh.cols, k % sh.cols)

/-- The contiguous byte ranges of a side, as offsets from its address. -/
def sideRanges (sh : Shape) (morton : Bool) : List (Nat × Nat) :=
  if morton || sh.pitch == sh.cols * sh.e then [(0, sh.rows * sh.cols * sh.e)]
  else (List.range sh.rows).map fun r => (r * sh.pitch, sh.cols * sh.e)

/-- The bytes from a side's address to its last byte. -/
def sideSpan (sh : Shape) (morton : Bool) : Nat :=
  if morton then sh.rows * sh.cols * sh.e else (sh.rows - 1) * sh.pitch + sh.cols * sh.e

/-- The descriptor and the offset of a byte of a memory side, and its page's L2LRU bit. -/
def Side.spot (x : Side) (o : Nat) : Option (Nat × Nat × Bool) :=
  match x with
  | .mem va pages =>
    let a := (va + o) % 2 ^ 64
    (Fm.get? pages (a / 65536)).map fun p => (p.1, p.2.1 + a % 65536, p.2.2)
  | .buf d off => some (d, off + o, false)
  | _ => none

/-- What a byte of a side is encrypted under (R198). -/
def Side.enc (s : State) (x : Side) (o : Nat) : Option Seal := (x.spot o).bind fun p => encOf s p.1 p.2.1

/-- The place of a byte of a side. -/
def Side.loc (x : Side) (o : Nat) : Loc :=
  match x with
  | .mem .. | .buf .. =>
    match x.spot o with
    | some p => .mem (physOf p.1 p.2.1)
    | none => .mem 0
  | .core c b => .core c (b + o)
  | .cluster first w off bases =>
    let k := off + o
    .core (first + k / w) (Fm.getD bases (first + k / w) 0 + k % w)
  | .die d b => .die d (b + o)
  | .host b => .host (b + o)

/-- The number of the 128-byte unit that holds a byte of a side (R319). -/
def Side.chunk (x : Side) (o : Nat) : Nat :=
  match x with
  | .mem va _ => (va + o) / 128
  | .buf _ off => (off + o) / 128
  | .core _ b => (b + o) / 128
  | .cluster _ _ off _ => (off + o) / 128
  | .die _ b => (b + o) / 128
  | .host b => (b + o) / 128

/-- The offset in a side of the byte that lies at a place, where the side reaches it; the inverse of `Side.loc`. -/
def Side.offset (x : Side) (l : Loc) : Option Nat :=
  match x, l with
  | .mem va pages, .mem p => pages.findSome? fun e => (offsetOf e.2.1 p).bind fun o =>
      if e.2.2.1 ≤ o && o < e.2.2.1 + 65536 then some ((e.1 * 65536 + (o - e.2.2.1) + 2 ^ 64 - va) % 2 ^ 64) else none
  | .buf d off, .mem p => (offsetOf d p).bind fun o => if off ≤ o then some (o - off) else none
  | .core c b, .core k off => if c == k && b ≤ off then some (off - b) else none
  | .cluster first w off bases, .core k o =>
    let b := Fm.getD bases k 0
    if first ≤ k && k < first + 8 && b ≤ o && o < b + w && off ≤ (k - first) * w + (o - b) then some ((k - first) * w + (o - b) - off)
    else none
  | .die d b, .die k off => if d == k && b ≤ off then some (off - b) else none
  | _, _ => none

/-- A byte offset from a side's address belongs to the tile (R221). -/
def Shape.covers (sh : Shape) (morton : Bool) (o : Nat) : Bool :=
  if morton then o < sh.rows * sh.cols * sh.e else o / sh.pitch < sh.rows && o % sh.pitch < sh.cols * sh.e

/-- A place by a number of its own. -/
def Loc.key : Loc → Nat
  | .mem p => 4 * p
  | .core c o => 4 * (c * scrSpan + o) + 1
  | .die d o => 4 * (d * 2 ^ 25 + o) + 2
  | .host o => 4 * o + 3

/-- What the check of a side finds. -/
inductive SideRes where
  | ok (x : Side) (vas : List Nat)
  | bad (cause addr aux : Nat)
  | stall
  deriving DecidableEq, Repr

/-- The check of one side of a copy (R220, R222, R225, R289): memory by pages, scratch by ranges. `g` is the issuing group, if
a group issues the copy. -/
def checkSide (s : State) (g : Option Group) (die world addr : Nat) (sh : Shape) (dst : Bool) : SideRes :=
  let space := if dst then sh.ds else sh.ss
  let morton := if dst then sh.dm else sh.sm
  let span := sideSpan sh morton
  let off := addr % 2 ^ 32
  let a := if space == 0 then addr else off
  let acc : Access := if dst then .copyWrite else .copyRead
  if a % sh.e != 0 || (morton && a % 128 != 0) then .bad cMisaligned a (if space == 0 then 0 else off)
  else if space == 0 then
    let pieces := (sideRanges sh morton).flatMap fun r => pagePieces (r.2 / 65536 + 2) ((addr + r.1) % 2 ^ 64) r.2
    let extra (x : Xl) : List Nat := if x.transit && onlyExecutor x acc then [] else placeCauses x die acc
    let res := pieces.map fun p => (p.1, checkVa s die world p.1 p.2 acc extra)
    let bads := res.filterMap fun r => match r.2 with
      | .error c => some (c, r.1)
      | .ok _ => none
    match leastBy (fun b : Nat × Nat => b.1) bads with
    | some (c, va) => .bad c va 0
    | none =>
      let oks := res.filterMap fun r => match r.2 with
        | .ok x => some (r.1, x)
        | .error _ => none
      if oks.any fun r => r.2.transit && onlyExecutor r.2 acc then .stall
      else .ok (.mem addr (oks.foldl (fun m r => Fm.put m (r.1 / 65536) (r.2.d, r.2.o - r.1 % 65536, nfield r.2.leaf.pte 26 1 == 1)) [])) (oks.map fun r => r.1)
  else if space == 3 then
    let win := match g.bind fun g => Fm.get? s.teams g.team with
      | some t => windowOf s t die
      | none => (Fm.get? s.worlds world).bind fun w => Fm.get? w.windows die
    match win with
    | some (b, len) => if off + span ≤ len then .ok (.die die (b + off)) [] else .bad cPermission 0 off
    | none => .bad cPermission 0 off
  else
    match g with
    | none => .bad cPermission 0 off
    | some g =>
      match if g.landed then none else (Fm.get? s.teams g.team).bind fun t => (Fm.get? t.places g.core).map fun p => (t, p) with
      | none => .bad cPermission 0 off
      | some (t, p) =>
        if space == 1 then (if off + span ≤ p.scrLen then .ok (.core g.core (p.scr + off)) [] else .bad cPermission 0 off)
        else
          let w := t.d.clWin
          if !t.d.cluster || w == 0 || 8 * w < off + span then .bad cPermission 0 off
          else .ok (.cluster (g.core / 8 * 8) w off (Fm.mapVals t.places fun _ q => q.cl)) []

/-- The check of a whole copy: the source, then the destination; the lowest cause stands (R222). -/
inductive CopyRes where
  | ok (c : Copy) (rd wr : List Nat)
  | bad (cause addr kind aux : Nat)
  | stall
  deriving DecidableEq, Repr

/-- Check both sides (R220, R222). -/
def checkCopy (s : State) (g : Option Group) (die world src dst : Nat) (sh : Shape) : CopyRes :=
  match checkSide s g die world src sh false, checkSide s g die world dst sh true with
  | .bad c a x, .bad e b y => if c ≤ e then .bad c a 7 x else .bad e b 8 y
  | .bad c a x, _ => .bad c a 7 x
  | _, .bad e b y => .bad e b 8 y
  | .ok x rd, .ok y wr => .ok { src := x, dst := y, sh := sh } rd wr
  | _, _ => .stall

/-- The key of a channel: 0 and 1 on the core, 2 to 7 on the die (R97, R316). -/
def chanKey (core ch : Nat) : Nat := if ch ≤ 1 then core * 2 + ch else 768 + core / 48 * 8 + ch

/-- The key of a die channel. -/
def dieChan (die ch : Nat) : Nat := 768 + die * 8 + ch

/-- An operation joins a channel and, with its group, the open batch (R316, R317). -/
def joinChan (s : State) (chan id : Nat) : State := { s with chans := Fm.put s.chans chan (Fm.getD s.chans chan [] ++ [id]) }

/-- An operation joins the open batch of a channel number. -/
def Group.joinBatch (g : Group) (ch id : Nat) : Group :=
  let b := Fm.getD g.batches ch {}
  { g with batches := Fm.put g.batches ch { b with openOps := b.openOps ++ [id] } }

/-- The form of the copy instructions: SCHED and CHAIN only (R220, R324). -/
def cpyForm (f : Option (BitVec 4)) : Form := { f := f }

/-- CPY_T's form; the syndrome of a cause that names neither side has KIND 7, its source (R208; DEDUCED, log entry 47). -/
def cpyTForm (f : BitVec 4) : Form := { f := some f, syn := memSyn 7 1 false 0 }

/-- The syndrome of a cause that names neither side of a CPY_T whose shape word has been read. -/
def shapeSyn (w : DWord) : BitVec 56 := memSyn 7 (2 ^ nfield w.toNat 0 3) false 0

/-- CPY_T (R220, R222). -/
def execCpyT (g : BitVec 4) (d x : BitVec 6) (c : BitVec 3) (f : BitVec 4) (s : State) : Host.Outcome State Fault Refusal :=
  match prelude s g (cpyTForm f) with
  | .error t => .next t
  | .ok i =>
    if i.act == 0 then .next (finish s i i.g (some 3))
    else
      let w := readS s i.g (x.toNat + 1)
      match shapeOf w.toNat with
      | none => .next (trapAll s i cIllegal (shapeSyn w))
      | some sh =>
        if flagFull i.g f then .next (trapFull s i f.toNat (shapeSyn w)) else
        let core := i.g.core
        let world := worldOf s i.g
        match checkCopy s (some i.g) (core / 48) world (readS s i.g x.toNat).toNat (readS s i.g d.toNat).toNat sh with
        | .stall => .next (stall s i.gid)
        | .bad cause addr kind aux =>
          let space := if kind == 7 then sh.ss else sh.ds
          .next (groupFault s i cause (if space == 0 || cause == cMisaligned then addr else 0) (memSyn kind sh.e false aux) (space == 0))
        | .ok cp rd wr =>
          let s := useWalks (useWalks s core world false rd) core world true wr
          let chan := chanKey core c.toNat
          let o : Op :=
            { group := some i.gid, team := i.g.team, world := world, core := core, die := core / 48, pc := i.e.pc, word := i.g.word,
              lanes := i.lanes, cls := 0x0C, chan := some chan, kind := .copy chan (some cp) none }
          let (s, gr, id) := startOp s i.g f o
          .next (finish (joinChan s chan id) i (gr.joinBatch c.toNat id) (some 3))

/-- CPY_HEAD (R322). -/
def execCpyHead (g : BitVec 4) (h : BitVec 6) (c : BitVec 3) (f : BitVec 4) (s : State) : Host.Outcome State Fault Refusal :=
  match prelude s g (cpyForm (some f)) with
  | .error t => .next t
  | .ok i =>
    if i.act == 0 then .next (finish s i i.g (some 3))
    else if flagFull i.g f then .next (trapFull s i f.toNat)
    else
      let core := i.g.core
      let world := worldOf s i.g
      let va := (readS s i.g h.toNat).toNat
      if va % 64 != 0 then .next (groupFault s i cMisaligned va)
      else
        match checkVa s (core / 48) world va 64 .copyRead fun x => if nfield x.d 5 3 != 0 then [cKind] else [] with
        | .error e => .next (groupFault s i e va)
        | .ok _ =>
          let s := useWalks s core world false [va]
          let chan := chanKey core c.toNat
          let o : Op :=
            { group := some i.gid, team := i.g.team, world := world, core := core, die := core / 48, pc := i.e.pc, word := i.g.word,
              lanes := i.lanes, cls := 0x0C, chan := some chan, kind := .copy chan none (some { at_ := va }) }
          let (s, gr, id) := startOp s i.g f o
          .next (finish (joinChan s chan id) i (gr.joinBatch c.toNat id) (some 3))

/-- Close the open batch of a channel number (R317); none where the outstanding count would pass 63. -/
def closeBatch (g : Group) (ch : Nat) : Option Group :=
  let b := Fm.getD g.batches ch {}
  if b.openOps.isEmpty then some g
  else if 63 ≤ b.outs.length then none
  else some { g with batches := Fm.put g.batches ch { openOps := [], outs := b.outs ++ [b.openOps] } }

/-- CPY_COMMIT (R317). -/
def execCpyCommit (g : BitVec 4) (c : BitVec 3) (s : State) : Host.Outcome State Fault Refusal :=
  match prelude s g (cpyForm none) with
  | .error t => .next t
  | .ok i =>
    if i.act == 0 then .next (finish s i i.g (some 3))
    else
      match closeBatch i.g c.toNat with
      | none => .next (stall s i.gid)
      | some gr => .next (finish s i gr (some 3))

/-- CPY_WAIT (R318). -/
def execCpyWait (g : BitVec 4) (n : BitVec 6) (c : BitVec 3) (s : State) : Host.Outcome State Fault Refusal :=
  match prelude s g (cpyForm none) with
  | .error t => .next t
  | .ok i =>
    if i.act == 0 then .next (finish s i i.g (some 3))
    else
      match closeBatch i.g c.toNat with
      | none => .next (stall s i.gid)
      | some gr =>
        let gr := if (Fm.getD gr.batches c.toNat {}).outs.length ≤ n.toNat then gr else { gr with hold := .copies c.toNat n.toNat i.e.pc i.lanes }
        .next (finish s i gr (some 3))

/-- A team's write pointer on a channel (R319). -/
def wptrOf (s : State) (team chan : Nat) : Nat := ((Fm.get? s.teams team).map fun t => Fm.getD t.wptrs chan 0).getD 0

/-- CPY_WPTR (R320). -/
def execCpyWptr (g : BitVec 4) (d : BitVec 6) (c : BitVec 3) (s : State) : Host.Outcome State Fault Refusal :=
  match prelude s g (cpyForm none) with
  | .error t => .next t
  | .ok i =>
    let p := BitVec.ofNat 64 (wptrOf s i.g.team (chanKey i.g.core c.toNat))
    .next (finish s i (if i.act == 0 then i.g else putNowS i.g d.toNat p) (some 3))

/-- The write pointer has passed a threshold (R320). -/
def wptrPast (p t : Nat) : Bool := ctrSub p t < 2 ^ 63

/-- CPY_WPWAIT (R320). -/
def execCpyWpwait (g : BitVec 4) (t : BitVec 6) (c : BitVec 3) (f : BitVec 4) (s : State) : Host.Outcome State Fault Refusal :=
  match prelude s g (cpyForm (some f)) with
  | .error e => .next e
  | .ok i =>
    if i.act == 0 then .next (finish s i i.g (some 3))
    else if flagFull i.g f then .next (trapFull s i f.toNat)
    else
      let chan := chanKey i.g.core c.toNat
      let x := (readS s i.g t.toNat).toNat
      if wptrPast (wptrOf s i.g.team chan) x then .next (finish s i i.g (some 3))
      else
        let o : Op :=
          { group := some i.gid, team := i.g.team, world := worldOf s i.g, core := i.g.core, die := i.g.core / 48, pc := i.e.pc,
            word := i.g.word, lanes := i.act, kind := .wpwait chan x }
        let (s, gr, _) := startOp s i.g f o
        .next (finish s i gr (some 3))

/-- A write pointer advances and the waits that it passes complete (R319, R320). -/
def advanceWptr (s : State) (team chan n : Nat) : State :=
  let s := s.modTeam team fun t => { t with wptrs := Fm.put t.wptrs chan ((Fm.getD t.wptrs chan 0 + n) % 2 ^ 64) }
  let p := wptrOf s team chan
  let due := s.ops.filter fun e => match e.2.kind with
    | .wpwait k t => e.2.team == team && e.2.group.isSome && k == chan && wptrPast p t
    | _ => false
  due.foldl (fun s e => completeOp s e.1) s

/-- The destination units of a copy in ascending order: the first element of each and how many it holds (R222, R319). -/
def copyUnits (c : Copy) : List (Nat × Nat) :=
  let go (acc : List (Nat × Nat × Nat)) (k : Nat) : List (Nat × Nat × Nat) :=
    let (r, col) := elemAt c.sh k
    let ch := c.dst.chunk (elemOff c.sh c.sh.dm r col)
    match acc with
    | (ch', k0, n) :: rest => if ch' == ch then (ch', k0, n + 1) :: rest else (ch, k, 1) :: acc
    | [] => [(ch, k, 1)]
  (((List.range (c.sh.rows * c.sh.cols)).foldl go []).map fun u => (u.2.1, u.2.2)).reverse

/-- The place of the first byte of a unit's first element. -/
def unitLoc (c : Copy) (u : Nat × Nat) : Loc :=
  let (r, col) := elemAt c.sh u.1
  c.dst.loc (elemOff c.sh c.sh.dm r col)

/-- Take engine ownership of destination sectors in ascending order, as far as they can be had (R249, R189). -/
def ownUnits (die id : Nat) : Nat → State → Copy → List (Nat × Nat) → State × Copy
  | 0, s, c, _ => (s, c)
  | n + 1, s, c, us =>
    match us[c.owned]? with
    | none => (s, c)
    | some u =>
      match unitLoc c u with
      | .mem p =>
        let (r0, c0) := elemAt c.sh u.1
        let lru := ((c.dst.spot (elemOff c.sh c.sh.dm r0 c0)).map fun p => p.2.2).getD false
        let r := ownStep s die (secOf p) (some id) lru
        if r.ok then ownUnits die id n (markEngine r.s die (secOf p) id) { c with owned := c.owned + 1 } us else (r.s, c)
      | _ => ownUnits die id n s { c with owned := c.owned + 1 } us

/-- The operation at the head of a channel (R316). -/
def chanHead (s : State) (chan : Nat) : Option (Nat × Op) :=
  match Fm.getD s.chans chan [] with
  | [] => none
  | id :: _ => (Fm.get? s.ops id).map fun o => (id, o)

/-- Put back the copy of an operation. -/
def putCopy (s : State) (id : Nat) (o : Op) (chan : Nat) (cur : Option Copy) (w : Option Walk) : State :=
  { s with ops := Fm.put s.ops id { o with kind := .copy chan cur w } }

/-- A command queue of a service core (R396). -/
def isService (q : Nat) : Bool := 4096 ≤ q && q < 8192

/-- The TDI of a world is in RUN, with its IDE stream, on the port of a queue, or on any port for a service core's (R362, R391). -/
def tdiRuns (s : State) (q world : Nat) : Bool :=
  let run (p : Nat) : Bool := Fm.getD s.tdis (p * 2048 + world) 0 == 2 && (Fm.getD s.ides p []).contains world
  if isService q then run 0 || run 1 else run (q / 2048)

/-- A side in host memory. -/
def Side.isHost : Side → Bool
  | .host _ => true
  | _ => false

/-- A copy of a TRANSFER reaches host memory no more: its TDI has left RUN (R391). -/
def cutOff (s : State) (id : Nat) (o : Op) (c : Copy) : Bool :=
  (c.src.isHost || c.dst.isHost) && match Fm.get? s.cmds id with
    | some (q, _) => !tdiRuns s q o.world
    | none => false

/-- A TRANSFER whose TDI has left RUN ends where it stands, with FAULT and cause 0 (DEDUCED, log entry 28). -/
def stopCopy (s : State) (id : Nat) (o : Op) (chan : Nat) : State :=
  let s := releaseMarks { s with chans := Fm.put s.chans chan ((Fm.getD s.chans chan []).filter (· != id)), ops := Fm.del s.ops id } (· == id)
  match Fm.get? s.cmds id with
  | some (q, seq) => journalFinal { s with cmds := Fm.del s.cmds id } q seq 6 0 0 (some o.time)
  | none => s

/-- COPY_EXECUTION (R222, R249): the copy at the head of a channel takes its destination sectors, a command's once its journal entry has reached
its visibility time (R343). -/
def execCopyExecution (chan : Nat) (s : State) : Host.Outcome State Fault Refusal :=
  match chanHead s chan with
  | none => .next s
  | some (id, o) =>
    match o.kind with
    | .copy _ (some c) w =>
      let begun := match Fm.get? s.cmds id with
        | some (q, seq) => started s q seq
        | none => true
      if !begun then .next s
      else if cutOff s id o c then .next (stopCopy s id o chan)
      else
      let us := copyUnits c
      let (s, c) := ownUnits o.die id us.length s c us
      .next (putCopy s id o chan (some c) w)
    | _ => .next s

/-- A copy that a node of a replay or a TRANSFER command runs is over (R337, R391). -/
def copyOver (s : State) (id time : Nat) (cause addr : Nat) : State :=
  let mark (w : Work) : Work := match w with
    | .copy k none => if k == id then .copy k (some (cause, addr)) else w
    | _ => w
  let upd (r : Replay) : Replay :=
    let mine := (match r.work with
      | some w => w == .copy id none
      | none => false) || r.async.any fun e => e.2.2 == .copy id none
    if mine then { r with work := r.work.map mark, async := Fm.mapVals r.async fun _ w => (w.1, mark w.2), latest := laterOf r.latest (some time) } else r
  let s := { s with replays := Fm.mapVals s.replays fun _ r => upd r }
  match Fm.get? s.cmds id with
  | some (q, seq) => journalFinal { s with cmds := Fm.del s.cmds id } q seq (if cause == 0 then 1 else 6) cause 0 (some time)
  | none => s

/-- The end of an operation on a channel: it leaves its queue and completes; poison reaches every issuing lane (R209, R316). -/
def endChan (s : State) (id : Nat) (o : Op) (chan : Nat) (bad : Option Nat) : State :=
  let s := { s with chans := Fm.put s.chans chan ((Fm.getD s.chans chan []).filter (· != id)) }
  let s := if o.group.isSome then s
    else copyOver s id (((Fm.get? s.ops id).map fun x => x.time).getD 0) (if bad.isSome then cPoison else 0) (bad.getD 0)
  let s := match o.group, bad with
    | some gid, some a =>
      s.modGroup gid fun g =>
        let base := ((Fm.get? s.teams g.team).map fun t => t.d.codebase).getD 0
        let (size, space) := match o.kind with
          | .copy _ (some c) _ => (c.sh.e, (c.src.spot 0).isNone)
          | _ => (1, false)
        let ds := ((List.range 64).filter fun l => o.lanes.getLsbD l).map fun l =>
          ({ lane := l, f := { cause := BitVec.ofNat 8 cPoison, addr := BitVec.ofNat 64 a, word := o.word,
                               syn := memSyn 7 size true (o.pc.toNat + 2 ^ 57 - base) }, space := space } : Deferred)
        { g with deferred := g.deferred ++ ds }
    | _, _ => s
  completeOp s id

/-- The bytes that some elements read, each with whether it is poisoned: reads of every source sector, or a wait (R251). -/
structure ReadElems where
  s   : State
  ok  : Bool
  bs  : List (Byte × Bool) := []
  deriving DecidableEq, Repr

/-- A byte of a side as an operation reads it now, with its poison. -/
def sideByte (s : State) (o : Op) (id : Nat) (x : Side) (k : Nat) : Byte × Bool :=
  let who : Reader := match o.group with
    | some g => .engine g id
    | none => .other
  match x.loc k with
  | .mem p => (peekByte s o.die (x.enc s k) p who, poisonAt s o.die (secOf p))
  | .core c off => (Mem.read s.coreScr (c * scrSpan + off), false)
  | .die d off => (((scratchRead s o.world (.die d off) 1)[0]?).getD 0, scratchBad s (.die d off))
  | .host off => (BitVec.ofNat 8 (Config.hostByte id off), false)

/-- Read the source bytes of a unit's elements (R222, R251): a source byte that the copy itself has written over is taken as it was. -/
def readElems (s : State) (o : Op) (id : Nat) (c : Copy) (u : Nat × Nat) : ReadElems :=
  let offs := (List.range u.2).map fun j =>
    let (r, col) := elemAt c.sh (u.1 + j)
    elemOff c.sh c.sh.sm r col
  let secs := dedup (offs.filterMap fun x => match c.src.loc x with
    | .mem p => some (secOf p, ((c.src.spot x).map fun p => p.2.2).getD false)
    | _ => none)
  -- the bytes are taken before the read count lets a sector go
  let r := readAll s o.die (some id) secs
  if !r.ok then { s := r.s, ok := false }
  else
    let byte (k : Nat) : Byte × Bool := match (if c.old.isEmpty then none else Fm.get? c.old (c.src.loc k).key) with
      | some b => b
      | none => sideByte r.s o id c.src k
    let count (t : State) (e : Nat × Bool) : State :=
      if (copyOf s o.die e.1).isNone || o.die == homeDie e.1 then countRead t e.1 else t
    { s := secs.foldl count r.s, ok := true, bs := offs.flatMap fun x => (List.range c.sh.e).map fun j => byte (x + j) }

/-- The bytes of a unit's elements in the destination, as offsets from its address. -/
def unitOffs (c : Copy) (u : Nat × Nat) : List Nat :=
  (List.range u.2).flatMap fun j =>
    let (r, col) := elemAt c.sh (u.1 + j)
    (List.range c.sh.e).map fun k => elemOff c.sh c.sh.dm r col + k

/-- What is kept before a unit is written: its bytes that are source bytes of the copy too, as they are (R222). -/
def keepOld (s : State) (o : Op) (id : Nat) (c : Copy) (u : Nat × Nat) : Copy :=
  let sector (l : Loc) : List Loc := match l with
    | .mem p => (List.range 128).map fun i => .mem (p / 128 * 128 + i)
    | l => [l]
  let near (l : Loc) : Bool := match l with
    | .mem _ => (sector l).any fun x => (c.src.offset x).isSome
    | l => match c.src, l with
      | .core .., .core .. | .cluster .., .core .. | .die .., .die .. => true
      | _, _ => false
  if !near (unitLoc c u) then c
  else
    (unitOffs c u).foldl (fun c k =>
      let l := c.dst.loc k
      match c.src.offset l with
      | some x =>
        if c.sh.covers c.sh.sm x && (Fm.get? c.old l.key).isNone then { c with old := Fm.put c.old l.key (sideByte s o id c.src x) } else c
      | none => c) c

/-- The first poisoned source address of a unit; in a die scratchpad, the offset in the world's window (R209). -/
def firstBad (s : State) (o : Op) (c : Copy) (u : Nat × Nat) (bs : List (Byte × Bool)) : Option Nat :=
  ((List.range bs.length).find? fun k => ((bs[k]?).map fun b => b.2).getD false).map fun k =>
    let (r, col) := elemAt c.sh (u.1 + k / c.sh.e)
    let x := elemOff c.sh c.sh.sm r col + k % c.sh.e
    match c.src with
    | .mem va _ => (va + x) % 2 ^ 64
    | .die d b => b + x - (((Fm.get? s.worlds o.world).bind fun w => Fm.get? w.windows d).map fun w => w.1).getD 0
    | _ => 0

/-- Write a unit: a memory sector is released, which accepts its bytes; scratch bytes are performed (R222, R249). A unit that covers a sector
of a die scratchpad clears its mark (R380). -/
def writeUnit (s : State) (o : Op) (id : Nat) (c : Copy) (u : Nat × Nat) (bs : List (Byte × Bool)) : Reply :=
  let offs := unitOffs c u
  let pairs := (offs.map c.dst.loc).zip bs
  match unitLoc c u with
  | .mem p =>
    let bytes : Fm (Byte × LaneMask) := pairs.foldl (fun m x => match x.1 with
      | .mem q => Fm.put m (q % 128) (x.2.1, 0)
      | _ => m) []
    let w := acceptStep s o.die (secOf p) ((offs[0]?).bind fun k => c.dst.enc s k) bytes (writerOf o) id (some id)
    if !w.ok then w
    else
      let bad := bs.any fun b => b.2
      { w with s := { w.s with l2 := Fm.mod w.s.l2 (l2Key o.die (secOf p)) fun x =>
          { x with engine := none, poison := x.poison || bad } } }
  | l =>
    let put (s : State) (x : Loc × Byte × Bool) : State := scratchWrite s o.world x.1 [if x.2.2 then 0 else x.2.1]
    let s := pairs.foldl put s
    let s := match l with
      | .die d off => if bs.length == 128 && off % 128 == 0 then { s with dieBad := s.dieBad.filter (· != (d * 2 ^ 25 + off) / 128) } else s
      | _ => s
    { s := s, ok := true, stamp := dialOf s o.die }

/-- A record of a chain in memory, as the channel writes its CTL (R321, R322): OWN and STATUS; its other bits stay as they are, the reserved ones
too, which are software's bytes of memory (R7 and R321 leave open what they read back as; DESIGN CHOICE, log entry 27). -/
def writeCtl (s : State) (o : Op) (id va status : Nat) : Reply :=
  match checkVa s o.die o.world va 64 .copyWrite fun _ => [] with
  | .error _ => { s := s, ok := true }
  | .ok x =>
    let p := physOf x.d (x.o + 8)
    let enc := encOf s x.d x.o
    let old := leNat (peek s o.die enc p 8 .newest)
    let new := old / 2 ^ 16 * 2 ^ 16 + status * 256 + old % 256 / 2 * 2
    writePhys (useXl s o.core o.world va true x) o.die p enc (leBytes 8 new) (writerOf o) id

/-- ENGINE_SECTOR_RELEASE (R249, R319): the next unit of a copy is read, written and released; the last one ends the copy, or
the copy of a record. -/
def execEngineSectorRelease (op unit : Nat) (s : State) : Host.Outcome State Fault Refusal :=
  match Fm.get? s.ops op with
  | none => .next s
  | some o =>
    match o.kind with
    | .copy chan (some c) w =>
      if unit != c.done || c.owned ≤ c.done then .next s
      else if cutOff s op o c then .next (stopCopy s op o chan)
      else
        match (copyUnits c)[c.done]? with
        | none => .next s
        | some u =>
          let r := readElems s o op c u
          if !r.ok then .next r.s
          else
            let c := keepOld s o op c u
            let q := writeUnit r.s o op c u r.bs
            if !q.ok then .next q.s
            else
              let c := { c with done := c.done + 1, bad := match c.bad with
                | some b => some b
                | none => firstBad r.s o c u r.bs }
              let o := { o with time := max o.time q.stamp }
              let s := advanceWptr (putCopy q.s op o chan (some c) w) o.team (o.chan.getD chan) (u.2 * c.sh.e)
              if c.done < (copyUnits c).length then .next s
              else
                match w with
                | none => .next (endChan s op o chan c.bad)
                | some w =>
                  match w.push with
                  | none => .next (putCopy s op o chan none (some { w with fill := some op }))
                  | some (r, j, epoch) =>
                    let (s, id) := newOp s { group := none, world := o.world, core := o.core, die := o.die, time := o.time, kind := .slotFill r j epoch }
                    .next (putCopy s op o chan none (some { w with push := none, fill := some id }))
    | _ => .next s

/-- A chain ends at a record with a cause (R323); a slot that was reserved for the record is filled over whatever it holds (R331). -/
def endWalk (s : State) (id : Nat) (o : Op) (chan : Nat) (w : Walk) (cause : Nat) (readable : Bool) : State :=
  let r := if readable then writeCtl s o id w.at_ cause else ({ s := s, ok := true } : Reply)
  if !r.ok then r.s
  else
    postError (endChan (noteTime (dropAsk r.s w).1 id r.stamp) id o chan none) o.world (copyErr r.s o w cause)

/-- A PUSH record's destination (R331): a slot that is reserved as RPUSH does, a cause, or a wait, with the operation that asks the ring unit. -/
inductive PushRes where
  | ok (s : State) (dst : Side) (push : RingLoc × Nat × Nat)
  | bad (cause : Nat)
  | wait (s : State) (asks : Option Nat)
  deriving DecidableEq, Repr

/-- A slot's place as a copy's destination, with the ring, the slot's index and the epoch of the reservation. -/
def slotSide (r : RingLoc) (j size : Nat) : Side :=
  match r with
  | .mem d off => .buf d (off + 512 + j * size)
  | .die d off _ => .die d (off + 512 + j * size)

/-- Reserve a slot for a PUSH record at the ring's unit (R331): at once, or among the ring's waiters in order of arrival (R327). The ring's header
page is used (R277). -/
def reservePush (s : State) (o : Op) (g : Group) (w : Walk) (va : Nat) (sh : Shape) : PushRes :=
  let asked : Option (Nat × OpKind) := w.asks.bind fun k => (Fm.get? s.ops k).map fun a => (k, a.kind)
  match asked with
  | some (k, .reserved r j epoch size) => .ok { s with ops := Fm.del s.ops k } (slotSide r j size) (r, j, epoch)
  | some (k, _) => .wait s (some k)
  | none =>
    match ringAt s g va none with
    | .fault c _ _ => .bad c
    | .stall => .wait s none
    | .at_ r limit unit _ =>
      let x := sh.rows * sh.cols * sh.e + 2 ^ 32 * if sh.dm then 128 else sh.e
      let h := readHdr s r
      if ringMarked s r 0 512 then .wait s none
      else
        match pushCause r h limit x with
        | some c => .bad c
        | none =>
          let s := match r with
            | .mem .. => useWalks s o.core o.world true [va]
            | .die .. => s
          let (s, clear) := ringServe s r
          if !clear then .wait s none
          else
            let h := readHdr s r
            match ringOp s 5 r limit (BitVec.ofNat 64 x) false { die := o.die } with
            | .done t _ _ => .ok t (slotSide r (h.res % h.slots) h.size) (r, h.res % h.slots, h.epoch)
            | .again t => .wait t none
            | .wait =>
              if 256 ≤ unitWaiters s unit then .wait s none
              else
                let (t, k) := newOp s { group := none, team := o.team, world := o.world, core := o.core, die := o.die,
                                        kind := .ring 5 r limit (BitVec.ofNat 64 x) 0 unit }
                .wait t (some k)

/-- The words of a record at a place, as a walk reads them (R322). -/
def readRecord (s : State) (o : Op) (id : Nat) (x : Xl) : Record :=
  let who : Reader := match o.group with
    | some g => .engine g id
    | none => .other
  let rd (k : Nat) : Nat := leNat (peek s o.die (encOf s x.d x.o) (x.phys + 8 * k) 8 who)
  { next := rd 0, ctl := rd 1, src := rd 2, dst := rd 3, shape := rd 4 }

/-- A copy with a core or cluster scratch side (R224). -/
def Side.scratch : Side → Bool
  | .core .. | .cluster .. => true
  | _ => false

/-- What a record comes to: a copy to start, with the ring slot of a PUSH record, the lowest cause of what it breaks (R323), a wait, or a stop at
the record until its team is granted again (R325). -/
inductive RecordRes where
  | start (s : State) (c : Copy) (push : Option (RingLoc × Nat × Nat))
  | bad (cause : Nat)
  | wait (s : State) (asks : Option Nat)
  | stop
  deriving DecidableEq, Repr

/-- Check a record that belongs to the channel (R322, R323, R331), and mark the pages that its copy uses (R277). `here` says that the
team holds its reservation: a walk stops at a copy with a core or cluster side of a team that is being saved (R325). -/
def startRecord (s : State) (o : Op) (g : Option Group) (here : Bool) (w : Walk) (r : Record) : RecordRes :=
  let next := if r.next % 64 != 0 then [cMisaligned] else []
  match shapeOf r.shape with
  | none => .bad ((lowest (cIllegal :: next)).getD cIllegal)
  | some sh =>
    let push := r.ctl / 2 % 2 == 1
    let scratch := sh.ss == 1 || sh.ss == 2 || (!push && (sh.ds == 1 || sh.ds == 2))
    if scratch && !here then .stop
    else
      let use (t : State) (rd wr : List Nat) : State := useWalks (useWalks t o.core o.world false rd) o.core o.world true wr
      if push then
        let ring := match g with
          | some g => reservePush s o g w r.dst sh
          | none => .bad cPermission
        match checkSide s g o.die o.world r.src sh false, ring, next with
        | .bad c _ _, .bad e, n => .bad ((lowest (c :: e :: n)).getD c)
        | .bad c _ _, _, n => .bad ((lowest (c :: n)).getD c)
        | _, .bad e, n => .bad ((lowest (e :: n)).getD e)
        | _, _, c :: _ => .bad c
        | .ok src rd, .ok t dst p, [] => .start (use t rd []) { src := src, dst := dst, sh := sh } (some p)
        | _, .wait t k, [] => .wait t k
        | .stall, _, [] => .wait s w.asks
      else
        match checkCopy s g o.die o.world r.src r.dst sh, next with
        | .bad c _ _ _, n => .bad ((lowest (c :: n)).getD c)
        | _, c :: _ => .bad c
        | .stall, [] => .wait s none
        | .ok cp rd wr, [] => .start (use s rd wr) cp none

/-- A team's chain walk may start a record: the team runs, or the walk's channel is a die's and goes on across the save (R325). -/
def walkGoes (s : State) (o : Op) (chan : Nat) : Bool :=
  768 ≤ chan || o.group.isNone || ((Fm.get? s.teams o.team).map fun t => t.phase == .running).getD true

/-- The record that a walk stands at: read, not to be had yet, or a cause with whether CTL can be written (R322, R323). -/
inductive RecordRead where
  | ok (s : State) (r : Record)
  | wait (s : State)
  | bad (s : State) (cause : Nat)
  deriving DecidableEq, Repr

/-- The channel reads a record: it becomes a sharer of its sector (R322). -/
def fetchRecord (s : State) (o : Op) (id at_ : Nat) : RecordRead :=
  match checkVa s o.die o.world at_ 64 .copyRead fun x => if nfield x.d 5 3 != 0 then [cKind] else [] with
  | .error c => .bad s c
  | .ok x =>
    let sec := secOf x.phys
    let q := readReq s o.die sec none (nfield x.leaf.pte 26 1 == 1)
    if !q.ok then .wait q.s
    else
      let t := useXl (if (copyOf s o.die sec).isNone || o.die == homeDie sec then countRead q.s sec else q.s) o.core o.world at_ false x
      if poisonAt q.s o.die sec then .bad t cPoison else .ok t (readRecord q.s o id x)

/-- A walk finishes a copied record: CTL is written, and it goes on to the next record or completes (R322). -/
def endRecord (s : State) (id : Nat) (o : Op) (chan : Nat) (w : Walk) : State :=
  let q := writeCtl s o id w.at_ 0
  let next := (w.record.map fun r => r.next).getD 0
  let o := { o with time := max o.time q.stamp }
  if !q.ok then q.s
  else if next == 0 then endChan (putCopy q.s id o chan none none) id o chan none
  else putCopy q.s id o chan none (some { at_ := next })

/-- A walk starts the copy of the record that it has read (R322, R323); at a copy that must wait for its team's next grant it leaves its channel,
which it joins again then (R325). -/
def beginRecord (s : State) (id : Nat) (o : Op) (chan : Nat) (w : Walk) (r : Record) : State :=
  let here := ((Fm.get? s.teams o.team).map fun t => t.phase == .running).getD false
  let w := { w with record := some r }
  match startRecord s o (o.group.bind fun gid => Fm.get? s.groups gid) here w r with
  | .bad c => endWalk (putCopy s id o chan none (some w)) id o chan w c true
  | .wait t k => putCopy t id o chan none (some { w with asks := k })
  | .start t c push => putCopy t id o chan (some c) (some { w with push := push, asks := none })
  | .stop =>
    putCopy { s with chans := Fm.put s.chans chan ((Fm.getD s.chans chan []).filter (· != id)) } id o chan none (some w)

/-- CHAIN_RECORD (R322, R323): the walk at the head of a channel finishes a copied record, or reads its record, once, and starts its
copy; one that waits for OWN does nothing. -/
def execChainRecord (chan : Nat) (s : State) : Host.Outcome State Fault Refusal :=
  match chanHead s chan with
  | none => .next s
  | some (id, o) =>
    match o.kind with
    | .copy _ none (some w) =>
      match w.fill with
      | some f => .next (if f != id && (Fm.get? s.ops f).isSome then s else endRecord s id o chan w)
      | none =>
        if w.wait || !walkGoes s o chan then .next s
        else
          match w.record with
          | some r => .next (beginRecord s id o chan w r)
          | none =>
            match fetchRecord s o id w.at_ with
            | .wait t => .next t
            | .bad t c => .next (endWalk t id o chan w c false)
            | .ok t r =>
              let o := { o with time := max o.time (dialOf s o.die) }
              if r.ctl % 2 == 0 then .next (putCopy t id o chan none (some { w with wait := true }))
              else .next (beginRecord t id o chan w r)
    | _ => .next s

/-- CHAIN_RECORD_WAKE (R322): the record that a walk waits for belongs to the channel now. -/
def execChainRecordWake (chan : Nat) (s : State) : Host.Outcome State Fault Refusal :=
  match chanHead s chan with
  | none => .next s
  | some (id, o) =>
    match o.kind with
    | .copy _ none (some w) =>
      if vaMarked s o.die o.world w.at_ 64 then .next s
      else
      match readVa s o.die o.world (w.at_ + 8) 8 .copyRead with
      | .ok bs => .next (if w.wait && leNat bs % 2 == 1 then putCopy s id o chan none (some { w with wait := false }) else s)
      | .error _ => .next s
    | _ => .next s

end Sys2Proof.Machine
end

