-- ==== Sys2Proof/Machine/Place.lean ====
section
/-! DEFINITION. PLACE, the place queue, in-flight counters and PLSYNC, PLQRY, MIGR, operations that peers send (spec/14 R279 to
R296; spec/02 R40, R41; spec/24 R400, R406). -/

namespace Sys2Proof.Machine

/-- Two places agree (R279). -/
def samePlace (x y : Xl) : Bool := x.cls == y.cls && (x.cls == 0 || x.target == y.target)

/-- The die whose units an executor uses. -/
def execDie (cls target core : Nat) : Nat := if cls == 1 then target else if 2 ≤ cls && cls ≤ 4 then target / 3 else core / 48

/-- The operands of a function: 0 the destination, 1 and 2 the sources; whether each is read and written (R283). -/
def placeOperands (fn : Nat) : List (Nat × Bool × Bool) :=
  match fn with
  | 0 => [(0, false, true), (1, true, false)]
  | 7 => [(0, true, true), (1, true, false), (2, true, false)]
  | _ => [(0, false, true), (1, true, false), (2, true, false)]

/-- The format of a floating TYPE (R73). -/
def placeFmt (ty : Nat) : Option Fmt := if ty == 2 then some f32 else if ty == 3 then some bf16 else if ty == 4 then some f16 else none

/-- AXPBY in a floating format: one exact sum, one rounding (R286, R56). -/
def axpby (f : Fmt) (rm ca cb a b : Nat) : Res Nat :=
  let x := f.decode a
  let y := f.decode b
  let u := f32.decode ca
  let v := f32.decode cb
  (((({} : DotAcc).prod u x).prod v y)).round f rm (f.isSnan x || f.isSnan y || f32.isSnan u || f32.isSnan v)

/-- The element function (R286). -/
def placeEval (fn ty rm ca cb a b d : Nat) : Res Nat :=
  match placeFmt ty with
  | some f =>
    match fn with
    | 0 => { val := a }
    | 1 => f.add rm a b
    | 2 => f.sub rm a b
    | 3 => f.mul rm a b
    | 4 => f.minmax false a b
    | 5 => f.minmax true a b
    | 6 => axpby f rm ca cb a b
    | _ => f.fma rm a b d
  | none =>
    let n := if ty == 5 then 64 else 32
    let le := if ty == 1 then a ≤ b else (BitVec.ofNat n a).toInt ≤ (BitVec.ofNat n b).toInt
    match fn with
    | 0 => { val := a }
    | 1 => { val := (a + b) % 2 ^ n }
    | 2 => { val := (a + 2 ^ n - b) % 2 ^ n }
    | 3 => { val := a * b % 2 ^ n }
    | 4 => { val := if le then a else b }
    | 5 => { val := if le then b else a }
    | 6 => { val := (ca * a + cb * b) % 2 ^ n }
    | _ => { val := (a * b + d) % 2 ^ n }

/-- A coefficient of AXPBY (R282). -/
def placeCoef (s : State) (g : Group) (ty : Nat) (c : BitVec 7) : DWord :=
  let i := c.toNat % 64
  if (placeFmt ty).isSome then (if c.msb then constWord s g i else litFp i).setWidth 64
  else (if c.msb then constWord s g i else litInt i).signExtend 64

/-- The syndrome of PLACE (R287). -/
def placeSyn (ops : Nat) (cracked : Bool) (size : Nat) (defer : Bool) (done aux : Nat) : BitVec 56 :=
  BitVec.ofNat 56 (ops + (if cracked then 8 else 0) + Nat.log2 size * 16 + (if defer then 128 else 0) + done * 256 +
    aux % 2 ^ 32 * 2 ^ 24)

/-- An operand's range with its pages: the offset and length of each piece, and its translation. -/
structure POperand where
  k      : Nat
  va     : Nat
  pieces : List (Nat × Nat × Xl)

/-- A cause with its operand and its address. -/
structure PBad where
  cause : Nat
  k     : Nat
  addr  : Nat

/-- The verdict on a lane of a PLACE (R284): accepted, or its lowest cause with the operands concerned. -/
inductive PVerdict where
  | ok (l : PLane) (rd wr : List Nat)
  | bad (cause addr ops done : Nat)

/-- Translate one operand of a lane (R284). -/
def placeOperand (s : State) (die world len va : Nat) (o : Nat × Bool × Bool) : POperand × List PBad :=
  let ps := pagePieces 3 va len
  let check (p : Nat × Nat) (a : Access) (on : Bool) : List PBad :=
    if !on then []
    else match checkVa s die world p.1 p.2 a fun _ => [] with
      | .error c => [{ cause := c, k := o.1, addr := p.1 }]
      | .ok _ => []
  let bads := ps.flatMap fun p => check p .placeRead o.2.1 ++ check p .placeWrite o.2.2
  let pieces := ps.filterMap fun p => match xlate s die world p.1 with
    | .ok x => some (p.1 - va, p.2, x)
    | .error _ => none
  ({ k := o.1, va := va, pieces := pieces }, bads)

/-- The lowest of some causes, the address in the first operand that has it in the order destination, first,
second, and every operand that has it (R174, R281, R287). -/
def lowBad (bs : List PBad) : Option (Nat × Nat × Nat) :=
  (leastBy (fun b : PBad => b.cause * 4 + b.k) bs).map fun b =>
    (b.cause, b.addr, (List.range 3).foldl (fun n k => if bs.any fun c => c.cause == b.cause && c.k == k then n + 2 ^ k else n) 0)

/-- The piece of an operand that holds a byte. -/
def POperand.at_ (o : POperand) (j : Nat) : Option Xl :=
  (o.pieces.find? fun p => p.1 ≤ j && j < p.1 + p.2.1).map fun p => p.2.2

/-- The offset at which an operand's two pages do not agree (R281). -/
def POperand.cut (o : POperand) : Option Nat :=
  match o.pieces with
  | [(_, _, x), (j, _, y)] => if samePlace x y then none else some j
  | _ => none

/-- The bytes of an operand that agree with a place, from its start on (R281). -/
def POperand.agree (o : POperand) (x : Xl) (len : Nat) : Nat :=
  ((o.pieces.find? fun p => !samePlace p.2.2 x).map fun p => p.1).getD len

/-- A lane's operands at their places (R280, R281): the causes that they raise, the agreeing prefix, the parts, and whether it cracks. -/
structure PParts where
  bads    : List PBad := []
  done    : Nat := 0
  parts   : List PPart := []
  cracked : Bool := false

/-- Place a lane's operands (R280, R281). -/
def placeParts (s : State) (core world : Nat) (crack : Bool) (len : Nat) (ops : List POperand) : PParts :=
  match ops with
  | [] => {}
  | dst :: _ =>
    match dst.at_ 0 with
    | none => {}
    | some x0 =>
      let cuts := (ops.filterMap POperand.cut).foldl (fun (m : Fm Unit) j => Fm.put m j ()) [(0, ())]
      let starts := cuts.map fun c => c.1
      let ranges := starts.zip (starts.drop 1 ++ [len])
      let execOf (j : Nat) : Xl := (dst.at_ j).getD x0
      let touches (r : Nat × Nat) (o : POperand) : List (Nat × Xl) :=
        (o.pieces.filter fun p => p.1 < r.2 && r.1 < p.1 + p.2.1).map fun p => (o.va + max r.1 p.1, p.2.2)
      let remote (r : Nat × Nat) : List (POperand × Nat × Xl) := (ops.filter fun o => o.k != 0).flatMap fun o =>
        ((touches r o).filter fun t => !samePlace t.2 (execOf r.1)).map fun t => (o, t)
      let bads := ranges.flatMap fun r =>
        (if (execOf r.1).cls == 5 && !peerOk s world (execOf r.1).target then
          [{ cause := cExecutor, k := 0, addr := dst.va + r.1 : PBad }] else []) ++
        (remote r).filterMap fun t => if t.2.2.mode == 1 then some { cause := cPlaceBound, k := t.1.k, addr := t.2.1 } else none
      let rems := ranges.flatMap remote
      let n := ops.foldl (fun n o => min n (o.agree x0 len)) len
      let splits : List PBad :=
        if crack then rems.filterMap fun t => if t.2.2.cls == 5 then some { cause := cSplitPlace, k := t.1.k, addr := t.2.1 } else none
        else if ranges.length != 1 || !rems.isEmpty then
          (ops.filter fun o => o.agree x0 len == n).map fun o => { cause := cSplitPlace, k := o.k, addr := o.va + n }
        else []
      let part (r : Nat × Nat) : PPart :=
        let x := execOf r.1
        let e := execNum x.cls x.target core
        let pages := dedup (ops.flatMap fun o => (touches r o).map fun t => t.1 % 2 ^ 64 / 65536)
        { start := r.1, n := r.2 - r.1, exec := e, die := execDie x.cls x.target core,
          peer := if x.cls == 5 then some x.target else none,
          remote := dedup ((remote r).map fun t => t.1.k),
          keys := pages.map fun p => ctrKey world (p * 65536) e }
      { bads := bads ++ splits, done := n, parts := ranges.map part, cracked := ranges.length != 1 || !rems.isEmpty }

/-- The pages of some operands: descriptor, offset of the page, L2LRU bit (R275). -/
def placePages (ops : List POperand) : Fm (Nat × Nat × Bool) :=
  (ops.flatMap fun o => o.pieces.map fun q => (o.va + q.1, q.2.2)).foldl (fun m t =>
    Fm.put m (t.1 % 2 ^ 64 / 65536) (t.2.d, t.2.o - t.1 % 65536, nfield t.2.leaf.pte 26 1 == 1)) []

/-- The verdict on a lane of a PLACE (R283, R284, R289): its lowest cause among those of its translations and of its places. -/
def placeLane (s : State) (core world : Nat) (p : PlaceOp) (lane : Nat) (vas : List Nat) : PVerdict :=
  let es := placeSize p.ty
  let used := placeOperands p.fn
  let va (k : Nat) : Nat := (vas[k]?).getD 0
  let res := used.map fun o => placeOperand s (core / 48) world p.len (va o.1) o
  let mis := (used.filter fun o => va o.1 % es != 0).map fun o => ({ cause := cMisaligned, k := o.1, addr := va o.1 } : PBad)
  let ops := res.map fun r => r.1
  let held := ops.any fun o => o.pieces.any fun q => q.2.2.transit
  let whole_ := ops.all fun o => (o.pieces.foldl (fun n q => n + q.2.1) 0) == p.len
  let pp : PParts := if held || !whole_ then {} else placeParts s core world p.crack p.len ops
  match lowBad (mis ++ (res.flatMap fun r => r.2) ++ pp.bads) with
  | some (c, a, m) => .bad c a m (if c == cSplitPlace then pp.done else 0)
  | none =>
    let pages := placePages ops
    let waits := dedup (ops.flatMap fun o => (o.pieces.filter fun q => q.2.2.transit).map fun q => (o.va + q.1) % 2 ^ 64 / 65536)
    let rd := (ops.filter fun o => o.k != 0 || p.fn == 7).flatMap fun o => o.pieces.map fun q => o.va + q.1
    let wr := (ops.filter fun o => o.k == 0).flatMap fun o => o.pieces.map fun q => o.va + q.1
    .ok { lane := lane, vas := vas, pages := pages, held := held, waits := waits, parts := pp.parts, cracked := pp.cracked } rd wr

/-- TYPE, length and coefficients of a bundle's PLACE hint; without one they are FP32, 32 elements, 1 and 1 (R73). -/
def Hints.placeOf (h : Hints) : BitVec 3 × BitVec 4 × BitVec 7 × BitVec 7 := h.place.getD (0, 5, 1, 1)

/-- The form of PLACE (R282). -/
def placeForm (h : Hints) (d a b : BitVec 5) (f : BitVec 4) : Form :=
  let (t, _, ca, cb) := h.placeOf
  let pair (x : BitVec 5) : List Nat := [2 * x.toNat, 2 * x.toNat + 1]
  { md := .arith [0] false false true false, place := true, konst := ca.msb || cb.msb, f := some f, vregs := pair d ++ pair a ++ pair b,
    syn := placeSyn 0 false (placeSize t.toNat) false 0 0 }

/-- PLACE (R282 to R284). -/
def execPlace (g : BitVec 4) (d a b : BitVec 5) (n : BitVec 3) (f : BitVec 4) (s : State) : Host.Outcome State Fault Refusal :=
  let (t, l, ca, cb) := (hintsNow s).placeOf
  match prelude s g (placeForm (hintsNow s) d a b f) with
  | .error t => .next t
  | .ok i =>
    if i.act == 0 then .next (finish s i i.g (some 3))
    else if flagFull i.g f then .next (trapFull s i f.toNat (placeSyn 0 false (placeSize t.toNat) false 0 0))
    else
      let world := worldOf s i.g
      let ty := t.toNat
      let p : PlaceOp :=
        { fn := n.toNat, ty := ty, rm := i.g.hints.arith.rm, len := 2 ^ (l.toNat + 2), ca := placeCoef s i.g ty ca,
          cb := placeCoef s i.g ty cb, crack := i.g.crack, lanes := [] }
      let addr (x : BitVec 5) (l : Nat) : Nat := (readW s i.g (2 * x.toNat) l).toNat
      let vs := lanesOf fun l => if i.act.getLsbD l then some (placeLane s i.g.core world p l [addr d l, addr a l, addr b l]) else none
      let oks := vs.filterMap fun v => match v with
        | some (.ok x r w) => some (x, r, w)
        | _ => none
      let hold := oks.any fun x => x.1.held
      let fx (l : Nat) : Fx := match (vs[l]?).getD none with
        | some (.bad c ad m k) =>
          faultFx i (causeSlice s i.g.core world ad c)
            { cause := BitVec.ofNat 8 c, addr := BitVec.ofNat 64 ad, syn := placeSyn m false (placeSize ty) false k 0 }
        | _ => .seq
      if hold && 64 ≤ placeHeld s i.g.core then .next (stall s i.gid)
      else if oks.isEmpty then .next (retire { s with freeCtr := s.freeCtr + 1 } i i.g fx (some 3))
      else
        let s := useWalks s i.g.core world false (oks.flatMap fun x => x.2.1)
        let s := useWalks s i.g.core world true (oks.flatMap fun x => x.2.2)
        let p := { p with lanes := oks.map fun x => x.1 }
        let s := countIssues s world p.keys
        let o : Op :=
          { group := some i.gid, team := i.g.team, world := world, core := i.g.core, die := i.g.core / 48, pc := i.e.pc, word := i.g.word,
            lanes := i.act, cls := 0x40, kind := .place p }
        let (s, gr, _) := startOp s (if hold then { i.g with held := i.g.held + 1 } else i.g) f o
        .next (retire { s with freeCtr := s.freeCtr + 1 } i gr fx (some 3))

/-- A fault of a PLACE lane found after it has moved on (R287). -/
def placeDefer (s : State) (o : Op) (p : PlaceOp) (l : PLane) (cause addr ops done : Nat) : State :=
  match o.group with
  | none => s
  | some gid =>
    s.modGroup gid fun g =>
      let aux := (o.pc - codebaseOf s g).toNat
      let f : LaneFault :=
        { cause := BitVec.ofNat 8 cause, addr := BitVec.ofNat 64 addr, word := o.word,
          syn := placeSyn ops l.cracked (placeSize p.ty) true done aux }
      { g with deferred := g.deferred ++ [{ lane := l.lane, f := f }] }

/-- Put a PLACE back; when every lane is through, GS bits are set and it completes (R285). -/
def putPlace (s : State) (id : Nat) (o : Op) (p : PlaceOp) (t : Nat) : State :=
  let s := { s with ops := Fm.put s.ops id { o with kind := .place p, time := max o.time t } }
  if p.lanes.any fun l => l.held || !l.parts.isEmpty then s
  else
    let s := match o.group with
      | some gid => s.modGroup gid fun g => g.orGs p.gs
      | none => s
    completeOp s id

/-- Replace a lane. -/
def PlaceOp.setLane (p : PlaceOp) (l : PLane) : PlaceOp :=
  { p with lanes := p.lanes.map fun x => if x.lane == l.lane then l else x }

/-- The lane whose part runs next: no lower lane still has a part at that executor (R285). -/
def PlaceOp.nextLane (p : PlaceOp) : Option (PLane × PPart) :=
  p.lanes.findSome? fun l =>
    match l.parts with
    | q :: _ =>
      let behind := p.lanes.any fun x => x.lane < l.lane && x.parts.any fun y => y.exec == q.exec
      if l.held || q.sent.isSome || behind then none else some (l, q)
    | [] => none

/-- An operand of a lane as a range of memory. -/
def PLane.side (l : PLane) (k : Nat) : Side := .mem ((l.vas[k]?).getD 0) l.pages

/-- The physical byte of an operand's byte. -/
def PLane.phys (l : PLane) (k j : Nat) : Nat :=
  match (l.side k).loc j with
  | .mem p => p
  | _ => 0

/-- What a destination byte is encrypted under, by its physical place (R198). -/
def PLane.seal (s : State) (l : PLane) (ph : Nat) : Option Seal := ((l.side 0).offset (.mem ph)).bind fun o => (l.side 0).enc s o

/-- What the elements of a part give: the bytes written by place, GS bits, the element that met poison with its operands. -/
structure Elems where
  out  : Fm Byte := []
  gs   : DWord := 0
  stop : Option (Nat × Nat) := none

/-- Run the elements of a part in ascending offset (R285, R286, R406): `rd` reads a byte of an operand under the bytes written so
far, `dst` is the place of a destination byte. -/
def runElems (p : PlaceOp) (start n : Nat) (dst : Nat → Nat) (rd : Fm Byte → Nat → Nat → Byte × Bool) : Elems :=
  let es := placeSize p.ty
  let ks := ((placeOperands p.fn).filter fun o => o.2.1).map fun o => o.1
  (List.range (n / es)).foldl (fun (e : Elems) i =>
    if e.stop.isSome then e
    else
      let j := start + i * es
      let bytes (k : Nat) : List (Byte × Bool) := if ks.contains k then (List.range es).map fun t => rd e.out k (j + t) else []
      let bad := (List.range 3).foldl (fun m k => if (bytes k).any fun b => b.2 then m + 2 ^ k else m) 0
      if bad != 0 then { e with stop := some (j, bad) }
      else
        let val (k : Nat) : Nat := leNat ((bytes k).map fun b => b.1)
        let r := placeEval p.fn p.ty p.rm p.ca.toNat p.cb.toNat (val 1) (val 2) (val 0)
        let out := ((leBytes es r.val).foldl (fun (m : Fm Byte × Nat) b => (Fm.put m.1 (dst m.2) b, m.2 + 1)) (e.out, j)).1
        { e with out := out, gs := e.gs ||| r.gs }) {}

/-- The sectors of some operands' bytes in a part, ascending, each with the L2LRU bit of its page (R275). -/
def partSecs (l : PLane) (q : PPart) (ks : List Nat) : Fm Bool :=
  ks.foldl (fun (m : Fm Bool) k => (List.range q.n).foldl (fun m j =>
    Fm.put m (secOf (l.phys k (q.start + j))) ((((l.side k).spot (q.start + j)).map fun p => p.2.2).getD false)) m) []

/-- A place executor takes the destination sectors, in ascending order (R249, R285). -/
def ownSecs (die id : Nat) : Fm Bool → State → Reply
  | [], s => { s := s, ok := true }
  | x :: r, s =>
    let q := ownStep s die x.1 (some id) x.2
    if q.ok then ownSecs die id r (markEngine q.s die x.1 id) else q

/-- The engine's reads count at the home agents (R190). -/
def countSecs (s0 s : State) (die : Nat) (secs : Fm Bool) : State :=
  secs.foldl (fun s x => if (copyOf s0 die x.1).isNone || die == homeDie x.1 then countRead s x.1 else s) s

/-- An engine accepts the bytes that it has for a sector and releases it (R249). -/
def releaseSec (s : State) (die id writer sec : Nat) (enc : Option Seal) (bytes : Fm (Byte × LaneMask)) : Reply :=
  let q : Reply := if bytes.isEmpty then { s := s, ok := true } else acceptStep s die sec enc bytes writer id (some id)
  { q with s := { q.s with l2 := Fm.mod q.s.l2 (l2Key die sec) fun y => { y with engine := none } } }

/-- An engine accepts the bytes of some places, by sectors, and releases every sector that it owns (R249). -/
def releaseSecs (s : State) (l : PLane) (die id writer : Nat) (out : Fm Byte) (secs : Fm Bool) : Reply :=
  secs.foldl (fun (r : Reply) x =>
    if !r.ok then r
    else
      let mine := out.filter fun e => secOf e.1 == x.1
      let enc := (mine[0]?).bind fun e => l.seal r.s e.1
      let q := releaseSec r.s die id writer x.1 enc (mine.map fun e => (e.1 % 128, (e.2, 0)))
      { q with stamp := max r.stamp q.stamp }) { s := s, ok := true }

/-- A byte of an operand as a part reads it under the bytes that its lane has written so far, with its poison: a sector's mark stays until the lane
has written all of it (R285, R209, R406). -/
def placeByte (s : State) (l : PLane) (die : Nat) (who : Reader) (out : Fm Byte) (k j : Nat) : Byte × Bool :=
  let ph := l.phys k j
  let want := (l.side k).enc s j
  let bad := poisonAt s die (secOf ph) && (out.filter fun e => secOf e.1 == secOf ph).length < 128
  match Fm.get? out ph with
  | some b => (decByte s want (l.seal s ph) ph b, bad)
  | none => (peekByte s die want ph who, bad)

/-- A lane is through with its first part; poison ends its later parts (R287, R406). -/
def partOver (s : State) (id : Nat) (o : Op) (p : PlaceOp) (l : PLane) (q : PPart) (e : Elems) (t : Nat) : State :=
  let s := doneKeys s q.keys t
  match e.stop with
  | none => putPlace s id o ({ p with gs := p.gs ||| e.gs }.setLane { l with parts := l.parts.drop 1 }) t
  | some (j, m) =>
    let s := doneKeys s ((l.parts.drop 1).flatMap fun r => r.keys) t
    let k := ((List.range 3).find? fun k => bitAt m k).getD 0
    let s := placeDefer s o p l cPlacePoison ((l.vas[k]?).getD 0 + j) m j
    putPlace s id o ({ p with gs := p.gs ||| e.gs }.setLane { l with parts := [] }) t

/-- PLACE_PART (R285, R287, R406): the next part runs at its executor, or is sent to its peer with its remote bytes. -/
def execPlacePart (op : Nat) (s : State) : Host.Outcome State Fault Refusal :=
  match Fm.get? s.ops op with
  | none => .next s
  | some o =>
    match o.kind with
    | .place p =>
      match p.nextLane with
      | none => .next s
      | some (l, q) =>
        let who : Reader := match o.group with
          | some g => .engine g op
          | none => .other
        let srcs := ((placeOperands p.fn).filter fun x => x.2.1).map fun x => x.1
        match q.peer with
        | some peer =>
          let va := (l.vas[0]?).getD 0 + q.start
          if !peerFirst s op o.world peer (pageOf va) then .next s
          else
          let secs := partSecs l q (srcs.filter fun k => q.remote.contains k)
          let r := readAll s o.die (some op) secs
          if !r.ok then .next r.s
          else
            let rd (out : Fm Byte) (k j : Nat) : Byte × Bool := if q.remote.contains k then placeByte r.s l o.die who out k j else (0, false)
            let e := runElems p q.start q.n (fun _ => 2 ^ 64) rd
            let port := peerPort s o.world peer va
            let q := { q with port := port, gs := if srcs.all fun k => q.remote.contains k then some e.gs else none }
            let n := match e.stop with
              | some (j, _) => j - q.start
              | none => q.n
            let s1 := countSecs s r.s o.die secs
            let now := dialOf s o.die
            match e.stop with
            | none => .next (putPlace (toPort s1 o.die port) op o (p.setLane { l with parts := { q with sent := some now } :: l.parts.drop 1 }) o.time)
            | some (j, m) =>
              let k := ((List.range 3).find? fun k => bitAt m k).getD 0
              let s1 := doneKeys s1 ((l.parts.drop 1).flatMap fun r => r.keys) 0
              let s1 := placeDefer s1 o p l cPlacePoison ((l.vas[k]?).getD 0 + j) m j
              if n == 0 then .next (putPlace (doneKeys s1 q.keys now) op o (p.setLane { l with parts := [] }) now)
              else .next (putPlace (toPort s1 o.die port) op o (p.setLane { l with parts := [{ q with n := n, sent := some now }] }) o.time)
        | none =>
          let dsts := partSecs l q [0]
          let w := ownSecs q.die op dsts s
          if !w.ok then .next w.s
          else
            let secs := partSecs l q (srcs.filter fun k => k != 0)
            let r := readAll w.s q.die (some op) secs
            if !r.ok then .next r.s
            else
              let e := runElems p q.start q.n (fun j => l.phys 0 j) (placeByte r.s l q.die who)
              let s1 := countSecs w.s r.s q.die (secs.filter fun x => (Fm.get? dsts x.1).isNone)
              let t := releaseSecs s1 l q.die op (writerOf o) e.out dsts
              if !t.ok then .next t.s
              else .next (partOver t.s op o p l q e (max t.stamp (dialOf s q.die)))
    | _ => .next s

/-- The world's pages whose leaf shows TRANSIT now (R289). -/
def inTransit (s : State) (core world va : Nat) : Bool :=
  match xlate s (core / 48) world va with
  | .ok x => x.transit
  | .error _ => false

/-- The pages that an entry of the place queue is held on: those that showed TRANSIT when it entered (R290). -/
def Op.heldPages (o : Op) : List Nat :=
  match o.kind with
  | .mem m => dedup ((m.accs.filter fun a => a.held).map fun a => a.va / 65536)
  | .place p => dedup ((p.lanes.filter fun l => l.held).flatMap fun l => l.waits)
  | _ => []

/-- Every page of the lanes of an entry (R290). -/
def Op.lanePages (o : Op) : List Nat :=
  match o.kind with
  | .place p => dedup ((p.lanes.filter fun l => l.held).flatMap fun l => l.pages.map fun e => e.1)
  | _ => o.heldPages

/-- A lane of a memory instruction whose retranslation failed (R290, R208). -/
def memDefer (s : State) (o : Op) (m : MemOp) (lane cause addr aux : Nat) : State :=
  match o.group with
  | none => s
  | some gid =>
    s.modGroup gid fun g =>
      let f : LaneFault :=
        { cause := BitVec.ofNat 8 cause, addr := BitVec.ofNat 64 addr, word := o.word, syn := memSyn (kindCode m.k) m.size true aux }
      { g with deferred := g.deferred ++ [{ lane := lane, f := f }] }

/-- Accept the held lanes of a memory instruction again (R290). -/
def releaseMem (s : State) (id : Nat) (o : Op) (m : MemOp) : State :=
  let again (a : Acc) : Option Verdict :=
    if a.held then some (checkLane s o.core o.world m.k m.size m.size a.lane a.va a.data) else none
  let accs := m.accs.filterMap fun a => match again a with
    | none => some a
    | some (.ok b) => some b
    | some (.bad ..) => none
  let aux : Nat := match o.group.bind fun gid => Fm.get? s.groups gid with
    | some g => (o.pc - codebaseOf s g).toNat
    | none => 0
  let s1 := m.accs.foldl (fun s a => match again a with
    | some (.bad c ad _) => memDefer s o m a.lane c ad.toNat aux
    | _ => s) s
  let fresh := accs.filter fun b => m.accs.any fun a => a.held && a.lane == b.lane
  let s2 := countIssues (useWalks s1 o.core o.world (accessOf m.k).writes (fresh.map fun a => a.va)) o.world (accKeys fresh)
  putMem s2 id o { m with accs := accs } 0

/-- Accept the held lanes of a PLACE again (R290), under PX.CRACK as it stood at issue, when they were first accepted: R290 does not say which of
the two readings counts (DESIGN CHOICE, log entry 24). -/
def releasePlace (s : State) (id : Nat) (o : Op) (p : PlaceOp) : State :=
  let again (l : PLane) : Option PVerdict := if l.held then some (placeLane s o.core o.world p l.lane l.vas) else none
  let lanes := p.lanes.filterMap fun l => match again l with
    | none => some l
    | some (.ok x _ _) => some x
    | some (.bad ..) => none
  let s1 := p.lanes.foldl (fun s l => match again l with
    | some (.bad c a m k) => placeDefer s o p l c a m k
    | some (.ok x r w) => countIssues (useWalks (useWalks s o.core o.world false r) o.core o.world true w) o.world (x.parts.flatMap fun q => q.keys)
    | none => s) s
  putPlace s1 id o { p with lanes := lanes } 0

/-- PLACE_QUEUE_RELEASE (R290): none of the entry's pages shows TRANSIT, and no earlier entry of the queue is held on a page that it is held on. -/
def execPlaceQueueRelease (op : Nat) (s : State) : Host.Outcome State Fault Refusal :=
  match Fm.get? s.ops op with
  | none => .next s
  | some o =>
    let pages := o.heldPages
    let behind := s.ops.any fun e =>
      e.1 < op && e.2.core == o.core && e.2.world == o.world && e.2.heldPages.any fun p => pages.contains p
    if !o.holds || behind || o.lanePages.any fun p => inTransit s o.core o.world (p * 65536) then .next s
    else
      let s := match o.group with
        | some gid => s.modGroup gid fun g => { g with held := g.held - 1 }
        | none => s
      match o.kind with
      | .mem m => .next (releaseMem s op o m)
      | .place p => .next (releasePlace s op o p)
      | _ => .next s

/-- The counters of a range of pages at every executor of the package and at every peer that the world has sent a counted operation to:
all of them when the range has 1,024 pages or more (R291). -/
def syncTargets (s : State) (world start len : Nat) : Fm Nat :=
  let a := start % 2 ^ 57
  let n := (a % 65536 + len + 65535) / 65536
  let hs := (List.range (min n 1024)).map fun i => Config.hashCounter world ((a / 65536 + i) % 2 ^ 41) % 1024
  let sent := ((Fm.get? s.worlds world).map fun w => w.sent).getD []
  s.issues.filter fun e => (e.1 / 1024 < 464 || sent.contains (e.1 / 1024 - 464)) && (1024 ≤ n || hs.contains (e.1 % 1024)) && Fm.getD s.dones e.1 0 != e.2

/-- PLSYNC (R291). -/
def execPlsync (g : BitVec 4) (x l : BitVec 6) (f : BitVec 4) (s : State) : Host.Outcome State Fault Refusal :=
  match prelude s g { f := some f, member := false } with
  | .error t => .next t
  | .ok i =>
    if i.act == 0 then .next (finish s i i.g (some 3))
    else if flagFull i.g f then .next (trapFull s i f.toNat)
    else
      let len := (readS s i.g l.toNat).toNat
      if len == 0 then .next (finish s i i.g (some 3))
      else
        let world := worldOf s i.g
        let o : Op :=
          { group := some i.gid, team := i.g.team, world := world, core := i.g.core, die := i.g.core / 48, pc := i.e.pc, word := i.g.word,
            lanes := i.act, cls := 0x40, kind := .plsync (syncTargets s world (readS s i.g x.toNat).toNat len) }
        let (s, gr, _) := startOp s i.g f o
        .next (finish s i gr (some 3))

/-- PLSYNC_COMPLETION (R291): every selected completion count has reached its target, modulo 2^32. -/
def execPlsyncCompletion (op : Nat) (s : State) : Host.Outcome State Fault Refusal :=
  match Fm.get? s.ops op with
  | none => .next s
  | some o =>
    match o.kind with
    | .plsync ts =>
      if ts.all fun e => (Fm.getD s.dones e.1 0 + 2 ^ 32 - e.2) % 2 ^ 32 < 2 ^ 31 then .next (completeOp s op) else .next s
    | _ => .next s

/-- The word of PLQRY (R294). -/
def plqryWord (s : State) (core world va : Nat) : Nat :=
  let cause := match checkVa s (core / 48) world va 4 .load fun _ => [] with
    | .error c => c
    | .ok _ => 0
  let leaf := match xlate s (core / 48) world va with
    | .error _ => 0
    | .ok x =>
      let size := if x.leaf.level == 2 then 2 else if x.leaf.level == 3 then 1 else 0
      nfield x.leaf.pte 0 8 + nfield x.leaf.pte 8 16 * 2 ^ 8 + size * 2 ^ 24 + (if isExecutor x (core / 48) then 2 ^ 26 else 0) +
        x.buf * 2 ^ 32
  leaf + cause * 2 ^ 56

/-- PLQRY (R294). -/
def execPlqry (g : BitVec 4) (d a : BitVec 6) (f : BitVec 4) (s : State) : Host.Outcome State Fault Refusal :=
  match prelude s g { f := some f, member := false } with
  | .error t => .next t
  | .ok i =>
    if i.act == 0 then .next (finish s i i.g (some 3))
    else if flagFull i.g f then .next (trapFull s i f.toNat)
    else
      let world := worldOf s i.g
      let va := (readS s i.g a.toNat).toNat
      let s := match xlate s (i.g.core / 48) world va with
        | .ok x => noteWalk s i.g.core world va x
        | .error _ => s
      .next (finish s i (i.g.setS d.toNat (BitVec.ofNat 64 (plqryWord s i.g.core world va))) (some 3))

/-- A group occupies its slot: it stands on the core with a lane alive (R41, R180). -/
def holdsSlot (s : State) (g : Group) : Bool :=
  !g.ended && (g.slot < 32 || g.lanes.any Lane.live) && (match Fm.get? s.teams g.team with
    | some t => t.phase == .running || t.phase == .halting
    | none => false)

/-- The free landing slot of the lowest-numbered core of a die that has one (R295). -/
def landingSlot (s : State) (die : Nat) : Option (Nat × Nat) :=
  (List.range 96).findSome? fun k =>
    let c := die * 48 + k / 2
    let sl := 32 + k % 2
    if s.groups.any fun e => e.2.core == c && e.2.slot == sl && holdsSlot s e.2 then none else some (c, sl)

/-- A group leaves its core for a landing slot (R40): its latches are lost, its register space returns; the constant cache of the core where it
lands keeps no line read before (R110). -/
def departGroup (s : State) (gid : Nat) (core slot : Nat) : State :=
  match Fm.get? s.groups gid with
  | none => s
  | some g =>
    let s := if g.landed then s else s.modTeam g.team fun t =>
      { t with places := Fm.mod t.places g.core fun p => { p with regs := p.regs - g.budget * 256 } }
    { s.modGroup gid (fun g => { g.loseLatches with core := core, slot := slot, away := true }) with
      ccache := s.ccache.filter fun x => x.core != core,
      pipes := s.pipes.filter fun e => e.2 != gid }

/-- MIGR (R40, R295): it stalls until every flag is zero, no FENCE pends and every access has passed its ordering time by 2, and
then until a landing slot is free; to its own die it then does nothing else. -/
def execMigr (g : BitVec 4) (t : BitVec 3) (s : State) : Host.Outcome State Fault Refusal :=
  match prelude s g { chain := false, member := false } with
  | .error e => .next e
  | .ok i =>
    if i.act == 0 then .next (finish s i i.g (some 3))
    else
      let zero := (List.range 12).all fun n => i.g.flag n == 0
      let late := match fenceTime i.g 0x7F with
        | some x => x + 2 < dialOf s (i.g.core / 48)
        | none => true
      if !zero || i.g.fence.isSome || !(fenceOps s i.gid 0x7F).isEmpty || !late then .next (stall s i.gid)
      else if i.g.core / 48 == t.toNat then .next (finish s i i.g (some 3))
      else
        match landingSlot s t.toNat with
        | none => .next (stall s i.gid)
        | some (core, slot) => .next (departGroup (finish s i i.g (some 3)) i.gid core slot)

/-- MIGR_LANDING (R40): a group in transit lands and goes on at the bundle after its MIGR. -/
def execMigrLanding (gid : Nat) (s : State) : Host.Outcome State Fault Refusal :=
  .next (s.modGroup gid fun g => { g with away := false })

/-- The lane and the part that a peer works on. -/
def PlaceOp.atPeer (p : PlaceOp) : Option (PLane × PPart) :=
  p.lanes.findSome? fun l => match l.parts with
    | q :: _ => if q.sent.isSome then some (l, q) else none
    | [] => none

/-- GS bits that a peer reports for what it computes from its own bytes (their value is the peer's): only those that the operation can set. -/
def peerBits (ctr : Nat) (sat inv : Bool) : DWord :=
  { val := 0, sat := sat && Config.peerGs ctr 0, inv := inv && Config.peerGs ctr 1 : Res Nat }.gs

/-- The accesses of an atomic that one peer performs. -/
def MemOp.atPeer (m : MemOp) (b : Acc) : Bool :=
  match m.accs.find? fun a => a.got.isNone && a.sent.isSome with
  | some a => b.got.isNone && b.sent.isSome && b.peer == a.peer && pageOf b.va == pageOf a.va
  | none => false

/-- What the lanes of an atomic see at a peer: at each address the first of them finds the peer's own value, which is free, and each later one what
the lanes before it leave there; the GS bits follow (R216, R217). -/
def peerOlds (ctr : Nat) (m : MemOp) (accs : List Acc) : List (Nat × Nat) × DWord :=
  (dedup (accs.map fun a => a.va)).foldl (fun x va =>
    let here := accs.filter fun a => a.va == va
    let old := Config.peerOld ctr ((here.head?.map fun a => a.lane).getD 0) % 2 ^ (8 * m.size)
    let (_, olds, gs) := atomLanes m.w here old
    (x.1 ++ olds, x.2 ||| gs)) ([], 0)

/-- The peer's part of an atomic is over: it has performed it, or it has not, and what the lanes receive then is left open. -/
def peerAtomOver (s : State) (id : Nat) (o : Op) (m : MemOp) (ran : Bool) : State :=
  let here := m.accs.filter m.atPeer
  let s := doneKeys s (accKeys here) (dialOf s o.die)
  let (olds, gs) := peerOlds s.freeCtr m here
  let t := { s with freeCtr := s.freeCtr + 1 }
  if ran then putMem t id o (atomDone m m.atPeer olds gs false) (dialOf s o.die)
  else putMem t id o (m.mapAcc m.atPeer fun b => { b with got := some (leBytes m.size (Config.peerOld s.freeCtr (64 + b.lane))) }) (dialOf s o.die)

/-- The network port through which what a peer works on left (R393). -/
def Op.port (o : Op) : Option Nat :=
  match o.kind with
  | .place p => p.atPeer.bind fun x => x.2.port
  | .mem m => (m.accs.find? m.atPeer).bind fun a => a.port
  | _ => none

/-- PEER_ACKNOWLEDGEMENT (R248): it returns along the route on which the operation left; nothing is acknowledged that never left (R393). -/
def execPeerAcknowledgement (op : Nat) (s : State) : Host.Outcome State Fault Refusal :=
  match Fm.get? s.ops op with
  | none => .next s
  | some o =>
    if o.port.isNone then .next s
    else
    let s := fromPort s o.die o.port
    match o.kind with
    | .place p =>
      match p.atPeer with
      | none => .next s
      | some (l, q) =>
        let round := p.fn != 4 && p.fn != 5
        let gs := q.gs.getD (if (placeFmt p.ty).isSome && p.fn != 0 then peerBits s.freeCtr (round && p.ty != 2) true else 0)
        .next (partOver { s with freeCtr := s.freeCtr + 1 } op o p l q { gs := gs } (dialOf s o.die))
    | .mem m => .next (if m.accs.any m.atPeer then peerAtomOver s op o m true else s)
    | _ => .next s

/-- A peer's part of an operation fails: its lanes take EXECUTOR_INVALID (R287, R292). The later parts of such a lane do not run, as R406 has it for
poison, since R287 leaves them open (DESIGN CHOICE, log entry 24). -/
def peerFail (s : State) (id : Nat) (o : Op) : State :=
  match o.kind with
  | .place p =>
    match p.atPeer with
    | none => s
    | some (l, q) =>
      let s := doneKeys s (l.parts.flatMap fun r => r.keys) (dialOf s o.die)
      let s := placeDefer s o p l cExecutor ((l.vas[0]?).getD 0 + q.start) 1 0
      putPlace s id o (p.setLane { l with parts := [] }) (dialOf s o.die)
  | .mem m =>
    if !(m.accs.any m.atPeer) then s
    else
      let aux : Nat := match o.group.bind fun gid => Fm.get? s.groups gid with
        | some g => (o.pc - codebaseOf s g).toNat
        | none => 0
      let s := (m.accs.filter m.atPeer).foldl (fun s a => memDefer s o m a.lane cExecutor a.va aux) s
      peerAtomOver s id o m false
  | _ => s

/-- PEER_REFUSAL (R287). -/
def execPeerRefusal (op : Nat) (s : State) : Host.Outcome State Fault Refusal :=
  match Fm.get? s.ops op with
  | none => .next s
  | some o => .next (if o.port.isNone then s else peerFail (fromPort s o.die o.port) op o)

/-- PEER_ABANDON (R292): 80 µs have passed since the operation was sent. -/
def execPeerAbandon (op : Nat) (s : State) : Host.Outcome State Fault Refusal :=
  match Fm.get? s.ops op with
  | none => .next s
  | some o =>
    let sent := match o.kind with
      | .place p => p.atPeer.bind fun x => x.2.sent
      | .mem m => (m.accs.find? m.atPeer).bind fun a => a.sent
      | _ => none
    .next (match sent with
      | some t => if t + 80000 ≤ dialOf s o.die then peerFail s op o else s
      | none => s)

/-- What this device answers a peer: the dial reading from which it acknowledges, 2 ticks past every write's visibility time, then what the
operation returns and its GS bits (R248). -/
def peerAnswer (s : State) (v : Nat) (old : List Byte) (gs : DWord) : State :=
  { s with reply := some (leBytes 8 (v + 2) ++ old ++ leBytes 8 gs.toNat) }

/-- An atomic that a peer sends: at the home of its sector, under this device's tables (R215, R279). It comes in and is answered through one
network port. -/
def peerAtom (s : State) (port world addr w : Nat) (ds : List Byte) : State :=
  let size := atomSize w
  if addr % size != 0 || w == 15 then { s with reply := none }
  else
    match checkVa s 0 world addr size .atom fun x => if x.cls == 4 || x.cls == 5 then [cExecutor] else [] with
    | .error _ => { s with reply := none }
    | .ok x =>
      if x.transit then s
      else
        let home := homeDie (secOf x.phys)
        let enc := encOf s x.d x.o
        let answered (t : State) : State := toPort (fromPort t home (some port)) home (some port)
        let r := operandRead s x.phys
        if !r.ok then r.s
        else if poisonAt r.s home (secOf x.phys) then
          { answered (countRead (readDone r.s (secOf x.phys)) (secOf x.phys)) with reply := none }
        else
          let old := leNat (peek r.s home enc x.phys size .newest)
          let e := atomEval w old (leNat ds)
          if e.val == old && unserved r.s home x.phys size then r.s
          else
          let t := markUsed r.s x true
          if e.val == old then
            let t := answered (readDone t (secOf x.phys))
            peerAnswer { t with rcounts := Fm.del t.rcounts (secOf x.phys) } (dialOf t home) (leBytes size old) e.gs
          else
            let q := writePhys t home x.phys enc (leBytes size e.val) (2 ^ 64) 0
            if q.ok then peerAnswer (answered q.s) q.stamp (leBytes size old) e.gs else q.s

/-- What a peer's operation has done so far: the state it has seen, its writes in order, its GS bits, whether it is over. -/
structure PeerRun where
  s    : State
  ws   : List (State → Reply) := []
  gs   : DWord := 0
  over_ : Bool := false

/-- A part that a peer sends: translated and run here, all of its writes or, while one must wait or an engine owns a sector, none (R250, R279,
R285). It reads under R233 (R252), and its own writes at once. -/
def peerPlace (s : State) (port world dst : Nat) (a b : PeerSrc) (p : PlaceOp) : State :=
  let va (x : PeerSrc) : Option Nat := match x with
    | .va v => some v
    | .bytes _ => none
  let used := (placeOperands p.fn).filter fun o => o.1 == 0 || (va (if o.1 == 1 then a else b)).isSome
  let addr (k : Nat) : Nat := if k == 0 then dst else (va (if k == 1 then a else b)).getD 0
  let res := used.map fun o => placeOperand s 0 world p.len (addr o.1) o
  let ops := res.map fun r => r.1
  let es := placeSize p.ty
  let pp := placeParts s 0 world true p.len ops
  let l : PLane := { lane := 0, vas := [dst, addr 1, addr 2], pages := placePages ops }
  if (used.any fun o => addr o.1 % es != 0) || (res.any fun r => !r.2.isEmpty) || !pp.bads.isEmpty ||
      (ops.any fun o => o.pieces.any fun t => t.2.2.cls == 5) then { s with reply := none }
  else if (ops.any fun o => o.pieces.any fun t => t.2.2.transit) ||
      pp.parts.any (fun q => (partSecs l q (used.map fun o => o.1)).any fun e => marked s e.1 none) then s
  else
    let id := s.nextOp
    let sent (k j : Nat) : Option Byte := match (if k == 1 then a else b) with
      | .bytes bs => if k == 0 then none else some ((bs[j]?).getD 0)
      | .va _ => none
    let one (x : PeerRun) (q : PPart) : PeerRun :=
      if x.over_ then x
      else
        let rd (out : Fm Byte) (k j : Nat) : Byte × Bool :=
          match sent k j with
          | some c => (c, false)
          | none => placeByte x.s l q.die (.engine (2 ^ 64) id) out k j
        let e := runElems p q.start q.n (fun j => l.phys 0 j) rd
        let write (c : Nat) (t : State) : Reply :=
          let mine := e.out.filter fun y => secOf y.1 == c
          match mine with
          | [] => { s := t, ok := true }
          | y :: _ => acceptWrite t q.die c (l.seal t y.1) (mine.map fun y => (y.1 % 128, (y.2, 0))) (2 ^ 64) id
        let ws := (partSecs l q [0]).map fun c => write c.1
        let r := whole x.s ws
        { s := r.s, ws := x.ws ++ ws, gs := x.gs ||| e.gs, over_ := e.stop.isSome || !r.ok }
    let marks := ops.foldl (fun s o => o.pieces.foldl (fun s t => markUsed s t.2.2 (o.k == 0)) s) s
    let x := pp.parts.foldl one { s := marks }
    let r := whole marks x.ws
    if r.ok then
      let t := pp.parts.foldl (fun t q => toPort (fromPort t q.die (some port)) q.die (some port)) { r.s with nextOp := id + 1 }
      peerAnswer t (max r.stamp (dialOf s 0)) [] x.gs
    else r.s

/-- A key generation that a device accepts from a peer: one that a peer-traffic key of the world stands for (R357, R367). -/
def genOk (k : KeySlot) (gen : BitVec 8) : Bool := (1 ≤ k.peers && gen == k.pgen) || (2 ≤ k.peers && k.pprev && gen + 1 == k.pgen)

/-- A world's peer traffic of a key generation can be opened (R367). -/
def opens (s : State) (world : Nat) (gen : BitVec 8) : Bool :=
  match Fm.get? s.keys world with
  | some k => k.st == 1 && genOk k gen
  | none => false

/-- PEER_OPERATION_ARRIVAL (R279, R248): this device answers what it performs, and refuses the rest with no change here; what must wait
arrives again. Traffic on another UDP port than the one that management set is not the part's (R393), and what no peer-traffic key of the world
opens is refused (R367). -/
def execPeerOperationArrival (o : PeerMessage) (s : State) : Host.Outcome State Fault Refusal :=
  if o.udp != s.udpPort || 8 ≤ o.port then .next s
  else
  match o.op with
  | .atom world addr w ds => .next (if opens s world o.gen then peerAtom s o.port world addr w.toNat ds else { s with reply := none })
  | .place world dst a b fn ty len rm ca cb =>
    if !opens s world o.gen || 5 < ty || len == 0 || len % placeSize ty != 0 || 4096 < len then .next { s with reply := none }
    else
      .next (peerPlace s o.port world dst a b { fn := fn.toNat, ty := ty, rm := rm, len := len, ca := ca, cb := cb, crack := true, lanes := [] })

end Sys2Proof.Machine
end

