-- ==== Sys2Proof/Machine/Mtx.lean ====
section
/-! DEFINITION. Convergence registers, the MTX family, CSIGN and CVDECL, matrix operations (spec/08), and the end of a group
(spec/09 R170, R180). -/

namespace Sys2Proof.Machine

/-- The format of a matrix TYPE, 0 being BF16 (R153). -/
def mtxFmt (ty : Nat) : Fmt := if ty == 4 then e4m3 else if ty == 5 then e5m2 else if ty == 6 then e2m1 else bf16

/-- TYPE 0 is BF16 (R153). -/
def mtxTy (ty : Nat) : Nat := if ty == 0 then 3 else ty

/-- K of a dense plane (R144). -/
def denseK (ty : Nat) : Nat := if ty == 3 then 64 else if ty == 6 then 256 else 128

/-- Bytes of metadata or scales of a plane image (R145). -/
def planeExtra (ty : Nat) (sparse : Bool) : Nat := if sparse then (if ty == 3 then 1024 else 2048) else if ty == 6 then 512 else 0

/-- Element `k` of a column or row whose bytes `rd` gives (R145). -/
def mtxElem (ty : Nat) (rd : Nat → Byte) (k : Nat) : Nat :=
  if ty == 3 then (rd (2 * k)).toNat + 256 * (rd (2 * k + 1)).toNat
  else if ty == 6 then (rd (k / 2)).toNat / 16 ^ (k % 2) % 16
  else (rd k).toNat

/-- The planes of a unit. -/
def arrOf (s : State) (core unit : Nat) : Arr := (Fm.get? s.arrays (core * 8 + unit)).getD {}

/-- Change a unit. -/
def State.putArr (s : State) (core unit : Nat) (a : Arr) : State := { s with arrays := Fm.put s.arrays (core * 8 + unit) a }

/-- A byte of a team's core scratch grant; 0 past its end. -/
def grantByte (s : State) (team core o : Nat) : Byte :=
  match (Fm.get? s.teams team).bind fun t => Fm.get? t.places core with
  | some p => if o < p.scrLen then Mem.read s.coreScr (core * scrSpan + p.scr + o) else 0
  | none => 0

/-- Write bytes of a team's core scratch grant. -/
def grantWrite (s : State) (team core o : Nat) (bs : List Byte) : State :=
  match (Fm.get? s.teams team).bind fun t => Fm.get? t.places core with
  | some p => { s with coreScr := Mem.writeN s.coreScr (core * scrSpan + p.scr + o) (bs.take (p.scrLen - o)) }
  | none => s

/-- R157: the plane's type takes the activations' type. -/
def mtxCompatible (plane act : Nat) : Bool :=
  (plane == 3 && act == 3) || (plane == 6 && act == 6) || ((plane == 4 || plane == 5) && (act == 4 || act == 5))

/-- The products of one row and one column (R156): activation and plane codes with the scales of their block. -/
def mtxTerms (p : Plane) (ty : Nat) (act : Nat → Byte) (scale : Nat → Nat) (n : Nat) : List (Nat × Nat × Nat × Nat) :=
  let col (j : Nat) : Byte := Mem.read p.data (128 * n + j)
  if p.sparse then
    let md := if p.ty == 3 then 16 else 32
    (List.range (denseK p.ty)).map fun q =>
      let b := (Mem.read p.data (8192 + md * n + q / 2 / 2)).toNat
      let nib := b / 16 ^ (q / 2 % 2) % 16
      let idx := if q % 2 == 0 then nib % 4 else nib / 4
      (mtxElem ty act (4 * (q / 2) + idx), mtxElem p.ty col q, 127, 127)
  else
    (List.range (denseK p.ty)).map fun k =>
      let w := if ty == 6 then (Mem.read p.data (8192 + 8 * n + k / 32)).toNat else 127
      (mtxElem ty act k, mtxElem p.ty col k, (if ty == 6 then scale (k / 32) else 127), w)

/-- One exact dot product, rounded once to FP32 (R56, R156). -/
def mtxDot (pf af : Fmt) (ts : List (Nat × Nat × Nat × Nat)) : Res Nat :=
  let one (d : DotAcc × Bool) (t : Nat × Nat × Nat × Nat) : DotAcc × Bool :=
    let a := af.decode t.1
    let w := pf.decode t.2.1
    let sc (x : Fp) (k : Nat) : Fp := if k == 127 then x else match mulV x (e8m0Val k) with
      | some y => if (e8m0Val k).isNan then e8m0Val k else y
      | none => e8m0Val k
    (d.1.prod (sc a t.2.2.1) (sc w t.2.2.2), d.2 || af.isSnan a || pf.isSnan w)
  let (d, sn) := ts.foldl one ({}, false)
  d.round f32 0 sn

/-- One tile element (R145). -/
def tileWord (tiles : Mem) (tile m n : Nat) : Nat := leNat (Mem.readN tiles (tile * 16384 + 256 * m + 4 * n) 4)

/-- MMA (R156, R157): the tiles after it, and whether it set INV. -/
def runMma (s : State) (team : Nat) (m : MtxOp) (a : Arr) : Arr × Bool :=
  let c := nfield m.b.toNat 0 7
  let row0 := nfield m.b.toNat 16 6
  let o := m.a.toNat
  if c == 0 then (a, false)
  else
    let put (t : Mem) (r n v : Nat) : Mem := Mem.writeN t (m.tile * 16384 + 256 * r + 4 * n) (leBytes 4 v)
    let cells := (List.range c).flatMap fun r => (List.range 64).map fun n => (r, n)
    if !mtxCompatible a.act.ty m.ty then
      ({ a with tiles := cells.foldl (fun t x => put t (row0 + x.1) x.2 f32.canon) a.tiles }, true)
    else
      let stride := if a.act.sparse then 256 else 128
      let step (x : Mem × Bool) (cell : Nat × Nat) : Mem × Bool :=
        let (r, n) := cell
        let act (j : Nat) : Byte := grantByte s team m.core (o + stride * r + j)
        let scale (b : Nat) : Nat := (grantByte s team m.core (o + 128 * c + 8 * r + b)).toNat
        let t := mtxDot (mtxFmt a.act.ty) (mtxFmt m.ty) (mtxTerms a.act m.ty act scale n)
        let v := f32.add 0 (tileWord x.1 m.tile (row0 + r) n) t.val
        (put x.1 (row0 + r) n v.val, x.2 || t.inv || v.inv)
      let (tiles, inv) := cells.foldl step (a.tiles, false)
      ({ a with tiles := tiles, rows := if a.act.sparse then (a.rows + c) % 1024 else a.rows }, inv)

/-- The key of a value for MCOMP (R158). -/
def compKey (f : Fmt) (c : Nat) : Nat := if (f.decode c).isNan then 2 ^ 16 else c % f.signW

/-- The two kept indices of a group of four, in ascending order (R158). -/
def compKeep (f : Fmt) (g : Nat → Nat) : Nat × Nat :=
  let best (skip : Nat) : Nat := (List.range 4).foldl (fun b i =>
    if i == skip then b else if b == 4 || compKey f (g b) < compKey f (g i) then i else b) 4
  let x := best 4
  let y := best x
  (min x y, max x y)

/-- The sparse plane image of a dense source (R158, R145). -/
def compImage (ty : Nat) (src : Nat → Byte) : List Byte :=
  let f := mtxFmt ty
  let w := if ty == 3 then 2 else 1
  let g (n j i : Nat) : Nat := mtxElem ty (fun b => src (256 * n + b)) (4 * j + i)
  let groups := denseK ty / 2
  let vals := (List.range 64).flatMap fun n => (List.range groups).flatMap fun j =>
    let k := compKeep f (g n j)
    leBytes w (g n j k.1) ++ leBytes w (g n j k.2)
  let nib (n j : Nat) : Nat := (compKeep f (g n j)).1 + 4 * (compKeep f (g n j)).2
  let meta_ := (List.range 64).flatMap fun n => (List.range (groups / 2)).map fun b =>
    BitVec.ofNat 8 (nib n (2 * b) + 16 * nib n (2 * b + 1))
  vals ++ meta_

/-- The effect of a matrix operation (R154 to R159): the state after it, and whether it set INV. -/
def runMtx (s : State) (team : Nat) (m : MtxOp) : State × Bool :=
  let a := arrOf s m.core m.unit
  let rd (o n : Nat) : List Byte := (List.range n).map fun j => grantByte s team m.core (o + j)
  match m.fn with
  | 0 =>
    let bs := rd m.a.toNat (8192 + planeExtra m.ty m.sparse)
    (s.putArr m.core m.unit { a with shd := { ty := m.ty, sparse := m.sparse, data := Mem.writeN [] 0 bs } }, false)
  | 1 => (s.putArr m.core m.unit { a with act := a.shd, shd := a.act }, false)
  | 2 =>
    let (b, inv) := runMma s team m a
    (s.putArr m.core m.unit b, inv)
  | 3 => (grantWrite s team m.core m.a.toNat (compImage m.ty fun j => grantByte s team m.core (m.b.toNat + j)), false)
  | 4 => (grantWrite s team m.core m.a.toNat (Mem.readN a.tiles (m.tile * 16384) 16384), false)
  | 5 => (s.putArr m.core m.unit { a with tiles := Mem.clear a.tiles (m.tile * 16384) 16384 }, false)
  | _ => (s.putArr m.core m.unit { a with tiles := Mem.writeN a.tiles (m.tile * 16384) (rd m.a.toNat 16384) }, false)

/-- The sparse bit of the plane that will be active after the operations in a unit's queue: a signature's grant check takes an MMA's rows to be as
long as that plane needs, since R153 does not say which plane counts; bytes past the grant read 0 where another one is active in the end (DESIGN
CHOICE, log entry 23). -/
def sparseAhead (s : State) (core unit : Nat) : Bool :=
  let a := arrOf s core unit
  let (x, _) := a.queue.foldl (fun (p : Bool × Bool) id =>
    match Fm.get? s.ops id with
    | some o =>
      match o.kind with
      | .mtx m => if m.ran then p else if m.fn == 0 then (p.1, m.sparse) else if m.fn == 1 then (p.2, p.1) else p
      | _ => p
    | none => p) (a.act.sparse, a.shd.sparse)
  x

/-- What a round issues (R148 to R151): the operation of the recorded word with a deposit. -/
def roundOp (w : Word) (md : Option (BitVec 22)) (core : Nat) (arrays : List Nat) (a b : DWord) (sigs groups : List Nat) : Option MtxOp :=
  let ty := mtxTy ({ md := md : Hints }).arith.ty
  let unit (m : BitVec 2) : Nat := (arrays[m.toNat]?).getD 0
  let op (fn : Nat) (sparse : Bool) (u t : Nat) : MtxOp :=
    { fn := fn, ty := ty, sparse := sparse, core := core, unit := u, tile := t, a := a, b := b, sigs := sigs, groups := groups }
  match Sys2Proof.decode w with
  | .ok (.mloadw _ x m _ _ _) => some (op 0 (x == 1) (unit m) 0)
  | .ok (.mswap _ m _ _) => some (op 1 false (unit m) 0)
  | .ok (.mma _ t m _ _ _) => some (op 2 false (unit m) t.toNat)
  | .ok (.mcomp ..) => some (op 3 false 4 0)
  | .ok (.maccst _ t m _ _ _) => some (op 4 false (unit m) t.toNat)
  | .ok (.maccz _ t m _ _) => some (op 5 false (unit m) t.toNat)
  | .ok (.maccld _ t m _ _ _) => some (op 6 false (unit m) t.toNat)
  | _ => none

/-- The core of a team's reservation on which group `g` was placed, where the arrays that it names stand (R23, R145). -/
def homeCore (tm : Team) (g : Nat) : Nat :=
  let c := ((tm.places.head?).map fun e => e.1).getD 0
  if tm.d.cluster then c / 8 * 8 + g % 8 else c

/-- A round issues once every group of the declared set has signed or has ended (R148). -/
def cvCheck (s : State) (t cv : Nat) : State :=
  match Fm.get? s.teams t with
  | none => s
  | some tm =>
    let c := Fm.getD tm.cvs cv {}
    let gone (k : Nat) : Bool := (s.groupsOf t).any fun e => e.2.index == k && e.2.ended
    if c.declared == 0 || c.signed == 0 || !((List.range 128).all fun k => !c.declared.getLsbD k || c.signed.getLsbD k || gone k) then s
    else
      let s := s.modTeam t fun tm => { tm with cvs := Fm.put tm.cvs cv { declared := c.declared } }
      match c.record, c.sigs with
      | some (w, md), (_, _, a, b) :: _ =>
        let signed := (s.groupsOf t).filter fun e => c.signed.getLsbD e.2.index
        let core := ((signed.head?).map fun e => homeCore tm e.2.index).getD 0
        let arrays := ((Fm.get? tm.places core).map fun p => p.arrays).getD []
        match roundOp w md core arrays a b (c.sigs.map fun x => x.2.1) (signed.map fun e => e.1) with
        | none => s
        | some m =>
          let (s, id) := newOp s { group := none, team := t, world := tm.world, core := core, die := core / 48, kind := .mtx m }
          let q := arrOf s core m.unit
          s.putArr core m.unit { q with queue := q.queue ++ [id] }
      | _, _ => s

/-- Every register of a team is checked. -/
def cvCheckAll (s : State) (t : Nat) : State := (List.range 8).foldl (fun s k => cvCheck s t k) s

/-- A cause found at signing, with its address and the syndrome's AUX (R163). -/
structure SignBad where
  cause : Nat
  addr  : Nat := 0
  aux   : Nat := 0

/-- The trap of a signer (R163, R208). -/
def signTrap (s : State) (i : Iss) (b : SignBad) : State :=
  if b.cause == cFlagOverflow then trapFull s i b.addr
  else groupFault s i b.cause b.addr (if b.cause == cPermission || b.cause == cMisaligned then memSyn 9 1 false b.aux else 0) false

/-- What an MTX signer brings: its flag, its deposit, the fence classes of the operation (R152), and the fields of its word that a round
records, OP, fn, X1, X2 and X3; an X2 that the instruction does not use acts as zero (R65, R149). -/
structure MtxSig where
  f    : BitVec 4
  a    : DWord
  b    : DWord
  cls  : BitVec 7
  mask : Word := 0xFC3FFFF0

/-- Sign a register (R148 to R150): `checks` are those of R153, `mtx` what an MTX signer brings. Words are compared without the fields that act as
zero because the instruction does not use them (R65, R149; DEDUCED, log entry 23). -/
def runSign (s : State) (i : Iss) (cv : Nat) (checks : Desc → List SignBad) (mtx : Option MtxSig) (pipe : Option Nat) : State :=
  match Fm.get? s.teams i.g.team with
  | none => s
  | some tm =>
    let word (m : MtxSig) : Word := i.g.word &&& m.mask
    let flag : List SignBad := match mtx with
      | some ⟨f, _, _, _, _⟩ => if flagFull i.g f then [{ cause := cFlagOverflow, addr := f.toNat }] else []
      | none => []
    let least (bs : List SignBad) : Option SignBad := leastBy (fun b : SignBad => b.cause) bs
    if i.g.landed || tm.d.cvs ≤ cv then
      -- R41 and R146 name no offset, so their PERMISSION stands before one of an offset (R163)
      match least (flag ++ [{ cause := cPermission }] ++ checks tm.d) with
      | some b => signTrap s i b
      | none => s
    else
      let c := Fm.getD tm.cvs cv {}
      if c.signed.getLsbD i.g.index then stall s i.gid
      else
        let other := match mtx, c.record with
          | some m, some r => r != (word m, i.g.hints.md)
          | _, _ => false
        let mis : List SignBad := if !c.declared.getLsbD i.g.index || other then [{ cause := cConvergence }] else []
        match least (flag ++ checks tm.d ++ mis) with
        | some b => signTrap s i b
        | none =>
          let bit : BitVec 128 := BitVec.ofNat 128 (2 ^ i.g.index)
          match mtx with
          | none =>
            let s := s.modTeam i.g.team fun tm => { tm with cvs := Fm.put tm.cvs cv { c with signed := c.signed ||| bit } }
            cvCheck (finish s i i.g pipe) i.g.team cv
          | some m =>
            let o : Op :=
              { group := some i.gid, team := i.g.team, world := tm.world, core := i.g.core, die := i.g.core / 48, pc := i.e.pc,
                word := i.g.word, lanes := i.act, cls := m.cls, kind := .sign cv }
            let (s, g, id) := startOp s i.g m.f o
            let n : Cv := { c with signed := c.signed ||| bit, record := some (c.record.getD (word m, i.g.hints.md)), sigs := Fm.put c.sigs i.g.index (id, m.a, m.b) }
            let s := s.modTeam i.g.team fun tm => { tm with cvs := Fm.put tm.cvs cv n }
            cvCheck (finish s i g pipe) i.g.team cv

/-- R153: an offset is a multiple of 128 and `n` bytes from it lie in the grant. -/
def grantCheck (s : State) (i : Iss) (o n : Nat) : List SignBad :=
  let len := (((Fm.get? s.teams i.g.team).bind fun t => Fm.get? t.places i.g.core).map fun p => p.scrLen).getD 0
  (if o % 128 != 0 then [{ cause := cMisaligned, addr := o, aux := o }] else []) ++
    (if n != 0 && len < o + n then [{ cause := cPermission, aux := o }] else [])

/-- R153: an array and, where one is named, a tile lie in the reservation. -/
def unitCheck (m : BitVec 2) (t : Option (BitVec 4)) (d : Desc) : List SignBad :=
  let tile := match t with
    | some k => d.tiles ≤ k.toNat
    | none => false
  if d.arrays ≤ m.toNat || tile then [{ cause := cPermission }] else []

/-- Run an MTX instruction: its fence classes, its MOD types, its checks and its deposit (R152, R153); `x2` says that it uses X2. -/
def runMtxInstr (g : BitVec 4) (cls : BitVec 7) (types : List Nat) (x2 : Bool) (c : BitVec 3) (f : BitVec 4) (body : Iss → (Desc → List SignBad) × DWord × DWord)
    (s : State) : State :=
  let md : ModRule := if types.isEmpty then .none else .arith types false false false false
  match prelude s g { md := md, f := some f } with
  | .error t => t
  | .ok i =>
    if i.act == 0 then finish s i i.g (some 3)
    else
      let (checks, a, b) := body i
      let m : MtxSig := { f := f, a := a, b := b, cls := cls, mask := if x2 then 0xFC3FFFF0 else 0xFC3FE070 }
      runSign s i c.toNat checks (some m) (some 3)

/-- MLOADW (R154). -/
def execMloadw (g : BitVec 4) (x : BitVec 1) (m : BitVec 2) (o : BitVec 6) (c : BitVec 3) (f : BitVec 4) (s : State) :
    Host.Outcome State Fault Refusal :=
  .next (runMtxInstr g 0x10 (if x == 1 then [0, tyBf16, tyE4m3, tyE5m2] else [0, tyBf16, tyE4m3, tyE5m2, tyE2m1]) true c f (fun i =>
    let a := readS s i.g o.toNat
    let n := 8192 + planeExtra (mtxTy i.g.hints.arith.ty) (x == 1)
    (fun d => unitCheck m none d ++ grantCheck s i a.toNat n, a, 0)) s)

/-- MSWAP (R155). -/
def execMswap (g : BitVec 4) (m : BitVec 2) (c : BitVec 3) (f : BitVec 4) (s : State) : Host.Outcome State Fault Refusal :=
  .next (runMtxInstr g 0 [] false c f (fun _ => (unitCheck m none, 0, 0)) s)

/-- MMA (R156): the rows of the row word; a sparse plane takes rows of 256 bytes (R145). -/
def execMma (g : BitVec 4) (t : BitVec 4) (m : BitVec 2) (o : BitVec 6) (c : BitVec 3) (f : BitVec 4) (s : State) :
    Host.Outcome State Fault Refusal :=
  .next (runMtxInstr g 0x10 [0, tyBf16, tyE4m3, tyE5m2, tyE2m1] true c f (fun i =>
    let a := readS s i.g o.toNat
    let b := readS s i.g (o.toNat + 1)
    let rows := nfield b.toNat 0 7
    let bad : List SignBad := if 64 < rows || 64 < nfield b.toNat 16 6 + rows then [{ cause := cPermission }] else []
    let arrays := (((Fm.get? s.teams i.g.team).bind fun t => Fm.get? t.places i.g.core).map fun p => p.arrays).getD []
    let per := if i.g.hints.arith.ty == tyE2m1 then 136 else if sparseAhead s i.g.core ((arrays[m.toNat]?).getD 0) then 256 else 128
    (fun d => unitCheck m (some t) d ++ bad ++ grantCheck s i a.toNat (rows * per), a, b)) s)

/-- MCOMP (R158). -/
def execMcomp (g : BitVec 4) (d x : BitVec 6) (c : BitVec 3) (f : BitVec 4) (s : State) : Host.Outcome State Fault Refusal :=
  .next (runMtxInstr g 0x30 [0, tyBf16, tyE4m3, tyE5m2] true c f (fun i =>
    let a := readS s i.g d.toNat
    let b := readS s i.g x.toNat
    let n := 8192 + planeExtra (mtxTy i.g.hints.arith.ty) true
    let overlap : List SignBad :=
      if a.toNat < b.toNat + 16384 && b.toNat < a.toNat + n then [{ cause := cPermission, aux := a.toNat }] else []
    (fun _ => grantCheck s i a.toNat n ++ grantCheck s i b.toNat 16384 ++ overlap, a, b)) s)

/-- A tile transfer (R159). -/
def runTile (g : BitVec 4) (cls : BitVec 7) (t : BitVec 4) (m : BitVec 2) (o : BitVec 6) (c : BitVec 3) (f : BitVec 4) (s : State) : State :=
  runMtxInstr g cls [] true c f (fun i =>
    let a := readS s i.g o.toNat
    (fun d => unitCheck m (some t) d ++ grantCheck s i a.toNat 16384, a, 0)) s

/-- MACCST (R159). -/
def execMaccst (g : BitVec 4) (t : BitVec 4) (m : BitVec 2) (o : BitVec 6) (c : BitVec 3) (f : BitVec 4) (s : State) :
    Host.Outcome State Fault Refusal :=
  .next (runTile g 0x20 t m o c f s)
/-- MACCLD (R159). -/
def execMaccld (g : BitVec 4) (t : BitVec 4) (m : BitVec 2) (o : BitVec 6) (c : BitVec 3) (f : BitVec 4) (s : State) :
    Host.Outcome State Fault Refusal :=
  .next (runTile g 0x10 t m o c f s)
/-- MACCZ (R159). -/
def execMaccz (g : BitVec 4) (t : BitVec 4) (m : BitVec 2) (c : BitVec 3) (f : BitVec 4) (s : State) :
    Host.Outcome State Fault Refusal :=
  .next (runMtxInstr g 0 [] false c f (fun _ => (unitCheck m (some t), 0, 0)) s)

/-- CSIGN (R160). -/
def execCsign (g : BitVec 4) (c : BitVec 3) (s : State) : Host.Outcome State Fault Refusal :=
  match prelude s g { pipe := none, member := false } with
  | .error t => .next t
  | .ok i => .next (if i.act == 0 then finish s i i.g none else runSign s i c.toNat (fun _ => []) none none)

/-- The set of R147 is a legal declaration. -/
def declOk (s : State) (t : Nat) (x : BitVec 128) (groups : Nat) : Bool :=
  let named := (s.groupsOf t).filter fun e => x.getLsbD e.2.index
  x != 0 && x.toNat < 2 ^ groups && !(named.any fun e => e.2.landed) && (dedup (named.map fun e => e.2.core)).length ≤ 1

/-- CVDECL (R147): it waits while the round holds a signature that a group has made; an ended group, which counts as signed (R148), makes it
wait for nothing (DEDUCED, log entry 23). -/
def execCvdecl (g : BitVec 4) (x : BitVec 6) (c : BitVec 3) (s : State) : Host.Outcome State Fault Refusal :=
  match prelude s g { pipe := none, member := false } with
  | .error t => .next t
  | .ok i =>
    if i.act == 0 then .next (finish s i i.g none)
    else
      match Fm.get? s.teams i.g.team with
      | none => .next s
      | some tm =>
        if i.g.landed || tm.d.cvs ≤ c.toNat then .next (signTrap s i { cause := cPermission })
        else if (Fm.getD tm.cvs c.toNat {}).signed != 0 then .next (stall s i.gid)
        else
          let set : BitVec 128 := (readS s i.g (x.toNat + 1)) ++ (readS s i.g x.toNat)
          if !declOk s i.g.team set tm.d.groups then .next (signTrap s i { cause := cConvergence })
          else
            let s := s.modTeam i.g.team fun tm => { tm with cvs := Fm.put tm.cvs c.toNat { declared := set } }
            .next (finish s i i.g none)

/-- ARRAY_OPERATION (R151): the operation at the head of a unit's queue takes effect. It reads and writes all of its scratch in this one step, so
that of the stores that complete after its round has issued, which R152 lets it see element by element or not, it sees those performed before
the step (DESIGN CHOICE, log entry 23). -/
def execArrayOperation (core arr : Nat) (s : State) : Host.Outcome State Fault Refusal :=
  match (arrOf s core arr).queue with
  | [] => .next s
  | id :: _ =>
    match Fm.get? s.ops id with
    | none => .next s
    | some o =>
      match o.kind with
      | .mtx m =>
        if m.ran then .next s
        else
          let (s, inv) := runMtx s o.team m
          let s := countUnit s m.core 12 [o.world] (if m.fn == 2 then nfield m.b.toNat 0 7 else 0)
          -- its reads and writes of scratch are performed now (R235, R236)
          .next { s with ops := Fm.put s.ops id { o with time := max o.time (dialOf s o.die), kind := .mtx { m with ran := true, inv := inv } } }
      | _ => .next s

/-- MATRIX_OPERATION_COMPLETION (R150): every signer's flag falls; GS.INV goes to every group that signed. -/
def execMatrixOperationCompletion (op : Nat) (s : State) : Host.Outcome State Fault Refusal :=
  match Fm.get? s.ops op with
  | none => .next s
  | some o =>
    match o.kind with
    | .mtx m =>
      if !m.ran then .next s
      else
        let a := arrOf s m.core m.unit
        let s := s.putArr m.core m.unit { a with queue := a.queue.filter (· != op) }
        let inv : DWord := ({ val := 0, inv := true } : Res Nat).gs
        let s := if m.inv then m.groups.foldl (fun s g => s.modGroup g fun x => x.orGs inv) s else s
        let s := m.sigs.foldl (fun s id => completeOp (noteTime s id o.time) id) s
        .next (completeOp s op)
    | _ => .next s

/-- GROUP_END (R180): a group whose lanes have all exited ends once every flag reads zero; it leaves the arrival sets of its
team's barriers, and a team all of whose groups have ended retires (R42, R170). An
ended group counts as signed (R148). -/
def execGroupEnd (gid : Nat) (s : State) : Host.Outcome State Fault Refusal :=
  match Fm.get? s.groups gid with
  | none => .next s
  | some g =>
    if g.ended || g.halted || !onCores s g || g.lanes.any Lane.live || !((List.range 12).all fun n => g.flag n == 0) then .next s
    else
      let s := s.modGroup gid fun g => { g with ended := true }
      let s := s.modTeam g.team fun tm => { tm with barriers := Fm.mapVals tm.barriers fun _ b => b.leave g.index }
      let s := cvCheckAll (afterLanes (barrierCheck s g.team) gid) g.team
      .next (if (s.groupsOf g.team).all fun e => e.2.ended then retireTeam (dropOps s g.team) g.team none else s)

end Sys2Proof.Machine
end

