-- ==== Sys2Proof/Machine/Sfu.lean ====
section
/-! DEFINITION. The special functions (spec/07 R136, R137), correctly rounded: exact integer square roots and quotients, and for
the transcendental functions series in fixed point with far more bits than any FP32 argument needs (log entry 6). Their values
at arguments that are not special are irrational, so a truncated value always has something below it. -/

namespace Sys2Proof.Machine

/-- Fraction bits of the fixed-point working numbers. -/
def fxP : Nat := 320

/-- 1 in fixed point. -/
def fxOne : Int := 2 ^ fxP

/-- Product in fixed point. -/
def fxMul (a b : Int) : Int := a * b / fxOne

/-- Quotient in fixed point. -/
def fxDiv (a b : Int) : Int := a * fxOne / b

/-- The sum over odd k of z^k / k, with alternating signs when `alt`: atanh or atan; `t` is the current power of z. -/
def oddSeries (alt : Bool) (z2 : Int) (one : Int) : Nat → Nat → Int → Int
  | 0, _, _ => 0
  | fuel + 1, k, t =>
    t / (k : Int) + (if alt then -1 else 1) * oddSeries alt z2 one fuel (k + 2) (t * z2 / one)

/-- ln 2 = 2 atanh (1/3), in fixed point. -/
def fxLn2 : Int := 2 * oddSeries false (fxOne / 9) fxOne 110 1 (fxOne / 3)

/-- π by Machin's formula, with `p` fraction bits. -/
def fxPi (p : Nat) : Int :=
  let one : Int := 2 ^ p
  4 * (4 * oddSeries true (one / 25) one 120 1 (one / 5) - oddSeries true (one / 57121) one 40 1 (one / 239))

/-- The sum of t, t·y/(k+1), … : a tail of the exponential series. -/
def expSeries (y : Int) : Nat → Nat → Int → Int
  | 0, _, _ => 0
  | fuel + 1, k, t => t + expSeries y fuel (k + 1) (fxMul t y / ((k : Int) + 1))

/-- e^y for a small y. -/
def fxExp (y : Int) : Int := expSeries y 90 0 fxOne

/-- The series of sine or cosine of r: each term is the last one times −r² / ((k+1)(k+2)). -/
def trigSeries (r2 : Int) : Nat → Nat → Int → Int
  | 0, _, _ => 0
  | fuel + 1, k, t => t + trigSeries r2 fuel (k + 2) (-(fxMul t r2) / (((k : Int) + 1) * (k + 2)))

def fxSin (r : Int) : Int := trigSeries (fxMul r r) 50 1 r
def fxCos (r : Int) : Int := trigSeries (fxMul r r) 50 0 fxOne

/-- The integer part of a square root, bit by bit. -/
def isqrtGo (x : Nat) : Nat → Nat → Nat
  | 0, r => r
  | k + 1, r =>
    let t := r + 2 ^ k
    isqrtGo x k (if t * t ≤ x then t else r)

/-- The integer part of the square root of x. -/
def isqrt (x : Nat) : Nat := isqrtGo x (Nat.log2 x / 2 + 1) 0

/-- A fixed-point result, known to be irrational, rounded to FP32. -/
def fxRound (mode : Nat) (x : Int) : Res Nat :=
  if 0 ≤ x then f32.round mode false x.toNat (-(fxP : Int)) true
  else f32.round mode true (-x).toNat (-(fxP : Int)) true

/-- A value just below m × 2^e in magnitude. -/
def justBelow (mode : Nat) (neg : Bool) (m : Nat) (e : Int) : Res Nat :=
  f32.round mode neg (m * 2 ^ 64 - 1) (e - 64) true

/-- 2^x for a fixed-point x: an integer power of 2 and a factor. -/
def fxExp2 (x : Int) : Int × Int := (x / fxOne, fxExp (fxMul (x % fxOne) fxLn2))

/-- x = ±m × 2^e in fixed point, truncated toward −∞. -/
def toFx (neg : Bool) (m : Nat) (e : Int) : Int :=
  let k := e + fxP
  if 0 ≤ k then sgn neg (m * 2 ^ k.toNat) else sgn neg m / 2 ^ (-k).toNat

/-- The magnitude is below 2^k. -/
def below (m : Nat) (e k : Int) : Bool := (Nat.log2 m : Int) + e < k

/-- Sine or cosine of a finite non-zero x: the exact x less the nearest multiple of π/2 (R136). -/
def trig (cos : Bool) (mode : Nat) (neg : Bool) (m : Nat) (e : Int) : Res Nat :=
  if below m e (-50) then
    if cos then justBelow mode false 1 0 else justBelow mode neg m e
  else
    let q : Nat := fxP + 160
    let half := fxPi q / 2
    let x : Int := sgn neg m * 2 ^ (e + q).toNat
    let n : Int := (2 * x + half) / (2 * half)
    let r := (x - n * half) / 2 ^ (160 : Nat)
    let k := (if cos then n + 1 else n) % 4
    let v := if k % 2 == 0 then fxSin r else fxCos r
    fxRound mode (if k < 2 then v else -v)

/-- The function `sel` of SFU on a finite non-zero operand ±m × 2^e (R136, R137). -/
def sfuFinite (sel mode : Nat) (neg : Bool) (m : Nat) (e : Int) : Res Nat :=
  match sel with
  | 0 =>
    let q := 2 ^ 80 / m
    f32.round mode neg q (-80 - e) (2 ^ 80 % m != 0)
  | 1 =>
    if neg then f32.invalid
    else
      -- 1/√(m 2^e) with an even exponent
      let (m, e) := if e % 2 == 0 then (m, e) else (2 * m, e - 1)
      let q := 2 ^ 160 / m
      let r := isqrt q
      f32.round mode false r (-80 - e / 2) (r * r * m != 2 ^ 160)
  | 2 =>
    if neg then f32.invalid
    else
      let (m, e) := if e % 2 == 0 then (m, e) else (2 * m, e - 1)
      let r := isqrt (m * 2 ^ 80)
      f32.round mode false r (e / 2 - 40) (r * r != m * 2 ^ 80)
  | 3 =>
    if below m e (-60) then
      if neg then justBelow mode false 1 0 else f32.round mode false (2 ^ 64) (-64) true
    else if !below m e 9 then f32.round mode false 1 (if neg then -400 else 400) true
    else
      let x := toFx neg m e
      if x % fxOne == 0 then f32.round mode false 1 (x / fxOne)
      else
        let (k, v) := fxExp2 x
        f32.round mode false v.toNat (k - fxP) true
  | 4 =>
    if neg then f32.invalid
    else
      let k : Int := (Nat.log2 m : Int) + e
      let y := toFx false m (-(Nat.log2 m : Int))
      if y == fxOne then f32.roundInt mode k 0 false
      else
        let z := fxDiv (y - fxOne) (y + fxOne)
        let ln := 2 * oddSeries false (fxMul z z) fxOne 110 1 z
        fxRound mode (k * fxOne + fxDiv ln fxLn2)
  | 5 => trig false mode neg m e
  | 6 => trig true mode neg m e
  | _ =>
    if below m e (-50) then justBelow mode neg m e
    else if !below m e 7 then justBelow mode neg 1 0
    else
      let x := toFx false m e
      let (k, v) := fxExp2 (fxDiv (2 * x) fxLn2)
      let w := v * 2 ^ k.toNat
      let t := fxDiv (w - fxOne) (w + fxOne)
      fxRound mode (if neg then -t else t)

/-- SFU (R136, R137): the special cases, then the finite ones. -/
def sfuEval (sel mode x : Nat) : Res Nat :=
  match f32.decode x with
  | .nan .. => (f32.nanResult [x]).getD f32.invalid
  | .inf s =>
    match sel with
    | 0 => { val := f32.signed s 0 }
    | 1 => if s then f32.invalid else { val := 0 }
    | 2 => if s then f32.invalid else { val := x }
    | 3 => { val := if s then 0 else x }
    | 4 => if s then f32.invalid else { val := x }
    | 5 | 6 => { val := f32.canon }
    | _ => { val := f32.signed s 0x3F800000 }
  | .fin s m e =>
    if m == 0 then
      match sel with
      | 0 | 1 => { val := f32.signed s f32.infC }
      | 2 | 5 => { val := x }
      | 3 | 6 => { val := 0x3F800000 }
      | 4 => { val := f32.signed true f32.infC }
      | _ => { val := x }
    else sfuFinite sel mode s m e

end Sys2Proof.Machine
end

