-- ==== Sys2Proof/Machine/Sacc.lean ====
section
/-! DEFINITION. The stream accumulator (spec/13): SAOPEN, SAADD, SANORM, SAEVICT, SAFILL, SASTAT, SACLOSE, and the steps of the row
tables and banks. A row is named by die × 16384 + entry. -/

namespace Sys2Proof.Machine

/-- SA causes (R258). -/
def cSaState : Nat := 0x20
def cSaOverfill : Nat := 0x21
def cSaTimeout : Nat := 0x22
def cSaRange : Nat := 0x23

/-- A group waits at an instruction until its verdict arrives from a table of die `dest` (R258, R303); a chain whose last member waits so holds
its core no more (R351). -/
def awaitVerdict (s : State) (i : Iss) (dest : Nat) (k : OpKind) (lru : Bool := false) : State :=
  let o : Op :=
    { group := some i.gid, team := i.g.team, world := worldOf s i.g, core := i.g.core, die := i.g.core / 48, pc := i.e.pc, word := i.g.word,
      lanes := i.lanes, dest := some dest, lru := lru, kind := k }
  let (s, id) := newOp s o
  s.modGroup i.gid fun g => { g with hold := .op id, ent := some i.pair, accepting := true, chain := g.chain.map fun c => { c with ended := c.ended || c.left ≤ 1 } }

/-- The verdict arrives: the group stands at its instruction again (R206). -/
def atVerdict (s : State) (id gid : Nat) : State :=
  { s.modGroup gid (fun g => { g with hold := .none }) with ops := Fm.del s.ops id, cur := some gid }

/-- The instruction has reached its table: every one that its die sent there before it on the same route has (R12). -/
def arrives (s : State) (id : Nat) (o : Op) : Bool := s.ops.all fun e => id ≤ e.1 || e.2.dest.isNone || e.2.dest != o.dest || e.2.die != o.die

/-- The row that a row word names (R256). -/
def rowKey (w : Nat) : Nat := nfield w 16 3 * 16384 + nfield w 0 14

/-- The verdict on a chain's head waits, since its acceptance starts the chain, while another chain holds the core or another of its groups is
forced (R75, R351). -/
def headWaits (s : State) (o : Op) : Bool :=
  match o.group.bind fun gid => (Fm.get? s.groups gid).map fun g => (gid, g) with
  | some (gid, g) => g.hints.chain.isSome && (chainElsewhere s g.core gid || forcedElsewhere s g.core gid)
  | none => false

/-- A row entry; one never used is FREE in generation 1 (R254). -/
def rowOf (s : State) (key : Nat) : SaRow := (Fm.get? s.rows key).getD {}

/-- Change a row entry. -/
def State.putRow (s : State) (key : Nat) (r : SaRow) : State := { s with rows := Fm.put s.rows key r }

/-- A row word (R256). -/
def rowWord (key gen : Nat) : Nat := key % 16384 + key / 16384 * 2 ^ 16 + gen * 2 ^ 20

/-- A zero field of a row word is not zero (R256). -/
def rowWordBad (w : Nat) : Bool := nfield w 14 2 != 0 || nfield w 19 1 != 0 || w / 2 ^ 41 != 0

/-- SEG of a row word. -/
def rowSeg (w : Nat) : Nat := nfield w 32 9

/-- The number of segments of a row (R255). -/
def SaRow.segs (r : SaRow) : Nat := 2 ^ r.log

/-- The open word (R257). -/
structure OpenWord where
  log     : Nat
  e       : Int
  eps     : Nat
  expect  : Nat
  timeout : Nat
  reopen  : Bool
  bad     : Bool

/-- Read an open word; `bad` where SA_RANGE applies (R257, R258). -/
def openWord (x : Nat) : OpenWord :=
  let e := (BitVec.ofNat 6 (nfield x 4 6)).toInt
  let t := nfield x 32 12
  { log := nfield x 0 4, e := e, eps := nfield x 10 6, expect := nfield x 16 16, timeout := t, reopen := nfield x 63 1 == 1,
    bad := 9 < nfield x 0 4 || e < -16 || 16 < e || nfield x 16 16 == 0 || nfield x 44 19 != 0 }

/-- The ticks of a TIMEOUT field (R257). -/
def timeoutTicks (t : Nat) : Nat := if t == 0 then 1000000 else t * 16000

/-- R259: STALE, WORLD and CLOSED. -/
def rowReason (r : SaRow) (w world : Nat) : Option Nat :=
  if r.st == 0 || r.gen != nfield w 20 12 then some 1
  else if r.world != world then some 2
  else if r.closing then some 9
  else none

/-- The row is evicted, or will be before any later operation (R266). -/
def SaRow.out (r : SaRow) : Bool := r.st == 3 || r.evicting

/-- Adds accepted for a row and not applied. -/
def pendingAdds (s : State) (key : Nat) : Nat :=
  (s.ops.filter fun e => match e.2.kind with
    | .saAdd k .. => k == key
    | _ => false).length

/-- A cause of the row table, in every issuing lane (R258, R259). -/
def saTrap (s : State) (i : Iss) (fn cause reason word : Nat) : State :=
  groupFault s i cause word (BitVec.ofNat 56 (reason + fn * 16))

/-- Segment slots of a bank that a row takes (R255). -/
def slotsIn (segs h bank : Nat) : Nat := segs / 48 + if (bank + 48 - h) % 48 < segs % 48 then 1 else 0

/-- Segment slots of a bank that are taken. -/
def bankUsed (s : State) (die bank : Nat) : Nat :=
  s.rows.foldl (fun n e => if e.1 / 16384 == die && (e.2.st == 1 || e.2.st == 2) then n + slotsIn e.2.segs e.2.bank bank else n) 0

/-- The start banks at which a row of some segments fits (R260). -/
def fitBanks (s : State) (die segs : Nat) : List Nat :=
  (List.range 48).filter fun h => (List.range 48).all fun b => bankUsed s die b + slotsIn segs h b ≤ 2048

/-- The FREE entries of a die. -/
def freeRows (s : State) (die : Nat) : List Nat := (List.range 16384).filter fun e => (rowOf s (die * 16384 + e)).st == 0

/-- The hardware's choice among `n` (R260, R306). -/
def choose (s : State) (k n : Nat) : Nat := Config.choice (2 * s.freeCtr + k) n % n

/-- The register that holds the row word of a SACC instruction: none for one that opens a row (R256, R257, R260). -/
def rowReg (s : State) (g : Group) : Instr → Option (BitVec 6)
  | .saopen _ d o _ => if (openWord (readS s g o.toNat).toNat).reopen then some d else none
  | .saadd _ _ r _ | .sanorm _ _ r _ _ | .saevict _ r _ _ | .safill _ r _ _ | .sastat _ _ r _ | .saclose _ r _ => some r
  | _ => none

/-- A SACC instruction's first half: its checks at issue, then it goes to the row table of the die that its row word names, or of its own die
where it opens a row (R258, R346). -/
def sendSacc (g : BitVec 4) (form : Form) (f : BitVec 4) (x : Instr) (s : State) : State :=
  match prelude s g form with
  | .error t => t
  | .ok i =>
    if i.act == 0 then finish s i i.g (some 3)
    else if flagFull i.g f then trapFull s i f.toNat
    else awaitVerdict s i (match rowReg s i.g x with
      | some r => nfield (readS s i.g r.toNat).toNat 16 3
      | none => i.g.core / 48) (.verdict x)

/-- The row that an instruction at its row table names. -/
def rowAsked (s : State) (o : Op) : Option Nat :=
  match o.kind, o.group.bind fun gid => Fm.get? s.groups gid with
  | .verdict x, some g => (rowReg s g x).map fun r => rowKey (readS s g r.toNat).toNat
  | _, _ => none

/-- An instruction on the same row has arrived before and waits at the row table, so that this one is not taken yet (R269). -/
def behind (s : State) (op : Nat) (o : Op) : Bool :=
  o.dest.isSome && (rowAsked s o).isSome &&
    s.ops.any fun e => e.1 != op && e.2.dest.isNone && rowAsked s e.2 == rowAsked s o

/-- Forms of the SACC instructions (R262, R264, R266). -/
def saForm (f : BitVec 4) : Form := { f := some f }
def saAddForm (v : BitVec 6) (f : BitVec 4) : Form := { md := .arith [0, tyF32, tyBf16, tyF16, tyE4m3] false false false false, f := some f, vregs := [v.toNat] }
def saNormForm (v : BitVec 6) (f : BitVec 4) : Form := { md := .arith [0, tyF32, tyBf16, tyF16] false false false false, f := some f, vregs := [v.toNat] }
def saImageForm (f : BitVec 4) : Form := { f := some f, off := true }

/-- SAOPEN (R260). -/
def execSaopen (g : BitVec 4) (d o : BitVec 6) (f : BitVec 4) (s : State) : Host.Outcome State Fault Refusal :=
  .next (sendSacc g (saForm f) f (.saopen g d o f) s)
/-- SAADD (R262). -/
def execSaadd (g : BitVec 4) (v r : BitVec 6) (f : BitVec 4) (s : State) : Host.Outcome State Fault Refusal :=
  .next (sendSacc g (saAddForm v f) f (.saadd g v r f) s)
/-- SANORM (R264). -/
def execSanorm (g : BitVec 4) (v r : BitVec 6) (m : BitVec 2) (f : BitVec 4) (s : State) : Host.Outcome State Fault Refusal :=
  .next (sendSacc g (saNormForm v f) f (.sanorm g v r m f) s)
/-- SAEVICT (R266). -/
def execSaevict (g : BitVec 4) (r a : BitVec 6) (f : BitVec 4) (s : State) : Host.Outcome State Fault Refusal :=
  .next (sendSacc g (saImageForm f) f (.saevict g r a f) s)
/-- SAFILL (R266). -/
def execSafill (g : BitVec 4) (r a : BitVec 6) (f : BitVec 4) (s : State) : Host.Outcome State Fault Refusal :=
  .next (sendSacc g (saImageForm f) f (.safill g r a f) s)
/-- SASTAT (R268). -/
def execSastat (g : BitVec 4) (d r : BitVec 6) (f : BitVec 4) (s : State) : Host.Outcome State Fault Refusal :=
  .next (sendSacc g (saForm f) f (.sastat g d r f) s)
/-- SACLOSE (R261). -/
def execSaclose (g : BitVec 4) (r : BitVec 6) (f : BitVec 4) (s : State) : Host.Outcome State Fault Refusal :=
  .next (sendSacc g (saForm f) f (.saclose g r f) s)

/-- An instruction that its unit completes at once: a scalar result, its ordering time (R236). -/
def doneScalar (s : State) (i : Iss) (d : BitVec 6) (x time : Nat) : State :=
  finish s i ((i.g.setS d.toNat (BitVec.ofNat 64 x)).noteTimes 0x40 time) (some 3)

/-- The operation of an accepted SACC instruction. -/
def saOp (s : State) (i : Iss) (k : OpKind) : Op :=
  { group := some i.gid, team := i.g.team, world := worldOf s i.g, core := i.g.core, die := i.g.core / 48, pc := i.e.pc, word := i.g.word,
    lanes := i.lanes, cls := 0x40, kind := k }

/-- The verdict on a SAOPEN (R258, R260). -/
def acceptSaopen (s : State) (i : Iss) (d o : BitVec 6) : State :=
  let x := (readS s i.g o.toNat).toNat
  let w := openWord x
  let world := worldOf s i.g
  if !w.reopen then
    if w.bad then saTrap s i 0 cSaRange 0 x
    else
      let die := i.g.core / 48
      let hs := fitBanks s die (2 ^ w.log)
      let free := freeRows s die
      let t := dialOf s die
      if free.isEmpty || hs.isEmpty then doneScalar s i d 0 t
      else
        let key := die * 16384 + (free[choose s 0 free.length]?).getD 0
        let r := rowOf s key
        let row : SaRow :=
          { st := 1, gen := r.gen, world := world, log := w.log, e := w.e, eps := w.eps, expect := w.expect, timeout := w.timeout,
            bank := (hs[choose s 1 hs.length]?).getD 0 }
        doneScalar (s.putRow key row) i d (rowWord key r.gen) t
  else
    let rw := (readS s i.g d.toNat).toNat
    let key := rowKey rw
    let r := rowOf s key
    let reason := match rowReason r rw world with
      | some k => some k
      | none => if r.st != 2 || r.evicting then some 4 else none
    match reason with
    | some k => saTrap s i 0 cSaState k rw
    | none =>
      if w.bad || rowWordBad rw || w.log != r.log || w.e != r.e || w.eps != r.eps then saTrap s i 0 cSaRange 0 rw
      else
        let row := { r with arrived := 0, expect := w.expect, timeout := w.timeout, rRms := none, rLayer := none, st := 1 }
        doneScalar (s.putRow key row) i d (rowWord key r.gen) (dialOf s (key / 16384))

/-- The verdict on a SAADD (R258, R262). -/
def acceptSaadd (s : State) (i : Iss) (v r : BitVec 6) (f : BitVec 4) : State :=
  let w := (readS s i.g r.toNat).toNat
  let key := rowKey w
  let row := rowOf s key
  let reason := match rowReason row w (worldOf s i.g) with
    | some k => some k
    | none => if row.out then some 3 else if row.poison then some 7 else none
  match reason with
  | some k => saTrap s i 1 cSaState k w
  | none =>
    if row.arrived == row.expect then saTrap s i 1 cSaOverfill 0 w
    else if rowWordBad w || row.segs ≤ rowSeg w then saTrap s i 1 cSaRange 0 w
    else
      let ds := lanesOf fun l => if i.act.getLsbD l then (readV s i.g v.toNat l).toNat else 0
      let s := s.putRow key { row with arrived := row.arrived + 1 }
      let (s, g, _) := startOp s i.g f (saOp s i (.saAdd key (rowSeg w) i.g.hints.arith.ty ds))
      finish s i g (some 3)

/-- The value of a delta code (R262). -/
def deltaOf (ty c : Nat) : Fp :=
  if ty == tyBf16 then bf16.decode (c % 65536)
  else if ty == tyF16 then f16.decode (c % 65536)
  else if ty == tyE4m3 then e4m3.decode (c % 256)
  else f32.decode c

/-- The integer that a delta adds, and whether it saturated (R262). -/
def deltaInt (e : Int) (x : Fp) : Int × Bool :=
  let hi : Int := 2 ^ 63 - 1
  let lo : Int := -(2 ^ 63)
  match x with
  | .nan .. => (0, false)
  | .inf neg => (if neg then lo else hi, true)
  | .fin neg m q =>
    let d := roundToInt 0 neg m (q + 40 - e)
    if hi < d then (hi, true) else if d < lo then (lo, true) else (d, false)

/-- An element of a row. -/
def SaRow.x (r : SaRow) (e : Nat) : Int := Fm.getD r.xs e 0

/-- One lane of a segment add: the row and the GS bits (R262). -/
def addLane (ty seg : Nat) (p : SaRow × DWord) (lc : Nat × Nat) : SaRow × DWord :=
  let (r, gs) := p
  let v := deltaOf ty lc.2
  if v.isNan then ({ r with inv := true }, gs ||| gsBits false true)
  else
    let (d, sat) := deltaInt r.e v
    let e := 64 * seg + lc.1
    let x := r.x e
    ({ r with sx := r.sx + d, sxx := r.sxx + 2 * x * d + d * d, xs := if d == 0 then r.xs else Fm.put r.xs e (x + d), sat := r.sat || sat },
      if sat then gs ||| gsSasat else gs)

/-- A row seals (R263). -/
def SaRow.seal (r : SaRow) : SaRow :=
  let hi : Int := 2 ^ 63 - 1
  let lo : Int := -(2 ^ 63)
  if r.xs.any fun e => hi < e.2 || e.2 < lo then
    let xs : Fm Int := Fm.mapVals r.xs fun _ x => max lo (min hi x)
    { r with st := 2, sat := true, xs := xs, sx := xs.foldl (fun n e => n + e.2) 0, sxx := xs.foldl (fun n e => n + e.2 * e.2) 0 }
  else { r with st := 2 }

/-- RNE_FP32(1 / √(w × 2^k)) (R264). -/
def recipSqrt (w : Nat) (k : Int) : Nat :=
  if w == 0 then f32.infC
  else
    let (w, k) := if k % 2 == 0 then (w, k) else (2 * w, k - 1)
    let j := Nat.log2 w / 2 + 40
    let n := 2 ^ (2 * j)
    let m := isqrt (n / w)
    (f32.round 0 false m (-(j : Int) - k / 2) (m * m * w != n)).val

/-- The factor of a mode (R264): the variance is exact over N². -/
def rowFactor (r : SaRow) (layer : Bool) : Nat :=
  let n : Int := 64 * 2 ^ r.log
  let v := (r.sxx * n - if layer then r.sx * r.sx else 0).toNat
  let k : Int := 2 * (r.e - 40) - 2 * (6 + r.log)
  if r.eps == 0 then recipSqrt v k
  else
    let (a, q) := addExact v k 1 (-(r.eps : Int))
    recipSqrt a.toNat q

/-- One result of SANORM (R264): the mode, the factor, the result's format, the gain; an exact zero takes the gain's sign. -/
def normLane (r : SaRow) (mode fac : Nat) (f : Fmt) (e gain : Nat) : Res Nat :=
  let g := if mode == 2 then 0x3F800000 else gain
  let gv := f32.decode g
  if gv.isNan then
    let q := f32.quiet g
    { val := if f.narrow then (narrowTo f 0 q).val else q, inv := f32.isSnan gv }
  else
    let n : Int := 64 * 2 ^ r.log
    let d := r.x e * n - if mode == 1 then r.sx else 0
    let diff : Fp := .fin (d < 0) d.natAbs (r.e - 40 - (6 + r.log))
    match (mulV diff (f32.decode fac)).bind fun t => mulV t gv with
    | none => f.invalid
    | some t => f.roundV 0 (match t with
        | .fin _ 0 e => .fin (g / 2 ^ 31 % 2 == 1) 0 e
        | t => t)

/-- The waiting reads of a row, in order of arrival. -/
def rowReads (s : State) (key : Nat) : List (Nat × Op) :=
  s.ops.filter fun e => match e.2.kind with
    | .saNorm k .. => k == key
    | _ => false

/-- A fault of a waiting read, in every issuing lane (R259, R267); its flag completes. -/
def saDefer (s : State) (id : Nat) (o : Op) (cause reason : Nat) : State :=
  match o.group, o.kind with
  | some gid, .saNorm _ _ _ _ _ _ _ word =>
    let s := s.modGroup gid fun g =>
      let aux := (o.pc - codebaseOf s g).toNat % 2 ^ 32
      let f : LaneFault :=
        { cause := BitVec.ofNat 8 cause, addr := word, word := o.word, syn := BitVec.ofNat 56 (reason + 2 * 16 + 128 + aux * 2 ^ 24) }
      { g with deferred := g.deferred ++ ((List.range 64).filter fun l => o.lanes.getLsbD l).map fun l => { lane := l, f := f } }
    completeOp s id
  | _, _ => completeOp s id

/-- A read has waited for its row's timeout (R265). -/
def normLate (s : State) (o : Op) (key : Nat) : Bool := o.since + timeoutTicks (rowOf s key).timeout ≤ dialOf s o.die

/-- A row takes a waiting read away with a reason of SA_STATE; one whose timeout has passed takes SA_TIMEOUT (R265). -/
def endRead (s : State) (key reason : Nat) (e : Nat × Op) : State :=
  if normLate s e.2 key then saDefer s e.1 e.2 cSaTimeout 0 else saDefer s e.1 e.2 cSaState reason

/-- Serve a waiting read of a SEALED row (R264). -/
def serveNorm (s : State) (id : Nat) (o : Op) : State :=
  match o.kind with
  | .saNorm key seg mode ty d act gains _ =>
    let r := rowOf s key
    let layer := mode == 1
    let fac := match (if layer then r.rLayer else r.rRms) with
      | some x => x
      | none => rowFactor r layer
    let s := s.putRow key (if layer then { r with rLayer := some fac } else { r with rRms := some fac })
    let f := if ty == tyBf16 then bf16 else if ty == tyF16 then f16 else f32
    let res (l : Nat) : Res Nat := normLane r mode fac f (64 * seg + l) ((gains[l]?).getD 0)
    let s := match o.group with
      | none => s
      | some gid =>
        s.modGroup gid fun g =>
          let old := Fm.getD g.v d []
          let g := { g with v := Fm.put g.v d (lanesOf fun l => if act.getLsbD l then BitVec.ofNat 32 (res l).val else laneW old l) }
          (g.orGs (gsOf act res)).orGs (if r.sat then gsSasat else 0)
    completeOp (noteTime s id (dialOf s (key / 16384))) id
  | _ => s

/-- The end of a row (R261): its waiting reads take CLOSED, the entry is FREE in its next generation, the SACLOSE completes. -/
def closeRow (s : State) (key : Nat) : State :=
  let r := rowOf s key
  let s := (rowReads s key).foldl (fun s e => endRead s key 9 e) s
  let s := s.putRow key { gen := if r.gen == 4095 then 1 else r.gen + 1 }
  (s.ops.filter fun e => match e.2.kind with
    | .saClose k => k == key
    | _ => false).foldl (fun s e => completeOp s e.1) s

/-- What a row does once every accepted add has been applied: it seals and serves its reads, those in time, and it closes, once an eviction
accepted before has been carried out (R261, R263, R265, R269). -/
def settleRow (s : State) (key : Nat) : State :=
  if pendingAdds s key != 0 then s
  else
    let r := rowOf s key
    let s := if r.st == 1 && r.arrived == r.expect then
        (rowReads s key).foldl (fun s e => if normLate s e.2 key then saDefer s e.1 e.2 cSaTimeout 0 else serveNorm s e.1 e.2) (s.putRow key r.seal)
      else s
    if r.closing && !r.evicting && r.st != 0 then closeRow s key else s

/-- The verdict on a SANORM (R258, R264). -/
def acceptSanorm (s : State) (i : Iss) (v r : BitVec 6) (m : BitVec 2) (f : BitVec 4) : State :=
  let w := (readS s i.g r.toNat).toNat
  let key := rowKey w
  let row := rowOf s key
  let reason := match rowReason row w (worldOf s i.g) with
    | some k => some k
    | none => if row.out then some 3 else if row.poison then some 7 else none
  match reason with
  | some k => saTrap s i 2 cSaState k w
  | none =>
    if rowWordBad w || row.segs ≤ rowSeg w then saTrap s i 2 cSaRange 0 w
    else
      let gains := lanesOf fun l => (readV s i.g v.toNat l).toNat
      let k : OpKind := .saNorm key (rowSeg w) m.toNat i.g.hints.arith.ty v.toNat i.act gains (BitVec.ofNat 64 w)
      let (s, g, id) := startOp s i.g f (saOp s i k)
      let s := finish s i g (some 3)
      if row.st != 2 then s
      else match Fm.get? s.ops id with
        | some o => serveNorm s id o
        | none => s

/-- The address of an image and what its checks give (R266): its pages as descriptor, offset, length and L2LRU bit, or the lowest cause. -/
def imagePieces (s : State) (i : Iss) (va len : Nat) (write : Bool) : Except (Nat × Nat) (List (Nat × Nat × Nat × Bool)) :=
  let world := worldOf s i.g
  let acc : Access := if write then .saWrite else .saRead
  let kind (x : Xl) : List Nat := if nfield x.d 5 3 != 2 then [cKind] else []
  let ps := (pagePieces (len / 65536 + 2) va len).map fun p => (p, checkVa s (i.g.core / 48) world p.1 p.2 acc kind)
  let bads := (ps.filterMap fun p => match p.2 with
    | .error c => some (c, p.1.1)
    | .ok _ => none) ++ if va % 128 != 0 then [(cMisaligned, va)] else []
  match leastBy (fun b : Nat × Nat => b.1) bads with
  | some b => .error b
  | none => .ok (ps.filterMap fun p => match p.2 with
      | .ok x => some (x.d, x.o, p.1.2, nfield x.leaf.pte 26 1 == 1)
      | .error _ => none)

/-- The bytes of a row's image (R266). -/
def imageLen (log : Nat) : Nat := 128 + 10 * 64 * 2 ^ log

/-- The status word (R268). -/
def rowStatus (r : SaRow) : Nat :=
  (if r.evicting then 3 else r.st) + (if r.sat then 4 else 0) + (if r.inv then 8 else 0) + (if r.poison then 16 else 0) + r.log * 2 ^ 6 +
    (BitVec.ofInt 6 r.e).toNat * 2 ^ 10 + r.expect * 2 ^ 16 + r.arrived * 2 ^ 32 + r.gen * 2 ^ 48

/-- An integer in `n` bytes, two's complement. -/
def intBytes (n : Nat) (x : Int) : List Byte := leBytes n (x % 2 ^ (8 * n)).toNat

/-- The image of a row, without its check: what stands before it and after it (R266). -/
def imageParts (key : Nat) (r : SaRow) : List Byte × List Byte :=
  let n := 64 * 2 ^ r.log
  (leBytes 8 (rowWord key r.gen) ++ leBytes 8 (rowStatus { r with evicting := false }) ++
      leBytes 8 (r.eps + r.timeout * 2 ^ 6 + r.world * 2 ^ 18) ++ intBytes 12 r.sx ++ intBytes 24 r.sxx,
    leBytes 64 0 ++ ((List.range n).flatMap fun e => intBytes 8 (r.x e)) ++ (List.range n).flatMap fun e => intBytes 2 (r.x e / 2 ^ 64))

/-- The key of a world (R354, R358). -/
def worldKey (s : State) (world : Nat) : Nat := ((Fm.get? s.worlds world).map fun w => w.key).getD 0

/-- A sector of an image: its physical place, what it is encrypted under, its page's L2LRU bit. -/
structure ImageSec where
  phys : Nat
  enc  : Option Seal
  lru  : Bool

/-- The sectors of an image in order. -/
def imageSecs (s : State) (pieces : List (Nat × Nat × Nat × Bool)) : List ImageSec :=
  pieces.flatMap fun p => (List.range (p.2.2.1 / 128)).map fun k =>
    { phys := physOf p.1 (p.2.1 + 128 * k), enc := encOf s p.1 (p.2.1 + 128 * k), lru := p.2.2.2 }

/-- The sectors of an image as an engine takes and reads them. -/
def imageFm (xs : List ImageSec) : Fm Bool := xs.foldl (fun m x => Fm.put m (secOf x.phys) x.lru) []

/-- The image of a row with its check (R266). -/
def imageBytes (s : State) (key : Nat) : List Byte :=
  let r := rowOf s key
  let (a, b) := imageParts key r
  a ++ leBytes 4 (Config.saCheck (worldKey s r.world) (a ++ b)).toNat ++ b

/-- An accepted SAEVICT: it owns its sectors (R249), and once its row has applied every accepted add it writes and releases them one after
another, all in one step (R266). -/
def tryEvict (s : State) (id : Nat) (o : Op) (key : Nat) (pieces : List (Nat × Nat × Nat × Bool)) : State :=
  let die := key / 16384
  let xs := imageSecs s pieces
  let w := ownSecs die id (imageFm xs) s
  if !w.ok || pendingAdds w.s key != 0 then w.s
  else
    let one (q : Reply × List Byte) (x : ImageSec) : Reply × List Byte :=
      if !q.1.ok then q
      else
        let r := releaseSec q.1.s die id (writerOf o) (secOf x.phys) x.enc (bytesOf 0 (q.2.take 128))
        ({ r with stamp := max q.1.stamp r.stamp }, q.2.drop 128)
    let q := (xs.foldl one ({ s := w.s, ok := true }, imageBytes w.s key)).1
    if !q.ok then w.s
    else
      let s := (rowReads q.s key).foldl (fun s e => endRead s key 3 e) q.s
      let s := s.putRow key { rowOf s key with st := 3, evicting := false, xs := [], rRms := none, rLayer := none }
      completeOp (noteTime s id q.stamp) id

/-- The lowest of the row table's cause and an image's (R174, R258). -/
def saLowest (s : State) (i : Iss) (fn : Nat) (reason : Option Nat) (w : Nat) (image : Option (Nat × Nat)) : Option State :=
  let own : Option Nat := if reason.isSome then some cSaState else if rowWordBad w then some cSaRange else none
  match own, image with
  | some c, some (e, x) => some (if c < e then saTrap s i fn c (reason.getD 0) w else groupFault s i e x)
  | some c, none => some (saTrap s i fn c (reason.getD 0) w)
  | none, some (e, x) => some (groupFault s i e x)
  | none, none => none

/-- The cause of an image's checks, where there is one. -/
def imageBad {α : Type} : Except (Nat × Nat) α → Option (Nat × Nat)
  | .error e => some e
  | .ok _ => none

/-- The verdict on a SAEVICT (R258, R266). -/
def acceptSaevict (s : State) (i : Iss) (r a : BitVec 6) (f : BitVec 4) : State :=
  let w := (readS s i.g r.toNat).toNat
  let va := (((readS s i.g a.toNat).toNat + i.g.hints.offset) % 2 ^ 64).toNat
  let key := rowKey w
  let row := rowOf s key
  let reason := match rowReason row w (worldOf s i.g) with
    | some k => some k
    | none => if row.out then some 3 else if row.poison then some 7 else none
  let im := imagePieces s i va (if reason.isNone then imageLen row.log else 128) true
  match saLowest s i 3 reason w (imageBad im) with
  | some t => t
  | none =>
    let pieces := im.toOption.getD []
    let s := useWalks s i.g.core (worldOf s i.g) true ((pagePieces (imageLen row.log / 65536 + 2) va (imageLen row.log)).map fun p => p.1)
    let s := s.putRow key { row with evicting := true }
    let (s, g, id) := startOp s i.g f (saOp s i (.saEvict key pieces))
    let s := finish s i g (some 3)
    match Fm.get? s.ops id with
    | some o => tryEvict s id o key pieces
    | none => s

/-- A row from its image (R266); none where the row word, which is compared without its SEG (R256), the world or the check differs. -/
def rowFromImage (s : State) (word : Nat) (row : SaRow) (bs : List Byte) (bank : Nat) : Option SaRow :=
  let w (o n : Nat) : Nat := leNat ((bs.drop o).take n)
  let n := 64 * 2 ^ row.log
  let st := w 8 8
  let p := w 16 8
  let el (e : Nat) : Int := ((BitVec.ofNat 16 (w (128 + 8 * n + 2 * e) 2)).toInt * 2 ^ 64) + w (128 + 8 * e) 8
  let check := Config.saCheck (worldKey s row.world) (bs.take 60 ++ bs.drop 64)
  if w 0 8 != word - rowSeg word * 2 ^ 32 || nfield p 18 11 != row.world || w 60 4 != check.toNat then none
  else
    some { row with
      st := nfield st 0 2, sat := nfield st 2 1 == 1, inv := nfield st 3 1 == 1, poison := nfield st 4 1 == 1,
      e := (BitVec.ofNat 6 (nfield st 10 6)).toInt, expect := nfield st 16 16, arrived := nfield st 32 16, eps := nfield p 0 6,
      timeout := nfield p 6 12, sx := (BitVec.ofNat 96 (w 24 12)).toInt, sxx := w 36 24, bank := bank, rRms := none, rLayer := none,
      xs := (List.range n).filterMap fun e => if el e == 0 then none else some (e, el e) }

/-- The verdict on a SAFILL (R258, R266): a state, or what it asks for while the row's eviction is under way or a sector of the image must be
waited for. An image with a poisoned sector gives reason IMAGE (DESIGN CHOICE, log entry 19: the spec names no cause there). -/
def acceptSafill (s : State) (i : Iss) (r a : BitVec 6) : Except (State → State) State :=
  let w := (readS s i.g r.toNat).toNat
  let va := (((readS s i.g a.toNat).toNat + i.g.hints.offset) % 2 ^ 64).toNat
  let key := rowKey w
  let row := rowOf s key
  let own := rowReason row w (worldOf s i.g)
  if row.evicting && own.isNone then .error id
  else
    let die := key / 16384
    let hs := fitBanks s die row.segs
    let reason := match own with
      | some k => some k
      | none => if row.st != 3 then some 8 else if hs.isEmpty then some 5 else none
    let im := imagePieces s i va (if reason.isNone || reason == some 5 then imageLen row.log else 128) false
    match saLowest s i 4 reason (if reason.isNone then 0 else w) (imageBad im) with
    | some t => .ok t
    | none =>
      let xs := imageSecs s (im.toOption.getD [])
      let q := readAll s die (some s.nextOp) (imageFm xs)
      if !q.ok then .error fun t => (readAll t die (some t.nextOp) (imageFm xs)).s
      else
        let bs := xs.flatMap fun x => peek q.s die x.enc x.phys 128 (.engine i.gid s.nextOp)
        let bad := xs.any fun x => poisonAt q.s die (secOf x.phys)
        match if bad then none else rowFromImage s w row bs ((hs[choose s 0 hs.length]?).getD 0) with
        | none => .ok (saTrap s i 4 cSaState 6 w)
        | some x =>
          let s := countSecs s q.s die (imageFm xs)
          let s := useWalks s i.g.core (worldOf s i.g) false ((pagePieces (imageLen row.log / 65536 + 2) va (imageLen row.log)).map fun p => p.1)
          .ok (settleRow (finish (s.putRow key x) i (i.g.noteTimes 0x40 (dialOf s die)) (some 3)) key)

/-- The verdict on a SASTAT (R268). -/
def acceptSastat (s : State) (i : Iss) (d r : BitVec 6) : State :=
  let w := (readS s i.g r.toNat).toNat
  let key := rowKey w
  let row := rowOf s key
  if rowWordBad w then saTrap s i 5 cSaRange 0 w
  else doneScalar s i d (if (rowReason row w (worldOf s i.g)).isSome then 0 else rowStatus row) (dialOf s (key / 16384))

/-- The verdict on a SACLOSE (R261). -/
def acceptSaclose (s : State) (i : Iss) (r : BitVec 6) (f : BitVec 4) : State :=
  let w := (readS s i.g r.toNat).toNat
  let key := rowKey w
  let row := rowOf s key
  match rowReason row w (worldOf s i.g) with
  | some k => saTrap s i 6 cSaState k w
  | none =>
    if rowWordBad w then saTrap s i 6 cSaRange 0 w
    else
      let s := s.putRow key { row with closing := true }
      let o := saOp s i (.saClose key)
      let (s, g, _) := startOp s i.g f { o with time := dialOf s (key / 16384) }
      let s := finish s i g (some 3)
      if row.evicting then s else settleRow s key

/-- Finish an instruction's second half: its group stands at it again and issues it; while the table must wait, it has arrived there (R12). -/
def secondHalf (s : State) (id gid : Nat) (g : BitVec 4) (form : Form) (f : State → Iss → Except (State → State) State) : State :=
  let t := atVerdict s id gid
  match prelude t g form with
  | .error u => u
  | .ok i => match f t i with
    | .ok u => u
    | .error ask => ask { s with ops := Fm.mod s.ops id fun o => { o with dest := none } }

/-- SACC_VERDICT (R258, R269): the row table takes the instruction, in order of arrival at its row; a group whose operation is rejected traps at it. An accepted SAEVICT
that waits for its row or for its sectors tries again. -/
def execSaccVerdict (op : Nat) (s : State) : Host.Outcome State Fault Refusal :=
  match Fm.get? s.ops op with
  | none => .next s
  | some o =>
    if !arrives s op o || behind s op o || headWaits s o then .next s
    else
    match o.kind, o.group with
    | .verdict x, some gid =>
      match x with
      | .saopen g d w f => .next (secondHalf s op gid g (saForm f) fun t i => .ok (acceptSaopen t i d w))
      | .saadd g v r f => .next (secondHalf s op gid g (saAddForm v f) fun t i => .ok (acceptSaadd t i v r f))
      | .sanorm g v r m f => .next (secondHalf s op gid g (saNormForm v f) fun t i => .ok (acceptSanorm t i v r m f))
      | .saevict g r a f => .next (secondHalf s op gid g (saImageForm f) fun t i => .ok (acceptSaevict t i r a f))
      | .safill g r a f => .next (secondHalf s op gid g (saImageForm f) fun t i => acceptSafill t i r a)
      | .sastat g d r f => .next (secondHalf s op gid g (saForm f) fun t i => .ok (acceptSastat t i d r))
      | .saclose g r f => .next (secondHalf s op gid g (saForm f) fun t i => .ok (acceptSaclose t i r f))
      | _ => .next s
    | .saEvict key pieces, _ =>
      let t := tryEvict s op o key pieces
      .next (if (rowOf t key).closing && !(rowOf t key).evicting then settleRow t key else t)
    | _, _ => .next s

/-- SAADD_APPLY (R262, R263): one exact step for the whole segment; the last add seals the row. -/
def execSaaddApply (op : Nat) (s : State) : Host.Outcome State Fault Refusal :=
  match Fm.get? s.ops op with
  | none => .next s
  | some o =>
    match o.kind with
    | .saAdd key seg ty ds =>
      let (r, gs) := ((List.range 64).zip ds).foldl (addLane ty seg) (rowOf s key, 0)
      let s := s.putRow key r
      let s := match o.group with
        | some gid => s.modGroup gid fun g => g.orGs gs
        | none => s
      .next (settleRow (completeOp (noteTime s op (dialOf s (key / 16384))) op) key)
    | _ => .next s

/-- SA_TIMEOUT (R265): the read is removed, vX1 keeps its value, its lanes take the cause deferred. -/
def execSaTimeout (op : Nat) (s : State) : Host.Outcome State Fault Refusal :=
  match Fm.get? s.ops op with
  | none => .next s
  | some o =>
    match o.kind with
    | .saNorm key .. =>
      if normLate s o key then .next (saDefer s op o cSaTimeout 0) else .next s
    | _ => .next s

end Sys2Proof.Machine
end

