-- ==== Sys2Proof/Machine/Tkt.lean ====
section
/-! DEFINITION. The ticket tables (spec/15): handles, entries, leases, the five TKT instructions, and the steps of the slices. A
ticket entry is named by slice × 4096 + entry. -/

namespace Sys2Proof.Machine

/-- Ticket causes (R174). -/
def cTktStale : Nat := 0x18
def cTktExpired : Nat := 0x19
def cTktWorld : Nat := 0x1A
def cTktPoison : Nat := 0x1B
def cTktForged : Nat := 0x1C

/-- The fields of a handle (R298). -/
def hdlSlice (h : Nat) : Nat := nfield h 58 5
def hdlKey (h : Nat) : Nat := hdlSlice h * 4096 + nfield h 46 12
def hdlGen (h : Nat) : Nat := nfield h 30 16
def hdlWorld (h : Nat) : Nat := nfield h 19 11
def hdlSize (h : Nat) : Nat := nfield h 15 4

/-- The tests of a handle that a core makes: VALID, SLICE, SIZE (R298, R304). -/
def coreForged (h : Nat) : Bool := nfield h 63 1 == 0 || 24 ≤ hdlSlice h || 8 ≤ hdlSize h

/-- The handle is forged (R298). -/
def forged (s : State) (h : Nat) : Bool := coreForged h || (Config.ticketCheck s.tktKey (h / 2 ^ 15)).toNat != nfield h 0 15

/-- The handle of a ticket (R298). -/
def handleOf (s : State) (key : Nat) (t : Ticket) : Nat :=
  let x := 2 ^ 48 + key / 4096 * 2 ^ 43 + key % 4096 * 2 ^ 31 + t.gen * 2 ^ 15 + t.world * 2 ^ 4 + t.k
  x * 2 ^ 15 + (Config.ticketCheck s.tktKey x).toNat

/-- A ticket entry; one never used is FREE in generation 1 (R297). -/
def ticketOf (s : State) (key : Nat) : Ticket := (Fm.get? s.tickets key).getD {}

/-- Put back a ticket entry. -/
def State.putTicket (s : State) (key : Nat) (t : Ticket) : State := { s with tickets := Fm.put s.tickets key t }

/-- The generation after one, skipping 0 (R299). -/
def nextGen (g : Nat) : Nat := if g == 65535 then 1 else g + 1

/-- A lease runs (R300). -/
def Ticket.leased (t : Ticket) : Bool := t.st == 1 || t.st == 2 || t.st == 3

/-- Every byte of the fetch has arrived. -/
def Ticket.full (t : Ticket) : Bool := t.got.length == 2 ^ t.k

/-- The orphan record (R301). -/
def orphanBytes (s : State) (key : Nat) (t : Ticket) : List Byte :=
  leBytes 8 (handleOf s key t) ++ leBytes 8 t.src ++ leBytes 8 t.expiry ++ leBytes 4 t.issuer ++
    leBytes 4 ((if t.st == 2 || t.st == 3 then 1 else 0) + if t.st == 3 then 2 else 0)

/-- The lapse of a lease, one step (R299, R301). -/
def lapse (s : State) (key : Nat) : State :=
  let t := ticketOf s key
  let h := handleOf s key t
  let slice := key / 4096
  let bump := { t with gen := nextGen t.gen }
  let s1 := { s with expired := Fm.put s.expired slice ((h / 2 ^ 15 :: Fm.getD s.expired slice []).take 64) }
  let s2 := s1.putTicket key (if t.st == 1 then { bump with st := 5 } else { gen := bump.gen })
  postOrphan (countUnit s2 (384 + slice) 35 [t.world]) t.world (orphanBytes s key t)

/-- The reading of a slice's die (R300). -/
def sliceDial (s : State) (slice : Nat) : Nat := dialOf s (slice / 3)

/-- A ticket takes its place among others in order of expiry. -/
def byExpiry (e : Nat × Ticket) : List (Nat × Ticket) → List (Nat × Ticket)
  | [] => [e]
  | x :: r => if e.2.expiry < x.2.expiry then e :: x :: r else x :: byExpiry e r

/-- The leases of a slice that its die's dial has reached lapse, in order of expiry, before anything else happens there (R300, R312). -/
def lapseDue (s : State) (slice : Nat) : State :=
  let due := s.tickets.filter fun e => e.1 / 4096 == slice && e.2.leased && e.2.expiry ≤ sliceDial s slice
  (due.foldl (fun l e => byExpiry e l) []).foldl (fun s e => lapse s e.1) s

/-- The STATE that TKQRY returns for a handle (R310). -/
def handleState (s : State) (h world : Nat) : Nat :=
  let t := ticketOf s (hdlKey h)
  if forged s h then 7
  else if hdlWorld h != world then 6
  else if t.gen == hdlGen h && t.leased then t.st
  else if (Fm.getD s.expired (hdlSlice h) []).contains (h / 2 ^ 15) then 4
  else 0

/-- The STATE code that TKQRY would return now (R305, R310). -/
def tktCode (s : State) (h world : Nat) : Nat :=
  if coreForged h then 7 else handleState (lapseDue s (hdlSlice h)) h world

/-- The cause of R304 for a STATE; none where the handle is current. -/
def stateCause (st : Nat) : Option Nat :=
  if st == 7 then some cTktForged
  else if st == 6 then some cTktWorld
  else if st == 4 then some cTktExpired
  else if st == 0 then some cTktStale
  else none

/-- The syndrome of a TKT cause (R305). -/
def tktSyn (st fn : Nat) (defer : Bool) (aux : Nat) : BitVec 56 :=
  BitVec.ofNat 56 (st + fn * 16 + (if defer then 128 else 0) + aux % 2 ^ 32 * 2 ^ 24)

/-- A ticket cause, in every issuing lane, with the handle in TRAPADDR (R304). -/
def tktTrap (s : State) (i : Iss) (fn cause st h : Nat) : State := groupFault s i cause h (tktSyn st fn false 0)

/-- Forms of the TKT instructions (R302). -/
def tkldForm (f : BitVec 4) : Form := { f := some f, off := true, md := .ticket }
def tkxtndForm (f : BitVec 4) : Form := { f := some f, md := .ticket, syn := tktSyn 0 3 false 0 }
def tktForm (fn : Nat) (f : BitVec 4) : Form := { f := some f, syn := tktSyn 0 fn false 0 }

/-- A lease in ticks: of the MOD hint, else 1 ms (R300). -/
def leaseOf (h : Hints) : Nat := if h.md.isSome then ticketLease h.memory.lease else 1000000

/-- A TKT instruction goes to its slice (R303). -/
def sendTkt (s : State) (i : Iss) (slice : Nat) (x : Instr) (va d o : Nat) (lru : Bool := false) : State :=
  awaitVerdict s i (slice / 3) (.ticket x va d o) lru

/-- The checks that every TKT instruction makes at issue (R302, R305, R346); `h` names the register of its handle. -/
def tktIssue (fn : Nat) (h : Option (BitVec 6)) (g : BitVec 4) (form : Form) (f : BitVec 4) (s : State) (go : Iss → State) : State :=
  match prelude s g form with
  | .error t => t
  | .ok i =>
    if i.act == 0 then finish s i i.g (some 3)
    else if flagFull i.g f then
      let st := (h.map fun r => tktCode s (readS s i.g r.toNat).toNat (worldOf s i.g)).getD 0
      trapFull s i f.toNat (tktSyn st fn false 0)
    else go i

/-- TKLD (R306): the checks of a load, then its home slice. -/
def execTkld (g : BitVec 4) (h a : BitVec 6) (k : BitVec 3) (f : BitVec 4) (s : State) : Host.Outcome State Fault Refusal :=
  .next (tktIssue 0 none g (tkldForm f) f s fun i =>
    let va := ((((readS s i.g a.toNat).toNat : Int) + i.g.hints.offset) % 2 ^ 64).toNat
    let n := 128 * 2 ^ k.toNat
    let die := i.g.core / 48
    let world := worldOf s i.g
    let extra (x : Xl) : List Nat := if x.transit && onlyExecutor x .ticket then [] else placeCauses x die .ticket
    if va % n != 0 then groupFault s i cMisaligned va
    else
      match checkVa s die world va n .ticket extra with
      | .error c => groupFault s i c va
      | .ok x =>
        if x.transit && onlyExecutor x .ticket then stall s i.gid
        else sendTkt (useWalks s i.g.core world false [va]) i (x.phys / 2 ^ 36) (.tkld g h a k f) va x.d x.o (nfield x.leaf.pte 26 1 == 1))

/-- The place that a TKRDM writes at (R308): the offset in its space, or for the die space in the scratchpad of the die. -/
def redeemPlace (s : State) (g : Group) (space o n : Nat) : Option Nat :=
  (scratchLoc s g space 0 o n).map fun l => match l with
    | .die _ off => off
    | _ => o

/-- TKRDM (R308): the destination and the core's tests of the handle. -/
def execTkrdm (g : BitVec 4) (h o : BitVec 6) (sp : BitVec 3) (f : BitVec 4) (s : State) : Host.Outcome State Fault Refusal :=
  .next (tktIssue 1 (some h) g (tktForm 1 f) f s fun i =>
    let hd := (readS s i.g h.toNat).toNat
    let off := (readS s i.g o.toNat).toNat % 2 ^ 32
    let st := tktCode s hd (worldOf s i.g)
    if off % 128 != 0 then groupFault s i cMisaligned off (tktSyn st 1 false 0)
    else if coreForged hd then tktTrap s i 1 cTktForged 7 hd
    else
      match redeemPlace s i.g sp.toNat off (128 * 2 ^ hdlSize hd) with
      | none => groupFault s i cPermission 0 (tktSyn st 1 false off) false
      | some p => sendTkt s i (hdlSlice hd) (.tkrdm g h o sp f) 0 0 p)

/-- TKDROP (R310). -/
def execTkdrop (g : BitVec 4) (h : BitVec 6) (f : BitVec 4) (s : State) : Host.Outcome State Fault Refusal :=
  .next (tktIssue 2 (some h) g (tktForm 2 f) f s fun i =>
    let hd := (readS s i.g h.toNat).toNat
    if coreForged hd then tktTrap s i 2 cTktForged 7 hd else sendTkt s i (hdlSlice hd) (.tkdrop g h f) 0 0 0)

/-- TKXTND (R310). -/
def execTkxtnd (g : BitVec 4) (h : BitVec 6) (f : BitVec 4) (s : State) : Host.Outcome State Fault Refusal :=
  .next (tktIssue 3 (some h) g (tkxtndForm f) f s fun i =>
    let hd := (readS s i.g h.toNat).toNat
    if coreForged hd then tktTrap s i 3 cTktForged 7 hd else sendTkt s i (hdlSlice hd) (.tkxtnd g h f) 0 0 0)

/-- A scalar result that needs no operation in flight. -/
def giveScalar (s : State) (i : Iss) (d : BitVec 6) (x : Nat) : State := finish s i (i.g.setS d.toNat (BitVec.ofNat 64 x)) (some 3)

/-- TKQRY (R310): the core answers for a handle that fails its tests. -/
def execTkqry (g : BitVec 4) (d h : BitVec 6) (f : BitVec 4) (s : State) : Host.Outcome State Fault Refusal :=
  .next (tktIssue 4 (some h) g (tktForm 4 f) f s fun i =>
    let hd := (readS s i.g h.toNat).toNat
    if coreForged hd then giveScalar s i d 7 else sendTkt s i (hdlSlice hd) (.tkqry g d h f) 0 0 0)

/-- Units of the data buffer of a slice that are taken (R297, R299). -/
def unitsUsed (s : State) (slice : Nat) : Nat :=
  s.tickets.foldl (fun n e => if e.1 / 4096 == slice && e.2.st != 0 then n + 2 ^ e.2.k else n) 0

/-- The FREE entries of a slice. -/
def freeTkts (s : State) (slice : Nat) : List Nat := (List.range 4096).filter fun e => (ticketOf s (slice * 4096 + e)).st == 0

/-- The operation of an accepted TKT instruction. -/
def tktOp (s : State) (i : Iss) (k : OpKind) : Op :=
  { group := some i.gid, team := i.g.team, world := worldOf s i.g, core := i.g.core, die := i.g.core / 48, pc := i.e.pc, word := i.g.word,
    lanes := i.lanes, cls := 0x40, kind := k }

/-- The verdict on a TKLD (R306). -/
def acceptTkld (s : State) (i : Iss) (h : BitVec 6) (k : BitVec 3) (f : BitVec 4) (va d o : Nat) (lru : Bool) : State :=
  let slice := physOf d o / 2 ^ 36
  let s := lapseDue s slice
  let free := freeTkts s slice
  if free.isEmpty || 65536 < unitsUsed s slice + 2 ^ k.toNat then giveScalar s i h 0
  else
    let key := slice * 4096 + (free[choose s 0 free.length]?).getD 0
    let (s, g, id) := startOp s i.g f (tktOp s i (.tkFetch key))
    let t : Ticket :=
      { st := 1, gen := (ticketOf s key).gen, world := worldOf s i.g, k := k.toNat, expiry := sliceDial s slice + leaseOf i.g.hints, src := va,
        issuer := i.g.core / 48 + i.g.core % 48 * 8 + i.g.index * 512, d := d, o := o, lru := lru, gid := i.gid, op := id }
    finish (s.putTicket key t) i (g.setS h.toNat (BitVec.ofNat 64 (handleOf s key t))) (some 3)

/-- The verdict on a TKRDM (R304, R308). -/
def acceptTkrdm (s : State) (i : Iss) (h : BitVec 6) (sp : BitVec 3) (f : BitVec 4) (p : Nat) : State :=
  let hd := (readS s i.g h.toNat).toNat
  let key := hdlKey hd
  let s := lapseDue s (hdlSlice hd)
  let st := handleState s hd (worldOf s i.g)
  match stateCause st with
  | some c => tktTrap s i 1 c st hd
  | none =>
    let t := ticketOf s key
    if st == 3 then tktTrap (s.putTicket key { gen := nextGen t.gen }) i 1 cTktPoison 3 hd
    else
      let (s, g, id) := startOp s i.g f (tktOp s i (.tkRedeem key))
      let r : Redeem := { op := id, gid := i.gid, space := sp.toNat, off := p, handle := BitVec.ofNat 64 hd }
      finish (s.putTicket key { t with st := 4, gen := nextGen t.gen, red := some r }) i g (some 3)

/-- The verdict on a TKDROP (R310). -/
def acceptTkdrop (s : State) (i : Iss) (h : BitVec 6) : State :=
  let hd := (readS s i.g h.toNat).toNat
  let key := hdlKey hd
  let s := lapseDue s (hdlSlice hd)
  let st := handleState s hd (worldOf s i.g)
  match stateCause st with
  | some c => tktTrap s i 2 c st hd
  | none =>
    let t := ticketOf s key
    let e : Ticket := if t.st == 1 then { t with st := 4, gen := nextGen t.gen } else { gen := nextGen t.gen }
    finish (s.putTicket key e) i (i.g.noteTimes 0x40 (sliceDial s (hdlSlice hd))) (some 3)

/-- The verdict on a TKXTND (R310). -/
def acceptTkxtnd (s : State) (i : Iss) (h : BitVec 6) : State :=
  let hd := (readS s i.g h.toNat).toNat
  let key := hdlKey hd
  let s := lapseDue s (hdlSlice hd)
  let st := handleState s hd (worldOf s i.g)
  match stateCause st with
  | some c => tktTrap s i 3 c st hd
  | none =>
    let t := ticketOf s key
    let e := { t with expiry := max t.expiry (sliceDial s (hdlSlice hd) + leaseOf i.g.hints) }
    finish (s.putTicket key e) i (i.g.noteTimes 0x40 (sliceDial s (hdlSlice hd))) (some 3)

/-- The status word of TKQRY (R310). -/
def ticketStatus (s : State) (h world : Nat) : Nat :=
  let st := handleState s h world
  let t := ticketOf s (hdlKey h)
  st + (if 1 ≤ st && st ≤ 4 then hdlSize h * 8 else 0) +
    if 1 ≤ st && st ≤ 3 then (t.expiry - sliceDial s (hdlSlice h)) / 1000 * 256 else 0

/-- The verdict on a TKQRY (R310). -/
def acceptTkqry (s : State) (i : Iss) (d h : BitVec 6) : State :=
  let hd := (readS s i.g h.toNat).toNat
  let s := lapseDue s (hdlSlice hd)
  giveScalar s i d (ticketStatus s hd (worldOf s i.g))

/-- TICKET_VERDICT (R303): the slice takes the instruction, in order of arrival (R312). -/
def execTicketVerdict (op : Nat) (s : State) : Host.Outcome State Fault Refusal :=
  match Fm.get? s.ops op with
  | none => .next s
  | some o =>
    if !arrives s op o || headWaits s o then .next s
    else
    match o.kind, o.group with
    | .ticket x va d p, some gid =>
      match x with
      | .tkld g h _ k f => .next (secondHalf s op gid g (tkldForm f) fun t i => .ok (acceptTkld t i h k f va d p o.lru))
      | .tkrdm g h _ sp f => .next (secondHalf s op gid g (tktForm 1 f) fun t i => .ok (acceptTkrdm t i h sp f p))
      | .tkdrop g h f => .next (secondHalf s op gid g (tktForm 2 f) fun t i => .ok (acceptTkdrop t i h))
      | .tkxtnd g h f => .next (secondHalf s op gid g (tkxtndForm f) fun t i => .ok (acceptTkxtnd t i h))
      | .tkqry g q h f => .next (secondHalf s op gid g (tktForm 4 f) fun t i => .ok (acceptTkqry t i q h))
      | _ => .next s
    | _, _ => .next s

/-- TICKET_POISON for a redeem that was accepted (R305, R308): every issuing lane takes it deferred, and the flag completes. -/
def redeemPoison (s : State) (r : Redeem) : State :=
  match Fm.get? s.ops r.op with
  | none => s
  | some o =>
    let s := match o.group with
      | none => s
      | some gid =>
        s.modGroup gid fun g =>
          let aux := (o.pc - codebaseOf s g).toNat
          let f : LaneFault := { cause := BitVec.ofNat 8 cTktPoison, addr := r.handle, word := o.word, syn := tktSyn 3 1 true aux }
          { g with deferred := g.deferred ++ ((List.range 64).filter fun l => o.lanes.getLsbD l).map fun l => { lane := l, f := f } }
    completeOp s r.op

/-- A fetch has ended: the entry takes its next state (R299, R308). -/
def fetchOver (s : State) (key : Nat) (t : Ticket) : State :=
  let s := completeOp s t.op
  if t.st == 1 then s.putTicket key { t with st := if t.bad then 3 else 2 }
  else if t.st == 5 then s.putTicket key { gen := t.gen }
  else
    match t.red with
    | none => s.putTicket key { gen := t.gen }
    | some r => if t.bad then (redeemPoison s r).putTicket key { gen := t.gen } else s.putTicket key t

/-- TICKET_FILL (R299, R307): a sector of a ticket's fetch is read at its point of coherence; the last one ends the fetch. -/
def execTicketFill (slice entry unit : Nat) (s : State) : Host.Outcome State Fault Refusal :=
  let key := slice * 4096 + entry
  let s1 := lapseDue s slice
  let t := ticketOf s1 key
  let busy := t.st == 1 || t.st == 4 || t.st == 5
  if !busy || 2 ^ t.k ≤ unit || (Fm.get? t.got unit).isSome then .next s1
  else
    let die := slice / 3
    let p := physOf t.d (t.o + 128 * unit)
    let q := readReq s1 die (secOf p) none t.lru
    if !q.ok then .next q.s
    else
      let bs := peekSec q.s die (encOf q.s t.d (t.o + 128 * unit)) (secOf p) (.engine t.gid t.op)
      let bad := poisonAt q.s die (secOf p)
      let t := { t with got := Fm.put t.got unit bs, bad := t.bad || bad }
      let s2 := noteTime (countSecs s1 q.s die [(secOf p, t.lru)]) t.op (sliceDial s1 slice)
      .next (if t.full then fetchOver s2 key t else s2.putTicket key t)

/-- Where unit `u` of a redeem is written now; none while its team holds no scratch (R308, R313). -/
def deliverAt (s : State) (die : Nat) (r : Redeem) (u : Nat) : Option Loc :=
  if r.space == 3 then some (.die die (r.off + 128 * u))
  else
    match Fm.get? s.groups r.gid with
    | none => none
    | some g =>
      match Fm.get? s.teams g.team with
      | none => none
      | some tm => if tm.phase == .running || tm.phase == .halting then scratchLoc s g r.space 0 (r.off + 128 * u) 128 else none

/-- TICKET_DELIVERY (R308, R313): the next 128 bytes of a redeemed ticket; the last unit completes the flag and frees the entry. -/
def execTicketDelivery (slice entry : Nat) (s : State) : Host.Outcome State Fault Refusal :=
  let key := slice * 4096 + entry
  let t := ticketOf s key
  match t.red with
  | none => .next s
  | some r =>
    if t.st != 4 || !t.full || t.bad then .next s
    else
      match Fm.get? s.ops r.op with
      | none => .next s
      | some o =>
        match deliverAt s o.die r t.done with
        | none => .next s
        | some l =>
          let s1 := noteTime (scratchWrite s o.world l (Fm.getD t.got t.done [])) r.op (dialOf s o.die)
          .next (if t.done + 1 == 2 ^ t.k then completeOp (s1.putTicket key { gen := t.gen }) r.op
            else s1.putTicket key { t with done := t.done + 1 })

/-- TICKET_LEASE_LAPSE (R300, R301): leases lapse in the order of their expiries. -/
def execTicketLeaseLapse (slice entry : Nat) (s : State) : Host.Outcome State Fault Refusal :=
  let key := slice * 4096 + entry
  let t := ticketOf s key
  let first := s.tickets.all fun e => e.1 / 4096 != slice || !e.2.leased || t.expiry ≤ e.2.expiry
  .next (if t.leased && t.expiry ≤ sliceDial s slice && first then lapse s key else s)

/-- World teardown makes every entry of the world FREE with its generation advanced, and forgets its lapsed handles (R314). -/
def dropTickets (s : State) (world : Nat) : State :=
  { s with
    tickets := Fm.mapVals s.tickets fun _ t => if t.st != 0 && t.world == world then { gen := nextGen t.gen } else t,
    expired := Fm.mapVals s.expired fun _ l => l.filter fun h => nfield h 4 11 != world }

end Sys2Proof.Machine
end

