-- ==== Sys2Proof/Machine/Auto.lean ====
section
/-! DEFINITION. What the part does next when the agenda names nothing (log entry 1): the steps that might be due, oldest
operation first. A step that is not due changes nothing. -/

namespace Sys2Proof.Machine

/-- Steps of an operation in flight that may be due. -/
def opEvents (id : Nat) (o : Op) : List Instr :=
  match o.kind with
  | .mem m => .placeQueueRelease id :: (List.range m.accs.length).flatMap fun u =>
      match m.k with
      | .ld => [.loadDataReturn id u]
      | .st => [.storeCompletion id u]
      | .lds | .sts => [.scratchAccessPerformed id u]
      | .atom | .atoms => [.atomicStep id u]
      | .resid => [.residApply id u]
  | .slotFill .. | .ring .. | .claimed .. => [.pushSlotFill id]
  | .copy c cur _ => [.copyExecution c, .engineSectorRelease id ((cur.map fun x => x.done).getD 0), .chainRecord c, .chainRecordWake c]
  | .place _ => [.placeQueueRelease id, .placePart id]
  | .mtx m => [.arrayOperation m.core m.unit, .matrixOperationCompletion id]
  | .verdict _ => [.saccVerdict id]
  | .ticket .. => [.ticketVerdict id]
  | .saEvict .. => [.saccVerdict id]
  | .saAdd .. => [.saaddApply id]
  | .saNorm .. => [.saTimeout id]
  | _ => []

/-- Steps of the groups that may be due. -/
def groupEvents (s : State) : List Instr :=
  s.groups.flatMap fun e => [.deferredFaultDelivery e.1, .groupEnd e.1, .fenceCompletion e.1, .migrLanding e.1]

/-- Invalidations, back-invalidations and their acknowledgements that are under way (R245, R246). -/
def dirEvents (s : State) : List Instr :=
  let dies (m : BitVec 8) : List Nat := (List.range 8).filter fun d => m.getLsbD d
  (s.owns.flatMap fun e => (dies e.2.left).map (fun d => Instr.invalidation d e.1) ++
      e.2.flying.map fun a => .invalidationAck a.1 e.1) ++
    s.backs.flatMap fun b => (dies b.dies).flatMap fun d => [.backInvalidation d b.line, .backInvalidationAck d b.line]

/-- Fetches, deliveries and lapses of tickets (R299 to R301, R308). -/
def ticketEvents (s : State) : List Instr :=
  s.tickets.flatMap fun e =>
    if e.2.st == 0 then []
    else .ticketLeaseLapse (e.1 / 4096) (e.1 % 4096) :: .ticketDelivery (e.1 / 4096) (e.1 % 4096) ::
      (List.range (2 ^ e.2.k)).map fun u => .ticketFill (e.1 / 4096) (e.1 % 4096) u

/-- Commands, replays and placements that may be due (R335 to R340, R349, R391, R396). -/
def queueEvents (s : State) : List Instr :=
  (s.queues.flatMap fun e => [.launch e.1, .replay e.1, .transfer e.1, .graphLoad e.1, .graphUnload e.1, .sliceKernelCommand e.1 none]) ++
    (dedup (s.ops.filterMap fun e => match e.2.kind with
      | .graphReq .. => some e.2.world
      | _ => none)).map (fun w => .replay (8192 + w)) ++
    (s.graphs.filter fun e => !e.2.queue.isEmpty).map (fun e => .replayDequeue e.1) ++
    (s.replays.flatMap fun e =>
      [.kernelNode e.1, .copyNode e.1, .condNode e.1, .loopNode e.1, .waitNode e.1, .waitNodeSatisfied e.1, .signalNode e.1] ++
        (dedup (e.2.async.map fun a => a.2.1)).map fun n => .asyncNodeCompletion e.1 n) ++
    (dedup (s.pends.map fun p => p.die)).map fun d => .teamPlacement d

/-- Restores, watchdogs, service calls, messages between instances and posted writes that may be due (R353, R378, R379, R392,
R394, R395). -/
def teamEvents (s : State) : List Instr :=
  (s.teams.flatMap fun e => [.restoreGrant e.1, .heartbeatExpiry e.1, .runtimeLimitExpiry e.1]) ++ s.calls.map (fun e => .serviceCall e.1) ++
    (dedup (s.kmsgs.map fun m => m.to_)).map (fun n => .sliceKernelStore ⟨.serve n, none⟩) ++
    s.posted.map fun p => .bar2Write p.port p.fn p.off ⟨.stream, p.cxl⟩ p.bytes

/-- Drains that may be due, and the requests that stand first at the directory (R191, R244). -/
def memEvents (s : State) : List Instr :=
  (s.wcb.map fun e => .wcbDrain e.1) ++ s.dirq.flatMap fun e =>
    ((turns s e.1).take 1).map fun q => if q.2 then .ownRequest q.1 e.1 else .readRequest q.1 e.1

/-- Saves that may be due, of the highest rank of the internal activities (R355, R375). -/
def saveEvents (s : State) : List Instr := s.teams.map fun e => .contextSave e.1

/-- PLSYNCs that may be over (R291, R355). -/
def syncEvents (s : State) : List Instr :=
  s.ops.filterMap fun e => match e.2.kind with
    | .plsync _ => some (.plsyncCompletion e.1)
    | _ => none

/-- The next slice of a live switch changes its version when it can (R366). -/
def switchEvents (s : State) : List Instr :=
  (((List.range 24).filter fun k => Fm.getD s.versions k 0 != s.version).take 1).map fun k => .sliceVersionSwitch k s.version

/-- The rank of an internal activity (R355); a step of any other kind has none. -/
def rankOf : Instr → Option Nat
  | .contextSave _ => some 1
  | .refresh .. => some 2
  | .scrub .. => some 3
  | .dictionaryResync .. => some 4
  | .plsyncCompletion _ => some 5
  | .layerCopy _ => some 6
  | .performanceSampling _ => some 7
  | _ => none

/-- Steps of activities ranked above an activity that may be due (R355); none for a step that is no such activity. -/
def aboveEvents (s : State) (i : Instr) : List Instr :=
  match rankOf i with
  | none => []
  | some r => (if 1 < r then saveEvents s else []) ++ if 5 < r then syncEvents s else []

/-- Every step that may be due; internal activities keep the order of their ranks (R355). Layer copies and performance sampling, the last two, have
their place at the end of a tick. -/
def dueEvents (s : State) : List Instr :=
  saveEvents s ++ syncEvents s ++ groupEvents s ++ dirEvents s ++ ticketEvents s ++ (s.ops.flatMap fun e => opEvents e.1 e.2) ++ queueEvents s ++
    teamEvents s ++ switchEvents s ++ memEvents s

end Sys2Proof.Machine
end

