-- ==== Sys2Proof/Machine/Sha.lean ====
section
/-! DEFINITION. SHA-384, which spec/18 R357 and R363 and spec/16 R342 name: the standard's function (FIPS 180-4; log entry 8). Its
constants are the leading bits of the fractional parts of roots of primes. -/

namespace Sys2Proof.Machine

/-- A 64-bit word of the hash. -/
abbrev HWord := BitVec 64

/-- `n` is prime: no smaller number above 1 divides it. -/
def isPrime (n : Nat) : Bool := 2 ≤ n && (List.range (n - 2)).all fun k => n % (k + 2) != 0

/-- The primes below 410: the first 80. -/
def primes80 : List Nat := (List.range 410).filter isPrime

/-- The largest number of at most `b` bits whose `k`-th power is at most `x`. -/
def rootDown (k x : Nat) : Nat → Nat
  | 0 => 0
  | b + 1 =>
    let hi := rootDown k (x / 2 ^ k) b
    if (2 * hi + 1) ^ k ≤ x then 2 * hi + 1 else 2 * hi

/-- The first 64 bits of the fractional part of the `k`-th root of `p`. -/
def rootBits (k p : Nat) : HWord := BitVec.ofNat 64 (rootDown k (p * 2 ^ (64 * k)) 72)

/-- The 80 round constants. -/
def shaK : List HWord := primes80.map (rootBits 3)

/-- The initial hash value of SHA-384. -/
def shaInit : List HWord := ((primes80.drop 8).take 8).map (rootBits 2)

/-- Rotate right. -/
def ror (x : HWord) (n : Nat) : HWord := x.rotateRight n

/-- A message padded to whole blocks: a one bit, zeros, and the length in 16 bytes, the highest first. -/
def shaPad (m : List Byte) : List Byte :=
  let z := (239 - m.length % 128) % 128
  m ++ 0x80 :: List.replicate z 0 ++ (leBytes 16 (8 * m.length)).reverse

/-- The message schedule, the newest word first. -/
def shaSchedule : Nat → List HWord → List HWord
  | 0, w => w
  | n + 1, w =>
    let g (k : Nat) : HWord := (w[k - 1]?).getD 0
    let s0 := ror (g 15) 1 ^^^ ror (g 15) 8 ^^^ (g 15 >>> 7)
    let s1 := ror (g 2) 19 ^^^ ror (g 2) 61 ^^^ (g 2 >>> 6)
    shaSchedule n ((g 16 + s0 + g 7 + s1) :: w)

/-- One round. -/
def shaRound (v : List HWord) (kw : HWord × HWord) : List HWord :=
  match v with
  | [a, b, c, d, e, f, g, h] =>
    let s1 := ror e 14 ^^^ ror e 18 ^^^ ror e 41
    let ch := (e &&& f) ^^^ (~~~ e &&& g)
    let t1 := h + s1 + ch + kw.1 + kw.2
    let s0 := ror a 28 ^^^ ror a 34 ^^^ ror a 39
    let mj := (a &&& b) ^^^ (a &&& c) ^^^ (b &&& c)
    [t1 + (s0 + mj), a, b, c, d + t1, e, f, g]
  | _ => v

/-- One block of 128 bytes. -/
def shaBlock (h : List HWord) (blk : List Byte) : List HWord :=
  let w0 := (List.range 16).map fun i => BitVec.ofNat 64 (leNat ((blk.drop (8 * i)).take 8).reverse)
  let w := (shaSchedule 64 w0.reverse).reverse
  ((h.zip ((shaK.zip w).foldl shaRound h)).map fun p => p.1 + p.2)

/-- All blocks. -/
def shaBlocks : Nat → List HWord → List Byte → List HWord
  | 0, h, _ => h
  | n + 1, h, m => shaBlocks n (shaBlock h (m.take 128)) (m.drop 128)

/-- The digest's bytes, in the standard's order. -/
def sha384Bytes (m : List Byte) : List Byte :=
  let p := shaPad m
  ((shaBlocks (p.length / 128) shaInit p).take 6).flatMap fun w => (leBytes 8 w.toNat).reverse

/-- The digest as a number whose first byte is the highest. -/
def sha384 (m : List Byte) : BitVec 384 := BitVec.ofNat 384 (leNat (sha384Bytes m).reverse)

/-- The bytes of a digest, the first one the highest of the number. -/
def digestBytes (d : BitVec 384) : List Byte := (leBytes 48 d.toNat).reverse

/-- MR ← SHA-384(MR ∥ value) (R363). -/
def extendMr (mr : BitVec 384) (value : List Byte) : BitVec 384 := sha384 (digestBytes mr ++ value)

end Sys2Proof.Machine
end

