-- ==== Sys2Proof/Machine/Team.lean ====
section
/-! DEFINITION. Launch descriptors, what a team reserves, and the dispatchers (spec/02 R23 to R26, spec/08 R143, spec/16 R335, spec/17
R349). -/

namespace Sys2Proof.Machine

/-- The lowest canonical form of a 64-bit address of code. -/
def pcOf (va : Nat) : Pc := BitVec.ofNat 57 va

/-- A launch descriptor from its 256 bytes; none where it breaks a limit (R335). Sizes are in bytes, LIMIT in ticks (R353). An initial KWIN with
one of R110's reserved bits set breaks its limit, where R7 and R335 would also let those bits be ignored (DESIGN CHOICE, log entry 28). -/
def parseDesc (b : List Byte) : Option Desc :=
  let w (o n : Nat) : Nat := leNat ((b.drop o).take n)
  let codebase := w 0 8
  let flags := w 15 1
  let cluster := flags % 2 == 1
  let persistent := flags / 2 % 2 == 1
  let groups := w 20 1
  let producers := w 21 1
  let budgetOk (x n : Nat) : Bool := if n == 0 then x == 0 else x % 2 == 0 && 8 ≤ x && x ≤ 60
  let banks := (List.range 16).map fun k => w (64 + 8 * k) 8
  let us := w 48 8
  let ok := codebase % 4 == 0 && w 8 4 % 4 == 0 && w 12 1 ≤ 62 && w 13 1 < 4 && w 14 1 != 0 && flags < 8 &&
    1 ≤ groups && groups ≤ (if cluster then 128 else 16) && producers ≤ groups && budgetOk (w 22 1) producers &&
    budgetOk (w 23 1) (groups - producers) && w 24 1 ≤ 4 && w 25 1 ≤ 16 && w 26 1 ≤ 8 && w 27 1 ≤ 32 && (cluster || w 30 2 == 0) &&
    w 32 8 % 4 == 0 && w 40 2 < 4096 && w 46 2 == 0 && w 56 8 == 0 && (banks.all fun x => x % 65536 == 0) && w 192 64 == 0
  if !ok then none
  else
    some { codebase := codebase, entry := w 8 4, entryPrio := w 12 1, level := w 13 1, dies := w 14 1, cluster := cluster,
           persistent := persistent, crack := flags / 4 == 1, teams := w 16 4 + 1, groups := groups, producers := producers,
           budgetP := w 22 1, budgetC := w 23 1, arrays := w 24 1, tiles := w 25 1, cvs := w 26 1, lanePriv := 64 * w 27 1,
           coreScr := 4096 * w 28 2, clWin := 4096 * w 30 2, trapvec := w 32 8, kwin := w 40 2, dsBase := 0, dsSize := 0,
           limit := if persistent && us == 0 then 100000000 else us * 1000, banks := banks }

/-- The dies that receive teams, ascending (R335). -/
def Desc.dieList (d : Desc) : List Nat := (List.range 8).filter fun k => d.dies / 2 ^ k % 2 == 1

/-- The register budget of a group (R24). -/
def Desc.budget (d : Desc) (g : Nat) : Nat := if g < d.producers then d.budgetP else d.budgetC

/-- The groups of a team on the `j`-th core of its cluster, or on its one core (R23). -/
def Desc.groupsOn (d : Desc) (j : Nat) : List Nat := (List.range d.groups).filter fun g => !d.cluster || g % 8 == j

/-- What a team takes on one core: slots, bytes of register file, bytes of scratchpad, arrays (R25, R143). -/
structure Need where
  slots  : Nat
  regs   : Nat
  scr    : Nat
  arrays : Nat
  deriving DecidableEq, Repr

/-- Bytes of scratchpad that back tiles on a core (R143). -/
def backing (tiles arrays : Nat) : Nat := (tiles - 4) * 16384 * arrays

/-- What a team takes on its `j`-th core for the groups that stand there: `run` need a slot, `regs` register space (R25). -/
def Desc.need (d : Desc) (j : Nat) (run regs : Nat → Bool) : Need :=
  let gs := d.groupsOn j
  let win := if d.cluster then d.clWin else 0
  if gs.isEmpty then { slots := 0, regs := 0, scr := win, arrays := 0 }
  else
    { slots := (gs.filter run).length, regs := (gs.filter regs).foldl (fun n g => n + 256 * d.budget g) 0,
      scr := d.coreScr + d.lanePriv * 64 * gs.length + win + backing d.tiles d.arrays, arrays := d.arrays }

/-- The grants on a core. -/
def placesOn (s : State) (core : Nat) : List (Team × Place) :=
  s.teams.filterMap fun e => if holding e.2 then (Fm.get? e.2.places core).map fun p => (e.2, p) else none

/-- What is taken on a core. -/
def usedOn (s : State) (core : Nat) : Need :=
  let ps := placesOn s core
  { slots := (s.groups.filter fun e => e.2.core == core && !e.2.landed && holdsSlot s e.2).length,
    regs := ps.foldl (fun n p => n + p.2.regs) 0,
    scr := ps.foldl (fun n p => n + p.2.scrLen + p.2.lpLen + p.2.clLen + backing p.1.d.tiles p.2.arrays.length) 0,
    arrays := ps.foldl (fun n p => n + p.2.arrays.length) 0 }

/-- A need fits beside what is taken (R25: 32 slots, 482 KiB of registers, 512 KiB of scratchpad, 4 arrays). -/
def Need.fits (n used : Need) : Bool :=
  n.slots + used.slots ≤ 32 && n.regs + used.regs ≤ 482 * 1024 && n.scr + used.scr ≤ 512 * 1024 && n.arrays + used.arrays ≤ 4

/-- The cores of a team placed at core `c`: that one, or the eight of its cluster (R23). -/
def Desc.cores (d : Desc) (c : Nat) : List (Nat × Nat) := if d.cluster then (List.range 8).map fun j => (j, c + j) else [(0, c)]

/-- The lowest core or cluster of a die where a team fits (R349). -/
def findSpot (s : State) (d : Desc) (die : Nat) (run regs : Nat → Bool) : Option Nat :=
  (List.range 48).findSome? fun k =>
    let c := die * 48 + k
    if d.cluster && k % 8 != 0 then none
    else if (d.cores c).all fun p => (d.need p.1 run regs).fits (usedOn s p.2) then some c
    else none

/-- A reservation that no empty core or cluster can meet (R26). -/
def neverFits (d : Desc) : Bool :=
  !(d.cores 0).all fun p => (d.need p.1 (fun _ => true) fun _ => true).fits { slots := 0, regs := 0, scr := 0, arrays := 0 }

/-- The end of a grant's places. -/
def Place.fin (p : Place) : Nat := max (p.scr + p.scrLen) (max (p.lp + p.lpLen) (p.cl + p.clLen))

/-- Where the next grant on a core begins: above every place that a team holds or has saved. -/
def nextBase (s : State) (core : Nat) : Nat :=
  s.teams.foldl (fun n e => match Fm.get? e.2.places core with
    | some p => max n p.fin
    | none => n) 0

/-- The free arrays of a core, ascending. -/
def freeArrays (s : State) (core : Nat) : List Nat :=
  let taken := (placesOn s core).flatMap fun p => p.2.arrays
  (List.range 4).filter fun a => !taken.contains a

/-- The grant of a team on one core (R25). -/
def newPlace (s : State) (d : Desc) (core j : Nat) (regs : Nat → Bool) : Place :=
  let gs := d.groupsOn j
  let b := nextBase s core
  let scr := if gs.isEmpty then 0 else d.coreScr
  let lp := d.lanePriv * 64 * gs.length
  let n := d.need j regs regs
  { scr := b, scrLen := scr, lp := b + scr, lpLen := lp, cl := b + scr + lp, clLen := if d.cluster then d.clWin else 0,
    arrays := (freeArrays s core).take n.arrays, regs := n.regs }

/-- The grants of a team placed at core `c`. -/
def newPlaces (s : State) (d : Desc) (c : Nat) (regs : Nat → Bool) : Fm Place :=
  (d.cores c).foldl (fun m p =>
    let q := newPlace s d p.2 p.1 regs
    if (d.groupsOn p.1).isEmpty && q.clLen == 0 then m else Fm.put m p.2 q) []

/-- The core of group `g` of a team placed at core `c` (R23). -/
def Desc.coreOf (d : Desc) (c g : Nat) : Nat := if d.cluster then c + g % 8 else c

/-- The lowest free slot of a core (R349). -/
def freeSlot (s : State) (core : Nat) : Nat :=
  ((List.range 32).find? fun k => !s.groups.any fun e => e.2.core == core && e.2.slot == k && holdsSlot s e.2).getD 0

/-- A group at its grant (R349 stage 5). -/
def newGroup (s : State) (d : Desc) (team c g : Nat) : Group :=
  let core := d.coreOf c g
  let pc := pcOf (d.codebase + d.entry)
  let prio := BitVec.ofNat 6 d.entryPrio
  { team := team, index := g, core := core, slot := freeSlot s core, budget := d.budget g,
    lanes := lanesOf fun _ => { pc := pc, prio := prio }, ents := [{ pc := pc, prio := prio }], crack := d.crack,
    trapvec := if d.trapvec == 0 then 0 else BitVec.ofNat 64 ((d.codebase + d.trapvec) % 2 ^ 57 / 4 * 4), kwin := BitVec.ofNat 64 d.kwin }

/-- The numbers of the arrays of some grants, in order. -/
def placeArrays (ps : Fm Place) : List Nat := ps.flatMap fun e => e.2.arrays.map fun a => e.1 * 8 + a

/-- Arrays are zeroed at a grant: planes of zeros of type BF16, dense, and tiles of zeros; the sparse row count stays (R106, R142, DEDUCED, log
entry 23). -/
def zeroArrays (s : State) (ns : List Nat) : State :=
  { s with arrays := ns.foldl (fun m n => Fm.mod m n fun a => { a with act := {}, shd := {}, tiles := [] }) s.arrays }

/-- A team is granted: its reservation is zeroed, its groups take their slots (R25, R349). -/
def grantTeam (s : State) (p : Pend) (c : Nat) : State :=
  let id := s.nextOp
  let t : Team :=
    { world := p.world, index := p.next, grid := p.grid, die := p.die, d := p.d, places := newPlaces s p.d c fun _ => true,
      timer := if p.d.persistent then p.d.limit else 0 }
  let cores := (p.d.cores c).map fun x => x.2
  let s := { s with ccache := s.ccache.filter (fun x => !cores.contains x.core), coreScr := clearPlaces s.coreScr t.places }
  let s := zeroArrays { s with teams := Fm.put s.teams id t, nextOp := id + 1 } (placeArrays t.places)
  (List.range p.d.groups).foldl (fun s g =>
    { s with groups := Fm.put s.groups s.nextOp (newGroup s p.d id c g), nextOp := s.nextOp + 1 }) s

/-- The level of the most urgent team that waits to be granted again on a die (R378). -/
def restoreLevel (s : State) (die : Nat) : Nat :=
  s.teams.foldl (fun n e => if e.2.phase == .restoring && e.2.die == die then min n e.2.d.level else n) 4

/-- The head team of the most urgent level that a die's dispatcher holds (R26, R349). -/
def headPend (s : State) (die : Nat) : Option Pend :=
  leastBy (fun p : Pend => p.d.level) (s.pends.filter fun p => p.die == die)

/-- TEAM_PLACEMENT (R26, R349): the head team of the most urgent level is placed on the lowest core or cluster where it fits. -/
def execTeamPlacement (die : Nat) (s : State) : Host.Outcome State Fault Refusal :=
  match headPend s die with
  | none => .next s
  | some p =>
    let begun := match Fm.get? s.grids p.grid with
      | some g => started s g.queue g.seq
      | none => false
    if !begun || restoreLevel s die ≤ p.d.level then .next s
    else
      match findSpot s p.d die (fun _ => true) fun _ => true with
      | none => .next s
      | some c =>
        let s1 := grantTeam s p c
        let q := { p with next := p.next + p.step }
        .next { s1 with pends := if q.next < p.d.teams then s1.pends.map (fun x => if x = p then q else x) else s1.pends.filter fun x => x ≠ p }

/-- A die's copy of a launch descriptor, with the world's window on it in units of 64 KiB (R184, R335). -/
def dieCopy (s : State) (world die : Nat) (d : Desc) : Desc :=
  match (Fm.get? s.worlds world).bind fun w => Fm.get? w.windows die with
  | some (b, n) => { d with dsBase := b / 65536, dsSize := n / 65536 }
  | none => { d with dsBase := 0, dsSize := 0 }

/-- A grid starts: its teams go to the level queues of its dies (R335, R349). -/
def startGrid (s : State) (world queue seq : Nat) (node : Option Nat) (d : Desc) : State × Nat :=
  let id := s.nextOp
  let g : Grid := { world := world, queue := queue, seq := seq, left := d.teams, node := node }
  let ds := d.dieList
  let pend (k : Nat) : Option Pend :=
    match ds[k]? with
    | some die => if k < d.teams then some { grid := id, die := die, world := world, d := dieCopy s world die d, next := k, step := ds.length } else none
    | none => none
  ({ s with grids := Fm.put s.grids id g, nextOp := id + 1, pends := s.pends ++ (List.range ds.length).filterMap pend }, id)

end Sys2Proof.Machine
end

