-- ==== Sys2Proof/Machine/Cmd.lean ====
section
/-! DEFINITION. Command queues: LAUNCH, TRANSFER, GRAPH_LOAD, GRAPH_UNLOAD, slice-kernel commands (spec/16 R335, R336, R342, R343; spec/20
R391, R396). A queue is named by host port × 2048 + world, 4096 + slice for a service core, 8192 + world for GRAPH requests. -/

namespace Sys2Proof.Machine

/-- Journal statuses (R342). -/
def jDone : Nat := 1
def jDesc : Nat := 2
def jFit : Nat := 3
def jGraph : Nat := 4
def jFull : Nat := 5
def jFault : Nat := 6
def jAborted : Nat := 7

/-- Bytes of a buffer from an offset on, as the coherent memory holds them now. -/
def bufBytes (s : State) (buf off n : Nat) : List Byte :=
  peekBuf s (descOf s buf) off n homeDie

/-- Bytes of a world's memory, page by page, or the lowest cause. -/
def worldBytes (s : State) (die world va n : Nat) (a : Access := .load) : Except Nat (List Byte) :=
  let go (acc : Except Nat (List Byte)) (p : Nat × Nat) : Except Nat (List Byte) :=
    match acc, readVa s die world p.1 p.2 a with
    | .ok x, .ok y => .ok (x ++ y)
    | .error c, .error e => .error (min c e)
    | .error c, _ => .error c
    | _, .error e => .error e
  (pagePieces (n / 65536 + 2) va n).foldl go (.ok [])

/-- An engine owns a sector of a range of a world's memory: a read of it waits for the release (R250). -/
def worldMarked (s : State) (die world va n : Nat) : Bool := (pagePieces (n / 65536 + 2) va n).any fun p => vaMarked s die world p.1 p.2

/-- A write of a buffer range at the sectors' homes, by an agent that is no lane; the latest visibility time comes back (R228). -/
def writeBuf (s : State) (buf off : Nat) (bs : List Byte) : Reply := writeRange s (descOf s buf) off bs homeDie 0 0

/-- A tail count is written: one that goes backwards, or that runs more than SLOTS ahead of the commands taken, is ignored (R391). -/
def setTail (s : State) (q : Nat) (tail : BitVec 64) : State :=
  { s with queues := Fm.mod s.queues q fun x =>
    if x.tail ≤ tail.toNat && tail.toNat ≤ x.taken + x.slots then { x with tail := tail.toNat } else x }

/-- A command at the head of a queue: its KIND, the world it acts for, its bytes. -/
structure Cmd where
  kind  : Nat
  world : Nat
  b     : List Byte
  deriving DecidableEq, Repr

/-- A field of a command. -/
def Cmd.w (c : Cmd) (o n : Nat) : Nat := leNat ((c.b.drop o).take n)

/-- A world lives: its record stands and its key is ACTIVE (R359, R396). -/
def worldLive (s : State) (w : Nat) : Bool :=
  (Fm.get? s.worlds w).isSome && (match Fm.get? s.keys w with
    | some k => k.st == 1
    | none => false)

/-- The command at the head of a queue, once the journal has room for it (R343, R391, R396). -/
def nextCmd (s : State) (q : Nat) : Option Cmd :=
  match Fm.get? s.queues q with
  | none => none
  | some x =>
    if s.stopped.isSome || x.tail == x.taken || x.slots == 0 || !journalRoom s q then none
    else
      let off := x.taken % x.slots * 64
      if !(portCauses (descOf s x.buf) x.world off 64 .load).isEmpty || nfield (descOf s x.buf) 5 3 != 0 || bufMarked s (descOf s x.buf) off 64 then
        none
      else
        let b := bufBytes s x.buf off 64
        let w := if isService q then leNat ((b.drop 1).take 2) else x.world
        some { kind := leNat (b.take 1), world := w, b := b }

/-- The head of a queue has been taken. -/
def takeCmd (s : State) (q : Nat) : State := { s with queues := Fm.mod s.queues q fun x => { x with taken := x.taken + 1 } }

/-- A command is accepted, or refused with a status: its journal entry is written (R342). -/
def acceptCmd (s : State) (q kind status : Nat) (c : Cmd) : State × Nat :=
  journalAccept (takeCmd s q) q kind status 0 (sha384Bytes c.b)

/-- A command is refused (R342). -/
def refuseCmd (s : State) (q kind status : Nat) (c : Cmd) : State := (acceptCmd s q kind status c).1

/-- The die that reads for a queue. -/
def cmdDie (q : Nat) : Nat := if isService q then (q - 4096) / 3 else 0

/-- The zero fields of every command (R391, R396), and a world that the queue may act for. -/
def cmdOk (s : State) (q : Nat) (c : Cmd) : Bool :=
  worldLive s c.world && c.w 32 32 == 0 && (if isService q then c.w 3 5 == 0 && c.world % 24 == q - 4096 else c.w 1 7 == 0)

/-- KIND values that a queue accepts (R391, R396). -/
def kindOk (q kind : Nat) : Bool := if isService q then 1 ≤ kind && kind ≤ 5 else (1 ≤ kind && kind ≤ 3) || (kind == 6 && q % 2048 == 0)

/-- LAUNCH (R335, R391, R396): the descriptor is copied and checked, and the grid's teams are spread; a KIND that the queue does not
accept is refused here. -/
def execLaunch (queue : Nat) (s : State) : Host.Outcome State Fault Refusal :=
  match nextCmd s queue with
  | none => .next s
  | some c =>
    if !kindOk queue c.kind then .next (refuseCmd s queue 6 jDesc c)
    else if c.kind != 1 then .next s
    else if !cmdOk s queue c || c.world == 0 || (isService queue && (c.w 16 8 != 0 || c.w 24 8 != 0)) then .next (refuseCmd s queue 1 jDesc c)
    else if worldMarked s (cmdDie queue) c.world (c.w 8 8) 256 then .next s
    else
      match worldBytes s (cmdDie queue) c.world (c.w 8 8) 256 with
      | .error _ => .next (refuseCmd s queue 1 jDesc c)
      | .ok b =>
        match parseDesc b with
        | none => .next (refuseCmd s queue 1 jDesc c)
        | some d =>
          if neverFits d then .next (refuseCmd s queue 1 jFit c)
          else
            let (s, seq) := acceptCmd s queue 1 0 c
            .next (startGrid s c.world queue seq none d).1

/-- A TRANSFER's side (R391): bit 63 marks a host address. -/
def isHostAddr (a : Nat) : Bool := 2 ^ 63 ≤ a

/-- The shape of a TRANSFER: one row of bytes. -/
def rowShape (n : Nat) : Shape := { e := 1, rows := 1, cols := n, pitch := n, sm := false, dm := false, ss := 0, ds := 0 }

/-- The home die of a side's first byte. -/
def Side.home (x : Side) : Nat :=
  match x.loc 0 with
  | .mem p => homeDie (secOf p)
  | _ => 0

/-- TRANSFER (R391): a copy on die channel 1 of the die that homes the first device byte; it waits where a copy's side would (R289). -/
def execTransfer (queue : Nat) (s : State) : Host.Outcome State Fault Refusal :=
  match nextCmd s queue with
  | none => .next s
  | some c =>
    if c.kind != 3 || !kindOk queue 3 then .next s
    else
      let src := c.w 8 8
      let dst := c.w 16 8
      let n := c.w 24 8
      if !cmdOk s queue c || n % 128 != 0 || (isHostAddr src && isHostAddr dst) then .next (refuseCmd s queue 3 jDesc c)
      else
        let die := cmdDie queue
        let sh := rowShape n
        let a := if isHostAddr src then SideRes.ok (.host (src - 2 ^ 63)) [] else checkSide s none die c.world src sh false
        let b := if isHostAddr dst then SideRes.ok (.host (dst - 2 ^ 63)) [] else checkSide s none die c.world dst sh true
        let (t, seq) := acceptCmd s queue 3 0 c
        let fail (cause : Nat) : State := journalFinal t queue seq jFault cause 0 none
        if (isHostAddr src || isHostAddr dst) && !tdiRuns s queue c.world then .next (fail 0)
        else if n == 0 then .next (journalFinal t queue seq jDone 0 0 none)
        else
          match a, b with
          | .bad x .., .bad y .. => .next (fail (min x y))
          | .bad x .., _ => .next (fail x)
          | _, .bad y .. => .next (fail y)
          | .ok x rd, .ok y wr =>
            let home := if isHostAddr src then y.home else x.home
            let t := useWalks (useWalks t (home * 48) c.world false rd) (home * 48) c.world true wr
            let chan := dieChan home 1
            let (t, id) := newOp t { group := none, world := c.world, core := home * 48, die := home, chan := some chan,
                                     kind := .copy chan (some { src := x, dst := y, sh := sh }) none }
            .next { joinChan t chan id with cmds := Fm.put t.cmds id (queue, seq) }
          | _, _ => .next s

/-- A field of a byte list. -/
def bField (b : List Byte) (o n : Nat) : Nat := leNat ((b.drop o).take n)

/-- A node within its limits (R337). -/
def nodeOk (n : List Byte) : Bool :=
  let ty := bField n 0 1
  let tail (o : Nat) : Bool := bField n o (64 - o) == 0
  bField n 1 1 < 64 && bField n 6 2 == 0 && ty ≤ 5 &&
    (match ty with
      | 0 => tail 16
      | 1 => bField n 32 1 ≤ 7 && tail 33
      | 2 => tail 32
      | 3 => tail 12
      | 4 => bField n 8 1 ≤ 2 && bField n 9 7 == 0 && tail 40
      | _ => bField n 24 1 ≤ 1 && tail 25)

/-- A graph from its image; none where the image breaks R336 or R337. -/
def parseGraph (world : Nat) (b : List Byte) : Option Graph :=
  let n := bField b 0 2
  let block := bField b 6 2
  let nodes := (List.range n).map fun i => (b.drop (64 + 64 * i)).take 64
  if b.length < 64 || n == 0 || 256 < n || 1 < bField b 2 2 || n ≤ bField b 4 2 || 4096 < block || block % 256 != 0 || bField b 8 56 != 0 ||
      b.length != 64 + 64 * n + block || !(nodes.all nodeOk) then none
  else some { world := world, reentrant := bField b 2 1 == 1, start := bField b 4 2, nodes := nodes, block := b.drop (64 + 64 * n) }

/-- A load or an unload of a graph waits. -/
def graphLoading (s : State) (n : Nat) : Bool := s.loads.any fun e => e.2.n == n

/-- A graph has replays running or queued, or changes. -/
def graphBusy (s : State) (n : Nat) : Bool :=
  graphLoading s n || (s.replays.any fun e => e.2.graph == n) || (match Fm.get? s.graphs n with
    | some g => !g.queue.isEmpty
    | none => false)

/-- A queue's load or unload takes effect once its journal entry has reached its visibility time (R343). -/
def settleLoad (s : State) (queue : Nat) : State :=
  match Fm.get? s.loads queue with
  | none => s
  | some l =>
    if !started s queue l.seq then s
    else
      let graphs := match l.graph with
        | some g => Fm.put s.graphs l.n g
        | none => Fm.del s.graphs l.n
      journalFinal { s with graphs := graphs, loads := Fm.del s.loads queue } queue l.seq jDone 0 0 none

/-- The head command of a queue, for the commands that load and unload graphs: none while an earlier one waits. -/
def nextLoad (s : State) (queue : Nat) : Option Cmd := if (Fm.get? s.loads queue).isSome then none else nextCmd s queue

/-- GRAPH_LOAD (R336, R396). -/
def execGraphLoad (queue : Nat) (s : State) : Host.Outcome State Fault Refusal :=
  match nextLoad s queue with
  | none => .next (settleLoad s queue)
  | some c =>
    if c.kind != 4 || !isService queue then .next s
    else
      let n := c.w 8 8
      let va := c.w 16 8
      let len := c.w 24 8
      let other := match Fm.get? s.graphs n with
        | some g => g.world != c.world
        | none => false
      let plain := (pagePieces (len / 65536 + 2) va len).all fun p => match xlate s (cmdDie queue) c.world p.1 with
        | .ok x => nfield x.d 5 3 == 0
        | .error _ => false
      if !cmdOk s queue c || va % 64 != 0 || 64 + 64 * 256 + 4096 < len || !plain then .next (refuseCmd s queue 4 jDesc c)
      else if worldMarked s (cmdDie queue) c.world va len then .next s
      else
        match (worldBytes s (cmdDie queue) c.world va len).toOption.bind (parseGraph c.world) with
        | none => .next (refuseCmd s queue 4 jDesc c)
        | some g =>
          if 63 < n || other || graphBusy s n then .next (refuseCmd s queue 4 jGraph c)
          else
            let (s, seq) := acceptCmd s queue 4 0 c
            .next (settleLoad { s with loads := Fm.put s.loads queue { seq := seq, n := n, world := c.world, graph := some g } } queue)

/-- GRAPH_UNLOAD (R336, R396). -/
def execGraphUnload (queue : Nat) (s : State) : Host.Outcome State Fault Refusal :=
  match nextLoad s queue with
  | none => .next (settleLoad s queue)
  | some c =>
    if c.kind != 5 || !isService queue then .next s
    else
      let n := c.w 8 8
      let mine := match Fm.get? s.graphs n with
        | some g => g.world == c.world
        | none => false
      if !cmdOk s queue c || c.w 16 8 != 0 || c.w 24 8 != 0 then .next (refuseCmd s queue 5 jDesc c)
      else if !mine || graphBusy s n then .next (refuseCmd s queue 5 jGraph c)
      else
        let (s, seq) := acceptCmd s queue 5 0 c
        .next (settleLoad { s with loads := Fm.put s.loads queue { seq := seq, n := n, world := c.world, graph := none } } queue)

/-- The version of the slice kernel that a slice runs (R366). -/
def versionOf (s : State) (slice : Nat) : Nat := Fm.getD s.versions slice 0

/-- An instance answers a command (R396): 0 is DONE, any other byte FAULT with that cause. On another version than the command is tagged with it
answers RETRY and acts on nothing, and the sender resends the command in the newest version (R366). -/
def answerKernelCmd (s : State) (r : KernelCmd) (answer : BitVec 8) : State :=
  let t := { s with kcmds := s.kcmds.erase r }
  if r.version != versionOf s r.slice then { t with kcmds := t.kcmds ++ [{ r with version := s.version }] }
  else if answer == 0 then journalFinal t r.queue r.seq jDone 0 0 none
  else journalFinal t r.queue r.seq jFault answer.toNat 0 none

/-- SLICE_KERNEL_COMMAND (R396): the head command is delivered to the instance that byte 32 names, or the oldest command of a queue that an
instance holds is answered, once its acceptance entry stands (R343). -/
def execSliceKernelCommand (queue : Nat) (answer : Option (Nat × BitVec 8)) (s : State) : Host.Outcome State Fault Refusal :=
  match answer with
  | some (slice, a) =>
    match s.kcmds.find? fun r => r.queue == queue && r.slice == slice with
    | none => .next s
    | some r => .next (if s.stopped.isNone && started s queue r.seq then answerKernelCmd s r a else s)
  | none =>
    match nextCmd s queue with
    | none => .next s
    | some c =>
      if c.kind != 6 || !kindOk queue 6 then .next s
      else if c.w 1 7 != 0 || 23 < c.w 32 1 then .next (refuseCmd s queue 6 jDesc c)
      else
        let (s, seq) := acceptCmd s queue 6 0 c
        .next { s with kcmds := s.kcmds ++ [{ slice := c.w 32 1, queue := queue, seq := seq, version := s.version, bytes := c.b.drop 32 }] }

end Sys2Proof.Machine
end

