-- ==== Sys2Proof/Machine/Float.lean ====
section
/-! DEFINITION. The conversions and the floating-point instructions (spec/03 R54, R55; spec/06 R125; spec/07 R128 to R137). -/

namespace Sys2Proof.Machine

/-- The lanes an instruction computes in: the lowest active one, for the group, when A is scalar (R108). -/
def onceMask (a : BitVec 8) (act : LaneMask) : LaneMask :=
  if isScalar a then maskOf fun l => l == firstLane act && act != 0 else act

/-- Write a 32-bit result of pipe `p` to the destination that A selects; zero-extended in a scalar (R129). -/
def putF (g : Group) (p lat : Nat) (a : BitVec 8) (d : BitVec 6) (act : LaneMask) (val : Nat → Nat) : Group :=
  if isScalar a then putScalar g lat d act (BitVec.ofNat 64 (val (firstLane act) % 2 ^ 32))
  else putVec32 g p lat d act fun l => BitVec.ofNat 32 (val l)

/-- A 32-bit source for floating point: FP32 literals, or both halves of a packed literal (R53, R129). -/
def litPacked (f : Fmt) (i : Nat) : Word :=
  let h := (narrowTo f 0 (litFp i).toNat).val
  BitVec.ofNat 32 (h * 65536 + h)

/-- The old D of a floating-point instruction (R131). -/
def oldD (s : State) (g : Group) (p : Nat) (a : BitVec 8) (d : BitVec 6) (l : Nat) : Nat :=
  if isScalar a then (readS s g d.toNat).toNat % 2 ^ 32
  else (if 60 ≤ d.toNat then readB s g p l else readV s g d.toNat l).toNat

/-- A floating-point instruction of two 32-bit operands: what MOD it accepts, its latency, its literals, its function of the
mode, A, B and the old D (R128 to R135). -/
structure FpOp where
  types : List Nat
  rm    : Bool
  immOk : Bool
  lat   : Nat
  lit   : Nat → Word
  f     : Nat → Nat → Nat → Nat → Res Nat
  dRead : Bool := false

/-- The form of a floating-point instruction of pipe 1: the types it accepts, whether MOD RM and IMM may stand with it, whether it reads D. -/
def fpForm (types : List Nat) (rm immOk dRead : Bool) (a b : BitVec 8) (d : BitVec 6) : Form :=
  { pipe := some 1, imm := if immOk then .bFp b else .none, md := .arith types false false rm false,
    konst := isConst a || isConst b, vregs := srcRegs false a ++ srcRegs false b ++ destRegs false a d,
    latches := srcLatch a ++ srcLatch b ++ (if dRead && !isScalar a && 60 ≤ d.toNat then [d.toNat - 60] else []) }

/-- Run a floating-point instruction of pipe 1 (R128 to R131). -/
def runFp (o : FpOp) (guard : BitVec 4) (d : BitVec 6) (a b : BitVec 8) (s : State) : State :=
  let m := (hintsNow s).arith
  match prelude s guard (fpForm o.types o.rm o.immOk o.dRead a b d) with
  | .error t => t
  | .ok i =>
    let r (l : Nat) : Res Nat :=
      o.f m.rm (src32 s i.g o.lit a l).toNat (srcB32 s i.g o.lit b l).toNat (if o.dRead then oldD s i.g 1 a d l else 0)
    let g := (putF i.g 1 o.lat a d i.act fun l => (r l).val).orGsAt o.lat (gsOf (onceMask a i.act) r)
    finish s i g (some 1)

/-- FP32 instructions (R131, R132). -/
def fp32Op (lat : Nat) (rm dRead : Bool) (f : Nat → Nat → Nat → Nat → Res Nat) : FpOp :=
  { types := [0, tyF32], rm := rm, immOk := true, lat := lat, lit := litFp, f := f, dRead := dRead }

/-- FADD (R131). -/
def execFadd (g : BitVec 4) (d : BitVec 6) (a b : BitVec 8) (s : State) : Host.Outcome State Fault Refusal :=
  .next (runFp (fp32Op 4 true false fun m x y _ => f32.add m x y) g d a b s)
/-- FSUB (R131). -/
def execFsub (g : BitVec 4) (d : BitVec 6) (a b : BitVec 8) (s : State) : Host.Outcome State Fault Refusal :=
  .next (runFp (fp32Op 4 true false fun m x y _ => f32.sub m x y) g d a b s)
/-- FMUL (R131). -/
def execFmul (g : BitVec 4) (d : BitVec 6) (a b : BitVec 8) (s : State) : Host.Outcome State Fault Refusal :=
  .next (runFp (fp32Op 4 true false fun m x y _ => f32.mul m x y) g d a b s)
/-- FFMA (R131). -/
def execFfma (g : BitVec 4) (d : BitVec 6) (a b : BitVec 8) (s : State) : Host.Outcome State Fault Refusal :=
  .next (runFp (fp32Op 4 true true fun m x y z => f32.fma m x y z) g d a b s)
/-- FMIN (R132). -/
def execFmin (g : BitVec 4) (d : BitVec 6) (a b : BitVec 8) (s : State) : Host.Outcome State Fault Refusal :=
  .next (runFp (fp32Op 2 false false fun _ x y _ => f32.minmax false x y) g d a b s)
/-- FMAX (R132). -/
def execFmax (g : BitVec 4) (d : BitVec 6) (a b : BitVec 8) (s : State) : Host.Outcome State Fault Refusal :=
  .next (runFp (fp32Op 2 false false fun _ x y _ => f32.minmax true x y) g d a b s)

/-- The element format of a packed instruction by its TYPE (R128). -/
def packedFmt (ty : Nat) : Fmt := if ty == tyF16 then f16 else bf16

/-- Element `i` of a packed word (R129). -/
def elem (x i : Nat) : Nat := x / 2 ^ (16 * i) % 65536

/-- One operation on both elements; the GS bits are ORed (R134). -/
def packed2 (f : Nat → Nat → Nat → Res Nat) (a b c : Nat) : Res Nat :=
  let x := f (elem a 0) (elem b 0) (elem c 0)
  let y := f (elem a 1) (elem b 1) (elem c 1)
  { val := x.val + 65536 * y.val, sat := x.sat || y.sat, inv := x.inv || y.inv }

/-- Packed instructions (R134, R135). -/
def packedOp (lat : Nat) (dRead : Bool) (s : State) (f : Fmt → Nat → Nat → Nat → Nat → Res Nat) : FpOp :=
  let fmt := packedFmt (hintsNow s).arith.ty
  { types := [0, tyBf16, tyF16], rm := true, immOk := false, lat := lat, lit := litPacked fmt, f := f fmt, dRead := dRead }

/-- HADD2 (R134). -/
def execHadd2 (g : BitVec 4) (d : BitVec 6) (a b : BitVec 8) (s : State) : Host.Outcome State Fault Refusal :=
  .next (runFp (packedOp 4 false s fun f m x y z => packed2 (fun p q _ => f.add m p q) x y z) g d a b s)
/-- HMUL2 (R134). -/
def execHmul2 (g : BitVec 4) (d : BitVec 6) (a b : BitVec 8) (s : State) : Host.Outcome State Fault Refusal :=
  .next (runFp (packedOp 4 false s fun f m x y z => packed2 (fun p q _ => f.mul m p q) x y z) g d a b s)
/-- HFMA2 (R134). -/
def execHfma2 (g : BitVec 4) (d : BitVec 6) (a b : BitVec 8) (s : State) : Host.Outcome State Fault Refusal :=
  .next (runFp (packedOp 4 true s fun f m x y z => packed2 (fun p q r => f.fma m p q r) x y z) g d a b s)
/-- FDOT2 (R135). -/
def execFdot2 (g : BitVec 4) (d : BitVec 6) (a b : BitVec 8) (s : State) : Host.Outcome State Fault Refusal :=
  .next (runFp (packedOp 5 true s fun f m x y z => fdot2 f m x y z) g d a b s)

/-- The form of FCMP (R133). -/
def fcmpForm (a b : BitVec 8) : Form :=
  { pipe := some 1, imm := .bFp b, md := .arith [0, tyF32] false false false false, konst := isConst a || isConst b,
    vregs := srcRegs false a ++ srcRegs false b, latches := srcLatch a ++ srcLatch b }

/-- FCMP (R133): no GS bit. -/
def execFcmp (g : BitVec 4) (k c : BitVec 3) (a b : BitVec 8) (s : State) : Host.Outcome State Fault Refusal :=
  match prelude s g (fcmpForm a b) with
  | .error t => .next t
  | .ok i =>
    let v (l : Nat) : Bool := fpCond c.toNat (src32 s i.g litFp a l).toNat (srcB32 s i.g litFp b l).toNat
    .next (finish s i (putPair i.g 2 k i.act v) (some 1))

/-- The form of SFU (R136). -/
def sfuForm (a : BitVec 8) (d : BitVec 6) : Form :=
  { pipe := some 2, md := .arith [0, tyF32] false false true false, konst := isConst a,
    vregs := srcRegs false a ++ destRegs false a d, latches := srcLatch a }

/-- SFU (R136, R137). -/
def execSfu (g : BitVec 4) (d : BitVec 6) (a : BitVec 8) (sel : BitVec 6) (s : State) : Host.Outcome State Fault Refusal :=
  let m := (hintsNow s).arith
  match prelude s g (sfuForm a d) with
  | .error t => .next t
  | .ok i =>
    let r (l : Nat) : Res Nat := sfuEval sel.toNat m.rm (src32 s i.g litFp a l).toNat
    .next (finish s i ((putF i.g 2 6 a d i.act fun l => (r l).val).orGsAt 6 (gsOf (onceMask a i.act) r)) (some 2))

/-- The source of a conversion (R54): 64 bits, to which the FP32 reading of a literal that stands for an FP32 pair is sign-extended (R62); the
FP32 reading; the packed reading; the integer
reading, of which codes 1, 3, 5, 7, 9 and 11 take the low bits, since R53 names no reading for their sources (DEDUCED, log entry 20). -/
def cvtSource (s : State) (g : Group) (c : Nat) (a : BitVec 8) (l : Nat) : Nat :=
  let fpSrc := c ≤ 10 && c % 2 == 0 || c == 16 || c == 17 || c == 20 || c == 21 || (24 ≤ c && c ≤ 27)
  if (c == 40 || c == 41) && srcTag a == 3 then ((litFp (srcIdx a)).signExtend 64).toNat
  else if cvtSrcWide c then (src64 s g a l).toNat
  else
    (src32 s g (if fpSrc then litFp else if c == 42 then litPacked bf16 else if c == 43 then litPacked f16 else litInt) a l).toNat

/-- A saturating conversion between integer types (R54, R49). -/
def intToInt (x fromN toN : Nat) (nat : Bool) (srcNat : Bool) : Res Int := intInto (readAs x fromN srcNat) toN nat true

/-- An integer result placed in a register of `room` bits by its type (R47, R125). -/
def Res.placed (r : Res Int) (n : Nat) (nat : Bool) (room : Nat) : Res Nat :=
  { val := placeInt r.val n nat room, sat := r.sat, inv := r.inv }

/-- R54, R55: the conversion of each code, given the mode, the width of the destination register, and the source. -/
def cvtEval (c mode room x : Nat) : Res Nat :=
  let n32 := x % 2 ^ 32
  match c with
  | 0 => narrowTo f16 mode x
  | 1 => { val := widen f16 (x % 65536) }
  | 2 => narrowTo bf16 mode x
  | 3 => { val := widen bf16 (x % 65536) }
  | 4 => narrowTo e4m3 mode x
  | 5 => { val := widen e4m3 (x % 256) }
  | 6 => narrowTo e5m2 mode x
  | 7 => { val := widen e5m2 (x % 256) }
  | 8 => narrowTo e2m1 mode x
  | 9 => { val := widen e2m1 (x % 16) }
  | 10 => toE8m0 x
  | 11 => { val := fromE8m0 (x % 256) }
  | 16 => (fpToInt mode 32 false n32).placed 32 false room
  | 17 => (fpToInt mode 32 true n32).placed 32 true room
  | 18 => { val := intToFp mode (readAs n32 32 false) }
  | 19 => { val := intToFp mode (readAs n32 32 true) }
  | 20 => (fpToInt mode 64 false n32).placed 64 false 64
  | 21 => (fpToInt mode 64 true n32).placed 64 true 64
  | 22 => { val := intToFp mode (readAs x 64 false) }
  | 23 => { val := intToFp mode (readAs x 64 true) }
  | 24 => (fpToInt mode 8 false n32).placed 8 false room
  | 25 => (fpToInt mode 8 true n32).placed 8 true room
  | 26 => (fpToInt mode 16 false n32).placed 16 false room
  | 27 => (fpToInt mode 16 true n32).placed 16 true room
  | 28 => (intToInt x 32 8 false false).placed 8 false room
  | 29 => (intToInt x 32 8 true false).placed 8 true room
  | 30 => (intToInt x 32 16 false false).placed 16 false room
  | 31 => (intToInt x 32 16 true false).placed 16 true room
  | 32 => (intToInt x 32 64 false false).placed 64 false 64
  | 33 => (intToInt x 32 64 true true).placed 64 true 64
  | 34 => (intToInt x 64 32 false false).placed 32 false room
  | 35 => (intToInt x 64 32 true true).placed 32 true room
  | 40 =>
    let lo := narrowTo bf16 mode n32
    let hi := narrowTo bf16 mode (x / 2 ^ 32)
    { val := lo.val + 65536 * hi.val, sat := lo.sat || hi.sat, inv := lo.inv || hi.inv }
  | 41 =>
    let lo := narrowTo f16 mode n32
    let hi := narrowTo f16 mode (x / 2 ^ 32)
    { val := lo.val + 65536 * hi.val, sat := lo.sat || hi.sat, inv := lo.inv || hi.inv }
  | 42 => { val := widen bf16 (elem x 0) + 2 ^ 32 * widen bf16 (elem x 1) }
  | _ => { val := widen f16 (elem x 0) + 2 ^ 32 * widen f16 (elem x 1) }

/-- The form of CVT with a code (R125). -/
def cvtForm (n : Nat) (a : BitVec 8) (d : BitVec 6) : Form :=
  { pipe := some 1, md := .arith [0] false true true false, konst := isConst a,
    vregs := srcRegs (cvtSrcWide n) a ++ destRegs (cvtDstWide n) a d,
    latches := if cvtSrcWide n then [] else srcLatch a }

/-- CVT (R54, R125). -/
def execCvt (g : BitVec 4) (d : BitVec 6) (a : BitVec 8) (c : BitVec 6) (s : State) : Host.Outcome State Fault Refusal :=
  let n := c.toNat
  let mode := (hintsNow s).arith.rm
  match prelude s g (cvtForm n a d) with
  | .error t => .next t
  | .ok i =>
    let r (l : Nat) : Res Nat := cvtEval n mode (if isScalar a then 64 else 32) (cvtSource s i.g n a l)
    let gr :=
      if isScalar a then putScalar i.g 4 d i.act (BitVec.ofNat 64 (r (firstLane i.act)).val)
      else if cvtDstWide n then putVec64 i.g 1 4 d i.act fun l => BitVec.ofNat 64 (r l).val
      else putVec32 i.g 1 4 d i.act fun l => BitVec.ofNat 32 (r l).val
    .next (finish s i (gr.orGsAt 4 (gsOf (onceMask a i.act) r)) (some 1))

end Sys2Proof.Machine
end

