-- ==== Sys2Proof/Machine/Cross.lean ====
section
/-! DEFINITION. The cross-lane instructions SHFL and REDS (spec/07 R138 to R141). -/

namespace Sys2Proof.Machine

/-- The effective operand of R138: `none` where there is no source lane. -/
def shflOperand (b : Int) : Option Int :=
  if 0 ≤ b then some b
  else if -16 ≤ b then some (64 / 2 ^ (-b).toNat)
  else none

/-- The source lane of lane `l` (R138). -/
def shflSource (sh l : Nat) (b : Int) : Option Int :=
  (shflOperand b).map fun e =>
    match sh with
    | 0 => e
    | 1 => (l : Int) - e
    | 2 => (l : Int) + e
    | _ => ((l ^^^ e.toNat : Nat) : Int)

/-- The source lane if it is one of the group and active (R139). -/
def shflFrom (sh l : Nat) (b : Int) (act : LaneMask) : Option Nat :=
  match shflSource sh l b with
  | some x => if 0 ≤ x && x < 64 && act.getLsbD x.toNat then some x.toNat else none
  | none => none

/-- The form of SHFL (R138). -/
def shflForm (wide : Bool) (a b : BitVec 8) (d : BitVec 6) : Form :=
  { legal := !wide || (pairSrcOk a && pairDestOk a d), pipe := some 2, imm := .bInt b, md := .arith tyPlain false false false true,
    konst := isConst a || isConst b, vregs := srcRegs wide a ++ srcRegs false b ++ destRegs wide a d,
    latches := (if wide then [] else srcLatch a) ++ srcLatch b }

/-- SHFL (R138, R139). -/
def execShfl (g : BitVec 4) (d : BitVec 6) (a b : BitVec 8) (s : State) : Host.Outcome State Fault Refusal :=
  let m := (hintsNow s).arith
  let wide := m.ty == tyI64
  match prelude s g (shflForm wide a b d) with
  | .error t => .next t
  | .ok i =>
    let src (l : Nat) : Option Nat := shflFrom m.sh l (srcB32 s i.g litInt b l).toInt i.act
    let from_ (l : Nat) : Nat := (src l).getD l
    let gr :=
      if wide then putVec64 i.g 2 4 d i.act fun l => src64 s i.g a (from_ l)
      else putVec32 i.g 2 4 d i.act fun l => src32 s i.g litInt a (from_ l)
    .next (finish s i (putP gr 4 11 i.act (maskOf fun l => (src l).isSome)) (some 2))

/-- A node of the tree; `none` is EMPTY (R140). -/
def redsComb (op : Nat → Nat → Res Nat) : Option (Res Nat) → Option (Res Nat) → Option (Res Nat)
  | a, none => a
  | none, b => b
  | some a, some b =>
    let r := op a.val b.val
    some { val := r.val, sat := a.sat || b.sat || r.sat, inv := a.inv || b.inv || r.inv }

/-- One round of the tree on 2k values (R140). -/
def redsRound (op : Nat → Nat → Res Nat) (k : Nat) (x : List (Option (Res Nat))) : List (Option (Res Nat)) :=
  (List.range k).map fun l => redsComb op ((x[l]?).getD none) ((x[l + k]?).getD none)

/-- The tree over 64 lanes (R140). -/
def redsTree (op : Nat → Nat → Res Nat) (x : List (Option (Res Nat))) : Option (Res Nat) :=
  (([32, 16, 8, 4, 2, 1].foldl (fun x k => redsRound op k x) x)[0]?).getD none

/-- The op of each selector at width n (R141). -/
def redsOp (sel n mode a b : Nat) : Res Nat :=
  let sx (x : Nat) : Int := readAs x n false
  match sel with
  | 0 => { val := (a + b) % 2 ^ n }
  | 1 => { val := if sx a ≤ sx b then a else b }
  | 2 => { val := if sx a ≤ sx b then b else a }
  | 3 => { val := min a b }
  | 4 => { val := max a b }
  | 5 => { val := a &&& b }
  | 6 => { val := a ||| b }
  | 7 => { val := a ^^^ b }
  | 8 => f32.add mode a b
  | 9 => f32.minmax false a b
  | _ => f32.minmax true a b

/-- The form of REDS with an operation (R140). -/
def redsForm (sel : Nat) (wide : Bool) (a : BitVec 8) (d : BitVec 6) : Form :=
  { legal := !wide || (pairSrcOk a && pairDestOk a d), pipe := some 2,
    md := .arith (if 8 ≤ sel then [0, tyF32] else tyPlain) false false (sel == 8) false, konst := isConst a,
    vregs := srcRegs wide a ++ destRegs wide a d, latches := if wide then [] else srcLatch a }

/-- REDS (R140, R141). -/
def execReds (g : BitVec 4) (d : BitVec 6) (a : BitVec 8) (sel : BitVec 6) (s : State) : Host.Outcome State Fault Refusal :=
  let m := (hintsNow s).arith
  let wide := m.ty == tyI64
  match prelude s g (redsForm sel.toNat wide a d) with
  | .error t => .next t
  | .ok i =>
    let n := if wide then 64 else 32
    let x := lanesOf fun l => if i.act.getLsbD l then some ({ val := opA s i.g n a l } : Res Nat) else none
    let r := (redsTree (redsOp sel.toNat n m.rm) x).getD { val := 0 }
    let gr :=
      if wide then putVec64 i.g 2 6 d i.act fun _ => BitVec.ofNat 64 r.val
      else putVec32 i.g 2 6 d i.act fun _ => BitVec.ofNat 32 r.val
    .next (finish s i (gr.orGsAt 6 r.gs) (some 2))

end Sys2Proof.Machine
end

