-- ==== Sys2Proof/Machine/Graph.lean ====
section
/-! DEFINITION. Escapement: GRAPH (spec/09 R179), replay requests and the nodes of a replay (spec/16 R336 to R341). -/

namespace Sys2Proof.Machine

/-- The rule of R207 for a load by a core of a die; what it allows only on the executor waits while its page is in transit (R289). -/
def loadRule (die : Nat) (x : Xl) : List Nat := if x.transit && onlyExecutor x .load then [] else placeCauses x die .load

/-- The first address of a range in a page that lies in a sector with a poison mark. -/
def firstPoison (s : State) (die world va n : Nat) : Option Nat :=
  match xlate s die world va with
  | .error _ => none
  | .ok x => (secPieces (n / 128 + 2) x.o n).findSome? fun p =>
      if poisonAt s die (secOf (physOf x.d p.1)) then some (va + (p.1 - x.o)) else none

/-- Bytes of a patch from an address on, or the lowest cause with its address: read by Escapement, or, where `own` holds, as a load by a group, which
takes PLACE_BOUND and DATA_POISON too (R179, R207, R209). R205 lists no GRAPH, so that a patch has no alignment (DESIGN CHOICE, log entry 28). -/
def patchPart (s : State) (die world va n : Nat) (r : Reader) (own : Bool) : Except (Nat × Nat) (List Byte) :=
  (pagePieces (n / 65536 + 2) va n).foldl (fun (acc : Except (Nat × Nat) (List Byte)) p =>
    let one : Except (Nat × Nat) (List Byte) :=
      match readVa s die world p.1 p.2 .load r (if own then loadRule die else fun _ => []) with
      | .error c => .error (c, p.1)
      | .ok y => match if own then firstPoison s die world p.1 p.2 else none with
        | some a => .error (cPoison, a)
        | none => .ok y
    match acc, one with
    | .ok x, .ok y => .ok (x ++ y)
    | .error c, .error e => .error (if c.1 ≤ e.1 then c else e)
    | .error c, _ => .error c
    | _, .error e => .error e) (.ok [])

/-- The patch bytes at an address, header and entries; a COUNT above 64 leaves the header alone (R339). -/
def patchBytes (s : State) (die world va : Nat) (r : Reader) (own : Bool := false) : Except (Nat × Nat) (List Byte) :=
  match patchPart s die world va 16 r own with
  | .error c => .error c
  | .ok h =>
    let n := bField h 0 1 % 128
    if 64 < n then .ok h
    else
      match patchPart s die world (va + 16) (16 * n) r own with
      | .error c => .error c
      | .ok b => .ok (h ++ b)

/-- A patch must be waited for: an engine owns one of its sectors (R250), or, for a group, a page that only its executor may read is in transit
(R289). -/
def patchWaits (s : State) (die world va : Nat) (own : Bool) : Bool :=
  let part (a n : Nat) : Bool := (pagePieces (n / 65536 + 2) a n).any fun p => vaMarked s die world p.1 p.2 ||
    (own && match xlate s die world p.1 with
      | .ok x => x.transit && onlyExecutor x .load
      | .error _ => false)
  part va 16 || match patchPart s die world va 16 .other own with
    | .ok h => bField h 0 1 % 128 ≤ 64 && part (va + 16) (16 * (bField h 0 1 % 128))
    | .error _ => false

/-- The form of GRAPH (R177). -/
def graphForm (f : BitVec 4) : Form := { ctlForm with f := some f }

/-- GRAPH (R179): the patch is read as a load by the group; the request goes to Escapement. -/
def execGraph (g : BitVec 4) (n p : BitVec 6) (f : BitVec 4) (s : State) : Host.Outcome State Fault Refusal :=
  match prelude s g (graphForm f) with
  | .error t => .next t
  | .ok i =>
    if i.act == 0 then .next (finish s i i.g none)
    else if flagFull i.g f then .next (trapFull s i f.toNat)
    else
      let die := i.g.core / 48
      let world := worldOf s i.g
      let va := (readS s i.g p.toNat).toNat
      if p != 0 && patchWaits s die world va true then .next (stall s i.gid)
      else
      let patch := if p == 0 then .ok [] else patchBytes s die world va (.lane i.gid (firstLane i.act)) true
      match patch with
      | .error (c, a) => .next (groupFault s i c a (memSyn 0 1 false 0))
      | .ok bs =>
        let s := useWalks s i.g.core world false ((pagePieces 2 va bs.length).map fun p => p.1)
        let o : Op :=
          { group := some i.gid, team := i.g.team, world := world, core := i.g.core, die := die, pc := i.e.pc, word := i.g.word,
            lanes := i.lanes, cls := 1, time := dialOf s die, kind := .graphReq (readS s i.g n.toNat).toNat bs }
        let (s, gr, _) := startOp s i.g f o
        .next (finish s i gr none)

/-- The parameter block of a request: the default block with the patch's entries over it, in order; none where the patch is bad
(R339). -/
def patchBlock (block patch : List Byte) : Option (List Byte) :=
  if patch.isEmpty then some block
  else
    let n := bField patch 0 1 % 128
    if 64 < n || patch.length != 16 + 16 * n || bField patch 0 16 / 128 != 0 then none
    else
      (List.range n).foldl (fun (b : Option (List Byte)) k =>
        match b with
        | none => none
        | some b =>
          let o := bField patch (16 + 16 * k) 8
          if o % 8 != 0 || block.length ≤ o then none
          else some (b.take o ++ (patch.drop (24 + 16 * k)).take 8 ++ b.drop (o + 8))) (some block)

/-- Replays of a graph that run. -/
def running (s : State) (n : Nat) : Nat := (s.replays.filter fun e => e.2.graph == n).length

/-- A request may start now (R340). -/
def canStart (s : State) (n : Nat) (g : Graph) : Bool := running s n < (if g.reentrant then 8 else 1) && s.replays.length < 256

/-- The lowest free replay slot. -/
def freeReplay (s : State) : Nat := ((List.range 256).find? fun k => (Fm.get? s.replays k).isNone).getD 0

/-- A replay starts (R337: counters and events at 0). -/
def startReplay (s : State) (n : Nat) (g : Graph) (r : Request) : State :=
  let x : Replay := { graph := n, world := g.world, queue := r.queue, seq := r.seq, block := r.block, node := g.start }
  { s with replays := Fm.put s.replays (freeReplay s) x }

/-- A request reaches Escapement (R339, R340): refused with a status, or accepted; `patch` is none where it could not be read. -/
def takeRequest (s : State) (q world n : Nat) (patch : Option (List Byte)) (digest : List Byte) : State :=
  let refuse (st : Nat) : State := (journalAccept s q 2 st 0 digest).1
  match Fm.get? s.graphs n with
  | none => refuse jGraph
  | some g =>
    if g.world != world || 63 < n then refuse jGraph
    else
      match patch.bind (patchBlock g.block) with
      | none => refuse jDesc
      | some b =>
        let go := g.queue.isEmpty && canStart s n g
        if !go && 64 ≤ g.queue.length then refuse jFull
        else
          let (s, seq) := journalAccept s q 2 0 0 digest
          let r : Request := { queue := q, seq := seq, block := b }
          if go then startReplay s n g r else { s with graphs := Fm.put s.graphs n { g with queue := g.queue ++ [r] } }

/-- The oldest GRAPH request of a world. -/
def headRequest (s : State) (world : Nat) : Option (Nat × Op × Nat × List Byte) :=
  s.ops.findSome? fun e => match e.2.kind with
    | .graphReq n p => if e.2.world == world then some (e.1, e.2, n, p) else none
    | _ => none

/-- REPLAY (R339, R340): a request from a host queue, from a service core, or from GRAPH. -/
def execReplay (queue : Nat) (s : State) : Host.Outcome State Fault Refusal :=
  if 8192 ≤ queue then
    match headRequest s (queue - 8192) with
    | none => .next s
    | some (id, o, n, p) =>
      if !journalRoom s queue || graphLoading s n then .next s
      else
        let digest := sha384Bytes (leBytes 8 n ++ p)
        .next (if worldLive s o.world then completeOp (takeRequest s queue o.world n (some p) digest) id
          else completeOp (journalAccept s queue 2 jGraph 0 digest).1 id)
  else
    match nextCmd s queue with
    | none => .next s
    | some c =>
      if c.kind != 2 || !kindOk queue 2 || graphLoading s (c.w 8 8) ||
          (c.w 16 8 != 0 && patchWaits s (cmdDie queue) c.world (c.w 16 8) false) then .next s
      else if !cmdOk s queue c || (isService queue && c.w 24 8 != 0) then .next (refuseCmd s queue 2 jDesc c)
      else
        let va := c.w 16 8
        let patch := if va == 0 then some [] else (patchBytes s (cmdDie queue) c.world va .other).toOption
        .next (takeRequest (takeCmd s queue) queue c.world (c.w 8 8) patch (sha384Bytes c.b))

/-- REPLAY_DEQUEUE (R340). -/
def execReplayDequeue (graph : Nat) (s : State) : Host.Outcome State Fault Refusal :=
  match Fm.get? s.graphs graph with
  | none => .next s
  | some g =>
    match g.queue with
    | [] => .next s
    | r :: rest =>
      if canStart s graph g then .next (startReplay { s with graphs := Fm.put s.graphs graph { g with queue := rest } } graph g r)
      else .next s

/-- Put back a replay. -/
def State.putReplay (s : State) (k : Nat) (r : Replay) : State := { s with replays := Fm.put s.replays k r }

/-- The end of the chain of nodes (R337). -/
def nodeEnd : Nat := 0xFFFF

/-- A replay that has reached its end, or a fault, ends once every ASYNC node is complete: its entry becomes final (R338). -/
def endReplay (s : State) (k : Nat) (r : Replay) : State :=
  if !r.async.isEmpty then s.putReplay k r
  else
    let s := { s with replays := Fm.del s.replays k }
    match r.fault with
    | none => journalFinal s r.queue r.seq jDone 0 0 r.latest
    | some (node, cause, addr) =>
      let s := postError s r.world { source := 5, cause := cause, addr := addr, index := r.graph + k * 2 ^ 16, pc := node, seq := r.seq }
      journalFinal s r.queue r.seq jFault cause node r.latest

/-- A replay faults at its node, with the address concerned (R334, R338). -/
def nodeFault (s : State) (k : Nat) (r : Replay) (cause : Nat) (addr : Nat := 0) : State :=
  endReplay s k { r with fault := some (r.node, cause, addr), node := nodeEnd, work := none, since := none }

/-- A replay moves on to a node, or to its end (R337, R338). -/
def moveTo (s : State) (k : Nat) (r : Replay) (next : Nat) : State :=
  let r := { r with node := next, work := none, since := none }
  if next == nodeEnd then endReplay s k r else s.putReplay k r

/-- The node that a replay stands at and may start or go on with: every completed node's writes have passed their visibility times
by 2 ticks (R338). -/
def nodeAt (s : State) (k ty : Nat) : Option (Replay × List Byte) :=
  match Fm.get? s.replays k with
  | none => none
  | some r =>
    if r.node == nodeEnd || !passed s 8 r.latest || !started s r.queue r.seq then none
    else
      match (Fm.get? s.graphs r.graph).bind fun g => g.nodes[r.node]? with
      | none => none
      | some n => if bField n 0 1 == ty then some (r, n) else none

/-- A replay that stands at a node that does not exist, or whose TYPE is invalid, ends with FAULT (R338). -/
def badNode (s : State) (k : Nat) : Option State :=
  match Fm.get? s.replays k with
  | none => none
  | some r =>
    if r.node == nodeEnd then none
    else
      match (Fm.get? s.graphs r.graph).bind fun g => g.nodes[r.node]? with
      | none => some (nodeFault s k r 0)
      | some n => if 5 < bField n 0 1 then some (nodeFault s k r 0) else none

/-- ASYNC, PARAM, EVENT, NEXT and ALT of a node (R337). -/
def nAsync (n : List Byte) : Bool := bField n 1 1 % 2 == 1
def nParam (n : List Byte) : Bool := bField n 1 1 / 2 % 2 == 1
def nEvent (n : List Byte) : Nat := bField n 1 1 / 4 % 16
def nNext (n : List Byte) : Nat := bField n 2 2
def nAlt (n : List Byte) : Nat := bField n 4 2

/-- A field that PARAM redirects into the parameter block: `n` bytes at the offset it gives (R337). -/
def paramOf (r : Replay) (n : List Byte) (x len : Nat) : Nat := if nParam n then bField r.block x len else x

/-- The number of a node's work. -/
def Work.id : Work → Nat
  | .grid id => id
  | .copy id _ => id

/-- A node's work has begun: the replay waits for it, or goes on at once when it is ASYNC (R337). -/
def beginWork (s : State) (k : Nat) (r : Replay) (n : List Byte) (w : Work) : State :=
  if nAsync n then moveTo s k { r with async := Fm.put r.async w.id (r.node, w) } (nNext n)
  else s.putReplay k { r with work := some w }

/-- What came of a node's work: none while it runs; its cause and the address concerned, none for success, and its writes' visibility time. -/
def workOver (s : State) : Work → Option (Option (Nat × Nat) × Option Nat)
  | .grid id =>
    match Fm.get? s.grids id with
    | none => some (none, none)
    | some g => if g.left == 0 && g.ops.isEmpty then some (g.fault.map fun c => (c, 0), g.latest) else none
  | .copy _ result => result.map fun c => (if c.1 == 0 then none else some c, none)

/-- A node's work leaves nothing behind. -/
def clearWork (s : State) : Work → State
  | .grid id => { s with grids := Fm.del s.grids id }
  | .copy .. => s

/-- A synchronous node's work is over: the replay goes on, or faults (R337, R338). -/
def workDone (s : State) (k : Nat) (r : Replay) (n : List Byte) (w : Work) : State :=
  match workOver s w with
  | none => s
  | some (cause, t) =>
    let s := clearWork s w
    let r := { r with latest := laterOf r.latest t }
    match cause with
    | some c => nodeFault s k r c.1 c.2
    | none => moveTo s k r (nNext n)

/-- KERNEL_NODE (R337): the grid of its descriptor, with bank 15 bound to the parameter block; then NEXT. World 0 launches none (R358). -/
def execKernelNode (replay : Nat) (s : State) : Host.Outcome State Fault Refusal :=
  match nodeAt s replay 0 with
  | none => .next ((badNode s replay).getD s)
  | some (r, n) =>
    match r.work with
    | some w => .next (workDone s replay r n w)
    | none =>
      if worldMarked s 0 r.world (bField n 8 8) 256 then .next s
      else
      match worldBytes s 0 r.world (bField n 8 8) 256 with
      | .error c => .next (nodeFault s replay r c (bField n 8 8))
      | .ok b =>
        match parseDesc b with
        | none => .next (nodeFault s replay r 0)
        | some d =>
          if neverFits d || r.world == 0 then .next (nodeFault s replay r 0)
          else
            let (s, id) := startGrid s r.world r.queue r.seq (some replay) { d with params := some r.block }
            .next (beginWork s replay r n (.grid id))

/-- COPY_NODE (R337): a copy on die channel 0; then NEXT. -/
def execCopyNode (replay : Nat) (s : State) : Host.Outcome State Fault Refusal :=
  match nodeAt s replay 1 with
  | none => .next s
  | some (r, n) =>
    match r.work with
    | some w => .next (workDone s replay r n w)
    | none =>
      let die := bField n 32 1 % 8
      match shapeOf (bField n 24 8) with
      | none => .next (nodeFault s replay r cIllegal)
      | some sh =>
        match checkCopy s none die r.world (bField n 8 8) (bField n 16 8) sh with
        | .stall => .next s
        | .bad c a _ _ => .next (nodeFault s replay r c a)
        | .ok cp rd wr =>
          let s := useWalks (useWalks s (die * 48) r.world false rd) (die * 48) r.world true wr
          let chan := dieChan die 0
          let (s, id) := newOp s { group := none, world := r.world, core := die * 48, die := die, chan := some chan, kind := .copy chan (some cp) none }
          .next (beginWork (joinChan s chan id) replay r n (.copy id none))

/-- A 64-bit word of a world's memory for Escapement, or the lowest cause (R338). -/
def wordAt (s : State) (world va : Nat) : Except Nat Nat :=
  if va % 8 != 0 then .error cMisaligned else (readVa s 0 world va 8).map leNat

/-- COND_NODE (R337). -/
def execCondNode (replay : Nat) (s : State) : Host.Outcome State Fault Refusal :=
  match nodeAt s replay 2 with
  | none => .next s
  | some (r, n) =>
    if vaMarked s 0 r.world (paramOf r n (bField n 8 8) 8) 8 then .next s
    else
    match wordAt s r.world (paramOf r n (bField n 8 8) 8) with
    | .error c => .next (nodeFault s replay r c (paramOf r n (bField n 8 8) 8))
    | .ok x => .next (moveTo s replay r (if x &&& bField n 16 8 == bField n 24 8 then nNext n else nAlt n))

/-- LOOP_NODE (R337). -/
def execLoopNode (replay : Nat) (s : State) : Host.Outcome State Fault Refusal :=
  match nodeAt s replay 3 with
  | none => .next s
  | some (r, n) =>
    let c := Fm.getD r.ctrs r.node 0
    if c < paramOf r n (bField n 8 4) 4 then .next (moveTo s replay { r with ctrs := Fm.put r.ctrs r.node (c + 1) } (nAlt n))
    else .next (moveTo s replay { r with ctrs := Fm.put r.ctrs r.node 0 } (nNext n))

/-- WAIT_NODE (R337): the node starts; its time is the dial's. -/
def execWaitNode (replay : Nat) (s : State) : Host.Outcome State Fault Refusal :=
  match nodeAt s replay 4 with
  | none => .next s
  | some (r, _) => .next (if r.since.isSome then s else s.putReplay replay { r with since := some s.dial })

/-- WAIT_NODE_SATISFIED (R337). -/
def execWaitNodeSatisfied (replay : Nat) (s : State) : Host.Outcome State Fault Refusal :=
  match nodeAt s replay 4 with
  | none => .next s
  | some (r, n) =>
    match r.since with
    | none => .next s
    | some t =>
      let x := bField n 16 8
      match bField n 8 1 with
      | 0 =>
        if vaMarked s 0 r.world (paramOf r n x 8) 8 then .next s
        else
        match wordAt s r.world (paramOf r n x 8) with
        | .error c => .next (nodeFault s replay r c (paramOf r n x 8))
        | .ok v => .next (if v &&& bField n 24 8 == bField n 32 8 then moveTo s replay r (nNext n) else s)
      | 1 => .next (if t + x ≤ s.dial then moveTo s replay r (nNext n) else s)
      | _ => .next (if r.events.getLsbD (x % 16) then moveTo s replay r (nNext n) else s)

/-- SIGNAL_NODE (R337): a store, or an addition as one step. -/
def execSignalNode (replay : Nat) (s : State) : Host.Outcome State Fault Refusal :=
  match nodeAt s replay 5 with
  | none => .next s
  | some (r, n) =>
    let va := paramOf r n (bField n 8 8) 8
    let add := bField n 24 1 == 1
    if va % 8 != 0 then .next (nodeFault s replay r cMisaligned va)
    else
      match checkVa s 0 r.world va 8 (if add then .atom else .store) fun _ => [] with
      | .error c => .next (nodeFault s replay r c va)
      | .ok x =>
        let home := homeDie (secOf x.phys)
        let enc := encOf s x.d x.o
        let old := if add then leNat (peek s home enc x.phys 8 .newest) else 0
        let w := writePhys (markUsed s x true) home x.phys enc (leBytes 8 ((old + bField n 16 8) % 2 ^ 64)) 0 0
        .next (if w.ok then moveTo w.s replay { r with latest := laterOf r.latest (some w.stamp) } (nNext n) else w.s)

/-- ASYNC_NODE_COMPLETION (R337, R338): the oldest run of the node that is over sets the node's event; a failed one ends the replay. -/
def execAsyncNodeCompletion (replay node : Nat) (s : State) : Host.Outcome State Fault Refusal :=
  match Fm.get? s.replays replay with
  | none => .next s
  | some r =>
    match r.async.find? fun e => e.2.1 == node && (workOver s e.2.2).isSome with
    | none => .next s
    | some (k, _, w) =>
      match workOver s w with
      | none => .next s
      | some (cause, t) =>
        let s := clearWork s w
        let ev := match (Fm.get? s.graphs r.graph).bind fun g => g.nodes[node]? with
          | some n => nEvent n
          | none => 0
        let r := { r with async := Fm.del r.async k, events := r.events ||| BitVec.ofNat 16 (2 ^ ev), latest := laterOf r.latest t }
        match cause, r.fault with
        | some c, none =>
          let left := match r.work with
            | some w => Fm.put r.async w.id (r.node, w)
            | none => r.async
          .next (endReplay s replay { r with fault := some (node, c.1, c.2), node := nodeEnd, work := none, async := left })
        | _, _ => .next (if r.node == nodeEnd then endReplay s replay r else s.putReplay replay r)

end Sys2Proof.Machine
end

