-- ==== Sys2Proof/Machine/Kernel.lean ====
section
/-! DEFINITION. What the slice kernels do: their answers to parking records (spec/02 R37, spec/19 R371, R372), service calls (spec/14
R293, spec/18 R363, R364, spec/20 R395), and their stores to the state they own (spec/14 R278, spec/20 R394). -/

namespace Sys2Proof.Machine

/-- The parking records of some lanes of a group (R371). -/
def parkOf (s : State) (gid : Nat) (lanes : LaneMask) : List ParkRec :=
  s.parking.filter fun r => r.group == gid && lanes.getLsbD r.lane

/-- Some parking records are answered. -/
def answered (s : State) (rs : List ParkRec) : State := { s with parking := s.parking.filter fun r => !rs.contains r }

/-- Parked lanes rejoin at their pairs, together (R37); SCHED cover ends (R68). -/
def rejoin (s : State) (gid : Nat) (lanes : Nat → Bool) : State :=
  let up (g : Group) : Group :=
    let ls := lanesOf fun l =>
      let x := g.lane l
      if lanes l then { x with st := .issuable } else x
    let ps := (List.range 64).filterMap fun l => if lanes l then some (g.lane l).pair else none
    { g with lanes := ls, ents := joinEnts g.ents (dedup ps) false, cover := none }
  afterLanes (s.modGroup gid up) gid

/-- The re-walk of a TRANSLATION_INVALID finds a valid leaf (R372). -/
def spuriousRec (s : State) (r : ParkRec) : Bool :=
  r.f.cause.toNat == cTranslation && (match Fm.get? s.groups r.group with
    | some g => (walk s (g.core / 48) (worldOf s g) r.f.addr.toNat).toOption.isSome
    | none => false)

/-- RESUME (R37, R371, R372): one action may name several lanes; a spurious fault is counted once for it. A fault whose leaf the kernel's walk found
invalid, and which it has mended since, is none. -/
def execResume (gid : Nat) (r : Resumed) (s : State) : Host.Outcome State Fault Refusal :=
  let rs := parkOf s gid r.lanes
  if rs.isEmpty then .next s
  else
    let slices := dedup ((rs.filter fun x => !r.mended && spuriousRec s x).map fun x => x.slice)
    let s1 := slices.foldl (fun s k => { s with spurious := Fm.put s.spurious k (Fm.getD s.spurious k 0 + 1) }) s
    .next (rejoin (answered s1 rs) gid fun l => rs.any fun x => x.lane == l)

/-- PASS_ON (R37, R371): the lanes enter TRAPVEC with their original cause. -/
def execPassOn (gid : Nat) (lanes : BitVec 64) (s : State) : Host.Outcome State Fault Refusal :=
  let rs := parkOf s gid lanes
  match Fm.get? s.groups gid with
  | none => .next s
  | some g =>
    if rs.isEmpty then .next s
    else
      .next (afterLanes (enterTraps (answered s rs) gid fun l =>
        (rs.find? fun r => r.lane == l).map fun r => { f := r.f, at_ := (r.pc, (g.lane l).prio) }) gid)

/-- A saved image is discarded: its grid ends with FAULT after a watchdog, else ABORTED (R378). -/
def discardImage (s : State) (t : Nat) : State :=
  match Fm.get? s.teams t with
  | none => s
  | some tm =>
    let s := if tm.byWatchdog then s else { s with grids := Fm.mod s.grids tm.grid fun g => { g with abort := true } }
    retireTeam (dropOps s t) t (if tm.byWatchdog then some cWatchdog else none)

/-- KILL (R371, R378): the record of a lane is answered by killing the team with its cause; without a lane, the saved image of the group's team is
discarded, whatever lanes are parked in it. -/
def execKill (k : KillTarget) (s : State) : Host.Outcome State Fault Refusal :=
  match Fm.get? s.groups k.gid with
  | none => .next s
  | some g =>
    match k.lane with
    | some l =>
      match s.parking.find? fun r => r.group == k.gid && r.lane == l with
      | some r => .next (killTeam s g.team (groupErr g 1 r.f.cause.toNat r.f.addr.toNat (pcVa r.pc)))
      | none => .next s
    | none =>
      match Fm.get? s.teams g.team with
      | none => .next s
      | some tm => if tm.phase == .saved || tm.phase == .restoring then .next (discardImage s g.team) else .next s

/-- An argument of a call: s4 to s7 as the group held them (R395). -/
def Call.arg (c : Call) (k : Nat) : Nat := ((c.args[k]?).getD 0).toNat

/-- The end of a served call: its status goes to s4 and the lanes resume at the next bundle (R177, R395). -/
def endCall (s : State) (id : Nat) (c : Call) (status : Nat) : State :=
  let s := { s with calls := Fm.del s.calls id }
  rejoin (s.modGroup c.group fun g => g.setS 4 (BitVec.ofNat 64 status)) c.group fun l => c.lanes.getLsbD l

/-- A call that the kernel does not serve is passed on as SOFTWARE (R177). -/
def passCall (s : State) (id : Nat) (c : Call) (g : Group) : State :=
  let s := { s with calls := Fm.del s.calls id }
  afterLanes (enterTraps s c.group fun l =>
    if c.lanes.getLsbD l then some { f := { cause := BitVec.ofNat 8 cSoftware, word := c.word }, at_ := (g.lane l).pair } else none) c.group

/-- A store of page-table bytes: the cached translations of its sector are dropped, and the write is accepted (R278). -/
def storePte (s : State) (phys : Nat) (enc : Option Seal) (bs : List Byte) : Reply :=
  writePhys (dropWalks s (secOf phys)) (homeDie (secOf phys)) phys enc bs 0 0

/-- Store the low halves of several leaves: all of them, or none while one must wait. -/
def storeLeaves (s : State) (ls : List (Leaf × Nat)) : Reply := whole s (ls.map fun l t => storePte t l.1.at_ l.1.enc (leBytes 4 l.2))

/-- The leaves of a range, each with the low 32 bits that it holds; none where a page is not the world's (R395). -/
def rangeLeaves (s : State) (die world start len : Nat) : Option (List (Leaf × Nat)) :=
  let one (acc : Option (List (Leaf × Nat))) (k : Nat) : Option (List (Leaf × Nat)) :=
    match acc, xlate s die world ((start + 65536 * k) % 2 ^ 64) with
    | some l, .ok x =>
      if nfield x.d 8 11 != world then none
      else if l.any fun e => e.1.at_ == x.leaf.at_ then some l
      else some (l ++ [(x.leaf, x.leaf.pte % 2 ^ 32)])
    | _, _ => none
  (List.range (len / 65536)).foldl one (some [])

/-- The leaves of a range that translate now, each with the low 32 bits that it holds. -/
def presentLeaves (s : State) (die world start len : Nat) : List (Leaf × Nat) :=
  (List.range (len / 65536)).foldl (fun l k => match xlate s die world ((start + 65536 * k) % 2 ^ 64) with
    | .ok x => if l.any fun e => e.1.at_ == x.leaf.at_ then l else l ++ [(x.leaf, x.leaf.pte % 2 ^ 32)]
    | .error _ => l) []

/-- The start and the length of the whole pages that a range lies in: those whose entries PLMOVE stores (R293 step 2, R395). -/
def pageSpan (s : State) (die world start len : Nat) : Nat × Nat :=
  let size (va : Nat) : Nat := match xlate s die world (va % 2 ^ 64) with
    | .ok x => pageSize x.leaf.level
    | .error _ => 65536
  let first := start - start % size start
  let last := start + len - 65536
  (first, last - last % size last + size last - first)

/-- A leaf's low half with TRANSIT and EXEC set (R275, R293). -/
def withExec (low exec : Nat) (transit : Bool) : Nat :=
  low % 2 ^ 7 + (if transit then 2 ^ 7 else 0) + exec % 2 ^ 16 * 2 ^ 8 + low / 2 ^ 24 * 2 ^ 24

/-- The instance that owns a leaf, the one of its line's home slice, runs no older version than the caller's, or, before the call is in service, the
same: the message to it would be answered RETRY (R366, R394; log entry 43). -/
def leafVersions (s : State) (c : Call) (ls : List (Leaf × Nat)) : Bool :=
  ls.all fun l =>
    let v := versionOf s (sliceOf (secOf l.1.at_))
    if c.stage == 0 then v == versionOf s c.slice else versionOf s c.slice ≤ v

/-- PLMOVE (R293, R395): its checks in the order 3, 1, 2; then the store with TRANSIT, PLSYNC over the leaves' pages, the store without, into the
leaves that are still there (log entry 31). -/
def servePlmove (s : State) (id : Nat) (c : Call) (g : Group) : State :=
  let die := g.core / 48
  let world := worldOf s g
  let start := c.arg 0
  let len := c.arg 1
  let ex := c.arg 2 % 65536
  if c.stage == 0 then
    if start % 65536 != 0 || len % 65536 != 0 then endCall s id c 3
    else if len == 0 then endCall s id c 0
    else
      match rangeLeaves s die world start len with
      | none => endCall s id c 1
      | some ls =>
        if !execValid (ex / 2 ^ 13) (ex % 2 ^ 11) || ex / 2 ^ 11 % 4 == 3 then endCall s id c 2
        else if !leafVersions s c ls then s
        else
          let p := pageSpan s die world start len
          let r := storeLeaves s (ls.map fun l => (l.1, withExec l.2 ex true))
          if !r.ok then r.s
          else
            let (s, op) := newOp r.s { group := none, world := world, core := die * 48, die := die, kind := .plsync (syncTargets r.s world p.1 p.2) }
            { s with calls := Fm.put s.calls id { c with stage := 1, sync := op } }
  else if (Fm.get? s.ops c.sync).isSome then s
  else
    let ls := presentLeaves s die world start len
    if !leafVersions s c ls then s
    else
      let r := storeLeaves s (ls.map fun l => (l.1, withExec l.2 ex false))
      if !r.ok then r.s else endCall r.s id c 0

/-- Extend a measurement register (R363). -/
def extendWorld (s : State) (world k : Nat) (value : List Byte) : State :=
  { s with worlds := Fm.mod s.worlds world fun w => { w with mrs := w.mrs.set k (extendMr ((w.mrs[k]?).getD 0) value) } }

/-- RECORD (R395): MR3 is extended with the bytes, which are read past no engine's mark (R250). -/
def serveRecord (s : State) (id : Nat) (c : Call) (g : Group) : State :=
  let len := c.arg 1
  if len == 0 || 4096 < len then endCall s id c 1
  else if worldMarked s (g.core / 48) (worldOf s g) (c.arg 0) len then s
  else
    match worldBytes s (g.core / 48) (worldOf s g) (c.arg 0) len with
    | .error _ => endCall s id c 1
    | .ok b => endCall (extendWorld s (worldOf s g) 3 b) id c 0

/-- The places of a code range, page by page; none where it is not CODE or is out of range (R364). -/
def codePieces (s : State) (die world va len : Nat) : Option (List (Nat × Nat × Nat)) :=
  (pagePieces (len / 65536 + 2) va len).foldl (fun (acc : Option (List (Nat × Nat × Nat))) p =>
    match acc, xlate s die world p.1 with
    | some l, .ok x => if x.code && (portCauses x.d world x.o p.2 .kernel).isEmpty then some (l ++ [(x.d, x.o, p.2)]) else none
    | _, _ => none) (some [])

/-- The writes of some bytes to places, one after the other. -/
def pieceWrites : List (Nat × Nat × Nat) → List Byte → List (State → Reply)
  | [], _ => []
  | (d, o, n) :: rest, b => (fun t => writeRange t d o (b.take n) homeDie 0 0) :: pieceWrites rest (b.drop n)

/-- CODEREP (R364): the ranges are checked, the bytes copied, MR2 extended; the lanes resume once the writes have passed their
visibility times by 2 ticks. -/
def serveCoderep (s : State) (id : Nat) (c : Call) (g : Group) : State :=
  let die := g.core / 48
  let world := worldOf s g
  let va := c.arg 0
  let src := c.arg 1
  let len := c.arg 2
  if c.stage == 1 then (if c.sync + 2 < dialOf s (c.slice / 3) then endCall s id c 0 else s)
  else if len % 4 != 0 || len == 0 || 2 ^ 24 < len then endCall s id c 1
  else
    match codePieces s die world va len with
    | none => endCall s id c 1
    | some ps =>
      let plain := (pagePieces (len / 65536 + 2) src len).all fun p => match xlate s die world p.1 with
        | .ok x => nfield x.d 5 3 == 0
        | .error _ => false
      if worldMarked s die world src len then s
      else
      match worldBytes s die world src len with
      | .error _ => endCall s id c 2
      | .ok b =>
        if !plain then endCall s id c 2
        else
          let r := whole s (pieceWrites ps b)
          if !r.ok then r.s
          else
            let s := extendWorld r.s world 2 (sha384Bytes (leBytes 8 va ++ leBytes 8 len ++ b))
            { s with calls := Fm.put s.calls id { c with stage := 1, sync := r.stamp } }

/-- The live switch has come to a slice that still runs the old version: its new calls wait (R366). -/
def switchPends (s : State) (slice : Nat) : Bool :=
  versionOf s slice != s.version && (List.range slice).all fun k => versionOf s k == s.version

/-- SERVICE_CALL (R177, R395): the call is served once for its bundle, or passed on; a new one waits while its slice is to switch (R366). -/
def execServiceCall (call : Nat) (s : State) : Host.Outcome State Fault Refusal :=
  match Fm.get? s.calls call with
  | none => .next s
  | some c =>
    if c.stage == 0 && switchPends s c.slice then .next s
    else
    match Fm.get? s.groups c.group with
    | none => .next { s with calls := Fm.del s.calls call }
    | some g =>
      match c.code with
      | 48 => .next (servePlmove s call c g)
      | 50 => .next (serveRecord s call c g)
      | 62 => .next (serveCoderep s call c g)
      | _ => .next (passCall s call c g)

/-- The bits of a descriptor that are no reserved field, which ignores writes (R7, R193). -/
def descBits : BitVec 256 := BitVec.ofNat 256 (2 ^ 19 - 1 + 2 ^ 20 * 15 + 2 ^ 32 * (2 ^ 24 - 1) + 2 ^ 64 * (2 ^ 26 - 1) + 2 ^ 128 * (2 ^ 27 - 1))

/-- The bits of a page-table entry that are no reserved field (R7, R275). -/
def pteBits : BitVec 128 := BitVec.ofNat 128 (2 ^ 27 - 1 + 2 ^ 64 * (2 ^ 64 - 1))

/-- A descriptor is stored, and the memory ports drop it (R182, R192); as CODE becomes 1 for a usable buffer, which held no CODE at the same place
for the same world, MR1 of the world is extended with the launch descriptors that the loader hands over with it, of 256 bytes each, and with the
buffer's contents (R335, R363; log entry 31). -/
def storeDesc (s : State) (i : Nat) (v : BitVec 256) (launches : List (List Byte)) : State :=
  let old := descOf s i
  let v := v &&& descBits
  let s := { s with desc := Fm.put s.desc i v, dcache := s.dcache.filter fun e => e.2 != i }
  let d := v.toNat
  let code (x : Nat) : Bool := descUsable x && nfield x 4 1 == 1
  if code d && !(code old && old % 2 ^ 256 / 2 ^ 8 == d / 2 ^ 8) then
    ((launches.filter fun b => b.length == 256) ++ [bufBytes s i 0 (descSize d)]).foldl (fun s b => extendWorld s (nfield d 8 11) 1 b) s
  else s

/-- A journal's place is fit: 2^j entries of 64 bytes, j from 6 to 20, in a JOURNAL buffer of the world (R315, R342). -/
def journalFit (s : State) (world buf log : Nat) : Bool :=
  let d := descOf s buf
  6 ≤ log && log ≤ 20 && descUsable d && nfield d 5 3 == 3 && nfield d 8 11 == world && 64 * 2 ^ log ≤ descSize d

/-- A queue is enabled with its ring and its journal, which must be fit, or disabled (R387, R391, R396, R342). -/
def setQueue (s : State) (q world : Nat) (on : Bool) (buf slots jb jl : Nat) : State :=
  if !on then { s with queues := Fm.del s.queues q }
  else if !journalFit s world jb jl then s
  else
    { s with queues := Fm.put s.queues q { world := world, buf := buf, slots := slots },
             journals := Fm.put s.journals q { world := world, buf := jb, log := jl } }

/-- A save area is fit: a usable NORMAL buffer of the world with R = 0 and W = 0 (R375). -/
def saveFit (s : State) (world buf : Nat) : Bool :=
  let d := descOf s buf
  descUsable d && nfield d 5 3 == 0 && nfield d 1 2 == 0 && nfield d 8 11 == world

/-- A range of a die's scratchpad reads 0, with no mark, under whatever key is used next (R184, R359). -/
def clearDie (s : State) (die off len : Nat) : State :=
  let out (unit k : Nat) : Bool := k < (die * 2 ^ 25 + off) / unit || (die * 2 ^ 25 + off + len) / unit ≤ k
  { s with dieScr := Mem.clear s.dieScr (die * 2 ^ 25 + off) len, dieBad := s.dieBad.filter (out 128), dieEncs := s.dieEncs.filter fun e => out 32 e.1 }

/-- A die window is granted, zeroed, or taken back (R184). -/
def setWindow (s : State) (die world base units : Nat) : State :=
  if 7 < die || 512 < base + units then s
  else
    let s := if units == 0 then s else clearDie s die (base * 65536) (units * 65536)
    { s with worlds := Fm.mod s.worlds world fun w =>
        { w with windows := if units == 0 then Fm.del w.windows die else Fm.put w.windows die (base * 65536, units * 65536) } }

/-- The slice whose instance alone stores a piece of state (R394): a page-table line's home, descriptor i mod 24, the slice of world mod 24 for
what belongs to a world; none where R394 names no owner. -/
def storeOwner (s : State) (k : KernelStore) : Option Nat :=
  match k with
  | .pte buf off _ => some (sliceOfDesc (descOf s buf) off)
  | .descriptor i _ _ => some (i % 24)
  | .hostQueue _ world .. | .aperture _ _ _ world .. | .peer world .. | .saveArea world .. => some (world % 24)
  | .serviceQueue slice .. | .serviceTail slice _ => some slice
  | .data .. | .dieWindow .. | .plsync .. | .serve _ => none

/-- What a store of a slice kernel does, by the instance that owns the state (R278, R394). -/
def kernelStore (s : State) (k : KernelStore) : Reply :=
  let done (s : State) : Reply := { s := s, ok := true }
  match k with
  | .pte buf off v =>
    let d := descOf s buf
    if !descUsable d || nfield d 5 3 != 1 || off % 16 != 0 || descSize d < off + 16 then done s
    else storePte s (physOf d off) (encOf s d off) (leBytes 16 (v &&& pteBits).toNat)
  | .descriptor i v ls => done (if i < 2 ^ 20 then storeDesc s i v ls else s)
  | .hostQueue port world on buf slots jb jl =>
    done (if 1 < port || 2047 < world || (on && !worldLive s world) then s else setQueue s (port * 2048 + world) world on buf slots jb jl)
  | .serviceQueue slice buf slots jb jl => done (if 23 < slice then s else setQueue s (4096 + slice) 0 true buf slots jb jl)
  | .serviceTail slice tail => done (if 23 < slice then s else setTail s (4096 + slice) tail)
  | .data world buf off bs =>
    if !(portCauses (descOf s buf) world off bs.length .store).isEmpty || nfield (descOf s buf) 4 1 == 1 then done s
    else writeBuf s buf off bs
  | .aperture port i on world buf off =>
    done (if 1 < port || 63 < i then s
      else { s with apertures := Fm.put s.apertures (port * 64 + i) { enabled := on, world := world, buf := buf, off := off } })
  | .peer world i valid a m =>
    done { s with worlds := Fm.mod s.worlds world fun w =>
      { w with peers := if valid && i < 2048 then Fm.put w.peers i (a, m) else Fm.del w.peers i } }
  | .dieWindow die world base units => done (setWindow s die world base units)
  | .plsync die world start len =>
    done (if len == 0 then s else (newOp s { group := none, world := world, core := die * 48, die := die,
                                             kind := .plsync (syncTargets s world start len) }).1)
  | .saveArea world die buf =>
    done (if 7 < die || !saveFit s world buf then s
      else { s with worlds := Fm.mod s.worlds world fun w => { w with saves := Fm.put w.saves die buf } })
  | .serve _ => done s

/-- An instance answers RETRY to every message in another version than its own, and the sender sends it again in the sender's version (R366). -/
def retryMsgs (s : State) (slice : Nat) : State :=
  { s with kmsgs := s.kmsgs.map fun m =>
      if m.to_ == slice && m.version != versionOf s slice then { m with version := versionOf s m.sender } else m }

/-- The oldest message that an instance can act on: one in its version, and the oldest of its sender, for messages between two instances are
served in the order sent (R394). -/
def nextMsg (s : State) (slice : Nat) : Option KernelMsg :=
  s.kmsgs.find? fun m => m.to_ == slice && m.version == versionOf s slice &&
    (s.kmsgs.find? fun x => x.to_ == slice && x.sender == m.sender) == some m

/-- An instance acts on its next message, or answers RETRY (R366, R394). -/
def serveMsg (s : State) (slice : Nat) : State :=
  let t := retryMsgs s slice
  match nextMsg t slice with
  | none => t
  | some m =>
    let r := kernelStore t m.store
    if r.ok then { r.s with kmsgs := r.s.kmsgs.erase m } else r.s

/-- SLICE_KERNEL_STORE (R278, R394): the store of a slice kernel to state that its instance owns; its sender is an instance that needs the store and,
where another one owns the state, sends it a message in its own version (R366). -/
def execSliceKernelStore (a : KernelAct) (s : State) : Host.Outcome State Fault Refusal :=
  let k := a.store
  match k, a.sender, storeOwner s k with
  | .serve slice, _, _ => .next (serveMsg s slice)
  | _, some n, some o =>
    .next (if n == o then (kernelStore s k).s
      else if 23 < n then s
      else { s with kmsgs := s.kmsgs ++ [{ sender := n, to_ := o, version := versionOf s n, store := k }] })
  | _, _, _ => .next (kernelStore s k).s

end Sys2Proof.Machine
end

