-- ==== Sys2Proof/Machine/Errs.lean ====
section
/-! DEFINITION. ECC errors, fatal die errors, the syndrome registers, spare layers, links, the clock (spec/01 R19; spec/10 R185, R191, R199
to R202; spec/17 R354, R355; spec/19 R380 to R385; spec/20 R397). -/

namespace Sys2Proof.Machine

/-- DSYN0 of a first event (R385). -/
def dsynWord (fatal : Bool) (cls unit time : Nat) : DWord :=
  BitVec.ofNat 64 (1 + (if fatal then 2 else 0) + cls % 16 * 4 + unit % 32 * 64 + time % 2 ^ 48 * 2 ^ 16)

/-- A later event while VALID is set: MORE, up to 31 (R385). -/
def dsynMore (w : DWord) : DWord := if nfield w.toNat 11 5 == 31 then w else w + 2048

/-- An event reaches the syndrome registers of a die, 8 and 9 for the I/O dies (R385). -/
def dsynNote (s : State) (die : Nat) (fatal : Bool) (cls unit : Nat) (detail : DWord) : State :=
  let old := Fm.getD s.dsyn die (0, 0)
  let new := if old.1.getLsbD 0 then (dsynMore old.1, old.2) else (dsynWord fatal cls unit (dialOf s die), detail)
  { s with dsyn := Fm.put s.dsyn die new }

/-- A DETAIL that has no layout (R385). -/
def freeDetail (s : State) : State × DWord := ({ s with freeCtr := s.freeCtr + 1 }, Config.dsynDetail s.freeCtr)

/-- Every core and every engine stops; package reset is to follow after 10 ms (R383). -/
def stopAll (s : State) : State :=
  { s with groups := [], teams := [], ops := [], chans := [], pipes := [], cycles := [], parking := [], calls := [], posts := [], jwrites := [],
           grids := [], pends := [], loads := [], kcmds := [], kmsgs := [], replays := [], cmds := [], cur := none, stopped := some (s.dial + 10000000) }

/-- A fatal die error (R383). -/
def fatalError (s : State) (die cls unit : Nat) (detail : DWord) : State :=
  let s := dsynNote { s with aer := s.aer + 1 } die true cls unit detail
  if s.stopped.isSome then s else stopAll s

/-- The team that holds an array of a core. -/
def arrayTeam (s : State) (core arr : Nat) : Option Nat :=
  s.teams.findSome? fun e => if holding e.2 && (match Fm.get? e.2.places core with
    | some p => p.arrays.contains arr
    | none => false) then some e.1 else none

/-- A sector takes the poison mark, in memory and wherever it is held, so that no clean eviction loses it (R209, R380). -/
def poisonSec (s : State) (sec : Nat) : State :=
  (copies s sec).foldl (fun s c => { s with l2 := Fm.put s.l2 (l2Key c.1 sec) { c.2 with poison := true } })
    { s with poison := sec :: s.poison.filter (· != sec) }

/-- A team has the state of a core: its reservation, or a group of its own that has landed there (R40, R380). -/
def onCore (s : State) (t : Nat) (tm : Team) (core : Nat) : Bool :=
  holding tm && ((Fm.get? tm.places core).isSome || s.groups.any fun e => e.2.team == t && e.2.core == core)

/-- A ticket entry's data is uncorrectable (R299, R380). -/
def poisonTicket (s : State) (key : Nat) : State :=
  let t := ticketOf s key
  if t.st == 2 then s.putTicket key { t with st := 3 }
  else if t.st == 1 || (t.st == 4 && !t.full) then s.putTicket key { t with bad := true }
  else if t.st == 4 then
    match t.red with
    | some r => (redeemPoison s r).putTicket key { gen := t.gen }
    | none => s
  else s

/-- A row's slots or sums are uncorrectable (R272). -/
def poisonRow (s : State) (key : Nat) : State :=
  let r := rowOf s key
  if r.st == 0 then s
  else postError (s.putRow key { r with poison := true }) r.world { source := 6, die := key / 16384, addr := rowWord key r.gen }

/-- The takeover of a layer starts, and is reported (R199, R201). -/
def Repair.start (r : Repair) (layer : Nat) : Repair :=
  { r with layer := layer, active := true, done := false, boundary := 0, corr := 0, notes := r.notes ++ [.takeover layer] }

/-- A layer is declared failed (R199, R202): a takeover starts, or it waits behind one, or it is served through correction because no spare is
left, which is reported. The spare itself may fail. -/
def Repair.fail (r : Repair) (layer : Nat) : Repair :=
  if layer == 16 then { r with nospare := true, notes := if r.nospare then r.notes ++ [.degraded layer] else r.notes }
  else if r.active then (if layer == r.layer || r.waiting.contains layer then r else { r with waiting := r.waiting ++ [layer] })
  else if r.nospare || r.done then { r with notes := r.notes ++ [.degraded layer] }
  else r.start layer

/-- An uncorrectable error of a layer; the second one declares it failed (R199). -/
def Repair.uncorrectable (r : Repair) (layer : Nat) : Repair :=
  let n := Fm.getD r.uncorr layer 0 + 1
  let r := { r with uncorr := Fm.put r.uncorr layer n }
  if n == 2 then r.fail layer else r

/-- A corrected error of a layer; passing the threshold declares it failed (R199); CORR counts those of the layer that is being replaced (R201). -/
def Repair.corrected (r : Repair) (stack layer : Nat) : Repair :=
  let n := Fm.getD r.corrs layer 0 + 1
  let r := { r with corrs := Fm.put r.corrs layer n,
                    corr := if r.active && r.layer == layer then min 0xFFFF (r.corr + 1) else r.corr }
  if n == Config.layerThreshold stack + 1 then r.fail layer else r

/-- Change the repair state of a stack. -/
def State.modRepair (s : State) (stack : Nat) (f : Repair → Repair) : State :=
  { s with repairs := Fm.put s.repairs stack (f (Fm.getD s.repairs stack {})) }

/-- The layer that serves a sector of a stack: the spare for what a takeover has copied (R199, R200). -/
def Repair.serves (r : Repair) (sec : Nat) : Nat :=
  let l := Config.layerOf sec % 16
  if (r.active || r.done) && l == r.layer && Config.rowOf sec % 2 ^ 22 < r.boundary then 16 else l

/-- The stack of a sector counts an error toward the layer that the sector lies in (R199, R381). -/
def hbmError (s : State) (sec : Nat) (f : Repair → Nat → Repair) : State :=
  s.modRepair (sliceOf sec) fun r => f r (r.serves sec)

/-- UNCORRECTABLE_ERROR (R380): the outcome goes by where the error strikes. -/
def execUncorrectableError (w : ErrorSite) (s : State) : Host.Outcome State Fault Refusal :=
  match w with
  | .sector sec =>
    if 24 * 2 ^ 29 ≤ sec then .next s
    else
      let t := poisonSec s sec
      .next (if (copies s sec).isEmpty then
          hbmError (dsynNote t (homeDie sec) false 8 (sliceOf sec) (BitVec.ofNat 64 (sec * 128))) sec Repair.uncorrectable
        else t)
  | .dieScratch die sec =>
    .next (if die < 8 && sec < 2 ^ 18 then { s with dieBad := (die * 2 ^ 18 + sec) :: s.dieBad.filter (· != die * 2 ^ 18 + sec) } else s)
  | .ticket slice entry => .next (if slice < 24 && entry < 4096 then poisonTicket s (slice * 4096 + entry) else s)
  | .saRow die row => .next (if die < 8 && row < 16384 then poisonRow s (die * 16384 + row) else s)
  | .coreState team core off =>
    match Fm.get? s.teams team with
    | none => .next s
    | some tm =>
      if !onCore s team tm core then .next s
      else
        .next (killTeam (dsynNote s (core / 48) false 7 (core % 48 / 8) (BitVec.ofNat 64 off)) team
          { source := 3, die := core / 48, core := core % 48, addr := off })
  | .array core arr =>
    match arrayTeam s core arr with
    | none => .next s
    | some t =>
      .next (killTeam (dsynNote s (core / 48) false 7 (core % 48 / 8) (BitVec.ofNat 64 arr)) t
        { source := 3, die := core / 48, core := core % 48, slice := arr })
  | .l1 core sec => .next { s with l1 := s.l1.filter fun f => !(f.core == core && f.sec == sec) }
  | .wcb sec =>
    match Fm.get? s.wcb sec with
    | none => .next s
    | some x => .next (if x.bytes.length < 128 then poisonSec s sec else s)
  | .layer stack layer off =>
    let sec := stack * 2 ^ 29 + off / 128
    .next (if stack < 24 && layer < 17 && off < 2 ^ 36 then
        (dsynNote (poisonSec s sec) (homeDie sec) false 8 stack (BitVec.ofNat 64 (stack * 2 ^ 36 + off))).modRepair stack fun r => r.uncorrectable layer
      else s)
  | .onDie _ => .next s
  | .fatal die cls unit detail =>
    .next (if die < 8 && 1 ≤ cls.toNat && cls.toNat ≤ 4 then fatalError s die cls.toNat unit.toNat detail else s)

/-- Count a corrected on-die error for management (R381). -/
def countOnDie (s : State) (die : Nat) : State := if 10 ≤ die then s else { s with onDie := Fm.put s.onDie die (Fm.getD s.onDie die 0 + 1) }

/-- CORRECTED_ERROR (R381): no result changes; HBM errors count toward the layer's threshold, on-die errors for management. -/
def execCorrectedError (w : ErrorSite) (s : State) : Host.Outcome State Fault Refusal :=
  match w with
  | .layer stack layer _ => .next (if stack < 24 && layer < 17 then s.modRepair stack fun r => r.corrected stack layer else s)
  | .sector sec =>
    .next (if 24 * 2 ^ 29 ≤ sec then s
      else if (copies s sec).isEmpty then hbmError s sec fun r l => r.corrected (sliceOf sec) l
      else countOnDie s (homeDie sec))
  | .dieScratch die _ => .next (countOnDie s die)
  | .ticket slice _ => .next (countOnDie s (slice / 3))
  | .saRow die _ => .next (countOnDie s die)
  | .coreState _ core _ => .next (countOnDie s (core / 48))
  | .array core _ => .next (countOnDie s (core / 48))
  | .l1 core _ => .next (countOnDie s (core / 48))
  | .wcb sec => .next (countOnDie s (homeDie sec))
  | .onDie die => .next (countOnDie s die)
  | .fatal die _ _ _ => .next (countOnDie s die)

/-- One row is copied: B advances; after the last row the spare serves the layer in full, and no spare is left (R200 to R202). -/
def Repair.copyRow (r : Repair) : Repair :=
  if !r.active then r
  else if r.boundary + 1 < 2 ^ 22 then { r with boundary := r.boundary + 1 }
  else { r with boundary := 2 ^ 22, active := false, done := true, nospare := true, waiting := [],
                notes := r.notes ++ r.waiting.map RepairNote.degraded }

/-- LAYER_COPY (R200). -/
def execLayerCopy (stack : Nat) (s : State) : Host.Outcome State Fault Refusal :=
  .next (match Fm.get? s.repairs stack with
    | some r => if r.active then s.modRepair stack Repair.copyRow else s
    | none => s)

/-- REFRESH (R355): no result bit changes. -/
def execRefresh (_stack _chan : Nat) (s : State) : Host.Outcome State Fault Refusal := .next s

/-- SCRUB (R355, R381): corrected data is written back; no result bit changes. -/
def execScrub (_stack _chan _row : Nat) (s : State) : Host.Outcome State Fault Refusal := .next s

/-- The die that receives a direction of a link: direction `2 × link` runs to the second die. -/
def linkTo (dir : Nat) : Nat :=
  let d := (linkDies[dir / 2]?).getD (0, 0)
  if dir % 2 == 0 then d.2 else d.1

/-- A direction after a resync (R382): both dictionaries are empty, and the flits after the acknowledged one go again under their own numbers, so
that no message is lost, duplicated or reordered. -/
def Link.resync (l : Link) (ok : Bool) : Link := { l with count := l.count + 1, fails := if ok then 0 else l.fails + 1, dict := [] }

/-- DICTIONARY_RESYNC (R382): the count rises; the 16th failure in a row is a fatal die error, with the link and the last sequence number that was
acknowledged as its DETAIL (R385; log entry 32). -/
def execDictionaryResync (dir : Nat) (ok : Bool) (s : State) : Host.Outcome State Fault Refusal :=
  if 28 ≤ dir then .next s
  else
    let l := (Fm.getD s.links dir {}).resync ok
    let s := { s with links := Fm.put s.links dir l }
    .next (if l.fails < 16 then s else fatalError s (linkTo dir) 5 (dir / 2) (BitVec.ofNat 64 (dir / 2 + l.acked * 2 ^ 8)))

/-- The counters of a unit are copied where its interval is over (R354). -/
def sampleUnit (s : State) (unit : Nat) : State :=
  match Fm.get? s.pmus unit with
  | none => s
  | some p =>
    if p.ival == 0 || s.dial < p.last + p.ival then s
    else { s with pmus := Fm.put s.pmus unit { p with snap := (List.range 8).map (fun k => Fm.getD p.cnt k 0), last := s.dial } }

/-- PERFORMANCE_SAMPLING (R354): at each interval the counters are copied. -/
def execPerformanceSampling (unit : Nat) (s : State) : Host.Outcome State Fault Refusal := .next (sampleUnit s unit)

/-- CLOCK_STEP (R19): 25 MHz down to 1,200 or up to 2,100; issue is gated only at the floor. -/
def execClockStep (c : ClockMove) (s : State) : Host.Outcome State Fault Refusal :=
  match c with
  | .lower => .next (if 1225 ≤ s.clock then { s with clock := s.clock - 25 } else s)
  | .raise => .next (if s.clock ≤ 2075 && !s.gated then { s with clock := s.clock + 25 } else s)
  | .gate => .next (if s.clock == 1200 then { s with gated := true } else s)
  | .ungate => .next { s with gated := false }

/-- POWER_OR_THERMAL_TRIP (R397): a fatal die error of class 6, recorded on I/O die 0 (log entry 12). -/
def execPowerOrThermalTrip (s : State) : Host.Outcome State Fault Refusal :=
  let (s, d) := freeDetail s
  .next (fatalError s 8 6 0 d)

/-- DSYN0_CLEAR (R385): management clears VALID, and with it both registers. -/
def execDsyn0Clear (die : Nat) (s : State) : Host.Outcome State Fault Refusal := .next { s with dsyn := Fm.del s.dsyn die }

/-- POWER_CAP_SET (R397): a cap from 1,500 W to the fused limit. -/
def execPowerCapSet (watts : Nat) (s : State) : Host.Outcome State Fault Refusal :=
  .next (if 1500 ≤ watts && watts ≤ 4500 then { s with cap := watts } else s)

/-- PORT_MODE_SET (R387): effective at the next package reset. -/
def execPortModeSet (port : Nat) (cxl : Bool) (s : State) : Host.Outcome State Fault Refusal :=
  .next (if port < 2 then { s with portsNext := s.portsNext.set port cxl } else s)

end Sys2Proof.Machine
end

