-- ==== Sys2Proof/Machine/HostPort.lean ====
section
/-! DEFINITION. The host ports: doorbells, the effect window, BAR2, TDIs, CXL snoops, SPDM, registers without a row of their own, in-network
reductions (spec/00 R7; spec/17 R354; spec/18 R357, R361, R362, R367; spec/19 R383, R384; spec/20 R387 to R393, R398, R399). -/

namespace Sys2Proof.Machine

/-- A number of a queue, a TDI, a session or a requester of a host port. -/
def portKey (port w : Nat) : Nat := port * 2048 + w

/-- A function reaches a queue's doorbell and effect word: the physical function every one, a virtual function its own (R389). -/
def reaches (fn w : Nat) : Bool := w < 2048 && (fn == 0 || fn == w)

/-- DOORBELL_WRITE (R391, R392): the tail count of a queue, once every earlier BAR2 write of the requester has passed its V by 2 ticks. -/
def execDoorbellWrite (port fn offset : Nat) (tail : BitVec 64) (s : State) : Host.Outcome State Fault Refusal :=
  let w := (offset - 0x100000) / 4096
  if 1 < port || offset < 0x100000 || offset % 4096 != 0 || !reaches fn w then .next s
  else if s.posted.any (fun p => p.port == port && p.fn == fn) || !passed s 8 (Fm.get? s.hostV (portKey port fn)) then .next s
  else .next (setTail s (portKey port w) tail)

/-- ARM_WRITE (R390): the requester's entry is replaced, or else the oldest of 64 gives way. -/
def execArmWrite (port requester : Nat) (value : BitVec 64) (s : State) : Host.Outcome State Fault Refusal :=
  if 1 < port then .next s
  else
    let rest := (Fm.getD s.arms port []).filter fun a => a.who != requester
    .next { s with arms := Fm.put s.arms port ({ who := requester, off := nfield value.toNat 0 16, at_ := s.dial } :: rest.take 63) }

/-- The effect word of an entry, or of a queue that has none to report (R390). -/
def effectWord (e : Option (Nat × Nat)) (taken : Bool) : Nat :=
  match e with
  | none => 2 ^ 62
  | some (seq, status) => seq % 2 ^ 32 + status % 256 * 2 ^ 32 + if taken then 2 ^ 63 else 0

/-- The read of an effect word (R390): the oldest final entry that is not reported; a valid arm is consumed and the cursor moves. -/
def readEffect (s : State) (port requester offset w : Nat) : State :=
  let arms := Fm.getD s.arms port []
  let armed := arms.any fun a => a.who == requester && a.off == offset && s.dial ≤ a.at_ + 1000
  let q := portKey port w
  let e := ((Fm.get? s.queues q).map fun x => x.finals).bind (leastBy fun x : Nat × Nat => x.1)
  let s := { s with reply := some (leBytes 8 (effectWord e armed)) }
  if !armed then s
  else
    { s with arms := Fm.put s.arms port (arms.filter fun a => a.who != requester),
             queues := match e with
               | some x => Fm.mod s.queues q fun y => { y with finals := y.finals.filter (· != x) }
               | none => s.queues }

/-- EFFECT_WINDOW_READ (R389, R390): the word of a queue, the identity page, or 0 elsewhere. -/
def execEffectWindowRead (port fn requester offset : Nat) (s : State) : Host.Outcome State Fault Refusal :=
  let w := (offset - 0x4000) / 8
  if 1 < port then .next s
  else if offset < 0x1000 then
    .next { s with reply := some ((List.range 8).map fun k => Config.identityByte s.clock s.boot.current.digest (offset + k)) }
  else if 0x4000 ≤ offset && offset % 8 == 0 && reaches fn w then .next (readEffect s port requester offset w)
  else .next { s with reply := some (leBytes 8 0) }

/-- The state of a TDI (R361). -/
def tdiOf (s : State) (port w : Nat) : Nat := Fm.getD s.tdis (portKey port w) 0

/-- A TDI enters ERROR (R362). -/
def tdiError (s : State) (port w : Nat) : State := { s with tdis := Fm.put s.tdis (portKey port w) 3, reply := none }

/-- An IDE integrity failure on the stream of a function's TDI (R362): there is one for each world from 1 to 2,047 (R361). -/
def ideFailure (s : State) (port fn : Nat) : State :=
  if 1 ≤ fn && fn ≤ 2047 then tdiError s port fn else { s with reply := none }

/-- The world holds an IDE stream of the port (R357, R361). -/
def hasStream (s : State) (port w : Nat) : Bool := (Fm.getD s.ides port []).contains w

/-- The aperture that a BAR2 request falls into, and the offset in its buffer (R392). -/
def apertureOf (s : State) (port fn offset n : Nat) : Option (Nat × Nat) :=
  match Fm.get? s.apertures (port * 64 + offset / 2 ^ 30) with
  | none => none
  | some p =>
    let ok := p.enabled && p.world == fn && (Fm.getD s.keys fn {}).st != 0 && offset < 2 ^ 36 && offset % 2 ^ 30 + n ≤ 2 ^ 30
    if ok then some (p.buf, offset % 2 ^ 30 + p.off) else none

/-- The buffer and offset that a BAR2 request reaches (R196, R392); none where it completes as Unsupported Request. -/
def apertureAt (s : State) (port fn offset n : Nat) (a : Access) : Option (Nat × Nat) :=
  (apertureOf s port fn offset n).bind fun x => if (portCauses (descOf s x.1) fn x.2 n a).isEmpty then some x else none

/-- The sectors that a range of a buffer touches. -/
def bufSecs (s : State) (buf off n : Nat) : List Nat :=
  if n == 0 then []
  else (List.range ((off + n - 1) / 128 - off / 128 + 1)).map fun k => secOf (physOf (descOf s buf) ((off / 128 + k) * 128))

/-- The host caches a sector through CXL.mem: a writing owner goes to O or S as for a Read (R244, R388). -/
def shareHost (s : State) (port sec : Nat) : State :=
  let down (x : L2Sec) : L2Sec := { x with st := if x.st == .m then .o else if x.st == .e then .s else x.st }
  let s := (copies s sec).foldl (fun s c => { s with l2 := Fm.put s.l2 (l2Key c.1 sec) (down c.2) }) s
  { s with hostShare := (port, sec) :: s.hostShare.filter (· != (port, sec)) }

/-- The bytes of a sector of a buffer that a host read returns, as a read at the sector's home; those of an uncorrectable sector are left
open (R209). -/
def hostReadPart (s : State) (d o n : Nat) : List Byte :=
  let p := physOf d o
  if poisonAt s (homeDie (secOf p)) (secOf p) then (List.range n).map fun k => Config.poisonByte s.freeCtr (p + k)
  else peek s (homeDie (secOf p)) (encOf s d o) p n

/-- The reads of some sectors at their homes, all of them at once, or none while one must wait (R244, R250). -/
def operandReads (s : State) (ps : List Nat) : Reply :=
  ps.foldl (fun (r : Reply) p => if !r.ok then r else operandRead r.s p) { s := s, ok := true }

/-- The bytes that a BAR2 read returns, as reads at the sectors' homes, with no other effect (R392); a CXL.mem read keeps the sectors (R388). -/
def hostRead (s : State) (port buf off n : Nat) (cxl : Bool) : State :=
  let d := descOf s buf
  let pieces := secPieces (n / 128 + 2) off n
  let r := operandReads s (pieces.map fun p => physOf d p.1)
  if !r.ok then r.s
  else
    let secs := pieces.map fun p => secOf (physOf d p.1)
    let bs := pieces.flatMap fun p => hostReadPart r.s d p.1 p.2
    let t := secs.foldl (fun t x => readDone t x) { r.s with reply := some bs, freeCtr := r.s.freeCtr + 1 }
    if cxl then secs.foldl (fun t x => shareHost t port x) t else t

/-- A CXL.mem access needs a port in CXL mode (R388). -/
def modeOk (s : State) (port : Nat) (cxl : Bool) : Bool := !cxl || (s.ports[port]?).getD false

/-- BAR2_READ (R362, R388, R392). -/
def execBar2Read (port fn offset n : Nat) (how : HostAccess) (s : State) : Host.Outcome State Fault Refusal :=
  if 1 < port || !modeOk s port how.cxl then .next { s with reply := none }
  else
    match how.ide with
    | .broken => .next (ideFailure s port fn)
    | .none => .next { s with reply := none }
    | .stream =>
      if tdiOf s port fn != 2 || !hasStream s port fn then .next { s with reply := none }
      else
        match apertureAt s port fn offset n .hostRead with
        | none => .next { s with reply := none }
        | some (buf, o) => .next (hostRead s port buf o n how.cxl)

/-- A host's write of its own cached sectors through CXL.mem gives up its copies (R388). -/
def unshare (s : State) (port : Nat) (secs : List Nat) : State :=
  { s with hostShare := s.hostShare.filter fun e => !(e.1 == port && secs.contains e.2) }

/-- A BAR2 request falls into a buffer of measured code of its world (R362, R363). -/
def reachesCode (s : State) (port fn offset n : Nat) : Bool :=
  match apertureOf s port fn offset n with
  | some (buf, _) =>
    let d := descOf s buf
    nfield d 0 1 == 1 && nfield d 4 1 == 1 && nfield d 8 11 == fn
  | none => false

/-- A BAR2 write that passed: a write of the world's host agent; the requester's latest visibility time is kept (R392). One that must wait, or that
an earlier one of its requester is waiting before, stays posted. -/
def hostWrite (s : State) (p : Posted) (buf o : Nat) : State :=
  let late : State := if s.posted.contains p then s else { s with posted := s.posted ++ [p] }
  match s.posted.find? fun q => q.port == p.port && q.fn == p.fn with
  | some q => if q == p then go { s with posted := s.posted.erase p } else late
  | none => go s
where
  go (s : State) : State :=
    let r := writeBuf (if p.cxl then unshare s p.port (bufSecs s buf o p.bytes.length) else s) buf o p.bytes
    if !r.ok then { r.s with posted := p :: r.s.posted }
    else { r.s with hostV := Fm.put r.s.hostV (portKey p.port p.fn) (max (Fm.getD r.s.hostV (portKey p.port p.fn) 0) r.stamp) }

/-- BAR2_WRITE (R362, R388, R392): a write that is refused leaves the posted ones too. -/
def execBar2Write (port fn offset : Nat) (how : HostAccess) (bytes : List Byte) (s : State) : Host.Outcome State Fault Refusal :=
  let p : Posted := { port := port, fn := fn, off := offset, cxl := how.cxl, bytes := bytes }
  let gone : State := { s with posted := s.posted.erase p }
  if 1 < port || !modeOk s port how.cxl then .next { gone with reply := none }
  else
    match how.ide with
    | .broken => .next (ideFailure gone port fn)
    | .none => .next (if tdiOf s port fn == 2 then tdiError gone port fn else { gone with reply := none })
    | .stream =>
      if tdiOf s port fn != 2 || !hasStream s port fn then .next { gone with reply := none }
      else if reachesCode s port fn offset bytes.length then .next (tdiError gone port fn)
      else
        match apertureAt s port fn offset bytes.length .hostWrite with
        | none => .next { gone with reply := none }
        | some (buf, o) => .next (hostWrite s p buf o)

/-- HOST_PORT_RESET (R384): the port's TDIs return to CONFIG_UNLOCKED, and its IDE streams go with what was posted. -/
def execHostPortReset (port : Nat) (s : State) : Host.Outcome State Fault Refusal :=
  .next { s with posted := s.posted.filter (fun p => p.port != port), tdis := s.tdis.filter (fun e => e.1 / 2048 != port), ides := Fm.del s.ides port }

/-- BACK_INVALIDATION_SNOOP_ANSWER (R388): the host no longer holds the sector. -/
def execBackInvalidationSnoopAnswer (port sec : Nat) (s : State) : Host.Outcome State Fault Refusal :=
  .next { s with hostShare := s.hostShare.filter fun e => !(e.1 == port && e.2 == sec) }

/-- The IDE streams of a port with one for a world: it keeps its own, or takes a free one of 64 (R357, R361; log entry 40). -/
def takeStream (l : List Nat) (w : Nat) : Option (List Nat) :=
  if l.contains w then some l else if l.length < 64 then some (w :: l) else none

/-- TDISP_REQUEST (R361, R362): the host TSM's messages travel in the open session of the TDI. Its IDE stream is set up as the TDI is locked, and
ends as it is unlocked (log entry 40). -/
def execTdispRequest (port world : Nat) (r : TdispMessage) (s : State) : Host.Outcome State Fault Refusal :=
  let k := portKey port world
  let to_ (n : Nat) : State := { s with tdis := Fm.put s.tdis k n, reply := some [] }
  if 1 < port || world == 0 || 2047 < world || (Fm.getD s.sessions k {}).phase != 2 then .next { s with reply := none }
  else
    match r with
    | .lock =>
      match tdiOf s port world, takeStream (Fm.getD s.ides port []) world with
      | 0, some l => .next { to_ 1 with ides := Fm.put s.ides port l }
      | _, _ => .next { s with reply := none }
    | .start => .next (if tdiOf s port world == 1 then to_ 2 else { s with reply := none })
    | .unlock => .next { to_ 0 with ides := Fm.put s.ides port ((Fm.getD s.ides port []).filter (· != world)) }

/-- The session of the management endpoint, beside those of the TDIs (R398). -/
def mgmtSession : Nat := 4096

/-- An SPDM request that is answered moves its session on; one that comes out of order is refused (R361, R398; log entry 13). -/
def spdm (s : State) (k : Nat) (ok : Session → Bool) (f : Session → Session) : State :=
  let x := Fm.getD s.sessions k {}
  if k ≤ mgmtSession && ok x then { s with sessions := Fm.put s.sessions k (f x), reply := some [] } else { s with reply := none }

/-- The connection is negotiated. -/
def Session.ready (x : Session) : Bool := x.conn == 3

/-- GET_VERSION (R361): it starts the connection anew. -/
def execGetVersion (session : Nat) (s : State) : Host.Outcome State Fault Refusal :=
  .next (spdm s session (fun _ => true) fun _ => { conn := 1, phase := 0 })

/-- GET_CAPABILITIES (R361). -/
def execGetCapabilities (session : Nat) (s : State) : Host.Outcome State Fault Refusal :=
  .next (spdm s session (fun x => x.conn == 1) fun x => { x with conn := 2 })

/-- NEGOTIATE_ALGORITHMS (R361). -/
def execNegotiateAlgorithms (session : Nat) (s : State) : Host.Outcome State Fault Refusal :=
  .next (spdm s session (fun x => x.conn == 2) fun x => { x with conn := 3 })

/-- GET_DIGESTS (R361). -/
def execGetDigests (session : Nat) (s : State) : Host.Outcome State Fault Refusal := .next (spdm s session Session.ready fun x => x)

/-- GET_CERTIFICATE (R361). -/
def execGetCertificate (session : Nat) (s : State) : Host.Outcome State Fault Refusal := .next (spdm s session Session.ready fun x => x)

/-- CHALLENGE (R361). -/
def execChallenge (session : Nat) (s : State) : Host.Outcome State Fault Refusal := .next (spdm s session Session.ready fun x => x)

/-- GET_MEASUREMENTS (R361): index 0 is the bundle's, 1 to 4 are MR0 to MR3 of the world that the session's TDI names; the management endpoint's
session names none. -/
def execGetMeasurements (session index : Nat) (s : State) : Host.Outcome State Fault Refusal :=
  let m : Option (BitVec 384) :=
    if index == 0 then some s.boot.current.digest
    else if index ≤ 4 && session != mgmtSession then (Fm.get? s.worlds (session % 2048)).bind fun w => w.mrs[index - 1]? else none
  let t := spdm s session Session.ready fun x => x
  .next (if t.reply.isSome then { t with reply := m.map digestBytes } else t)

/-- KEY_EXCHANGE (R361): a handshake begins. -/
def execKeyExchange (session : Nat) (s : State) : Host.Outcome State Fault Refusal :=
  .next (spdm s session (fun x => x.ready && x.phase == 0) fun x => { x with phase := 1 })

/-- FINISH (R361): the session is open. -/
def execFinish (session : Nat) (s : State) : Host.Outcome State Fault Refusal :=
  .next (spdm s session (fun x => x.phase == 1) fun x => { x with phase := 2 })

/-- KEY_UPDATE (R367): in a session of a world PGEN advances; the previous generation stays accepted for single transfers. -/
def execKeyUpdate (session : Nat) (s : State) : Host.Outcome State Fault Refusal :=
  let t := spdm s session (fun x => x.phase == 2) fun x => x
  .next (if t.reply.isSome && session != mgmtSession then { t with keys := Fm.mod t.keys (session % 2048) fun k =>
    { k with pgen := k.pgen + 1, pprev := true, peers := min 2 (k.peers + 1) } } else t)

/-- HEARTBEAT (R361). -/
def execHeartbeat (session : Nat) (s : State) : Host.Outcome State Fault Refusal := .next (spdm s session (fun x => x.phase == 2) fun x => x)

/-- END_SESSION (R361). -/
def execEndSession (session : Nat) (s : State) : Host.Outcome State Fault Refusal :=
  .next (spdm s session (fun x => x.phase == 2) fun x => { x with phase := 0 })

/-- KSTAT (R357). -/
def kstatWord (k : KeySlot) : Nat :=
  k.st % 4 + k.conf.toNat * 4 + k.src.toNat * 8 + k.mgen.toNat * 16 + k.pgen.toNat * 4096 + k.pprev.toNat * 2 ^ 20

/-- LFIX (R201). -/
def lfixWord (r : Repair) : Nat :=
  r.layer % 16 + r.active.toNat * 16 + r.done.toNat * 32 + r.nospare.toNat * 64 + r.boundary % 2 ^ 23 * 256 + r.corr % 2 ^ 16 * 2 ^ 32

/-- PMSEL after a write (R354, R7): EVENT and WORLD are written, ALL only by the security monitor, OVF clears by 1. -/
def pmselWrite (old new : DWord) (monitor : Bool) : DWord :=
  let keep (b : Nat) (x : Bool) : Nat := if x then 2 ^ b else 0
  BitVec.ofNat 64 (new.toNat % 2 ^ 19 + keep 19 (if monitor then new.getLsbD 19 else old.getLsbD 19) + keep 20 (old.getLsbD 20 && !new.getLsbD 20))

/-- Change the performance counters of a unit (R354). -/
def State.modPmu (s : State) (unit : Nat) (f : Pmu → Pmu) : State :=
  if unit < 408 then { s with pmus := Fm.put s.pmus unit (f (Fm.getD s.pmus unit {})) } else s

/-- What a configuration request is answered (R399): Configuration Request Retry Status while the package is in reset, which the host reads as the
vendor ID 0x0001 (PRESUMED, log entry 39); the configuration space itself is not described. -/
def configReply (s : State) : List Byte := if s.stopped == some 0 then leBytes 2 1 else []

/-- REGISTER_WRITE (R7): PMSEL, PMC and the SAMPLE interval are written; LFIX, DSYN1, KSTAT and the identity page are read-only; DSYN0.VALID
clears by 1, for management alone. Management sets hold-in-reset and the UDP port number of peer traffic (R383, R393); a configuration request is
answered (R399). -/
def execRegisterWrite (r : RegName) (value : BitVec 64) (s : State) : Host.Outcome State Fault Refusal :=
  match r with
  | .pmsel unit k monitor =>
    .next (if 8 ≤ k then s else s.modPmu unit fun p => { p with sel := Fm.put p.sel k (pmselWrite (Fm.getD p.sel k 0) value monitor) })
  | .pmc unit k => .next (if 8 ≤ k then s else s.modPmu unit fun p => { p with cnt := Fm.put p.cnt k (value.toNat % 2 ^ 48) })
  | .sample unit => .next (if value.toNat < 10000 then s else s.modPmu unit fun p => { p with ival := value.toNat, last := s.dial })
  | .dsyn0 die management => .next (if management && value.getLsbD 0 then { s with dsyn := Fm.del s.dsyn die } else s)
  | .holdReset => .next { s with holdReset := value.getLsbD 0 }
  | .udpPort => .next { s with udpPort := BitVec.ofNat 16 value.toNat }
  | .config port _ => .next (if 1 < port then s else { s with reply := some (configReply s) })
  | .lfix _ | .dsyn1 _ | .kstat _ | .identity _ => .next s

/-- The pieces of a destination, page by page, with their translations, or the lowest cause. -/
def reduceSides (s : State) (die world : Nat) : List (Nat × Nat) → Except Nat (List (Xl × Nat))
  | [] => .ok []
  | (va, n) :: rest =>
    match checkVa s die world va n .placeWrite (fun _ => []), reduceSides s die world rest with
    | .ok x, .ok l => .ok ((x, n) :: l)
    | .error c, .error e => .error (min c e)
    | .error c, .ok _ => .error c
    | .ok _, .error e => .error e

/-- The writes of the pieces, with free values, which a reduction's result is (R367). -/
def reduceWrites (ctr : Nat) : List (Xl × Nat) → Nat → List (State → Reply)
  | [], _ => []
  | (x, n) :: rest, k =>
    (fun t => writeRange (markUsed t x true) x.d x.o ((List.range n).map fun j => Config.reduceByte ctr (k + j)) homeDie 0 0) ::
      reduceWrites ctr rest (k + n)

/-- A reduction whose contributions carry one generation is performed (R367): the destination takes its result, a free value. -/
def reduce (s : State) (r : Reduction) (n : Nat) : State :=
  match reduceSides s r.die r.world (pagePieces (n / 65536 + 2) r.dst n) with
  | .error c => journalFinal s r.queue r.seq jFault c 0 none
  | .ok xs =>
    let q := whole s (reduceWrites s.freeCtr xs 0)
    if q.ok then journalFinal { q.s with freeCtr := q.s.freeCtr + 1 } r.queue r.seq jDone 0 0 (some q.stamp) else q.s

/-- IN_NETWORK_REDUCTION (R367): every contribution's generation is checked before anything is written; two generations abort it. -/
def execInNetworkReduction (r : Reduction) (s : State) : Host.Outcome State Fault Refusal :=
  let open_ := match Fm.get? s.journals r.queue with
    | some j => j.opens.contains r.seq
    | none => false
  match r.parts, Fm.get? s.keys r.world with
  | p :: rest, some k =>
    if !open_ || 8 ≤ r.die then .next s
    else if !(rest.all fun q => q.1 == p.1) then .next (journalFinal s r.queue r.seq jFault 0x50 0 none)
    else if k.st == 1 && genOk k p.1 then .next (reduce s r p.2.length)
    else .next s
  | _, _ => .next s

end Sys2Proof.Machine
end

