-- ==== Sys2Proof/Machine/Preempt.lean ====
section
/-! DEFINITION. Pre-emption, context images, restores and watchdogs (spec/02 R43, spec/19 R373 to R379). A saved team's contents are kept as
the team's own records, beside the bytes of its image in the save area (log entry 9). -/

namespace Sys2Proof.Machine

/-- A running team is halted (R374). -/
def haltTeam (s : State) (t : Nat) (byWatchdog : Bool) : State :=
  s.modTeam t fun tm => if tm.phase == .running then { tm with phase := .halting, byWatchdog := byWatchdog } else tm

/-- A persistent team's heartbeat timer has reached 0 (R353, R379). -/
def heartbeatDue (tm : Team) : Bool := tm.phase == .running && tm.d.persistent && tm.timer == 0

/-- Another team's runtime timer has reached its LIMIT; a LIMIT of 0 sets none (R353, R379). -/
def limitDue (tm : Team) : Bool := tm.phase == .running && !tm.d.persistent && tm.d.limit != 0 && tm.d.limit ≤ tm.timer

/-- The watchdog pre-empts a team and posts a record (R379). -/
def watchdog (s : State) (t : Nat) (tm : Team) (source : Nat) : State :=
  let seq := match Fm.get? s.grids tm.grid with
    | some g => g.seq
    | none => 0
  let core := ((s.groupsOf t).findSome? fun e => some e.2.core).getD (tm.die * 48)
  postError (haltTeam s t true) tm.world { source := source, cause := cWatchdog, die := tm.die, core := core % 48, index := tm.index, seq := seq }

/-- What the watchdog does to a team: nothing before its timer lapses (R379). -/
def watchdogLapse (s : State) (t : Nat) (tm : Team) : State :=
  if heartbeatDue tm then watchdog s t tm 2 else if limitDue tm then watchdog s t tm 7 else s

/-- A group of a team that has not ended stands on a die of a mask, wherever its team's reservation lies (R373). -/
def standsOn (s : State) (t mask : Nat) : Bool := (s.groupsOf t).any fun e => !e.2.ended && mask / 2 ^ (e.2.core / 48) % 2 == 1

/-- PREEMPTION_REQUEST (R373, R374): the teams of a world with a group on the dies named; or one team, which only the watchdog names, once its timer
has lapsed (R379). -/
def execPreemptionRequest (t : PreemptTarget) (s : State) : Host.Outcome State Fault Refusal :=
  match t with
  | .team k =>
    match Fm.get? s.teams k with
    | none => .next s
    | some tm => .next (watchdogLapse s k tm)
  | .world w mask =>
    .next ((s.teams.filter fun e => e.2.world == w && standsOn s e.1 mask).foldl (fun s e => haltTeam s e.1 false) s)

/-- An operation must complete before its team is saved (R162, R181, R224, R313, R374): an accepted atomic to a peer too; a copy with a
core or cluster side; on a core's channel a walk up to its next record (R325). -/
def Op.drains (o : Op) : Bool :=
  match o.kind with
  | .mem m => m.accs.any fun a => a.got.isNone && !a.held
  | .copy k (some c) w => c.src.scratch || c.dst.scratch || (w.isSome && k < 768)
  | .copy k none (some w) => w.fill.isSome && k < 768
  | .mtx _ | .ticket .. | .graphReq .. => true
  | _ => false

/-- An operation of a core's channel is saved with its team (R325): a walk that stands at a record boundary, or what is queued behind one. -/
def Op.parks (s : State) (id : Nat) (o : Op) : Bool :=
  match o.kind with
  | .copy k _ _ =>
    k < 768 && ((Fm.getD s.chans k []).takeWhile (· != id) ++ [id]).any fun i => match Fm.get? s.ops i with
      | some p => p.team == o.team && p.group.isSome && (match p.kind with
          | .copy _ none (some w) => w.fill.isNone
          | _ => false)
      | none => false
  | _ => false

/-- No group of a team is inside a chain, in transit or inside a bundle whose hint words have issued (R59), and nothing is left to drain (R43, R374). A
group that is stalled in acceptance halts at the instruction (R224). -/
def drained (s : State) (t : Nat) : Bool :=
  ((s.groupsOf t).all fun e =>
    e.2.ended || (!(e.2.chain.any fun c => !c.ended) && !e.2.away && (e.2.hints.n == 0 || e.2.accepting))) &&
    s.ops.all fun e => e.2.team != t || !e.2.drains || e.2.parks s e.1

/-- The length of a context image (R375). -/
def imageSize (s : State) (t : Nat) (tm : Team) : Nat :=
  let groups := (s.groupsOf t).foldl (fun n e => n + 6144 + (e.2.budget * 256 + 511) / 512 * 512) 0
  tm.places.foldl (fun n e => n + (e.2.scrLen + e.2.lpLen + e.2.clLen + 511) / 512 * 512 + e.2.arrays.length * (24576 + tm.d.tiles * 16384))
    (4096 + groups)

/-- Where an image of `n` bytes goes in a save area: after the images that it holds; none where it does not fit (R375). -/
def imageAt (s : State) (buf n : Nat) : Option Nat :=
  let used := s.teams.filterMap fun e => match e.2.image with
    | some (b, o, l, _) => if b == buf then some (o, l) else none
    | none => none
  let starts := 0 :: used.map fun u => u.1 + u.2
  let free (o : Nat) : Bool := o + n ≤ descSize (descOf s buf) && used.all fun u => o + n ≤ u.1 || u.1 + u.2 ≤ o
  leastBy (fun o : Nat => o) (starts.filter free)

/-- The number that a saved team's `k`-th array stands under. -/
def savedArr (t k : Nat) : Nat := 2 ^ 20 + t * 64 + k

/-- The planes and tiles of some arrays are copied to others; the sparse row count belongs to the core's array (R142). -/
def copyArrays (s : State) (from_ to_ : List Nat) : State :=
  { s with arrays := (from_.zip to_).foldl (fun m p =>
      let a := (Fm.get? s.arrays p.1).getD {}
      let b := (Fm.get? m p.2).getD {}
      Fm.put m p.2 { b with act := a.act, shd := a.shd, tiles := a.tiles }) s.arrays }

/-- Lanes that wait in a CPY.WAIT go back to it (R318). -/
def Group.backTo (g : Group) (pc : Pc) (lanes : LaneMask) : Group :=
  let back (l : Nat) : Bool := lanes.getLsbD l && (g.lane l).st == .issuable
  let ls := lanesOf fun l => if back l then { g.lane l with pc := pc } else g.lane l
  let ps := (List.range 64).filterMap fun l => if back l then some (pc, (g.lane l).prio) else none
  let h := { g with lanes := ls, hold := .none }
  { h with ents := h.liveEnts (joinEnts g.ents (dedup ps) false) }

/-- A group as its image holds it (R375): latches, yield hold and SCHED cover are lost; an instruction that waits for a verdict of
the row table is issued again (R272), and so is a CPY.WAIT (R318); the GS bits of completed instructions are set (R52). -/
def savedGroup (s : State) (g : Group) : Group :=
  let resend := match g.hold with
    | .op id => (match Fm.get? s.ops id with
        | some o => (match o.kind with
            | .verdict _ => true
            | _ => false)
        | none => false)
    | _ => false
  let g := match g.hold with
    | .copies _ _ pc lanes => g.backTo pc lanes
    | _ => g
  { g.loseLatches with yieldHold := 0, cover := none, settle := [], starve := 0, since := 8, hints := {}, ent := none,
                       hold := if resend then .none else g.hold, chain := none, stalled := false, fresh := false,
                       gs := g.gs ||| gsDue g.gsq 8, gsq := [] }

/-- A team leaves its cores (R375, R278). -/
def leaveCores (s : State) (t : Nat) (tm : Team) (image : Nat × Nat × Nat × Nat) : State :=
  let gone := (s.groupsOf t).map fun e => e.1
  let cores := dedup ((s.groupsOf t).map fun e => e.2.core)
  let groups := s.groups.map fun e => if e.2.team == t then (e.1, savedGroup s e.2) else e
  let resent (o : Op) : Bool := o.team == t && (match o.kind with
    | .verdict _ => true
    | _ => false)
  let arrays := placeArrays tm.places
  let parked := (s.ops.filter fun e => e.2.team == t && e.2.parks s e.1).map fun e => e.1
  let s := copyArrays s arrays ((List.range arrays.length).map (savedArr t))
  let s := { s with chans := Fm.mapVals s.chans fun _ q => q.filter fun id => !parked.contains id }
  { s with
    groups := groups, ops := s.ops.filter (fun e => !resent e.2), pipes := s.pipes.filter (fun e => !gone.contains e.2),
    tlb := s.tlb.filter (fun e => !cores.contains e.holder), l1 := s.l1.filter (fun e => !cores.contains e.core),
    teams := Fm.put s.teams t { tm with phase := .saved, image := some image } }

/-- `n` bytes of image `k` from place `o` on to which R375 gives no layout: free values (log entry 9). -/
def freeBytes (k o n : Nat) : List Byte := (List.range n).map fun i => Config.imageByte k (o + i)

/-- A section of an image that starts at place `o`: its bytes, up to a multiple of 512 (R375). -/
def section512 (k o : Nat) (bs : List Byte) : List Byte :=
  bs ++ freeBytes k (o + bs.length) ((bs.length + 511) / 512 * 512 - bs.length)

/-- A group's vector registers, register by register and lane by lane (R375; the order is log entry 9's). -/
def vectorBytes (g : Group) : List Byte :=
  (List.range g.budget).flatMap fun r => (List.range 64).flatMap fun l => leBytes 4 (laneW (Fm.getD g.v r []) l).toNat

/-- A grant's scratch: the core grant, the lane-private slices, the cluster window (R375). -/
def scratchBytes (s : State) (core : Nat) (p : Place) : List Byte :=
  let rd (o n : Nat) : List Byte := Mem.readN s.coreScr (core * scrSpan + o) n
  rd p.scr p.scrLen ++ rd p.lp p.lpLen ++ rd p.cl p.clLen

/-- A plane of 12 KiB, its descriptor in the last 16 bytes (R375; log entry 9). -/
def planeBytes (k o : Nat) (p : Plane) : List Byte := Mem.readN p.data 0 12272 ++ freeBytes k (o + 12272) 16

/-- An array's section: both planes, then its tiles (R375). -/
def arrayBytes (k o : Nat) (a : Arr) (tiles : Nat) : List Byte :=
  planeBytes k o a.act ++ planeBytes k (o + 12288) a.shd ++ Mem.readN a.tiles 0 (tiles * 16384)

/-- Image `k` of a team, section by section (R375): the header and the groups' states, whose layout is open, then the vector registers, the scratch
and the arrays as they stand. -/
def contextBytes (s : State) (t : Nat) (tm : Team) (k : Nat) : List Byte :=
  let gs := s.groupsOf t
  let head := freeBytes k 0 (4096 + gs.length * 6144)
  let vs := gs.foldl (fun bs e => bs ++ section512 k bs.length (vectorBytes e.2)) head
  let ps := tm.places.foldl (fun bs e => bs ++ section512 k bs.length (scratchBytes s e.1 e.2)) vs
  (placeArrays tm.places).foldl (fun bs n => bs ++ arrayBytes k bs.length ((Fm.get? s.arrays n).getD {}) tm.d.tiles) ps

/-- The bytes of an image are written to a save area at an offset (R375). -/
def writeImage (s : State) (b o : Nat) (bs : List Byte) : Reply := writeRange s (descOf s b) o bs homeDie 0 0

/-- Where a team's image may go: the buffer and the offset (R375). -/
def imagePlace (s : State) (team : Nat) (tm : Team) : Option (Nat × Nat) :=
  let n := imageSize s team tm
  ((Fm.get? s.worlds tm.world).bind fun w => Fm.get? w.saves tm.die).bind fun b =>
    (imageAt s b n).bind fun o => if (portCauses (descOf s b) tm.world o n .image).isEmpty then some (b, o) else none

/-- CONTEXT_SAVE (R375): the image goes to the world's save area on the die of the reservation; a team that it cannot hold is killed. -/
def execContextSave (team : Nat) (s : State) : Host.Outcome State Fault Refusal :=
  match Fm.get? s.teams team with
  | none => .next s
  | some tm =>
    if tm.phase != .halting || !drained s team then .next s
    else
      match imagePlace s team tm with
      | none =>
        let core := ((s.groupsOf team).findSome? fun e => some e.2.core).getD (tm.die * 48)
        .next (killTeam s team { source := 7, cause := cWatchdog, die := tm.die, core := core % 48 })
      | some (b, o) =>
        let bs := contextBytes s team tm s.nextOp
        let r := writeImage { s with nextOp := s.nextOp + 1 } b o bs
        .next (if r.ok then leaveCores r.s team { tm with saved := bs } (b, o, bs.length, s.nextOp) else s)

/-- The image's check holds: its bytes are those that the save wrote, and none is uncorrectable (R378). -/
def imageIntact (s : State) (image : Nat × Nat × Nat × Nat) (saved : List Byte) : Bool :=
  let (b, o, n, _) := image
  let d := descOf s b
  peekBuf s d o n homeDie .newest == saved && (secPieces (n / 128 + 2) o n).all fun p =>
    let sec := secOf (physOf d p.1)
    !s.poison.contains sec && !(copies s sec).any fun c => c.2.poison

/-- RESTORE_REQUEST (R378): the check is verified; a failure kills the team. -/
def execRestoreRequest (team : Nat) (s : State) : Host.Outcome State Fault Refusal :=
  match Fm.get? s.teams team with
  | none => .next s
  | some tm =>
    match tm.phase, tm.image with
    | .saved, some im =>
      if imageIntact s im tm.saved then .next (s.modTeam team fun tm => { tm with phase := .restoring })
      else .next (killTeam s team { source := 3, die := tm.die })
    | _, _ => .next s

/-- A group that stands in a landing slot, or one that has ended, takes no slot and no registers of the reservation. -/
def groupBy (s : State) (t : Nat) (p : Group → Bool) (k : Nat) : Bool := (s.groupsOf t).any fun e => e.2.index == k && p e.2

/-- Migrated groups take landing slots on the dies where they stood, all or none (R378). -/
def landAll (s : State) : List (Nat × Group) → Option State
  | [] => some s
  | (gid, g) :: r =>
    match landingSlot s (g.core / 48) with
    | none => none
    | some (core, slot) => landAll (s.modGroup gid fun g => { g with core := core, slot := slot }) r

/-- The bytes of a place move to another (R185). -/
def moveScratch (m : Mem) (a b n : Nat) : Mem :=
  let cells := m.filter fun c => a ≤ c.1 && c.1 < a + n
  cells.foldl (fun m c => Mem.write m (b + (c.1 - a)) c.2) (Mem.clear m a n)

/-- A grant's contents move to the new grant. -/
def movePlace (m : Mem) (old new : Nat) (p q : Place) : Mem :=
  let m := moveScratch m (old * scrSpan + p.scr) (new * scrSpan + q.scr) p.scrLen
  let m := moveScratch m (old * scrSpan + p.lp) (new * scrSpan + q.lp) p.lpLen
  moveScratch m (old * scrSpan + p.cl) (new * scrSpan + q.cl) p.clLen

/-- The new core of an old one: a team keeps the order of its cores. -/
def newCore (old new : Nat) (cluster : Bool) (core : Nat) : Nat := if cluster then new + core % 8 else if core == old then new else core

/-- A place of a core's scratchpad as it lies after the grant has moved (R185). -/
def movedPlace (p q : Place) (b : Nat) : Nat :=
  if p.scr ≤ b && b < p.scr + p.scrLen then q.scr + (b - p.scr)
  else if p.lp ≤ b && b < p.lp + p.lpLen then q.lp + (b - p.lp)
  else if p.cl ≤ b && b < p.cl + p.clLen then q.cl + (b - p.cl)
  else b

/-- A side of a copy that waits behind a saved walk: its scratch place moves with the grant (R224, R325). -/
def Side.moved (x : Side) (old new : Fm Place) (to_ : Nat → Nat) : Side :=
  match x with
  | .core c b =>
    match Fm.get? old c, Fm.get? new (to_ c) with
    | some p, some q => .core (to_ c) (movedPlace p q b)
    | _, _ => x
  | .cluster first w off _ => .cluster (to_ first) w off (Fm.mapVals new fun _ q => q.cl)
  | _ => x

/-- The sides of a copy move with the grant. -/
def Copy.moved (c : Copy) (old new : Fm Place) (to_ : Nat → Nat) : Copy := { c with src := c.src.moved old new to_, dst := c.dst.moved old new to_ }

/-- The channel of a group after its team's restore: that of the same number on the core where the group stands then (R320, R325). `lands` names the
landed groups with their old and new cores. -/
def newKey (old : Fm Place) (to_ : Nat → Nat) (lands : List (Nat × Nat × Nat)) (gid : Option Nat) (k : Nat) : Nat :=
  if 768 ≤ k then k
  else
    match lands.find? fun x => gid == some x.1 && x.2.1 == k / 2 with
    | some x => x.2.2 * 2 + k % 2
    | none => if (Fm.get? old (k / 2)).isSome then to_ (k / 2) * 2 + k % 2 else k

/-- The write pointers of a team after its restore (R320): those of its reservation's channels, and those of the cores where groups of it have landed. -/
def newWptrs (tm : Team) (to_ : Nat → Nat) (lands : List (Nat × Nat × Nat)) : Fm Nat :=
  let m := tm.wptrs.foldl (fun m e => Fm.put m (newKey tm.places to_ [] none e.1) e.2) []
  lands.foldl (fun m x => [0, 1].foldl (fun m c => match Fm.get? tm.wptrs (x.2.1 * 2 + c) with
    | some v => Fm.put m (x.2.2 * 2 + c) v
    | none => m) m) m

/-- A team is granted again at core `c`, its migrated groups at the cores that `lands` gives (R43, R378); its constant reads start anew on all of
them (R110). -/
def regrant (s : State) (t : Nat) (tm : Team) (c : Nat) (lands : List (Nat × Nat × Nat)) : State :=
  let old := (tm.places.map fun e => e.1).foldl min (10 ^ 6)
  let to_ (k : Nat) : Nat := newCore old c tm.d.cluster k
  -- the places of the image are none of those that it takes now
  let places := newPlaces (s.modTeam t fun x => { x with phase := .restoring }) tm.d c fun k => groupBy s t (fun g => !g.landed) k
  let scr := tm.places.foldl (fun m e => match Fm.get? places (to_ e.1) with
    | some q => movePlace m e.1 (to_ e.1) e.2 q
    | none => m) s.coreScr
  let key := newKey tm.places to_ lands
  let wptrs := newWptrs tm to_ lands
  let saved := (List.range (placeArrays tm.places).length).map (savedArr t)
  let tm0 := tm
  let tm := { tm with places := places, wptrs := wptrs, phase := .running, image := none, saved := [], byWatchdog := false,
                      timer := if tm.d.persistent then tm.d.limit else tm.timer }
  let s := { s with coreScr := scr, teams := Fm.put s.teams t tm }
  let s := copyArrays { s with ccache := s.ccache.filter fun x => !((Fm.get? places x.core).isSome || lands.any fun y => y.2.2 == x.core) } saved
    (placeArrays places)
  let s := { s with arrays := s.arrays.filter fun e => !saved.contains e.1 }
  let queued (id k : Nat) : Bool := (Fm.getD s.chans k []).contains id
  let rekey (id : Nat) (o : Op) : Op :=
    if o.team != t then o
    else match o.kind with
      | .wpwait k x => { o with kind := .wpwait (key o.group k) x }
      | .copy k cur w =>
        if queued id k then { o with chan := o.chan.map (key o.group) }
        else { o with chan := o.chan.map (key o.group), kind := .copy (key o.group k) (cur.map fun x => x.moved tm0.places places to_) w }
      | _ => o
  let resumed := s.ops.filterMap fun e => match e.2.kind with
    | .copy k _ _ => if e.2.team == t && e.2.group.isSome && !queued e.1 k then some (e.1, key e.2.group k) else none
    | _ => none
  let s := { s with ops := Fm.mapVals s.ops rekey }
  let s := resumed.foldl (fun s e => joinChan s e.2 e.1) s
  let mine := (s.groupsOf t).filter fun e => !e.2.landed
  -- no group of the team holds a slot while its slots are chosen
  let s := mine.foldl (fun s e => s.modGroup e.1 fun g => { g with core := to_ g.core, slot := 34 }) s
  mine.foldl (fun s e =>
    let slot := freeSlot s (to_ e.2.core)
    s.modGroup e.1 fun g => { g with slot := if g.ended then e.2.slot else slot }) s

/-- RESTORE_GRANT (R43, R378): the reservation and the landing slots are granted together, ahead of new teams of the level; of
the cores or clusters that fit, which R43 leaves open, it takes the lowest (DESIGN CHOICE, log entry 30). -/
def execRestoreGrant (team : Nat) (s : State) : Host.Outcome State Fault Refusal :=
  match Fm.get? s.teams team with
  | none => .next s
  | some tm =>
    let waits := match headPend s tm.die with
      | some p => p.d.level < tm.d.level
      | none => false
    if tm.phase != .restoring || waits || restoreLevel s tm.die < tm.d.level then .next s
    else
      let spot := findSpot s tm.d tm.die (groupBy s team fun g => !g.landed && !g.ended) (groupBy s team fun g => !g.landed)
      let away := (s.groupsOf team).filter fun e => e.2.landed && e.2.lanes.any Lane.live
      -- the groups count as holding their slots only once their team runs
      let trial := s.modTeam team fun tm => { tm with phase := .running }
      let clear := away.foldl (fun s e => s.modGroup e.1 fun g => { g with slot := 34 }) trial
      match spot, landAll clear away with
      | some c, some s2 => .next (regrant s2 team tm c (away.map fun e => (e.1, e.2.core, ((Fm.get? s2.groups e.1).map fun g => g.core).getD e.2.core)))
      | _, _ => .next s

/-- HEARTBEAT_EXPIRY (R353, R379). -/
def execHeartbeatExpiry (team : Nat) (s : State) : Host.Outcome State Fault Refusal :=
  match Fm.get? s.teams team with
  | none => .next s
  | some tm => .next (if heartbeatDue tm then watchdog s team tm 2 else s)

/-- RUNTIME_LIMIT_EXPIRY (R353, R379). -/
def execRuntimeLimitExpiry (team : Nat) (s : State) : Host.Outcome State Fault Refusal :=
  match Fm.get? s.teams team with
  | none => .next s
  | some tm => .next (if limitDue tm then watchdog s team tm 7 else s)

end Sys2Proof.Machine
end

