-- ==== Sys2Proof/Machine/WorldOps.lean ====
section
/-! DEFINITION. Worlds and firmware: creation and teardown of worlds, attestation, live switches, package reset and power-on (spec/16 R334,
R341; spec/18 R357 to R366; spec/19 R384, R385; spec/20 R399). -/

namespace Sys2Proof.Machine

/-- The place of the orphan ring in the buffer of a world's rings: after the error queue, on a multiple of 512 (R326, R334). -/
def orphanPlace (errSlots : Nat) : Nat := (512 + errSlots * 64 + 511) / 512 * 512

/-- The SLOTS of a ring: 64, unless the request names another count (R334). -/
def slotsOf (n : Option Nat) : Nat := n.getD 64

/-- The rings of a request fit a NORMAL buffer of the world, and their SLOTS are in range (R334). -/
def ringsOk (s : State) (r : WorldRequest) : Bool :=
  let d := descOf s r.ringBuf
  let okSlots (n : Nat) : Bool := 2 ≤ n && n ≤ 1024
  okSlots (slotsOf r.errSlots) && okSlots (slotsOf r.orphanSlots) && descUsable d && nfield d 5 3 == 0 && nfield d 8 11 == r.world &&
    orphanPlace (slotsOf r.errSlots) + 512 + slotsOf r.orphanSlots * 32 ≤ descSize d

/-- The request may be carried out (R358, R359): a number from 1 to 2,047 whose key slot is EMPTY; a key from SPDM needs a session; the save areas are NORMAL
buffers of the world with R = 0 and W = 0 (R375); the place of the graph request queue's journal is fit (R315, R342). -/
def createOk (s : State) (r : WorldRequest) : Bool :=
  1 ≤ r.world && r.world ≤ 2047 && (Fm.getD s.keys r.world {}).st == 0 && (Fm.get? s.worlds r.world).isNone && ringsOk s r &&
    journalFit s r.world r.journalBuf r.journalLog && r.saveBufs.all (saveFit s r.world) &&
    (!r.fromSpdm || (List.range 2).any fun p => (Fm.getD s.sessions (portKey p r.world) {}).phase == 2)

/-- The header of a ring as its maker writes it (R326). -/
def freshHdr (slots size : Nat) : List Byte := leBytes 8 (slots + size / 8 * 2 ^ 16) ++ leBytes 504 0

/-- The record of a new world (R357, R363). -/
def newWorld (s : State) (r : WorldRequest) : World :=
  { conf := r.conf, replay := r.replay, rootBuf := r.rootBuf, rootOff := r.rootOff, ringBuf := r.ringBuf, errOff := 0,
    orphanOff := orphanPlace (slotsOf r.errSlots), saves := (List.range r.saveBufs.length).map fun k => (k, (r.saveBufs[k]?).getD 0),
    mrs := [extendMr 0 (digestBytes s.boot.current.digest), 0, 0, 0], key := s.keyCtr + 1 }

/-- WORLD_CREATION (R358, R334): record, key, rings, the journal of the graph request queue. -/
def execWorldCreation (r : WorldRequest) (s : State) : Host.Outcome State Fault Refusal :=
  if !createOk s r then .next s
  else
    let u := { s with worlds := Fm.put s.worlds r.world (newWorld s r), keyCtr := s.keyCtr + 1 }
    let q := whole u [fun t => writeBuf t r.ringBuf 0 (freshHdr (slotsOf r.errSlots) 64),
                      fun t => writeBuf t r.ringBuf (orphanPlace (slotsOf r.errSlots)) (freshHdr (slotsOf r.orphanSlots) 32)]
    if !q.ok then .next { s with dirq := q.s.dirq, backs := q.s.backs }
    else
      let t := q.s
      let old := Fm.getD t.keys r.world {}
      .next { t with
        keys := Fm.put t.keys r.world { st := 1, conf := r.conf, src := r.fromSpdm, mgen := old.mgen + 1 },
        journals := Fm.put t.journals (8192 + r.world) { world := r.world, buf := r.journalBuf, log := r.journalLog } }

/-- Teams of a grid that stand on the part. -/
def aliveTeams (s : State) (grid : Nat) : Nat := (s.teams.filter fun e => e.2.grid == grid).length

/-- The grids of a world end ABORTED: their waiting teams go, and those with no team left are final (R341, R342). -/
def abortGrids (s : State) (world : Nat) : State :=
  let s := { s with pends := s.pends.filter fun p => p.world != world }
  s.grids.foldl (fun s e =>
    if e.2.world != world then s
    else
      let n := aliveTeams s e.1
      if n == 0 && e.2.node.isNone then
        journalFinal { s with grids := Fm.del s.grids e.1 } e.2.queue e.2.seq jAborted 0 0 e.2.latest e.2.ops
      else { s with grids := Fm.put s.grids e.1 { e.2 with left := n, abort := true } }) s

/-- Every team of a world is killed (R359). -/
def killWorld (s : State) (world : Nat) : State :=
  (s.teams.filter fun e => e.2.world == world).foldl (fun s e => killTeam s e.1 { source := 1, die := e.2.die }) s

/-- What a replay's nodes still run: the latest visibility time of their writes so far, and the operations whose writes are on their way. -/
def workLeft (s : State) (r : Replay) : Option Nat × List Nat :=
  (r.work.toList ++ r.async.map fun e => e.2.2).foldl (fun acc w => match w with
    | .grid id => (match Fm.get? s.grids id with
        | some g => (laterOf acc.1 g.latest, acc.2 ++ g.ops)
        | none => acc)
    | .copy id _ => if (Fm.get? s.ops id).isSome then (acc.1, acc.2 ++ [id]) else acc) (r.latest, [])

/-- Replays, queued requests and pending loads of a world end ABORTED, and its graphs are unloaded (R341, R342). -/
def abortReplays (s : State) (world : Nat) : State :=
  let s := (s.replays.filter fun e => e.2.world == world).foldl (fun s e =>
    let w := workLeft s e.2
    journalFinal { s with replays := Fm.del s.replays e.1 } e.2.queue e.2.seq jAborted 0 0 w.1 w.2) s
  let s := (s.loads.filter fun e => e.2.world == world).foldl
    (fun s e => journalFinal { s with loads := Fm.del s.loads e.1 } e.1 e.2.seq jAborted 0 0 none) s
  let s := (s.graphs.filter fun e => e.2.world == world).foldl
    (fun s e => e.2.queue.foldl (fun s r => journalFinal s r.queue r.seq jAborted 0 0 none) s) s
  let s := { s with grids := s.grids.filter fun e => !(e.2.world == world && e.2.node.isSome) }
  { s with graphs := s.graphs.filter fun e => e.2.world != world }

/-- Rows of a world that nothing is still being added to are closed, or every row (R272). -/
def closeRows (s : State) (world : Nat) (all : Bool) : State :=
  (s.rows.filter fun e => e.2.st != 0 && e.2.world == world && (all || (pendingAdds s e.1 == 0 && !e.2.evicting))).foldl
    (fun s e => closeRow s e.1) s

/-- The first two steps of a teardown (R359). -/
def startTeardown (s : State) (world : Nat) : State :=
  let s := { s with keys := Fm.mod s.keys world fun k => { k with st := 2 } }
  let s := abortReplays (killWorld (abortGrids s world) world) world
  dropTickets (closeRows s world false) world

/-- Nothing of a world is under way any more (R359 step 3). -/
def worldIdle (s : State) (world : Nat) : Bool :=
  (s.ops.all fun e => e.2.world != world) && (s.posts.all fun p => p.world != world) &&
    s.jwrites.all fun w => match Fm.get? s.journals w.queue with
      | some j => j.world != world
      | none => true

/-- A die's copy of a sector is dropped without write-back; its stamp stays in the set floor (R229, R359). -/
def discardCopy (s : State) (die sec : Nat) (x : L2Sec) : State :=
  let stamp := max x.stamp x.acks
  snoopLeave (raiseFloor { s with l2 := Fm.del s.l2 (l2Key die sec) } die sec stamp) die sec stamp

/-- What a sector holds is encrypted under a key (R360). -/
def underKey (encs : List (Option Seal)) (pend : List PendW) (key : Nat) : Bool :=
  let is (e : Option Seal) : Bool := (e.map fun x => x.key == key).getD false
  encs.any is || pend.any fun w => is w.enc

/-- The last two steps of a teardown (R359): the entries tagged with the world go without write-back, its windows are zeroed and freed, its
record goes and its key with it. Memory keeps what it holds, under the key that is gone. -/
def endTeardown (s : State) (world : Nat) (w : World) : State :=
  let own (sec : Nat) : Bool := (ownersOf s (sec * 128)).contains world
  let mine (sec : Nat) : Bool := own sec || underKey (Fm.getD s.encs sec []) (Fm.getD s.memPend sec []) w.key
  let s1 := closeRows s world true
  let s1 := (s1.l2.filter fun e => own (e.1 / 8) || underKey e.2.encs e.2.pend w.key).foldl
    (fun t e => discardCopy t (e.1 % 8) (e.1 / 8) e.2) s1
  let s1 := w.windows.foldl (fun t e => clearDie t e.1 e.2.1 e.2.2) s1
  { s1 with
    l1 := s1.l1.filter fun f => f.world != world,
    wcb := s1.wcb.filter fun e => !mine e.1,
    memPend := s1.memPend.filter fun e => !mine e.1,
    owns := s1.owns.filter fun e => !own e.1,
    dirq := s1.dirq.filter fun e => !own e.1,
    rcounts := s1.rcounts.filter fun e => !mine e.1,
    tlb := s1.tlb.filter fun e => e.world != world,
    walk := s1.walk.filter fun e => e.world != world,
    ccache := s1.ccache.filter fun e => e.world != world,
    dcache := s1.dcache.filter fun e => nfield (descOf s1 e.2) 8 11 != world,
    queues := s1.queues.filter fun e => e.2.world != world,
    journals := s1.journals.filter fun e => e.2.world != world,
    worlds := Fm.del s1.worlds world,
    keys := Fm.mod s1.keys world fun k => { mgen := k.mgen } }

/-- WORLD_TEARDOWN (R359): DRAINING and the kills at once; the rest once nothing of the world is under way. -/
def execWorldTeardown (world : Nat) (s : State) : Host.Outcome State Fault Refusal :=
  match Fm.get? s.worlds world, Fm.get? s.keys world with
  | some w, some k =>
    if world == 0 then .next s
    else if k.st == 1 then .next (startTeardown s world)
    else if worldIdle s world then .next (endTeardown s world w)
    else .next s
  | _, _ => .next s

/-- Ticks of the attestation watchdog, 10 minutes (R345, R365). -/
def watchdogTicks : Nat := 600000000000

/-- Ticks between two tries to fetch the previous bundle, 30 s (R365). -/
def fetchTicks : Nat := 30000000000

/-- A bundle passes the boot ROM's checks (R365): its signature, its digest, which is SHA-384 of the rest of the image, its SVNs. -/
def bundleOk (b : Bundle) (counters : Nat × Nat × Nat) : Bool :=
  Config.bundleSig b.digest b.sig && sha384 b.image == b.digest && b.svnKernel ≤ 128 && b.svnMonitor ≤ 128 && b.svnFirmware ≤ 128 &&
    counters.1 ≤ b.svnKernel && counters.2.1 ≤ b.svnMonitor && counters.2.2 ≤ b.svnFirmware

/-- A switch to a new bundle (R365 steps 1 and 2). -/
def Boot.switch (x : Boot) (b : Bundle) (nonce : BitVec 64) (deadline : Nat) : Boot :=
  { x with current := b, previous := x.current.digest, nonce := nonce, deadline := some deadline, fetching := none, staged := none }

/-- Its times on the dial that starts anew at a reset. -/
def Boot.rebase (x : Boot) (dial : Nat) : Boot :=
  { x with deadline := x.deadline.map fun d => d - dial, fetching := x.fetching.map fun d => d - dial }

/-- ATTESTATION_ACKNOWLEDGEMENT (R365 steps 3 and 4): one that comes before the watchdog expires. -/
def execAttestationAcknowledgement (a : Acknowledgement) (s : State) : Host.Outcome State Fault Refusal :=
  let b := s.boot.current
  if s.boot.deadline.any (fun d => s.dial < d) && s.boot.fetching.isNone && a.nonce == s.boot.nonce && a.digest == b.digest && Config.ownerSig a.nonce a.digest a.sig then
    .next { s with boot := { s.boot with counters := (b.svnKernel, b.svnMonitor, b.svnFirmware), deadline := none } }
  else .next s

/-- The repair state that a package reset leaves (R202, R384): failures that wait behind a takeover and the error counts of the layers, which no
rule names there, are lost (DESIGN CHOICE, log entry 33). -/
def Repair.kept (r : Repair) : Repair := { layer := r.layer, active := r.active, done := r.done, nospare := r.nospare, boundary := r.boundary }

/-- What a package reset leaves (R384): the syndromes, the bundle record and fuses, repair state, memory under keys that are gone, port modes.
World 0 gets a new key, and the digest of the bundle in its MR0 (R363); the ticket check key changes (R297). The model's own counters and plan go on. -/
def resetWith (s : State) (boot : Boot) (held : Option Nat) : State :=
  { State.reset with
    agenda := s.agenda, freeCtr := s.freeCtr + 1, nextOp := s.nextOp, skews := s.skews,
    hbm := s.hbm, encs := s.encs, poison := s.poison, dsyn := s.dsyn,
    worlds := Fm.mapVals State.reset.worlds fun _ w =>
      { w with key := s.keyCtr + 1, mrs := [extendMr 0 (digestBytes boot.current.digest), 0, 0, 0] },
    repairs := Fm.mapVals s.repairs (fun _ r => r.kept), keyCtr := s.keyCtr + 1, tktKey := s.tktKey + 1, ports := s.portsNext, portsNext := s.portsNext,
    boot := boot, stopped := held }

/-- The first bundle that passes: the staged one, then those on offer in the order of R399. -/
def pickBundle (x : Boot) (offers : List Bundle) : Option Bundle := (x.staged.toList ++ offers).find? fun b => bundleOk b x.counters

/-- The bring-up after a package reset (R365, R384, R399): a bundle that differs is a switch; with the same one, a watchdog that runs goes on.
With no bundle that passes, the package stays in reset. -/
def bringUp (s : State) (offers : List Bundle) : State :=
  let x := s.boot.rebase s.dial
  match pickBundle x offers with
  | none => resetWith s x (some 0)
  | some b =>
    if b.digest == x.current.digest then resetWith s { x with current := b, fetching := none, staged := none } none
    else resetWith s (x.switch b (Config.bootNonce s.freeCtr) watchdogTicks) none

/-- PACKAGE_RESET (R383, R384): after a fatal error once 10 ms have passed, unless management has set hold-in-reset or the boot ROM is fetching the
previous bundle; on management's command and on PERST# at once. The watchdog's reset is ATTESTATION_WATCHDOG_EXPIRY's. -/
def execPackageReset (c : ResetCause) (offers : List Bundle) (s : State) : Host.Outcome State Fault Refusal :=
  match c with
  | .management | .perst => .next (bringUp s offers)
  | .fatalError =>
    match s.stopped with
    | some t => .next (if t ≤ s.dial && !s.holdReset && s.boot.fetching.isNone then bringUp s offers else s)
    | none => .next s
  | .watchdog => .next s

/-- The package is held in reset until the next try to fetch the previous bundle, and that is reported to management; the watchdog stays expired
(R365 step 5). -/
def Boot.held (x : Boot) : Boot := { x with fetching := some fetchTicks, deadline := some 0, reports := x.reports + 1 }

/-- The previous bundle is fetched by its digest, or the package is held in reset until the next try (R365 step 5). -/
def fallBack (s : State) (fetched : Option Bundle) : State :=
  match fetched with
  | some b =>
    if b.digest == s.boot.previous && bundleOk b s.boot.counters then
      resetWith s { s.boot with current := b, fetching := none, deadline := none } none
    else resetWith s s.boot.held (some 0)
  | none => resetWith s s.boot.held (some 0)

/-- ATTESTATION_WATCHDOG_EXPIRY (R365 step 5). -/
def execAttestationWatchdogExpiry (fetched : Option Bundle) (s : State) : Host.Outcome State Fault Refusal :=
  match s.boot.deadline with
  | some d => .next (if d ≤ s.dial && s.boot.fetching.isNone then fallBack s fetched else s)
  | none => .next s

/-- BUNDLE_FETCH_RETRY (R365 step 5). -/
def execBundleFetchRetry (fetched : Option Bundle) (s : State) : Host.Outcome State Fault Refusal :=
  match s.boot.fetching with
  | some t => .next (if t ≤ s.dial then fallBack s fetched else s)
  | none => .next s

/-- A slice has a service call that its version has begun to serve (R366). -/
def inService (s : State) (slice : Nat) : Bool := s.calls.any fun e => e.2.slice == slice && e.2.stage != 0

/-- A live switch begins at slice 0 with a staged bundle whose only change is the slice kernel (R365, R366): that slice changes at once where no
call is in service there. -/
def beginSwitch (s : State) : State :=
  match s.boot.staged with
  | some b =>
    if b.kernelOnly && bundleOk b s.boot.counters && (List.range 24).all (fun k => versionOf s k == s.version) then
      { s with boot := s.boot.switch b (Config.bootNonce s.freeCtr) (s.dial + watchdogTicks), freeCtr := s.freeCtr + 1,
               version := s.version + 1, versions := if inService s 0 then s.versions else Fm.put s.versions 0 (s.version + 1) }
    else s
  | none => s

/-- SLICE_VERSION_SWITCH (R366): slice by slice, at an instant with no call in service. -/
def execSliceVersionSwitch (slice version : Nat) (s : State) : Host.Outcome State Fault Refusal :=
  if 23 < slice then .next s
  else if slice == 0 && version == s.version + 1 then .next (beginSwitch s)
  else if version == s.version && (slice == 0 || versionOf s (slice - 1) == version) && versionOf s slice + 1 == version && !inService s slice then
    .next { s with versions := Fm.put s.versions slice version }
  else .next s

/-- FIRMWARE_UPDATE_STAGE (R398). -/
def execFirmwareUpdateStage (b : Bundle) (s : State) : Host.Outcome State Fault Refusal :=
  .next { s with boot := { s.boot with staged := some b } }

/-- POWER_ON (R202, R385, R399): only fuses and the base dies' repair records last; memory holds nothing that a key explains. -/
def execPowerOn (offers : List Bundle) (s : State) : Host.Outcome State Fault Refusal :=
  let lost : State := { s with
    dsyn := [], poison := [], boot := { counters := s.boot.counters }, portsNext := [false, false],
    repairs := Fm.mapVals s.repairs fun _ r => { done := r.done, nospare := r.nospare } }
  .next (bringUp lost offers)

end Sys2Proof.Machine
end

