-- ==== Sys2Proof/Machine/Dispatch.lean ====
section
/-! DEFINITION. The dispatch: one arm per instruction, each a direct call of its meaning. -/

namespace Sys2Proof.Machine
open Sys2Proof

def exec (i : Instr) (s : State) : Host.Outcome State Fault Refusal :=
  match i with
  | .iadd g d a b => Sys2Proof.Machine.execIadd g d a b s
  | .isub g d a b => Sys2Proof.Machine.execIsub g d a b s
  | .imul g d a b => Sys2Proof.Machine.execImul g d a b s
  | .imulhi g d a b => Sys2Proof.Machine.execImulhi g d a b s
  | .imulhn g d a b => Sys2Proof.Machine.execImulhn g d a b s
  | .imad g d a b => Sys2Proof.Machine.execImad g d a b s
  | .imin g d a b => Sys2Proof.Machine.execImin g d a b s
  | .imax g d a b => Sys2Proof.Machine.execImax g d a b s
  | .nmin g d a b => Sys2Proof.Machine.execNmin g d a b s
  | .nmax g d a b => Sys2Proof.Machine.execNmax g d a b s
  | .and g d a b => Sys2Proof.Machine.execAnd g d a b s
  | .or g d a b => Sys2Proof.Machine.execOr g d a b s
  | .xor g d a b => Sys2Proof.Machine.execXor g d a b s
  | .andn g d a b => Sys2Proof.Machine.execAndn g d a b s
  | .shl g d a b => Sys2Proof.Machine.execShl g d a b s
  | .shr g d a b => Sys2Proof.Machine.execShr g d a b s
  | .sar g d a b => Sys2Proof.Machine.execSar g d a b s
  | .jmpi g a b => Sys2Proof.Machine.execJmpi g a b s
  | .lea g d a b => Sys2Proof.Machine.execLea g d a b s
  | .icmp g k c a b => Sys2Proof.Machine.execIcmp g k c a b s
  | .ncmp g k c a b => Sys2Proof.Machine.execNcmp g k c a b s
  | .fcmp g k c a b => Sys2Proof.Machine.execFcmp g k c a b s
  | .sel g d a b => Sys2Proof.Machine.execSel g d a b s
  | .mov g d a => Sys2Proof.Machine.execMov g d a s
  | .moviv g d xi => Sys2Proof.Machine.execMoviv g d xi s
  | .movis g d xi => Sys2Proof.Machine.execMovis g d xi s
  | .addis g d xi => Sys2Proof.Machine.execAddis g d xi s
  | .bitu g d a xs => Sys2Proof.Machine.execBitu g d a xs s
  | .cvt g d a c => Sys2Proof.Machine.execCvt g d a c s
  | .plog g d u v t => Sys2Proof.Machine.execPlog g d u v t s
  | .vote g d a xs => Sys2Proof.Machine.execVote g d a xs s
  | .fadd g d a b => Sys2Proof.Machine.execFadd g d a b s
  | .fsub g d a b => Sys2Proof.Machine.execFsub g d a b s
  | .fmul g d a b => Sys2Proof.Machine.execFmul g d a b s
  | .ffma g d a b => Sys2Proof.Machine.execFfma g d a b s
  | .fmin g d a b => Sys2Proof.Machine.execFmin g d a b s
  | .fmax g d a b => Sys2Proof.Machine.execFmax g d a b s
  | .hadd2 g d a b => Sys2Proof.Machine.execHadd2 g d a b s
  | .hmul2 g d a b => Sys2Proof.Machine.execHmul2 g d a b s
  | .hfma2 g d a b => Sys2Proof.Machine.execHfma2 g d a b s
  | .fdot2 g d a b => Sys2Proof.Machine.execFdot2 g d a b s
  | .sfu g d a xs => Sys2Proof.Machine.execSfu g d a xs s
  | .shfl g d a b => Sys2Proof.Machine.execShfl g d a b s
  | .reds g d a xs => Sys2Proof.Machine.execReds g d a xs s
  | .ld g d a f w => Sys2Proof.Machine.execLd g d a f w s
  | .st g d a f w => Sys2Proof.Machine.execSt g d a f w s
  | .lds g d a f xs z => Sys2Proof.Machine.execLds g d a f xs z s
  | .sts g d a f xs z => Sys2Proof.Machine.execSts g d a f xs z s
  | .atom g d a f w => Sys2Proof.Machine.execAtom g d a f w s
  | .atoms g d a f w => Sys2Proof.Machine.execAtoms g d a f w s
  | .resid g c a f w => Sys2Proof.Machine.execResid g c a f w s
  | .tkld g h a k f => Sys2Proof.Machine.execTkld g h a k f s
  | .tkrdm g h o xs f => Sys2Proof.Machine.execTkrdm g h o xs f s
  | .tkdrop g h f => Sys2Proof.Machine.execTkdrop g h f s
  | .tkxtnd g h f => Sys2Proof.Machine.execTkxtnd g h f s
  | .tkqry g d h f => Sys2Proof.Machine.execTkqry g d h f s
  | .cpyT g d xs c f => Sys2Proof.Machine.execCpyT g d xs c f s
  | .cpyHead g h c f => Sys2Proof.Machine.execCpyHead g h c f s
  | .cpyCommit g c => Sys2Proof.Machine.execCpyCommit g c s
  | .cpyWait g n c => Sys2Proof.Machine.execCpyWait g n c s
  | .cpyWptr g d c => Sys2Proof.Machine.execCpyWptr g d c s
  | .cpyWpwait g t c f => Sys2Proof.Machine.execCpyWpwait g t c f s
  | .rinit g r xs f => Sys2Proof.Machine.execRinit g r xs f s
  | .rawait g r d f => Sys2Proof.Machine.execRawait g r d f s
  | .rrel g r xs f => Sys2Proof.Machine.execRrel g r xs f s
  | .rpush g r xs f => Sys2Proof.Machine.execRpush g r xs f s
  | .rqry g r d f => Sys2Proof.Machine.execRqry g r d f s
  | .mloadw g xs m o c f => Sys2Proof.Machine.execMloadw g xs m o c f s
  | .mswap g m c f => Sys2Proof.Machine.execMswap g m c f s
  | .mma g t m o c f => Sys2Proof.Machine.execMma g t m o c f s
  | .mcomp g d xs c f => Sys2Proof.Machine.execMcomp g d xs c f s
  | .maccst g t m o c f => Sys2Proof.Machine.execMaccst g t m o c f s
  | .maccz g t m c f => Sys2Proof.Machine.execMaccz g t m c f s
  | .maccld g t m o c f => Sys2Proof.Machine.execMaccld g t m o c f s
  | .saopen g d o f => Sys2Proof.Machine.execSaopen g d o f s
  | .saadd g v r f => Sys2Proof.Machine.execSaadd g v r f s
  | .sanorm g v r m f => Sys2Proof.Machine.execSanorm g v r m f s
  | .saevict g r a f => Sys2Proof.Machine.execSaevict g r a f s
  | .safill g r a f => Sys2Proof.Machine.execSafill g r a f s
  | .sastat g d r f => Sys2Proof.Machine.execSastat g d r f s
  | .saclose g r f => Sys2Proof.Machine.execSaclose g r f s
  | .place g d a b n f => Sys2Proof.Machine.execPlace g d a b n f s
  | .plsync g xs l f => Sys2Proof.Machine.execPlsync g xs l f s
  | .migr g t => Sys2Proof.Machine.execMigr g t s
  | .plqry g d a f => Sys2Proof.Machine.execPlqry g d a f s
  | .br g p xi => Sys2Proof.Machine.execBr g p xi s
  | .call g p xi => Sys2Proof.Machine.execCall g p xi s
  | .bar g n xs => Sys2Proof.Machine.execBar g n xs s
  | .reconv g m => Sys2Proof.Machine.execReconv g m s
  | .csign g c => Sys2Proof.Machine.execCsign g c s
  | .cvdecl g xs c => Sys2Proof.Machine.execCvdecl g xs c s
  | .fence g p xs c => Sys2Proof.Machine.execFence g p xs c s
  | .waitf g n t => Sys2Proof.Machine.execWaitf g n t s
  | .bara g n => Sys2Proof.Machine.execBara g n s
  | .trap g c => Sys2Proof.Machine.execTrap g c s
  | .plmove g => Sys2Proof.Machine.execPlmove g s
  | .record g => Sys2Proof.Machine.execRecord g s
  | .coderep g => Sys2Proof.Machine.execCoderep g s
  | .eret g => Sys2Proof.Machine.execEret g s
  | .csrr g r v c => Sys2Proof.Machine.execCsrr g r v c s
  | .csrw g r v c => Sys2Proof.Machine.execCsrw g r v c s
  | .graph g n p f => Sys2Proof.Machine.execGraph g n p f s
  | .exit g => Sys2Proof.Machine.execExit g s
  | .beat g => Sys2Proof.Machine.execBeat g s
  | .nop g => Sys2Proof.Machine.execNop g s
  | .hintSched w a b c y => Sys2Proof.Machine.execHintSched w a b c y s
  | .hintImm p => Sys2Proof.Machine.execHintImm p s
  | .hintMod p => Sys2Proof.Machine.execHintMod p s
  | .hintPlace t l a b => Sys2Proof.Machine.execHintPlace t l a b s
  | .hintChain n => Sys2Proof.Machine.execHintChain n s
  | .hintCbank b w => Sys2Proof.Machine.execHintCbank b w s
  | .hintOff o => Sys2Proof.Machine.execHintOff o s
  | .groupEnd gid => Sys2Proof.Machine.execGroupEnd gid s
  | .teamPlacement die => Sys2Proof.Machine.execTeamPlacement die s
  | .migrLanding gid => Sys2Proof.Machine.execMigrLanding gid s
  | .deferredFaultDelivery gid => Sys2Proof.Machine.execDeferredFaultDelivery gid s
  | .loadDataReturn op unit => Sys2Proof.Machine.execLoadDataReturn op unit s
  | .storeCompletion op unit => Sys2Proof.Machine.execStoreCompletion op unit s
  | .scratchAccessPerformed op unit => Sys2Proof.Machine.execScratchAccessPerformed op unit s
  | .atomicStep op unit => Sys2Proof.Machine.execAtomicStep op unit s
  | .residApply op unit => Sys2Proof.Machine.execResidApply op unit s
  | .copyExecution chan => Sys2Proof.Machine.execCopyExecution chan s
  | .engineSectorRelease op unit => Sys2Proof.Machine.execEngineSectorRelease op unit s
  | .chainRecord chan => Sys2Proof.Machine.execChainRecord chan s
  | .chainRecordWake chan => Sys2Proof.Machine.execChainRecordWake chan s
  | .pushSlotFill op => Sys2Proof.Machine.execPushSlotFill op s
  | .readRequest die sec => Sys2Proof.Machine.execReadRequest die sec s
  | .ownRequest die sec => Sys2Proof.Machine.execOwnRequest die sec s
  | .writeBack die sec => Sys2Proof.Machine.execWriteBack die sec s
  | .cleanNotice die sec => Sys2Proof.Machine.execCleanNotice die sec s
  | .invalidation die sec => Sys2Proof.Machine.execInvalidation die sec s
  | .invalidationAck die sec => Sys2Proof.Machine.execInvalidationAck die sec s
  | .backInvalidation die line => Sys2Proof.Machine.execBackInvalidation die line s
  | .backInvalidationAck die line => Sys2Proof.Machine.execBackInvalidationAck die line s
  | .pendingWriteVisible die sec => Sys2Proof.Machine.execPendingWriteVisible die sec s
  | .l1LeaseExpiry core sec => Sys2Proof.Machine.execL1LeaseExpiry core sec s
  | .fenceCompletion gid => Sys2Proof.Machine.execFenceCompletion gid s
  | .wcbDrain sec => Sys2Proof.Machine.execWcbDrain sec s
  | .arrayOperation core arr => Sys2Proof.Machine.execArrayOperation core arr s
  | .matrixOperationCompletion op => Sys2Proof.Machine.execMatrixOperationCompletion op s
  | .saccVerdict op => Sys2Proof.Machine.execSaccVerdict op s
  | .saaddApply op => Sys2Proof.Machine.execSaaddApply op s
  | .saTimeout op => Sys2Proof.Machine.execSaTimeout op s
  | .ticketVerdict op => Sys2Proof.Machine.execTicketVerdict op s
  | .ticketFill slice entry unit => Sys2Proof.Machine.execTicketFill slice entry unit s
  | .ticketDelivery slice entry => Sys2Proof.Machine.execTicketDelivery slice entry s
  | .ticketLeaseLapse slice entry => Sys2Proof.Machine.execTicketLeaseLapse slice entry s
  | .placePart op => Sys2Proof.Machine.execPlacePart op s
  | .placeQueueRelease op => Sys2Proof.Machine.execPlaceQueueRelease op s
  | .plsyncCompletion op => Sys2Proof.Machine.execPlsyncCompletion op s
  | .peerAcknowledgement op => Sys2Proof.Machine.execPeerAcknowledgement op s
  | .peerRefusal op => Sys2Proof.Machine.execPeerRefusal op s
  | .peerAbandon op => Sys2Proof.Machine.execPeerAbandon op s
  | .inNetworkReduction r => Sys2Proof.Machine.execInNetworkReduction r s
  | .preemptionRequest t => Sys2Proof.Machine.execPreemptionRequest t s
  | .contextSave team => Sys2Proof.Machine.execContextSave team s
  | .restoreRequest team => Sys2Proof.Machine.execRestoreRequest team s
  | .restoreGrant team => Sys2Proof.Machine.execRestoreGrant team s
  | .heartbeatExpiry team => Sys2Proof.Machine.execHeartbeatExpiry team s
  | .runtimeLimitExpiry team => Sys2Proof.Machine.execRuntimeLimitExpiry team s
  | .resume gid r => Sys2Proof.Machine.execResume gid r s
  | .passOn gid lanes => Sys2Proof.Machine.execPassOn gid lanes s
  | .kill k => Sys2Proof.Machine.execKill k s
  | .serviceCall call => Sys2Proof.Machine.execServiceCall call s
  | .uncorrectableError w => Sys2Proof.Machine.execUncorrectableError w s
  | .correctedError w => Sys2Proof.Machine.execCorrectedError w s
  | .layerCopy stack => Sys2Proof.Machine.execLayerCopy stack s
  | .refresh stack chan => Sys2Proof.Machine.execRefresh stack chan s
  | .scrub stack chan row => Sys2Proof.Machine.execScrub stack chan row s
  | .dictionaryResync dir ok => Sys2Proof.Machine.execDictionaryResync dir ok s
  | .performanceSampling unit => Sys2Proof.Machine.execPerformanceSampling unit s
  | .groupForced gid => Sys2Proof.Machine.execGroupForced gid s
  | .yieldHoldExpiry gid => Sys2Proof.Machine.execYieldHoldExpiry gid s
  | .clockStep c => Sys2Proof.Machine.execClockStep c s
  | .launch queue => Sys2Proof.Machine.execLaunch queue s
  | .replay queue => Sys2Proof.Machine.execReplay queue s
  | .replayDequeue graph => Sys2Proof.Machine.execReplayDequeue graph s
  | .transfer queue => Sys2Proof.Machine.execTransfer queue s
  | .graphLoad queue => Sys2Proof.Machine.execGraphLoad queue s
  | .graphUnload queue => Sys2Proof.Machine.execGraphUnload queue s
  | .sliceKernelCommand queue answer => Sys2Proof.Machine.execSliceKernelCommand queue answer s
  | .kernelNode replay => Sys2Proof.Machine.execKernelNode replay s
  | .copyNode replay => Sys2Proof.Machine.execCopyNode replay s
  | .condNode replay => Sys2Proof.Machine.execCondNode replay s
  | .loopNode replay => Sys2Proof.Machine.execLoopNode replay s
  | .waitNode replay => Sys2Proof.Machine.execWaitNode replay s
  | .waitNodeSatisfied replay => Sys2Proof.Machine.execWaitNodeSatisfied replay s
  | .signalNode replay => Sys2Proof.Machine.execSignalNode replay s
  | .asyncNodeCompletion replay node => Sys2Proof.Machine.execAsyncNodeCompletion replay node s
  | .doorbellWrite port fn offset tail => Sys2Proof.Machine.execDoorbellWrite port fn offset tail s
  | .armWrite port requester value => Sys2Proof.Machine.execArmWrite port requester value s
  | .effectWindowRead port fn requester offset => Sys2Proof.Machine.execEffectWindowRead port fn requester offset s
  | .bar2Read port fn offset n how => Sys2Proof.Machine.execBar2Read port fn offset n how s
  | .bar2Write port fn offset how bytes => Sys2Proof.Machine.execBar2Write port fn offset how bytes s
  | .getVersion session => Sys2Proof.Machine.execGetVersion session s
  | .getCapabilities session => Sys2Proof.Machine.execGetCapabilities session s
  | .negotiateAlgorithms session => Sys2Proof.Machine.execNegotiateAlgorithms session s
  | .getDigests session => Sys2Proof.Machine.execGetDigests session s
  | .getCertificate session => Sys2Proof.Machine.execGetCertificate session s
  | .challenge session => Sys2Proof.Machine.execChallenge session s
  | .getMeasurements session index => Sys2Proof.Machine.execGetMeasurements session index s
  | .keyExchange session => Sys2Proof.Machine.execKeyExchange session s
  | .finish session => Sys2Proof.Machine.execFinish session s
  | .keyUpdate session => Sys2Proof.Machine.execKeyUpdate session s
  | .heartbeat session => Sys2Proof.Machine.execHeartbeat session s
  | .endSession session => Sys2Proof.Machine.execEndSession session s
  | .worldCreation r => Sys2Proof.Machine.execWorldCreation r s
  | .worldTeardown world => Sys2Proof.Machine.execWorldTeardown world s
  | .attestationAcknowledgement a => Sys2Proof.Machine.execAttestationAcknowledgement a s
  | .attestationWatchdogExpiry fetched => Sys2Proof.Machine.execAttestationWatchdogExpiry fetched s
  | .bundleFetchRetry fetched => Sys2Proof.Machine.execBundleFetchRetry fetched s
  | .sliceVersionSwitch slice version => Sys2Proof.Machine.execSliceVersionSwitch slice version s
  | .packageReset c offers => Sys2Proof.Machine.execPackageReset c offers s
  | .hostPortReset port => Sys2Proof.Machine.execHostPortReset port s
  | .dsyn0Clear die => Sys2Proof.Machine.execDsyn0Clear die s
  | .powerCapSet watts => Sys2Proof.Machine.execPowerCapSet watts s
  | .portModeSet port cxl => Sys2Proof.Machine.execPortModeSet port cxl s
  | .firmwareUpdateStage b => Sys2Proof.Machine.execFirmwareUpdateStage b s
  | .registerWrite r value => Sys2Proof.Machine.execRegisterWrite r value s
  | .peerOperationArrival o => Sys2Proof.Machine.execPeerOperationArrival o s
  | .tdispRequest port world r => Sys2Proof.Machine.execTdispRequest port world r s
  | .backInvalidationSnoopAnswer port sec => Sys2Proof.Machine.execBackInvalidationSnoopAnswer port sec s
  | .sliceKernelStore a => Sys2Proof.Machine.execSliceKernelStore a s
  | .powerOrThermalTrip => Sys2Proof.Machine.execPowerOrThermalTrip s
  | .powerOn offers => Sys2Proof.Machine.execPowerOn offers s

end Sys2Proof.Machine
end

