-- ==== Sys2Proof/Machine/Run.lean ====
section
/-! DEFINITION. One step: a granted word is fetched, decoded and executed (spec/04 R59, spec/09 R168, spec/17 R350), a step of
the part happens, dial ticks pass. The agenda says which; with nothing on it, the first step that is due, then the next grant
of a core, then a tick. Also how a word is placed where the next step fetches it. -/

namespace Sys2Proof.Machine

/-- Ticks of the dial pass: teams' timers run while they hold their reservation (R353); journal writes and posts that the ticks release
are made (R227, R331, R343). -/
def elapse (s : State) (n : Nat) : State :=
  let tick (t : Team) : Team :=
    if !holding t then t else if t.d.persistent then { t with timer := t.timer - n } else { t with timer := t.timer + n }
  flushPosts (flushJournal { s with dial := s.dial + n, teams := Fm.mapVals s.teams fun _ t => tick t })

/-- The head bundle cannot be fetched: its lanes take the cause (R168); that of a poisoned sector is marked as found late, and AUX names the
bundle (R174, R209, R380). -/
def fetchFault (s : State) (gid cause : Nat) : State :=
  match issueOf { s with cur := some gid } 12 with
  | none => s
  | some i =>
    let slice := causeSlice s i.g.core (worldOf s i.g) (pcVa i.e.pc) cause
    let syn : BitVec 56 := if cause == cPoison then memSyn 0 0 true (i.e.pc - codebaseOf s i.g).toNat else 0
    retire s i i.g (fun _ => faultFx i slice { cause := BitVec.ofNat 8 cause, syn := syn, addr := BitVec.ofNat 64 (pcVa i.e.pc) }) none

/-- The words of a group are fetched from where its bundle stands (R59). -/
def nextPc (g : Group) : Option Pc := g.issuing.map fun e => e.pc + BitVec.ofNat 57 (4 * g.hints.n)

/-- The syndrome of ILLEGAL_INSTRUCTION for a word whose opcode and fn name an instruction with syndromes of its own (R208, R287, R305);
SIZE is 0 where the size code is reserved. -/
def wordSyn (w : Word) : BitVec 56 :=
  let mem (k : MemKind) (ok : Bool) (size : Nat) : BitVec 56 := memSyn (kindCode k) (if ok then size else 1) false 0
  match Sys2Proof.decodeRaw w with
  | .ok (.ld _ _ _ _ z) => mem .ld (z.toNat ≤ 6) (ldSize z.toNat)
  | .ok (.st _ _ _ _ z) => mem .st (z.toNat ≤ 6) (ldSize z.toNat)
  | .ok (.lds _ _ _ _ _ z) => mem .lds true (ldsSize z.toNat)
  | .ok (.sts _ _ _ _ _ z) => mem .sts true (ldsSize z.toNat)
  | .ok (.atom _ _ _ _ z) => mem .atom (z.toNat ≤ 14) (atomSize z.toNat)
  | .ok (.atoms _ _ _ _ z) => mem .atoms (z.toNat ≤ 14) (atomSize z.toNat)
  | .ok (.resid _ _ _ _ z) => mem .resid (z.toNat ≤ 1) (if z.toNat == 0 then 128 else 512)
  | .ok (.cpyT ..) => memSyn 7 1 false 0
  | .ok (.tkrdm ..) => tktSyn 0 1 false 0
  | .ok (.tkdrop ..) => tktSyn 0 2 false 0
  | .ok (.tkxtnd ..) => tktSyn 0 3 false 0
  | .ok (.tkqry ..) => tktSyn 0 4 false 0
  | _ => 0

/-- The sector of the next word is an engine's: the fetch waits for its release (R250). -/
def fetchWaits (s : State) (core world : Nat) (pc : Pc) : Bool :=
  match xlate s (core / 48) world (pcVa pc) with
  | .ok x => marked s (secOf x.phys) none
  | .error _ => false

/-- The translation that a fetch uses (R277); one that fails its checks uses none. -/
def noteFetch (s : State) (core world : Nat) (pc : Pc) : State :=
  match checkVa s (core / 48) world (pcVa pc) 4 .fetch fun x => placeCauses x (core / 48) .load with
  | .ok x => useXl s core world (pcVa pc) false x
  | .error _ => s

/-- The form of an instruction whose sources may name constant words; none for the others (R62, R73). -/
def constForm (h : Hints) : Instr → Option Form
  | .iadd _ d a b | .isub _ d a b | .imul _ d a b => some (intForm tyArith true true a b d (widthOf h.arith a == 64) false)
  | .imad _ d a b => some (intForm tyArith true true a b d (widthOf h.arith a == 64) true)
  | .imulhi _ d a b | .imulhn _ d a b | .imin _ d a b | .imax _ d a b | .nmin _ d a b | .nmax _ d a b | .and _ d a b | .or _ d a b
  | .xor _ d a b | .andn _ d a b | .sel _ d a b => some (intForm tyPlain false false a b d (widthOf h.arith a == 64) false)
  | .shl _ d a b | .shr _ d a b | .sar _ d a b => some (shiftForm a b d (widthOf h.arith a))
  | .lea _ d a b => some (leaForm a b d)
  | .icmp _ _ _ a b | .ncmp _ _ _ a b => some (cmpForm a b (widthOf h.arith a))
  | .mov _ d a | .bitu _ d a _ => some (movForm a d (widthOf h.arith a))
  | .jmpi _ a b => some (jmpiForm a b)
  | .fadd _ d a b | .fsub _ d a b | .fmul _ d a b => some (fpForm [0, tyF32] true true false a b d)
  | .ffma _ d a b => some (fpForm [0, tyF32] true true true a b d)
  | .fmin _ d a b | .fmax _ d a b => some (fpForm [0, tyF32] false true false a b d)
  | .hadd2 _ d a b | .hmul2 _ d a b => some (fpForm [0, tyBf16, tyF16] true false false a b d)
  | .hfma2 _ d a b | .fdot2 _ d a b => some (fpForm [0, tyBf16, tyF16] true false true a b d)
  | .fcmp _ _ _ a b => some (fcmpForm a b)
  | .sfu _ d a _ => some (sfuForm a d)
  | .cvt _ d a c => some (cvtForm c.toNat a d)
  | .shfl _ d a b => some (shflForm (h.arith.ty == tyI64) a b d)
  | .reds _ d a sel => some (redsForm sel.toNat (h.arith.ty == tyI64) a d)
  | .place _ d a b _ f => some (placeForm h d a b f)
  | _ => none

/-- Decoding finds nothing illegal in the bundle of an instruction that may read constant words; it runs before they are read (R86). -/
def bundleLegal (g : Group) (i : Instr) : Bool :=
  match constForm g.hints i with
  | none => true
  | some f => formOk g f

/-- Fetch, decode and execute the next word of the group that was granted one. -/
def runWord (s : State) (gid : Nat) : Host.Outcome State Fault Refusal :=
  match Fm.get? s.groups gid with
  | none => .next s
  | some g =>
    match nextPc g with
    | none => .next s
    | some pc =>
      let s := noteFetch s g.core (worldOf s g) pc
      if fetchWaits s g.core (worldOf s g) pc then .next (holdOff s gid)
      else
      match fetchWord s g.core (worldOf s g) pc with
      | .error c => .next (fetchFault s gid c)
      | .ok w =>
        let s := s.modGroup gid fun g => { g with word := w }
        match Sys2Proof.decode w with
        | .ok i =>
          if !bundleLegal g i then exec i { s with cur := some gid }
          else if constWaits s g i then .next (holdOff s gid)
          else exec i { fillConsts s g i with cur := some gid }
        | .error _ =>
          match issueOf { s with cur := some gid } 12 with
          | none => .next s
          | some i => .next (trapAll s i cIllegal (wordSyn w))

/-- A core's next grant, or the end of its cycle (R350). -/
def issueCore (s : State) (core : Nat) : Host.Outcome State Fault Refusal :=
  match nextGrant s core with
  | none => .next (endCycle s core)
  | some (gid, slot) => runWord (grant s core gid slot) gid

/-- The first step of a list that changes the state. -/
def firstChange (s : State) : List Instr → Option (Host.Outcome State Fault Refusal)
  | [] => none
  | i :: r =>
    match exec i { s with cur := none } with
    | .next t => if t = { s with cur := none } then firstChange s r else some (.next t)
    | o => some o

/-- The cores that hold groups, each once. -/
def liveCores (s : State) : List Nat := dedup (s.groups.map fun e => e.2.core)

/-- The cores whose cycles count: those that hold groups, and those whose counters run (R354). -/
def cycleCores (s : State) : List Nat :=
  dedup (liveCores s ++ (s.pmus.filter fun e => e.1 < 384).map fun e => e.1)

/-- The ticks that one row of a takeover takes (R201: 2^22 rows in at least 21.8 ms; log entry 45). -/
def rowTicks : Nat := 6

/-- A row of every takeover is copied, where the dial says that one is due (R200, R201). -/
def copyRows (s : State) : State :=
  if s.dial % rowTicks != 0 || s.repairs.all fun e => !e.2.active then s
  else { s with repairs := Fm.mapVals s.repairs fun _ r => r.copyRow }

/-- The end of a tick with nothing else to do: the cycles of the cores end, then rows of takeovers are copied, then counters are sampled, the two
lowest ranks of R355; then the next tick begins. -/
def endTick (s : State) : State :=
  let s := copyRows ((cycleCores s).foldl endCycle s)
  elapse ((s.pmus.map fun e => e.1).foldl sampleUnit s) 1

/-- With nothing on the agenda: a step that is due, else a grant, else the cycle ends and a tick passes. -/
def runAuto (s : State) : Host.Outcome State Fault Refusal :=
  match firstChange s (dueEvents s) with
  | some o => o
  | none =>
    match (liveCores s).find? fun c => (nextGrant s c).isSome with
    | some c => issueCore s c
    | none => .next (endTick s)

/-- What may still happen once a fatal error has stopped every core and engine, or while the package is held in reset (R365, R383). -/
def whileStopped (i : Instr) : Bool :=
  match i with
  | .packageReset .. | .powerOn .. | .bundleFetchRetry .. | .dsyn0Clear .. | .registerWrite .. | .portModeSet .. | .firmwareUpdateStage ..
  | .hostPortReset .. => true
  | _ => false

/-- An event that the agenda names. An internal activity waits while a step of a higher-ranked one is due, which goes first (R355). -/
def runEvent (i : Instr) (s : State) : Host.Outcome State Fault Refusal :=
  match firstChange s (aboveEvents s i) with
  | some (.next t) => .next { t with agenda := .event i :: t.agenda }
  | some o => o
  | none => exec i { s with cur := none }

/-- What the agenda names next (log entry 1). -/
def runMove (m : Move) (s : State) : Host.Outcome State Fault Refusal :=
  match m with
  | .event i => if s.stopped.isSome && !whileStopped i then .next { s with cur := none } else runEvent i s
  | .elapse n => .next (elapse s n)
  | .issue core => issueCore s core

/-- Write a code word at a physical place: every copy and the memory hold it. -/
def pokeWord (s : State) (phys : Nat) (bs : List Byte) : State :=
  (bs.foldl (fun (p : State × Nat) b => (pokeByte p.1 p.2 b, p.2 + 1)) (s, phys)).1

/-- The place that the next step fetches from, when the agenda is to grant a word and the page allows a fetch. -/
def fetchPlace (s : State) : Option Nat :=
  match s.agenda with
  | .issue core :: _ =>
    match nextGrant s core with
    | none => none
    | some (gid, _) =>
      match Fm.get? s.groups gid with
      | none => none
      | some g =>
        match nextPc g with
        | none => none
        | some pc =>
          match checkVa s (g.core / 48) (worldOf s g) (pcVa pc) 4 .fetch fun x => placeCauses x (g.core / 48) .load with
          | .ok x => some x.phys
          | .error _ => none
  | _ => none

/-- A lane at the start of the loaded program. -/
def loadLane : Lane := { pc := 0x10000, prio := 40 }

/-- A launch descriptor for one core team of one group. -/
def loadDesc : Desc :=
  { codebase := 0x10000, entry := 0, entryPrio := 40, level := 2, dies := 1, cluster := false, persistent := false, crack := true,
    teams := 1, groups := 1, producers := 0, budgetP := 0, budgetC := 60, arrays := 1, tiles := 16, cvs := 8, lanePriv := 0,
    coreScr := 4096, clWin := 0, trapvec := 0, kwin := 0, dsBase := 0, dsSize := 0, limit := 0, banks := [] }

/-- A loaded group. -/
def loadGroup : Group :=
  { team := 0, index := 0, core := 0, slot := 0, budget := 60, lanes := lanesOf fun _ => loadLane,
    ents := [{ pc := 0x10000, prio := 40 }], crack := true, trapvec := 0x20000, kwin := 0 }

/-- A page-table entry of 16 bytes (R275): the low half, the buffer, the page in units of 64 KiB or of 512 bytes for a table. -/
def pteBytes (low buf page : Nat) : List Byte := leBytes 16 (low + buf * 2 ^ 64 + page * 2 ^ 84)

/-- A descriptor of 64 KiB on stack 0: V, R, W, X, KIND, OWNER, STACKS, SIZE, BASE (R193). -/
def loadBuf (kind world units base : Nat) : BitVec 256 :=
  BitVec.ofNat 256 (0xF + kind * 32 + world * 256 + 2 ^ 32 + units * 2 ^ 64 + base * 2 ^ 128)

/-- A program loaded from outside: a world with one mapped page of code at 0x10000, and one group at its first word. -/
def loadProgram (s : State) (bs : List Byte) : State :=
  let root := 0
  let s := { s with
    desc := Fm.put (Fm.put s.desc 0 (loadBuf 1 1 8 0)) 1 (loadBuf 0 1 1 2048),
    keys := Fm.put s.keys 1 { st := 1, mgen := 1 },
    worlds := Fm.put s.worlds 1 { conf := false, replay := false, rootBuf := 0, rootOff := 0, ringBuf := 2, errOff := 0,
                                  orphanOff := 32768 },
    teams := Fm.put s.teams 0 { world := 1, index := 0, grid := 0, die := 0, d := loadDesc, places := [(0, { scr := 0, scrLen := 4096, lp := 4096, lpLen := 0, cl := 4096, clLen := 0, arrays := [0], regs := 15360 })] },
    groups := Fm.put s.groups 0 loadGroup,
    agenda := .issue 0 :: s.agenda }
  -- level 1 at 0 points to level 2 at 131072, that to level 3 at 262144, that to level 4 at 393216, its second entry the page
  let s := pokeWord s root (pteBytes 1 0 256)
  let s := pokeWord s 131072 (pteBytes 1 0 512)
  let s := pokeWord s 262144 (pteBytes 1 0 768)
  let s := pokeWord s (393216 + 16) (pteBytes (1 + 2 + 4 + 8 + 16 + 32 + 64) 1 0)
  pokeWord s (2048 * 512) bs

/-- The bytes of an instruction of the opcode table, the first word at the lowest address (R4). -/
def tableBytes (nbits w : Nat) : List Byte := leBytes (max 4 (nbits / 8)) w

/-- Place a word where the next step fetches: at the place the agenda's grant fetches from, else in a program loaded from
outside. -/
def placeWord (s : State) (nbits w : Nat) : State :=
  match fetchPlace s with
  | some p => pokeWord s p (tableBytes nbits w)
  | none => loadProgram s (tableBytes nbits w)

end Sys2Proof.Machine
end

