-- ==== Sys2Proof/Machine/Step.lean ====
section
/-! DEFINITION. The step of the machine, and where its next instruction is placed. -/

namespace Sys2Proof.Machine

/-- One step: the head of the agenda, or what is due (log entry 1). -/
def step (s : State) : Host.Outcome State Fault Refusal :=
  match s.agenda with
  | m :: r => runMove m { s with agenda := r }
  | [] => runAuto s

/-- The state with an instruction word where `step` fetches its next one. -/
def State.withFetchWord (s : State) (nbits w : Nat) : State := placeWord s nbits w

end Sys2Proof.Machine
end

