-- ==== Sys2Proof/Safety.lean ====
section
/-! DEFINITION. The terms that claims use: a group's registers as software sees them, what an instruction leaves alone, what an issue does
to the lanes, and the invariant that every step keeps. -/

namespace Sys2Proof.Safety

open Sys2Proof.Machine

/-- A vector register in a lane (R106). -/
def vreg (g : Group) (n l : Nat) : Word := laneW (Fm.getD g.v n []) l

/-- A scalar register; s0 reads 0 (R108). -/
def sreg (g : Group) (n : Nat) : DWord := if n = 0 then 0 else Fm.getD g.s n 0

/-- A predicate register (R109). -/
def preg (g : Group) (n : Nat) : LaneMask := Fm.getD g.p n 0

/-- A latch in a lane (R74). -/
def latch (g : Group) (n l : Nat) : Word := laneW (Fm.getD g.b n []) l

/-- A group's registers after an instruction, as functions of their numbers and lanes; GS as a function of the cycles from now, since the bits of
fixed-latency instructions come when those complete (R52). -/
structure Regs where
  v  : Nat → Nat → Word
  s  : Nat → DWord
  p  : Nat → LaneMask
  gs : Nat → DWord

/-- A group's registers. -/
def regsOf (g : Group) : Regs := { v := vreg g, s := sreg g, p := preg g, gs := fun n => g.gs ||| gsDue g.gsq n }

/-- A group's registers are `r`. -/
def RegsAre (h : Group) (r : Regs) : Prop :=
  (∀ n l, l < 64 → vreg h n l = r.v n l) ∧ (∀ n, sreg h n = r.s n) ∧ (∀ n, preg h n = r.p n) ∧ ∀ n, h.gs ||| gsDue h.gsq n = r.gs n

/-- A vector register takes a value in some lanes. -/
def Regs.setV (r : Regs) (d : Nat) (act : LaneMask) (x : Nat → Word) : Regs :=
  { r with v := fun n l => if n = d ∧ act.getLsbD l = true then x l else r.v n l }

/-- A pair of vector registers takes a 64-bit value in some lanes (R107). -/
def Regs.setW (r : Regs) (d : Nat) (act : LaneMask) (x : Nat → DWord) : Regs :=
  { r with v := fun n l => if act.getLsbD l = true then
      (if n = d + 1 then (x l >>> 32).setWidth 32 else if n = d then (x l).setWidth 32 else r.v n l) else r.v n l }

/-- A scalar register takes a value; s0 does not (R108). -/
def Regs.setS (r : Regs) (d : Nat) (x : DWord) : Regs := { r with s := fun n => if n = d ∧ n ≠ 0 then x else r.s n }

/-- A predicate takes a value in some lanes (R109). -/
def Regs.setP (r : Regs) (d : Nat) (act m : LaneMask) : Regs :=
  { r with p := fun n => if n = d then (r.p n &&& ~~~ act) ||| (m &&& act) else r.p n }

/-- GS bits are set (R51). -/
def Regs.orGs (r : Regs) (b : DWord) : Regs := { r with gs := fun n => r.gs n ||| b }

/-- GS bits are set when a fixed-latency instruction completes, so many cycles from now (R52, R85). -/
def Regs.orGsAt (r : Regs) (lat : Nat) (b : DWord) : Regs := { r with gs := fun n => if lat ≤ n then r.gs n ||| b else r.gs n }

/-- Everything of a group but its vector, scalar and predicate registers, latches, GS, and where its lanes stand: its special registers, its
flags, what it waits for. -/
def SameRest (g h : Group) : Prop :=
  h.team = g.team ∧ h.index = g.index ∧ h.core = g.core ∧ h.slot = g.slot ∧ h.budget = g.budget ∧ h.flags = g.flags ∧ h.gsarm = g.gsarm ∧
    h.crack = g.crack ∧ h.held = g.held ∧ h.trapvec = g.trapvec ∧ h.trapinfo = g.trapinfo ∧ h.kwin = g.kwin ∧ h.hold = g.hold ∧
    h.fence = g.fence ∧ h.times = g.times ∧ h.deferred = g.deferred ∧ h.batches = g.batches ∧ h.halted = g.halted ∧ h.ended = g.ended ∧
    h.away = g.away ∧
    ∀ l, l < 64 → (h.lane l).trapPc = (g.lane l).trapPc ∧ (h.lane l).trapCause = (g.lane l).trapCause ∧
      (h.lane l).trapAddr = (g.lane l).trapAddr

/-- Lanes that do not wait stay as they are; a WAITING lane may be released (R38, R169). -/
def LanesStay (g h : Group) (l : Nat) : Prop := (g.lane l).waiting = false → h.lane l = g.lane l

/-- Another group after an issue: its registers stand; its latches stand or are lost (R74); its lanes stand unless they waited. -/
def Undisturbed (g h : Group) : Prop :=
  RegsAre h (regsOf g) ∧ SameRest g h ∧ (h.b = g.b ∨ h.b = []) ∧ ∀ l, LanesStay g h l

/-- No part of the state but groups, teams, the pipes' last users, the counter of free values and the performance counters. -/
def OnlyGroups (s t : State) : Prop :=
  t = { s with groups := t.groups, teams := t.teams, pipes := t.pipes, freeCtr := t.freeCtr, pmus := t.pmus }

/-- Teams as they were but for phases of barriers that end. -/
def TeamsKept (s t : State) : Prop :=
  ∀ k, (Fm.get? t.teams k).map (fun x => { x with barriers := [] }) = (Fm.get? s.teams k).map fun x => { x with barriers := [] }

/-- Two entries are both absent, or stand in a relation. -/
def Both {α : Type} (r : α → α → Prop) : Option α → Option α → Prop
  | none, none => True
  | some x, some y => r x y
  | _, _ => False

/-- Every other group after an issue. -/
def OthersKept (s t : State) (gid : Nat) : Prop :=
  ∀ k, k ≠ gid → Both Undisturbed (Fm.get? s.groups k) (Fm.get? t.groups k)

/-- A latch chain whose lane faulted ends with this issue, and the group's latches are lost (R76). -/
def chainLost (i : Iss) (stays : Bool) : Bool :=
  match i.g.chain with
  | some c => c.faulted && (c.left ≤ 1 || !stays)
  | none => false

/-- The performance counters stand, but that the core counts an instruction (R354). -/
def Counted (s t : State) (i : Iss) : Prop := t.pmus = s.pmus ∨ t.pmus = (countUnit s i.g.core 2 [worldOf s i.g]).pmus

/-- What an issue that ends no team does (R29, R35). From a state `s`, its group, which is `k` in everything but registers, latches, and where
its lanes stand, gets the registers `r`, and `q` holds of it; each issuing lane goes to its pair in `nx` and its state in `st`; nothing else
of the state changes: no memory, no flag, no special register, no other lane that does not wait, no register of another group. -/
def SettledAt (s t : State) (i : Iss) (k : Group) (r : Regs) (nx : Nat → Pair) (st : Nat → LaneState) (q : Group → Prop) : Prop :=
  OnlyGroups s t ∧ Counted s t i ∧ TeamsKept s t ∧ OthersKept s t i.gid ∧
    ∃ h, Fm.get? t.groups i.gid = some h ∧ SameRest k h ∧ RegsAre h r ∧ q h ∧
      ∀ l, l < 64 → if i.lanes.getLsbD l then (h.lane l).st = st l ∧ (h.lane l).pair = nx l else LanesStay k h l

/-- An issue after which every issuing lane is ISSUABLE. -/
def Settled (s t : State) (i : Iss) (k : Group) (r : Regs) (nx : Nat → Pair) (q : Group → Prop) : Prop :=
  SettledAt s t i k r nx (fun _ => .issuable) q

/-- An instruction that raises nothing: the latches become `b`, and are lost if their chain ends with a fault (R74, R76). -/
def IssuedAs (s t : State) (i : Iss) (k : Group) (r : Regs) (b : Nat → Nat → Word) (nx : Nat → Pair) : Prop :=
  Settled s t i k r nx fun h => ∀ n l, l < 64 → latch h n l =
    if chainLost i ((List.range 64).any fun k => i.lanes.getLsbD k && nx k == (pcNext i.pcI, i.e.prio)) then 0 else b n l

/-- An issue after which the group's flags, special registers and what it waits for are as before. -/
def Issued (s t : State) (i : Iss) (r : Regs) (b : Nat → Nat → Word) (nx : Nat → Pair) : Prop := IssuedAs s t i i.g r b nx

/-- The bundle after the instruction, at the entry's priority (R29). -/
def onward (i : Iss) (_l : Nat) : Pair := (pcNext i.pcI, i.e.prio)

/-- The group of an issue whose lanes of a set enter TRAPVEC (R35, R175): TRAPPC, TRAPCAUSE and TRAPADDR are written in each entering lane,
TRAPINFO.WORD once, with the word of the lowest one. -/
def entered (k : Group) (m : LaneMask) (tr : Nat → TrapAt) : Group :=
  { k with
    lanes := lanesOf fun l => if m.getLsbD l then
        { k.lane l with trapPc := trapPcOf (tr l).at_, trapCause := trapCauseOf (tr l).f, trapAddr := (tr l).f.addr }
      else k.lane l
    trapinfo := infoWord k.trapinfo (tr (firstLane m)).f.word }

/-- Lanes of a set take an exception and no team is killed (R35, R175): they go to (TRAPVEC, 63) and the saved registers are written; the
other issuing lanes move on; registers stand as `r` says; outside a chain the group's latches and its SCHED cover are lost. -/
def ExceptedAs (s t : State) (i : Iss) (k : Group) (r : Regs) (m : LaneMask) (tr : Nat → TrapAt) : Prop :=
  Settled s t i (entered k m tr) r (fun l => if m.getLsbD l then (i.g.vec, 63) else (pcNext i.pcI, i.e.prio)) fun h =>
    i.g.chain = none → h.b = [] ∧ h.cover = none

/-- The instruction issues, and lanes of a set take an exception. -/
def Excepted (s t : State) (i : Iss) (k : Group) (m : LaneMask) (tr : Nat → TrapAt) : Prop := ExceptedAs s t i k (regsOf i.g) m tr

/-- The instruction is not issued: every issuing lane takes an exception at the bundle, and the registers are as they were before it (R346). -/
def NotIssued (s t : State) (i : Iss) (tr : Nat → TrapAt) : Prop :=
  ∀ g, Fm.get? s.groups i.gid = some g → ExceptedAs s t i i.g (regsOf g) i.lanes tr ∧ t.pmus = s.pmus

/-- No trap of the set kills the team: no lane stands at priority 63 and there is a handler (R36, R176). -/
def Handled (i : Iss) (m : LaneMask) (tr : Nat → TrapAt) : Prop :=
  i.g.vec ≠ 0 ∧ ∀ l, l < 64 → m.getLsbD l = true → (tr l).at_.2 ≠ 63

/-- A cause routed to TRAPVEC that a lane takes at this priority ends its team, as does one where there is no handler (R36, R176). -/
def Fatal (g : Group) (prio : BitVec 6) : Prop := prio = 63 ∨ g.vec = 0

/-- A team is killed (R42, R176): the team and its groups are gone, and the groups of other teams stay. -/
def Killed (s t : State) (team : Nat) : Prop :=
  Fm.get? t.teams team = none ∧ (∀ k h, Fm.get? t.groups k = some h → h.team ≠ team) ∧
    ∀ k h, Fm.get? s.groups k = some h → h.team ≠ team → Fm.get? t.groups k = some h

/-- The trap that a cause with no address takes at the bundle (R35), with a syndrome. -/
def atBundle (i : Iss) (cause : Nat) (syn : BitVec 56 := 0) : TrapAt :=
  { f := { cause := BitVec.ofNat 8 cause, syn := syn, word := i.g.word }, at_ := i.pair }

/-- The trap of a flag that is full (R346): its number stands in TRAPADDR. -/
def fullFlag (i : Iss) (f : BitVec 4) (syn : BitVec 56 := 0) : TrapAt :=
  { f := { cause := BitVec.ofNat 8 cFlagOverflow, syn := syn, addr := BitVec.ofNat 64 f.toNat, word := i.g.word }, at_ := i.pair }

/-- The instruction cannot be accepted now: nothing issues, the group is not ready for the rest of the cycle, and its pipe is free for another
(R347, R350); a chain that ends with it holds its core no more (R351). -/
def Stalled (s t : State) (gid : Nat) : Prop :=
  (∃ g, Fm.get? s.groups gid = some g ∧ Fm.get? t.groups gid =
    some { g with stalled := true, accepting := true, chain := g.chain.map fun c => if c.left ≤ 1 then { c with ended := true } else c } ∧
    ∀ c, Fm.get? s.cycles g.core = some c → c.granted.head? = some gid → Fm.get? t.cycles g.core = some { c with used := c.used.drop 1 }) ∧
    (∀ k, k ≠ gid → Fm.get? t.groups k = Fm.get? s.groups k) ∧ t = { s with groups := t.groups, cycles := t.cycles }

/-- The word before a place is no hint word, so a lane may branch there (R67). -/
def NoHintBefore (s : State) (i : Iss) (pc : Pc) : Prop := ∀ w, fetchWord s i.g.core (worldOf s i.g) (pc - 4) = .ok w → isHint w = false

/-- The pair of each lane after a branch: the active lanes at the target, the others past the bundle (R165). -/
def branched (i : Iss) (p : Nat → Pair) (l : Nat) : Pair := if i.act.getLsbD l then p l else (pcNext i.pcI, i.e.prio)

/-- After the issue some lane of the team other than the active ones can still issue, so that no WAITING lane waits for ever (R170), and no
lane of the group waits at a RECONV. -/
def Unstuck (s : State) (i : Iss) : Prop :=
  (∃ k g l, Fm.get? s.groups k = some g ∧ g.team = i.g.team ∧ (g.lane l).st = .issuable ∧ (k = i.gid → i.act.getLsbD l = false)) ∧
    ∀ x ∈ i.g.lanes, Lane.atReconv x = false

/-- An arrival at a barrier, as R169 records it: the group joins lanes that wait, arrives and fixes the count, or arrives early. -/
def arrived (g : Group) (n : Nat) (count : Option Nat) (b : Barrier) : Barrier :=
  if g.waitsAt n then b
  else if g.index ∈ b.arr then { b with early := b.early ++ [g.index], earlyCount := if count.isSome then count else b.earlyCount }
  else { b with arr := b.arr ++ [g.index], count := if count.isSome then count else b.count }

/-- The phase is complete (R169): its arrivals reach its count, where a count of 0, or none, stands for every group not yet ended. -/
def Complete (s : State) (team : Nat) (b : Barrier) : Prop :=
  b.arr ≠ [] ∧ (match b.count with
    | some 0 | none => liveGroups s team
    | some c => c) ≤ b.arr.length

/-- An arrival that R169 lets through: the count is no more than the team's groups and agrees with the phase's, and the group is not two phases
ahead. -/
def MayArrive (tm : Team) (g : Group) (n : Nat) (count : Option Nat) (b : Barrier) : Prop :=
  (g.waitsAt n = true ∨ g.index ∉ b.arr ∨ g.index ∉ b.early) ∧
    ∀ c, count = some c → c ≤ tm.d.groups ∧ (b.count = none ∨ b.count = some c) ∧
      (g.waitsAt n = false → g.index ∈ b.arr → b.earlyCount = none ∨ b.earlyCount = some c)

/-- The group of an accepted operation (R64, R206): its flag stands one higher; with F = 15 the group waits for the operation. -/
def flagged (g : Group) (f : BitVec 4) (id : Nat) : Group :=
  if f.toNat = 15 then { g with hold := .op id } else { g with flags := Fm.put g.flags f.toNat (g.flag f.toNat + 1) }

/-- The operation that an issue left in flight (R64, R206): who issued it, the flag that it completes, its fence classes, what it does. -/
def InFlight (t : State) (id : Nat) (i : Iss) (f : BitVec 4) (cls : BitVec 7) (kind : OpKind) (m : LaneMask := i.act) : Prop :=
  ∃ o, Fm.get? t.ops id = some o ∧ o.group = some i.gid ∧ o.team = i.g.team ∧ o.core = i.g.core ∧ o.lanes = m ∧
    o.flag = (if f.toNat = 15 then none else some f.toNat) ∧ o.cls = cls ∧ o.kind = kind

/-- The active lanes of an issue, in ascending order. -/
def activeLanes (i : Iss) : List Nat := (List.range 64).filter fun l => i.act.getLsbD l

/-- The memory instructions of 11 with their operands: the checks of each form, whether it addresses a scratch space, its fence classes, its
operation without accesses, and the verdict on each lane (R203 to R219). -/
def memoryForms (s : State) (i : Iss) (g : BitVec 4) (d : BitVec 6) (a : BitVec 8) (f w : BitVec 4) (sp z : BitVec 2) :
    List (Instr × Form × Bool × BitVec 7 × MemOp × (Nat → Verdict)) :=
  let md := i.g.hints.memory
  let core := i.g.core
  let world := worldOf s i.g
  let n := ldSize w.toNat
  let m := ldsSize z.toNat
  let k := atomSize w.toNat
  let p := atomOperand w.toNat
  let r := if w.toNat = 0 then 128 else 512
  let base (l : Nat) : Nat := scratchBase s i a l
  [(.ld g d a f w, memForm .ld n a f true true d.toNat n, false, 1,
      { k := .ld, d := d.toNat, w := w.toNat, pol := md.pol, lease := if md.pol == 1 then md.lease else 256, accs := [] },
      fun l => checkLane s core world .ld n n l (laneVa s i a n l) []),
    (.st g d a f w, memForm .st n a f false true d.toNat n, false, 2, { k := .st, d := d.toNat, w := w.toNat, accs := [] },
      fun l => checkLane s core world .st n n l (laneVa s i a n l) (regBytes s i.g d.toNat n l)),
    (.lds g d a f sp z, memForm .lds m a f false false d.toNat m, true, 1, { k := .lds, d := d.toNat, w := z.toNat, accs := [] },
      fun l => checkScratch s i.g sp.toNat m l (scratchOff i a (base l) m l) []),
    (.sts g d a f sp z, memForm .sts m a f false false d.toNat m, true, 2, { k := .sts, d := d.toNat, w := z.toNat, accs := [] },
      fun l => checkScratch s i.g sp.toNat m l (scratchOff i a (base l) m l) (regBytes s i.g d.toNat m l)),
    (.atom g d a f w, memForm .atom k a f false true d.toNat p, false, 3, { k := .atom, d := d.toNat, w := w.toNat, accs := [] },
      fun l => checkLane s core world .atom k k l (laneVa s i a k l) (regBytes s i.g d.toNat p l)),
    (.atoms g d a f w, memForm .atoms k a f false false d.toNat p, true, 3, { k := .atoms, d := d.toNat, w := w.toNat, accs := [] },
      fun l => checkScratch s i.g (base l / 2 ^ 30) k l (scratchOff i a (base l % 2 ^ 30) k l) (regBytes s i.g d.toNat p l)),
    (.resid g d a f w, memForm .resid r a f false true 0 0, false, 2, { k := .resid, d := d.toNat, w := w.toNat, accs := [] },
      fun l => checkLane s core world .resid r r l (laneVa s i a r l) [])]

/-- Words that a lane's access returns go to the registers from `d` on, in that lane (R211). -/
def Regs.loads (r : Regs) (d lane : Nat) (ws : List Word) : Regs :=
  { r with v := fun n l => if l = lane ∧ d ≤ n ∧ n < d + ws.length then (ws[n - d]?).getD 0 else r.v n l }

/-- An operation completed (R64): it is gone, its group's flag stands one lower, the group's registers are `r`, and no other group changed. -/
def Completed (s t : State) (id gid f : Nat) (r : Regs) : Prop :=
  Fm.get? t.ops id = none ∧
    (∃ g h, Fm.get? s.groups gid = some g ∧ Fm.get? t.groups gid = some h ∧ h.flag f = g.flag f - 1 ∧ (∀ n, n ≠ f → h.flag n = g.flag n) ∧
      RegsAre h r ∧ h.lanes = g.lanes) ∧
    ∀ k, k ≠ gid → Fm.get? t.groups k = Fm.get? s.groups k

/-- A memory operation of one access, which nothing holds back (R213): the operation `id` of a group, with a flag, whose only access is `x`. -/
def OneAccess (s : State) (id gid f : Nat) (g : Group) (o : Op) (m : MemOp) (x : Acc) : Prop :=
  Fm.get? s.ops id = some o ∧ o.kind = .mem m ∧ m.accs = [x] ∧ x.got = none ∧ x.held = false ∧ x.lane < 64 ∧ o.group = some gid ∧
    o.flag = some f ∧ Fm.get? s.groups gid = some g ∧ earlierOpen s id o m.size x (fun _ => true) = false

/-- A die holds a sector so that it writes it with no request (R243): its copy, in M or E, while no engine owns the sector, no Own and no
back-invalidation of it is in progress, and the host caches none of it. -/
def Owned (s : State) (die sec : Nat) (x : L2Sec) : Prop :=
  die < 8 ∧ copyOf s die sec = some x ∧ (x.st = .m ∨ x.st = .e) ∧ blocked s sec none = false ∧ hostShared s sec = false

/-- No write is pending on a copy, and what a seal reads there is what was written (R198): the seal has a key, and no unit stands under another. -/
def Plain (x : L2Sec) (e : Option Seal) : Prop := x.pend = [] ∧ keyless e = false ∧ ∀ f ∈ x.encs, f = none ∨ e = none ∨ f = e

/-- What a copy holds: its state, its contents, what they are encrypted under, its pending writes. -/
def held (x : L2Sec) : Moesi × List Byte × List (Option Seal) × List (Nat × Fm (Byte × LaneMask)) :=
  (x.st, x.data, x.encs, x.pend.map fun w => (w.v, w.bytes))

/-- Of all memory only one die's copy of one sector may have changed, and what stands behind it in the write-combining buffer. -/
def SectorOnly (s t : State) (die sec : Nat) : Prop :=
  t.hbm = s.hbm ∧ t.coreScr = s.coreScr ∧ t.dieScr = s.dieScr ∧ (∀ z, z ≠ sec → Fm.get? t.wcb z = Fm.get? s.wcb z) ∧
    ∀ d z, d < 8 → d ≠ die ∨ z ≠ sec → (copyOf t d z).map held = (copyOf s d z).map held

/-- An exact integer as an instruction of width `n` writes it: wrapped, then extended by its sign or, read as a natural, with zeros (R112). -/
def fitted (n : Nat) (nat : Bool) (t : Int) : DWord := if nat then (BitVec.ofInt n t).setWidth 64 else (BitVec.ofInt n t).signExtend 64

/-- The destination of an integer instruction, which A selects (R63, R112): a scalar takes the value of the lowest active lane, if the guard
is met; 64 bits go to a pair; the rest to a vector register, or to the latch alone. -/
def intDest (r : Regs) (n : Nat) (a : BitVec 8) (d : BitVec 6) (act : LaneMask) (x : Nat → DWord) : Regs :=
  if isScalar a then (if act = 0 then r else r.setS d.toNat (x (firstLane act)))
  else if n = 64 then r.setW d.toNat act x
  else if 60 ≤ d.toNat then r
  else r.setV d.toNat act fun l => (x l).setWidth 32

/-- A latch after a result of pipe `p` (R74): the active lanes hold the low 32 bits, the others 0. -/
def latchTakes (b : Nat → Nat → Word) (p : Nat) (act : LaneMask) (x : Nat → DWord) (n l : Nat) : Word :=
  if n = p then (if act.getLsbD l then (x l).setWidth 32 else 0) else b n l

/-- The latches after an instruction whose destination A selects: a scalar result writes none (R74). -/
def latchBy (b : Nat → Nat → Word) (p : Nat) (a : BitVec 8) (act : LaneMask) (x : Nat → DWord) : Nat → Nat → Word :=
  if isScalar a then b else latchTakes b p act x

/-- Some lane that computes has a property; a scalar A computes once, in the lowest active lane (R108). -/
def someLane (a : BitVec 8) (act : LaneMask) (q : Nat → Bool) : Bool :=
  (List.range 64).any fun l => (if isScalar a then l == firstLane act && act != 0 else act.getLsbD l) && q l

/-- The checks of a shift: B stays a 32-bit operand (R118). -/
def shiftForm (n : Nat) (a b : BitVec 8) (d : BitVec 6) : Form :=
  { intForm [0, tyI32, tyI64] false false a b d (n == 64) false with
    legal := wideOk n [a] a d,
    vregs := srcRegs (n == 64) a ++ srcRegs false b ++ destRegs (n == 64) a d, latches := (if n == 64 then [] else srcLatch a) ++ srcLatch b }

/-- The checks of LEA (R119). -/
def leaForm (a b : BitVec 8) (d : BitVec 6) : Form :=
  { pipe := some 0, imm := .bInt b, konst := isConst a || isConst b,
    md := .arith [0, tyI8, tyI16, tyI32, tyI64, tyF32, tyF16, tyBf16, tyE4m3, tyE5m2] true false false false,
    vregs := srcRegs true a ++ srcRegs false b ++ destRegs true a d, latches := srcLatch b }

/-- The checks of MOV and BITU (R122, R124). -/
def unaryForm (n : Nat) (a : BitVec 8) (d : BitVec 6) : Form :=
  { legal := wideOk n [a] a d, pipe := some 0, konst := isConst a, md := .arith [0, tyI32, tyI64] false false false false,
    vregs := srcRegs (n == 64) a ++ destRegs (n == 64) a d, latches := if n == 64 then [] else srcLatch a }

/-- The checks of ICMP and NCMP (R120), and of FCMP (R133). -/
def cmpForm (n : Nat) (a b : BitVec 8) : Form :=
  { legal := n != 64 || (pairSrcOk a && pairSrcOk b),
    pipe := some 0, imm := .bInt b, konst := isConst a || isConst b, md := .arith [0, tyI32, tyI64] false false false false,
    vregs := srcRegs (n == 64) a ++ srcRegs (n == 64) b, latches := if n == 64 then [] else srcLatch a ++ srcLatch b }
def fcmpForm (a b : BitVec 8) : Form :=
  { pipe := some 1, imm := .bFp b, md := .arith [0, tyF32] false false false false, konst := isConst a || isConst b,
    vregs := srcRegs false a ++ srcRegs false b, latches := srcLatch a ++ srcLatch b }

/-- The checks of a floating-point instruction of two operands (R128 to R135). -/
def fpForm (types : List Nat) (rm immOk dRead : Bool) (a b : BitVec 8) (d : BitVec 6) : Form :=
  { pipe := some 1, imm := if immOk then .bFp b else .none, md := .arith types false false rm false, konst := isConst a || isConst b,
    vregs := srcRegs false a ++ srcRegs false b ++ destRegs false a d,
    latches := srcLatch a ++ srcLatch b ++ (if dRead && !isScalar a && 60 ≤ d.toNat then [d.toNat - 60] else []) }

/-- The checks of SFU (R136) and of CVT (R125). -/
def sfuForm (a : BitVec 8) (d : BitVec 6) : Form :=
  { pipe := some 2, md := .arith [0, tyF32] false false true false, konst := isConst a,
    vregs := srcRegs false a ++ destRegs false a d, latches := srcLatch a }
def cvtForm (c : Nat) (a : BitVec 8) (d : BitVec 6) : Form :=
  { pipe := some 1, md := .arith [0] false true true false, konst := isConst a,
    vregs := srcRegs (cvtSrcWide c) a ++ destRegs (cvtDstWide c) a d, latches := if cvtSrcWide c then [] else srcLatch a }

/-- The checks of SHFL (R139) and of REDS (R140). -/
def shflForm (wide : Bool) (a b : BitVec 8) (d : BitVec 6) : Form :=
  { legal := !wide || (pairSrcOk a && pairDestOk a d), pipe := some 2, imm := .bInt b, md := .arith [0, tyI32, tyI64] false false false true, konst := isConst a || isConst b,
    vregs := srcRegs wide a ++ srcRegs false b ++ destRegs wide a d, latches := (if wide then [] else srcLatch a) ++ srcLatch b }
def redsForm (wide : Bool) (sel : Nat) (a : BitVec 8) (d : BitVec 6) : Form :=
  { legal := !wide || (pairSrcOk a && pairDestOk a d), pipe := some 2, md := .arith (if 8 ≤ sel then [0, tyF32] else [0, tyI32, tyI64]) false false (sel == 8) false,
    konst := isConst a,
    vregs := srcRegs wide a ++ destRegs wide a d, latches := if wide then [] else srcLatch a }

/-- An instruction went to its unit, in die `dest`, and its group stands at it until the verdict (R258, R303): one operation more is in flight,
and nothing else of the state changes. A chain that ends with it holds its core no more (R351). -/
def Awaits (s t : State) (i : Iss) (dest : Nat) (k : OpKind) : Prop :=
  (∃ o, Fm.get? t.ops s.nextOp = some o ∧ o.group = some i.gid ∧ o.team = i.g.team ∧ o.lanes = i.lanes ∧ o.dest = some dest ∧ o.kind = k) ∧
    (∃ g, Fm.get? s.groups i.gid = some g ∧ Fm.get? t.groups i.gid =
      some { g with hold := .op s.nextOp, ent := some i.pair, accepting := true,
                    chain := g.chain.map fun c => { c with ended := c.ended || c.left ≤ 1 } }) ∧
    (∀ n, n ≠ i.gid → Fm.get? t.groups n = Fm.get? s.groups n) ∧ (∀ n, n ≠ s.nextOp → Fm.get? t.ops n = Fm.get? s.ops n) ∧
    t = { s with groups := t.groups, ops := t.ops, nextOp := s.nextOp + 1 }

/-- The instructions of the stream accumulator with their checks at issue (R258), and the die whose row table takes each: the issuing one for a
SAOPEN of a new row, else the one that the row word names (R256, R260). -/
def saccForms (s : State) (i : Iss) (g : BitVec 4) (a b : BitVec 6) (m : BitVec 2) (f : BitVec 4) : List (Instr × Form × Nat) :=
  let at_ (r : BitVec 6) : Nat := nfield (readS s i.g r.toNat).toNat 16 3
  [(.saopen g a b f, saForm f, if (openWord (readS s i.g b.toNat).toNat).reopen then at_ a else i.g.core / 48), (.saadd g a b f, saAddForm a f, at_ b), (.sanorm g a b m f, saNormForm a f, at_ b),
    (.saevict g a b f, saImageForm f, at_ a), (.safill g a b f, saImageForm f, at_ a), (.sastat g a b f, saForm f, at_ b),
    (.saclose g b f, saForm f, at_ b)]

/-- The memory that a TKLD asks its home slice for passes the checks of a load (R306). -/
def tkldCheck (s : State) (i : Iss) (va n : Nat) : Except Nat Xl :=
  let die := i.g.core / 48
  checkVa s die (worldOf s i.g) va n .ticket fun x => if x.transit && onlyExecutor x .ticket then [] else placeCauses x die .ticket

/-- Every issuing lane takes a cause of a ticket or of a row at the bundle, with its syndrome and its word (R258, R304). -/
def unitTrap (i : Iss) (cause : Nat) (syn : BitVec 56) (w : Nat) (_l : Nat) : TrapAt :=
  { f := { cause := BitVec.ofNat 8 cause, syn := syn, addr := BitVec.ofNat 64 w, word := i.g.word }, at_ := i.pair }

/-- The operation of a copy instruction joins its channel and, with its group, the open batch (R316, R317): the group after its acceptance. -/
def batched (g : Group) (c : BitVec 3) (f : BitVec 4) (id : Nat) : Group :=
  let b := Fm.getD (flagged g f id).batches c.toNat {}
  { flagged g f id with batches := Fm.put (flagged g f id).batches c.toNat { b with openOps := b.openOps ++ [id] } }

/-- The open batch of a channel number closes (R317): a batch that holds no copy does not count. -/
def committed (g : Group) (c : BitVec 3) : Group :=
  let b := Fm.getD g.batches c.toNat {}
  if b.openOps = [] then g else { g with batches := Fm.put g.batches c.toNat { openOps := [], outs := b.outs ++ [b.openOps] } }

/-- The translations of a ring object's pages are noted before the ring is touched (R273, R328). -/
def ringWalked (s : State) (i : Iss) (va len : Nat) (loc : RingLoc) : State :=
  match loc with
  | .mem .. => useWalks s i.g.core (worldOf s i.g) true ((pagePieces (len / 65536 + 2) va len).map fun p => p.1)
  | .die .. => s

/-- A ring instruction that its unit performed has completed its flag: the issuing group's later engine operations see what it wrote early
(R240). -/
def ringDone (s : State) (id : Nat) : State :=
  mapPends { s with nextOp := s.nextOp + 1 } fun w => if w.op == id then { w with doneAt := some id } else w

/-- The byte of the core scratchpads, or of the die scratchpads, that a place is. -/
def scratchAddr : Loc → Option (Bool × Nat)
  | .core c off => some (true, c * scrSpan + off)
  | .die d off => some (false, d * 2 ^ 25 + off)
  | _ => none

/-- The matrix arrays of the core that the group's team reserved. -/
def reservedArrays (s : State) (i : Iss) : List Nat := (((Fm.get? s.teams i.g.team).bind fun t => Fm.get? t.places i.g.core).map fun p => p.arrays).getD []

/-- The checks at issue of an MTX instruction: the types that its MOD hint may name, or none (R153). -/
def mtxForm (types : List Nat) (f : BitVec 4) : Form :=
  { md := if types.isEmpty then .none else .arith types false false false false, f := some f }

/-- An MTX instruction (R152 to R159): by guard and flag, its types, the checks at signing, its fence classes, its function, whether a sparse
plane, its unit, its tile, its deposit, and the fields of its word that a round compares (R149; an X2 that it does not use acts as zero, R65). -/
structure MtxCase where
  instr  : BitVec 4 → BitVec 4 → Instr
  types  : List Nat
  checks : Desc → List SignBad
  cls    : BitVec 7
  fn     : Nat
  sparse : Bool := false
  unit   : Nat
  tile   : Nat := 0
  a      : DWord := 0
  b      : DWord := 0
  mask   : Word := 0xFC3FFFF0

/-- The MTX instructions with their operands. -/
def mtxCases (s : State) (i : Iss) (x : BitVec 1) (m : BitVec 2) (t : BitVec 4) (o p : BitVec 6) (c : BitVec 3) : List MtxCase :=
  let a := readS s i.g o.toNat
  let b := readS s i.g (o.toNat + 1)
  let e := readS s i.g p.toNat
  let ty := i.g.hints.arith.ty
  let unit := ((reservedArrays s i)[m.toNat]?).getD 0
  let image (sp : Bool) : Nat := 8192 + planeExtra (mtxTy ty) sp
  let rows := nfield b.toNat 0 7
  let per := if ty = tyE2m1 then 136 else if sparseAhead s i.g.core unit then 256 else 128
  let wide : List Nat := [0, tyBf16, tyE4m3, tyE5m2, tyE2m1]
  let bad (k : Bool) (a : Nat) : List SignBad := if k then [{ cause := cPermission, aux := a }] else []
  let tile (d : Desc) : List SignBad := unitCheck m (some t) d ++ grantCheck s i a.toNat 16384
  [{ instr := fun g f => .mloadw g x m o c f, types := if x = 1 then [0, tyBf16, tyE4m3, tyE5m2] else wide,
     checks := fun d => unitCheck m none d ++ grantCheck s i a.toNat (image (x == 1)), cls := 0x10, fn := 0, sparse := x == 1, unit := unit, a := a },
    { instr := fun g f => .mswap g m c f, types := [], checks := unitCheck m none, cls := 0, fn := 1, unit := unit, mask := 0xFC3FE070 },
    { instr := fun g f => .mma g t m o c f, types := wide,
      checks := fun d => unitCheck m (some t) d ++ bad (64 < rows || 64 < nfield b.toNat 16 6 + rows) 0 ++ grantCheck s i a.toNat (rows * per),
      cls := 0x10, fn := 2, unit := unit, tile := t.toNat, a := a, b := b },
    { instr := fun g f => .mcomp g o p c f, types := [0, tyBf16, tyE4m3, tyE5m2],
      checks := fun _ => grantCheck s i a.toNat (image true) ++ grantCheck s i e.toNat 16384 ++
        bad (a.toNat < e.toNat + 16384 && e.toNat < a.toNat + image true) a.toNat,
      cls := 0x30, fn := 3, unit := 4, a := a, b := e },
    { instr := fun g f => .maccst g t m o c f, types := [], checks := tile, cls := 0x20, fn := 4, unit := unit, tile := t.toNat, a := a },
    { instr := fun g f => .maccz g t m c f, types := [], checks := unitCheck m (some t), cls := 0, fn := 5, unit := unit, tile := t.toNat, mask := 0xFC3FE070 },
    { instr := fun g f => .maccld g t m o c f, types := [], checks := tile, cls := 0x10, fn := 6, unit := unit, tile := t.toNat, a := a }]

/-- The checks at issue of PLACE (R282, R283). -/
def placeForm (h : Hints) (d a b : BitVec 5) (f : BitVec 4) : Form :=
  let c := h.place.getD (0, 5, 1, 1)
  let pair (x : BitVec 5) : List Nat := [2 * x.toNat, 2 * x.toNat + 1]
  { md := .arith [0] false false true false, place := true, konst := c.2.2.1.msb || c.2.2.2.msb, f := some f, vregs := pair d ++ pair a ++ pair b,
    syn := placeSyn 0 false (placeSize c.1.toNat) false 0 0 }

/-- The operation of a PLACE, without its lanes (R282). -/
def placeOpOf (s : State) (i : Iss) (h : Hints) (n : BitVec 3) : PlaceOp :=
  let c := h.place.getD (0, 5, 1, 1)
  { fn := n.toNat, ty := c.1.toNat, rm := i.g.hints.arith.rm, len := 2 ^ (c.2.1.toNat + 2), ca := placeCoef s i.g c.1.toNat c.2.2.1,
    cb := placeCoef s i.g c.1.toNat c.2.2.2, crack := i.g.crack, lanes := [] }

/-- The address that lane `l` of a PLACE gives for an operand: the pair that a field names (R282). -/
def placeAddr (s : State) (i : Iss) (x : BitVec 5) (l : Nat) : Nat := (readW s i.g (2 * x.toNat) l).toNat

/-- A MIGR may go: no flag counts, no fence is pending, every access has passed its ordering time by 2 (R40). -/
def MayMigrate (s : State) (i : Iss) : Prop :=
  (∀ n, n < 12 → i.g.flag n = 0) ∧ i.g.fence = none ∧ fenceOps s i.gid 0x7F = [] ∧
    ∀ x, fenceTime i.g 0x7F = some x → x + 2 < dialOf s (i.g.core / 48)

/-- The deferred faults of a group, as lane and cause (R209, R287). -/
def deferredOf (g : Group) : List (Nat × Nat) := g.deferred.map fun x => (x.lane, x.f.cause.toNat)

/-- The syndrome registers of a die after an event (R385): the first one is kept whole, a later one only counts in MORE, up to 31. -/
def Noted (s t : State) (die : Nat) (fatal : Bool) (cls unit : Nat) (detail : DWord) : Prop :=
  let old := Fm.getD s.dsyn die (0, 0)
  Fm.getD t.dsyn die (0, 0) =
    if old.1.getLsbD 0 then (if nfield old.1.toNat 11 5 = 31 then old.1 else old.1 + 2048, old.2)
    else (BitVec.ofNat 64 (1 + (if fatal then 2 else 0) + cls % 16 * 4 + unit % 32 * 64 + dialOf s die % 2 ^ 48 * 2 ^ 16), detail)

/-- A fatal die error has stopped the part (R383): no group, team, operation or grid is left, the error is reported, and package reset is to
start after 10 ms. -/
def Stopped (s t : State) : Prop :=
  t.groups = [] ∧ t.teams = [] ∧ t.ops = [] ∧ t.grids = [] ∧ t.stopped = some (s.dial + 10000000) ∧ t.aer = s.aer + 1 ∧ t.hbm = s.hbm

/-- A replay moves on (R337, R338): to a node that has not started; at the end of the chain it waits for its ASYNC nodes, or its journal entry
becomes final with DONE. -/
def ReplayMovesTo (s t : State) (k : Nat) (r : Replay) (next : Nat) : Prop :=
  let x := { r with node := next, work := none, since := none }
  (next ≠ nodeEnd ∨ r.async ≠ [] → t = { s with replays := Fm.put s.replays k x }) ∧
    (next = nodeEnd → r.async = [] → r.fault = none →
      t = journalFinal { s with replays := Fm.del s.replays k } r.queue r.seq jDone 0 0 r.latest)

/-- A load or an unload of a graph takes effect, and its journal entry becomes final with DONE (R336, R343). -/
def LoadSettled (s : State) (q : Nat) (l : Load) : State :=
  let graphs := match l.graph with
    | some x => Fm.put s.graphs l.n x
    | none => Fm.del s.graphs l.n
  journalFinal { s with graphs := graphs, loads := Fm.del s.loads q } q l.seq jDone 0 0 none

/-- The head of a queue was taken (R391), and its command has the next sequence number of the queue's journal (R342). -/
def CommandTaken (s t : State) (q : Nat) : Prop :=
  (Fm.get? t.queues q).map (fun x => x.taken) = (Fm.get? s.queues q).map (fun x => x.taken + 1) ∧
    (Fm.get? t.journals q).map (fun j => j.seq) = (Fm.get? s.journals q).map fun j => j.seq + 1

/-- What every package reset leaves (R384): nothing that runs, no world but world 0, no queue, key, session or TDI; the syndromes, the poison
marks and the fuse counters as they were. -/
def PackageIsReset (s t : State) : Prop :=
  t.groups = [] ∧ t.teams = [] ∧ t.ops = [] ∧ t.tickets = [] ∧ t.queues = [] ∧ t.replays = [] ∧ t.sessions = [] ∧ t.tdis = [] ∧
    (∀ w, w ≠ 0 → Fm.get? t.worlds w = none ∧ Fm.get? t.keys w = none) ∧ t.dial = 0 ∧ t.dsyn = s.dsyn ∧ t.poison = s.poison ∧
    t.ports = s.portsNext ∧ t.boot.counters = s.boot.counters ∧
    ∀ k, (Fm.get? t.repairs k).map (fun r => (r.layer, r.active, r.done, r.nospare, r.boundary)) =
      (Fm.get? s.repairs k).map fun r => (r.layer, r.active, r.done, r.nospare, r.boundary)

/-- Every memory is in its canonical form. -/
def MemOk (s : State) : Prop :=
  Mem.wf s.hbm = true ∧ Mem.wf s.coreScr = true ∧ Mem.wf s.dieScr = true ∧
    ∀ e ∈ s.arrays, Mem.wf e.2.act.data = true ∧ Mem.wf e.2.shd.data = true ∧ Mem.wf e.2.tiles = true

/-- The clock stays between its floor and its figure, issue is gated only at the floor, and the cap within its bounds (R19, R397). -/
def PowerOk (s : State) : Prop :=
  1200 ≤ s.clock ∧ s.clock ≤ 2100 ∧ (s.gated = true → s.clock = 1200) ∧ 1500 ≤ s.cap ∧ s.cap ≤ 4500

/-- The invariant of the machine. -/
def Inv (s : State) : Prop := MemOk s ∧ PowerOk s

end Sys2Proof.Safety
end

