-- ==== Sys2Proof/Certificates/Slice0/Obligations.lean ====
section
/-! DEFINITION. The statements for the provers. -/

open Sys2Proof Sys2Proof.Machine Sys2Proof.Safety

/-- R114, R112, R49, R51, R52: IADD, ISUB, IMUL and IMAD compute exactly, wrap or saturate at width n, and GS.SAT is set where a lane's exact
result is out of range under SATURATE, when the instruction completes: after its latency. -/
def Obligations.IntegerArithmeticWrapsOrSaturates : Prop :=
  ∀ (s : State) (g : BitVec 4) (d : BitVec 6) (a b : BitVec 8) (i : Iss),
    ∀ o ∈ ([(.iadd g d a b, false, 2, fun x y _ => x + y), (.isub g d a b, false, 2, fun x y _ => x - y),
        (.imul g d a b, false, 4, fun x y _ => x * y), (.imad g d a b, true, 4, fun x y z => x * y + z)] :
        List (Instr × Bool × Nat × (Int → Int → Int → Int))),
      let m := (hintsNow s).arith
      let n := widthOf m a
      prelude s g (intForm [0, tyI8, tyI16, tyI32, tyI64] true true a b d (n == 64) o.2.1) = .ok i →
      let e (l : Nat) : Int := o.2.2.2 (readAs (opA s i.g n a l) n m.n) (readAs (opB s i.g n b l) n m.n) (readAs (opD s i.g 0 n a d l) n m.n)
      let v (l : Nat) : DWord := fitted n m.n (if m.sat then max (intMin n m.n) (min (intMax n m.n) (e l)) else e l)
      let out (l : Nat) : Bool := m.sat && (decide (e l < intMin n m.n) || decide (intMax n m.n < e l))
      ∃ t, exec o.1 s = .next t ∧
        Issued s t i ((intDest (regsOf i.g) n a d i.act v).orGsAt o.2.2.1 (gsBits (someLane a i.act out) false)) (latchBy (latch i.g) 0 a i.act v)
          (onward i)

/-- R115, R116, R112: the upper halves of exact products, minimum and maximum. -/
def Obligations.UpperProductsAndExtrema : Prop :=
  ∀ (s : State) (g : BitVec 4) (d : BitVec 6) (a b : BitVec 8) (i : Iss),
    ∀ o ∈ ([(.imulhi g d a b, false, fun n x y => x * y / 2 ^ n), (.imulhn g d a b, true, fun n x y => x * y / 2 ^ n),
        (.imin g d a b, false, fun _ x y => if x ≤ y then x else y), (.imax g d a b, false, fun _ x y => if x ≤ y then y else x),
        (.nmin g d a b, true, fun _ x y => if x ≤ y then x else y), (.nmax g d a b, true, fun _ x y => if x ≤ y then y else x)] :
        List (Instr × Bool × (Nat → Int → Int → Int))),
      let n := widthOf (hintsNow s).arith a
      prelude s g (intForm [0, tyI32, tyI64] false false a b d (n == 64) false) = .ok i →
      let v (l : Nat) : DWord := fitted n o.2.1 (o.2.2 n (readAs (opA s i.g n a l) n o.2.1) (readAs (opB s i.g n b l) n o.2.1))
      ∃ t, exec o.1 s = .next t ∧ Issued s t i (intDest (regsOf i.g) n a d i.act v) (latchBy (latch i.g) 0 a i.act v) (onward i)

/-- R117: the bitwise instructions at width n, extended with zeros. -/
def Obligations.BitwiseLogic : Prop :=
  ∀ (s : State) (g : BitVec 4) (d : BitVec 6) (a b : BitVec 8) (i : Iss),
    ∀ o ∈ ([(.and g d a b, fun x y => x && y), (.or g d a b, fun x y => x || y), (.xor g d a b, fun x y => x != y),
        (.andn g d a b, fun x y => x && !y)] : List (Instr × (Bool → Bool → Bool))),
      let n := widthOf (hintsNow s).arith a
      prelude s g (intForm [0, tyI32, tyI64] false false a b d (n == 64) false) = .ok i →
      let v (l : Nat) : DWord := maskOf fun k => decide (k < n) && o.2 ((opA s i.g n a l).testBit k) ((opB s i.g n b l).testBit k)
      ∃ t, exec o.1 s = .next t ∧ Issued s t i (intDest (regsOf i.g) n a d i.act v) (latchBy (latch i.g) 0 a i.act v) (onward i)

/-- R118: an amount of n or more shifts every bit out; SAR fills with the sign. -/
def Obligations.ShiftsTakeUnmaskedAmounts : Prop :=
  ∀ (s : State) (g : BitVec 4) (d : BitVec 6) (a b : BitVec 8) (i : Iss),
    ∀ o ∈ ([(.shl g d a b, true, fun x k => x * 2 ^ k), (.shr g d a b, true, fun x k => x / 2 ^ k), (.sar g d a b, false, fun x k => x / 2 ^ k)] :
        List (Instr × Bool × (Int → Nat → Int))),
      let n := widthOf (hintsNow s).arith a
      prelude s g (Safety.shiftForm n a b d) = .ok i →
      let v (l : Nat) : DWord := fitted n o.2.1 (o.2.2 (readAs (opA s i.g n a l) n o.2.1) (srcB32 s i.g litInt b l).toNat)
      ∃ t, exec o.1 s = .next t ∧ Issued s t i (intDest (regsOf i.g) n a d i.act v) (latchBy (latch i.g) 0 a i.act v) (onward i)

/-- R119, R121, R122: LEA forms an address modulo 2^64; SEL writes every issuing lane, by the guard; MOV copies. -/
def Obligations.AddressesSelectsAndMoves : Prop :=
  ∀ (s : State) (g : BitVec 4) (d : BitVec 6) (a b : BitVec 8) (i : Iss),
    let m := (hintsNow s).arith
    let n := widthOf m a
    (prelude s g (Safety.leaForm a b d) = .ok i →
      let scale := (([(0, 4), (tyI8, 1), (tyE4m3, 1), (tyE5m2, 1), (tyI16, 2), (tyF16, 2), (tyBf16, 2), (tyI32, 4), (tyF32, 4), (tyI64, 8)] :
        List (Nat × Nat)).lookup m.ty).getD 1
      let v (l : Nat) : DWord :=
        let x := srcB32 s i.g litInt b l
        src64 s i.g a l + (if m.n then x.setWidth 64 else x.signExtend 64) * BitVec.ofNat 64 scale
      ∃ t, exec (.lea g d a b) s = .next t ∧
        Issued s t i (intDest (regsOf i.g) 64 a d i.act v) (latchBy (latch i.g) 0 a i.act v) (onward i)) ∧
    (prelude s g { intForm [0, tyI32, tyI64] false false a b d (n == 64) false with every := true } = .ok i →
      let v (l : Nat) : DWord :=
        fitted n false (if (if isScalar a then i.act != 0 else i.act.getLsbD l) then (opA s i.g n a l : Int) else opB s i.g n b l)
      ∃ t, exec (.sel g d a b) s = .next t ∧
        Issued s t i (intDest (regsOf i.g) n a d i.lanes v) (latchBy (latch i.g) 0 a i.lanes v) (onward i)) ∧
    (prelude s g (unaryForm n a d) = .ok i →
      let v (l : Nat) : DWord := fitted n false (opA s i.g n a l)
      ∃ t, exec (.mov g d a) s = .next t ∧ Issued s t i (intDest (regsOf i.g) n a d i.act v) (latchBy (latch i.g) 0 a i.act v) (onward i))

/-- R123: MOVIV writes its immediate to the active lanes of a vector register and to latch b0; MOVIS and ADDIS write a scalar register once for
the group, if the guard is met. -/
def Obligations.ImmediatesReachTheirRegisters : Prop :=
  ∀ (s : State) (g : BitVec 4) (d : BitVec 6) (imm : BitVec 16) (i : Iss),
    (prelude s g { pipe := some 0, imm := .i, vregs := if d.toNat < 60 then [d.toNat] else [] } = .ok i →
      let x (_ : Nat) : DWord := immI i.g.hints imm
      ∃ t, exec (.moviv g d imm) s = .next t ∧
        Issued s t i (if 60 ≤ d.toNat then regsOf i.g else (regsOf i.g).setV d.toNat i.act fun l => (x l).setWidth 32)
          (latchTakes (latch i.g) 0 i.act x) (onward i)) ∧
    (prelude s g { pipe := some 0, imm := .i } = .ok i →
      (∃ t, exec (.movis g d imm) s = .next t ∧
        Issued s t i (if i.act = 0 then regsOf i.g else (regsOf i.g).setS d.toNat (immI i.g.hints imm)) (latch i.g) (onward i)) ∧
      ∃ t, exec (.addis g d imm) s = .next t ∧
        Issued s t i (if i.act = 0 then regsOf i.g else (regsOf i.g).setS d.toNat (readS s i.g d.toNat + immI i.g.hints imm)) (latch i.g)
          (onward i))

/-- R124: population count, leading and trailing zeros, bit and byte reversal at width n, extended with zeros. -/
def Obligations.BitUnaryFunctions : Prop :=
  ∀ (s : State) (g : BitVec 4) (d : BitVec 6) (a : BitVec 8) (sel : BitVec 6) (i : Iss), sel.toNat ≤ 4 →
    let n := widthOf (hintsNow s).arith a
    prelude s g (unaryForm n a d) = .ok i →
    let v (l : Nat) : DWord :=
      let x := opA s i.g n a l
      match sel.toNat with
      | 0 => BitVec.ofNat 64 ((List.range n).filter fun k => x.testBit k).length
      | 1 => BitVec.ofNat 64 ((List.range n).takeWhile fun k => !x.testBit (n - 1 - k)).length
      | 2 => BitVec.ofNat 64 ((List.range n).takeWhile fun k => !x.testBit k).length
      | 3 => maskOf fun k => decide (k < n) && x.testBit (n - 1 - k)
      | _ => maskOf fun k => decide (k < n) && x.testBit (n - 8 - 8 * (k / 8) + k % 8)
    ∃ t, exec (.bitu g d a sel) s = .next t ∧
      Issued s t i (intDest (regsOf i.g) n a d i.act v) (latchBy (latch i.g) 0 a i.act v) (onward i)

/-- R87, R109, R120, R133: a compare writes its condition to p(2k) and the complement to p(2k+1), in the active lanes only; FCMP sets no GS
bit. -/
def Obligations.ComparesWritePredicatePairs : Prop :=
  ∀ (s : State) (g : BitVec 4) (k c : BitVec 3) (a b : BitVec 8) (i : Iss),
    let pair (m : LaneMask) : Regs := ((regsOf i.g).setP (2 * k.toNat) i.act m).setP (2 * k.toNat + 1) i.act (~~~ m)
    let n := widthOf (hintsNow s).arith a
    (∀ o ∈ ([(.icmp g k c a b, false), (.ncmp g k c a b, true)] : List (Instr × Bool)), c.toNat ≤ 6 →
      prelude s g (Safety.cmpForm n a b) = .ok i →
      let m := maskOf fun l =>
        let x := readAs (opA s i.g n a l) n o.2
        let y := readAs (opB s i.g n b l) n o.2
        (([decide (x = y), decide (x ≠ y), decide (x < y), decide (x ≤ y), decide (y < x), decide (y ≤ x),
          (List.range n).any fun j => (opA s i.g n a l).testBit j && (opB s i.g n b l).testBit j])[c.toNat]?).getD false
      ∃ t, exec o.1 s = .next t ∧ Issued s t i (pair m) (latch i.g) (onward i)) ∧
    (prelude s g (Safety.fcmpForm a b) = .ok i →
      let m := maskOf fun l =>
        let x := f32.decode (src32 s i.g litFp a l).toNat
        let y := f32.decode (srcB32 s i.g litFp b l).toNat
        let un := x.isNan || y.isNan
        let eq := !x.lt y && !y.lt x
        (([!un && eq, un || !eq, !un && x.lt y, !un && (x.lt y || eq), !un && y.lt x, !un && (y.lt x || eq), un, !un])[c.toNat]?).getD false
      ∃ t, exec (.fcmp g k c a b) s = .next t ∧ Issued s t i (pair m) (latch i.g) (onward i))

/-- R126, R127: PLOG computes a truth table of two predicates lane by lane; VOTE combines a predicate across the active lanes. -/
def Obligations.PredicateLogicAndVotes : Prop :=
  ∀ (s : State) (g : BitVec 4) (i : Iss),
    (∀ (d u v t : BitVec 4), prelude s g { pipe := some 0 } = .ok i →
      ∃ s', exec (.plog g d u v t) s = .next s' ∧
        Issued s s' i ((regsOf i.g).setP d.toNat i.act (maskOf fun l =>
          t.getLsbD ((if (readP s i.g v.toNat).getLsbD l then 2 else 0) + if (readP s i.g u.toNat).getLsbD l then 1 else 0)))
          (latch i.g) (onward i)) ∧
    (∀ (d : BitVec 6) (a : BitVec 4) (sel : BitVec 6), sel.toNat ≤ 3 → prelude s g { pipe := some 2 } = .ok i →
      let p := readP s i.g a.toNat
      let every : Prop := ∀ l, l < 64 → i.act.getLsbD l = true → p.getLsbD l = true
      let none_ : Prop := ∀ l, l < 64 → i.act.getLsbD l = true → p.getLsbD l = false
      ∃ s' r, exec (.vote g d a sel) s = .next s' ∧ Issued s s' i r (latch i.g) (onward i) ∧
        (sel.toNat = 3 → r = if i.act = 0 then regsOf i.g else (regsOf i.g).setS d.toNat (p &&& i.act)) ∧
        (sel.toNat ≤ 2 → ∃ x : Bool, r = (regsOf i.g).setP d.toNat i.act (if x then BitVec.allOnes 64 else 0) ∧
          (sel.toNat = 0 → (x = true ↔ every)) ∧ (sel.toNat = 1 → (x = true ↔ ¬ none_)) ∧ (sel.toNat = 2 → (x = true ↔ every ∨ none_))))

/-- R131, R132, R51, R52: FADD, FSUB, FMUL and FFMA round once in the MOD mode; FMIN and FMAX choose; the GS bits of every computing lane are set;
the result is 32 bits, zero-extended in a scalar. -/
def Obligations.Fp32ArithmeticRoundsOnce : Prop :=
  ∀ (s : State) (g : BitVec 4) (d : BitVec 6) (a b : BitVec 8) (i : Iss),
    ∀ o ∈ ([(.fadd g d a b, true, false, 4, fun m x y _ => f32.add m x y), (.fsub g d a b, true, false, 4, fun m x y _ => f32.sub m x y),
        (.fmul g d a b, true, false, 4, fun m x y _ => f32.mul m x y), (.ffma g d a b, true, true, 4, fun m x y z => f32.fma m x y z),
        (.fmin g d a b, false, false, 2, fun _ x y _ => f32.minmax false x y), (.fmax g d a b, false, false, 2, fun _ x y _ => f32.minmax true x y)] :
        List (Instr × Bool × Bool × Nat × (Nat → Nat → Nat → Nat → Res Nat))),
      prelude s g (Safety.fpForm [0, tyF32] o.2.1 true o.2.2.1 a b d) = .ok i →
      let r (l : Nat) : Res Nat := o.2.2.2.2 (hintsNow s).arith.rm (src32 s i.g litFp a l).toNat (srcB32 s i.g litFp b l).toNat (oldD s i.g 1 a d l)
      let v (l : Nat) : DWord := fitted 32 true (r l).val
      ∃ t, exec o.1 s = .next t ∧
        Issued s t i ((intDest (regsOf i.g) 32 a d i.act v).orGsAt o.2.2.2.1
          (gsBits (someLane a i.act fun l => (r l).sat) (someLane a i.act fun l => (r l).inv))) (latchBy (latch i.g) 1 a i.act v) (onward i)

/-- R134, R135: the packed instructions work on both halves of a word, in BF16 or FP16 by TYPE; FDOT2 adds two products to an FP32 D with one
rounding. -/
def Obligations.PackedFloatWorksOnBothHalves : Prop :=
  ∀ (s : State) (g : BitVec 4) (d : BitVec 6) (a b : BitVec 8) (i : Iss),
    let m := (hintsNow s).arith
    let f := if m.ty = tyF16 then f16 else bf16
    let both (op : Nat → Nat → Nat → Res Nat) (x y z : Nat) : Res Nat :=
      let lo := op (x % 65536) (y % 65536) (z % 65536)
      let hi := op (x / 65536 % 65536) (y / 65536 % 65536) (z / 65536 % 65536)
      { val := lo.val + 65536 * hi.val, sat := lo.sat || hi.sat, inv := lo.inv || hi.inv }
    ∀ o ∈ ([(.hadd2 g d a b, false, 4, both fun x y _ => f.add m.rm x y), (.hmul2 g d a b, false, 4, both fun x y _ => f.mul m.rm x y),
        (.hfma2 g d a b, true, 4, both fun x y z => f.fma m.rm x y z), (.fdot2 g d a b, true, 5, fdot2 f m.rm)] :
        List (Instr × Bool × Nat × (Nat → Nat → Nat → Res Nat))),
      prelude s g (Safety.fpForm [0, tyBf16, tyF16] true false o.2.1 a b d) = .ok i →
      let r (l : Nat) : Res Nat := o.2.2.2 (src32 s i.g (litPacked f) a l).toNat (srcB32 s i.g (litPacked f) b l).toNat (oldD s i.g 1 a d l)
      let v (l : Nat) : DWord := fitted 32 true (r l).val
      ∃ t, exec o.1 s = .next t ∧
        Issued s t i ((intDest (regsOf i.g) 32 a d i.act v).orGsAt o.2.2.1
          (gsBits (someLane a i.act fun l => (r l).sat) (someLane a i.act fun l => (r l).inv))) (latchBy (latch i.g) 1 a i.act v) (onward i)

/-- R54, R125, R136: a special function is evaluated on A in the MOD mode and written through pipe 2; a conversion by its code, 64 bits to a pair where
its result is wide, through pipe 1. The model's readings in log entries 6 and 20 stand in it. -/
def Obligations.SpecialFunctionsAndConversions : Prop :=
  ∀ (s : State) (g : BitVec 4) (d : BitVec 6) (a : BitVec 8) (c : BitVec 6) (i : Iss),
    let m := (hintsNow s).arith.rm
    (prelude s g (Safety.sfuForm a d) = .ok i →
      let r (l : Nat) : Res Nat := sfuEval c.toNat m (src32 s i.g litFp a l).toNat
      let v (l : Nat) : DWord := fitted 32 true (r l).val
      ∃ t, exec (.sfu g d a c) s = .next t ∧
        Issued s t i ((intDest (regsOf i.g) 32 a d i.act v).orGsAt 6
          (gsBits (someLane a i.act fun l => (r l).sat) (someLane a i.act fun l => (r l).inv))) (latchBy (latch i.g) 2 a i.act v) (onward i)) ∧
    (prelude s g (Safety.cvtForm c.toNat a d) = .ok i →
      let r (l : Nat) : Res Nat := cvtEval c.toNat m (if isScalar a then 64 else 32) (cvtSource s i.g c.toNat a l)
      let v (l : Nat) : DWord := BitVec.ofNat 64 (r l).val
      ∃ t, exec (.cvt g d a c) s = .next t ∧
        Issued s t i ((intDest (regsOf i.g) (if cvtDstWide c.toNat then 64 else 32) a d i.act v).orGsAt 4
          (gsBits (someLane a i.act fun l => (r l).sat) (someLane a i.act fun l => (r l).inv))) (latchBy (latch i.g) 1 a i.act v) (onward i))

/-- R138 to R141: SHFL delivers A from each lane's source lane, its own where there is none, and writes to p11 whether there was one; REDS
reduces the active lanes' A in the fixed tree and writes every active lane. -/
def Obligations.CrossLaneDelivery : Prop :=
  ∀ (s : State) (g : BitVec 4) (d : BitVec 6) (a : BitVec 8) (i : Iss),
    let m := (hintsNow s).arith
    let wide := m.ty == tyI64
    let n := if wide then 64 else 32
    let dest (x : Nat → DWord) : Regs :=
      if wide then (regsOf i.g).setW d.toNat i.act x
      else if 60 ≤ d.toNat then regsOf i.g else (regsOf i.g).setV d.toNat i.act fun l => (x l).setWidth 32
    (∀ b, prelude s g (Safety.shflForm wide a b d) = .ok i →
      let source (l : Nat) : Option Nat :=
        let e := (srcB32 s i.g litInt b l).toInt
        let k : Int := if 0 ≤ e then e else 64 / 2 ^ (-e).toNat
        let x : Int := match m.sh with
          | 0 => k
          | 1 => l - k
          | 2 => l + k
          | _ => (l ^^^ k.toNat : Nat)
        if -16 ≤ e ∧ 0 ≤ x ∧ x < 64 ∧ i.act.getLsbD x.toNat = true then some x.toNat else none
      let v (l : Nat) : DWord := BitVec.ofNat 64 (opA s i.g n a ((source l).getD l))
      ∃ t, exec (.shfl g d a b) s = .next t ∧
        Issued s t i ((dest v).setP 11 i.act (maskOf fun l => (source l).isSome)) (latchTakes (latch i.g) 2 i.act v) (onward i)) ∧
    (∀ sel : BitVec 6, prelude s g (Safety.redsForm wide sel.toNat a d) = .ok i →
      let x := lanesOf fun l => if i.act.getLsbD l then some ({ val := opA s i.g n a l } : Res Nat) else none
      let r := (redsTree (redsOp sel.toNat n m.rm) x).getD { val := 0 }
      ∃ t, exec (.reds g d a sel) s = .next t ∧
        Issued s t i ((dest fun _ => BitVec.ofNat 64 r.val).orGsAt 6 (gsBits r.sat r.inv))
          (latchTakes (latch i.g) 2 i.act fun _ => BitVec.ofNat 64 r.val) (onward i))

/-- R24, R35, R66, R70, R75, R86: an illegal bundle does nothing but trap: every issuing lane takes ILLEGAL_INSTRUCTION at the bundle, with
TRAPPC the bundle's pair, and goes to (TRAPVEC, 63). Among the illegal bundles are a hint that the instruction does not accept, a vector
register at or above the role budget, and an odd register of a 64-bit operand. -/
def Obligations.IllegalBundlesTrapEveryLane : Prop :=
  ∀ (s : State) (g : BitVec 4) (f : Form) (i : Iss), issueOf s g = some i →
    (formOk i.g f = false → ∃ t, prelude s g f = .error t ∧
      (Handled i i.lanes (fun _ => atBundle i cIllegal f.syn) → Excepted s t i i.g i.lanes fun _ => atBundle i cIllegal f.syn)) ∧
    ((i.g.hints.md ≠ none ∧ f.md = .none) ∨ (i.g.hints.imm ≠ none ∧ f.imm = .none) ∨ (i.g.hints.place ≠ none ∧ f.place = false) ∨
      (i.g.hints.off ≠ none ∧ f.off = false) ∨ (i.g.hints.cbank ≠ none ∧ f.konst = false) ∨ (i.g.hints.chain ≠ none ∧ f.chain = false) ∨
      (∃ n ∈ f.vregs, i.g.budget ≤ n) ∨ (i.g.chain ≠ none ∧ f.member = false) ∨ f.legal = false → formOk i.g f = false)

/-- R36, R42, R52, R176, R206, R209, R346, R371: a lane at priority 63, or with no handler, that takes a cause routed to TRAPVEC ends its team: the
team and its groups are gone, the groups of other teams stay, and no lane of the team enters the handler. So does the cause of an illegal bundle, a
TRAP, an armed GS.SAT at a barrier or a RECONV, a cause at acceptance, a full flag, a cause that the slice kernel passes on, and a cause found late. -/
def Obligations.FatalTrapsKillTheTeam : Prop :=
  ∀ (s : State) (g : BitVec 4) (i : Iss),
    (Fatal i.g i.e.prio → (Fm.get? s.teams i.g.team).isSome = true →
      (∀ f, issueOf s g = some i → formOk i.g f = false → ∃ t, prelude s g f = .error t ∧ Killed s t i.g.team) ∧
      (prelude s g ctlForm = .ok i →
        (∀ c : BitVec 6, c.toNat < 48 → i.act ≠ 0 → ∃ t, exec (.trap g c) s = .next t ∧ Killed s t i.g.team) ∧
        (satArmed i.g = true → ∀ n x : BitVec 6, ∀ o ∈ ([.bar g n x, .bara g n, .reconv g x] : List Instr),
          ∃ t, exec o s = .next t ∧ Killed s t i.g.team)) ∧
      ∀ (d : BitVec 6) (a : BitVec 8) (f w : BitVec 4) (sp z : BitVec 2) (c : Nat → Nat) (ad : Nat → DWord) (ax : Nat → Nat),
        ∀ o ∈ memoryForms s i g d a f w sp z, prelude s g o.2.1 = .ok i → i.act ≠ 0 →
          ((o.2.2.2.2.1.k = .atom ∨ o.2.2.2.2.1.k = .atoms) → replayTrap s i w.toNat = false) →
          (flagFull i.g f = true ∨ ((∀ l ∈ activeLanes i, o.2.2.2.2.2 l = .bad (c l) (ad l) (ax l)) ∧
            ∃ l ∈ activeLanes i, toKernel (BitVec.ofNat 8 (c l)) = false) → ∃ t, exec o.1 s = .next t ∧ Killed s t i.g.team)) ∧
    ∀ (gid : Nat) (h : Group), Fm.get? s.groups gid = some h → (Fm.get? s.teams h.team).isSome = true →
      (∀ lanes : LaneMask, (∃ r ∈ s.parking, r.group = gid ∧ r.lane < 64 ∧ lanes.getLsbD r.lane = true ∧ Fatal h (h.lane r.lane).prio) →
        ∃ t, exec (.passOn gid lanes) s = .next t ∧ Killed s t h.team) ∧
      (h.hints.n = 0 → h.ent = none → onCores s h = true →
        (∃ l, l < 64 ∧ (h.lane l).st = .issuable ∧ Fatal h (h.lane l).prio ∧ (∃ d ∈ h.deferred, d.lane = l) ∧
          ∀ d ∈ h.deferred, d.lane = l → d.f.cause ≠ BitVec.ofNat 8 cPoison) →
        ∃ t, exec (.deferredFaultDelivery gid) s = .next t ∧ Killed s t h.team)

/-- R59, R66, R68 to R75: a hint word issues by itself, is held for the instruction of its bundle, and changes nothing else; a second hint of its kind,
or a fourth hint word, traps in every lane. The model's readings in log entry 14 stand in it. -/
def Obligations.HintWordsWaitForTheirInstruction : Prop :=
  ∀ (s : State) (i : Iss) (w : BitVec 12) (a b c : BitVec 3) (y : BitVec 1) (p : BitVec 22) (pt : BitVec 3) (pl : BitVec 4) (pa pb : BitVec 7)
    (n : BitVec 2) (cb : BitVec 4) (cw : BitVec 8), issueOf s 12 = some i →
    ∀ o ∈ ([(0, .hintSched w a b c y, fun h => { h with sched := true, wait := w, dists := [a, b, c], yield := y == 1 }),
        (1, .hintImm p, fun h => { h with imm := some p }), (2, .hintMod p, fun h => { h with md := some p }),
        (3, .hintPlace pt pl pa pb, fun h => { h with place := some (pt, pl, pa, pb) }),
        (4, .hintChain n, fun h => { h with chain := some n }), (5, .hintCbank cb cw, fun h => { h with cbank := some (cb, cw) }),
        (6, .hintOff p, fun h => { h with off := some p })] : List (Nat × Instr × (Hints → Hints))),
      (o.1 ∉ i.g.hints.kinds → i.g.hints.n < 3 →
        exec o.2.1 s = .next (s.modGroup i.gid fun g =>
          let h := o.2.2 g.hints
          { g with hints := { h with n := h.n + 1, kinds := o.1 :: h.kinds }, ent := some i.pair, starve := 0 })) ∧
      (o.1 ∈ i.g.hints.kinds ∨ 3 ≤ i.g.hints.n → ∃ t, exec o.2.1 s = .next t ∧
        (Handled i i.lanes (fun _ => atBundle i cIllegal) → Excepted s t i i.g i.lanes fun _ => atBundle i cIllegal))

/-- R67, R165, R166: BR sends the active lanes to a word offset from the branch word, at the priority it names; CALL also leaves the return offset from
CODEBASE in v58 and the priority in v59; a branch or a CALL to a place right after a hint word traps at the target, and what the CALL wrote stands. The
model's readings in log entry 21 stand in it. -/
def Obligations.BranchesAndCallsMoveActiveLanes : Prop :=
  ∀ (s : State) (g : BitVec 4) (p : BitVec 6) (d : BitVec 16) (i : Iss),
    let target : Pc := i.pcI + d.signExtend 57 * 4
    let nx := branched i fun _ => (target, p)
    let tr : TrapAt := { f := { cause := BitVec.ofNat 8 cIllegal, word := i.g.word }, at_ := (target, p) }
    let called : Regs := ((regsOf i.g).setV 58 i.act fun _ => (pcNext i.pcI - codebaseOf s i.g).setWidth 32).setV 59 i.act fun _ => i.e.prio.setWidth 32
    (prelude s g { ctlForm with pipe := some 0 } = .ok i →
      (i.act = 0 ∨ NoHintBefore s i target → ∃ t, exec (.br g p d) s = .next t ∧ Issued s t i (regsOf i.g) (latch i.g) nx) ∧
      (i.act ≠ 0 → ¬ NoHintBefore s i target → Handled i i.act (fun _ => tr) →
        ∃ t, exec (.br g p d) s = .next t ∧ Excepted s t i i.g i.act fun _ => tr)) ∧
    (prelude s g { ctlForm with pipe := some 0, vregs := [58, 59] } = .ok i →
      (i.act = 0 ∨ NoHintBefore s i target → ∃ t, exec (.call g p d) s = .next t ∧ Issued s t i called (latch i.g) nx) ∧
      (i.act ≠ 0 → ¬ NoHintBefore s i target → Handled i i.act (fun _ => tr) →
        ∃ t, exec (.call g p d) s = .next t ∧ ExceptedAs s t i i.g called i.act fun _ => tr))

/-- R67, R165, R167: JMPI sends each active lane to its own offset from CODEBASE and its own priority, whatever the other lanes do: a lane with a
misaligned offset traps at the JMPI as MISALIGNED with the target in TRAPADDR, else one with a priority of 63 as ILLEGAL_INSTRUCTION, else one whose
target follows a hint word as ILLEGAL_INSTRUCTION at the target, at the priority that it jumped with. -/
def Obligations.IndirectJumpsReadEachLane : Prop :=
  ∀ (s : State) (g : BitVec 4) (a b : BitVec 8) (i : Iss) (m : LaneMask) (tr : Nat → TrapAt),
    let form : Form :=
      { pipe := some 0, member := false, imm := .bInt b, konst := isConst a || isConst b,
        vregs := srcRegs false a ++ srcRegs false b, latches := srcLatch a ++ srcLatch b }
    let off (l : Nat) : Word := src32 s i.g litInt a l
    let pr (l : Nat) : BitVec 6 := (srcB32 s i.g litInt b l).setWidth 6
    let target (l : Nat) : Pc := codebaseOf s i.g + (off l).setWidth 57
    let bad (l : Nat) : TrapAt :=
      { f := { cause := BitVec.ofNat 8 cMisaligned, addr := BitVec.ofNat 64 (pcVa (target l)), word := i.g.word }, at_ := i.pair }
    let hinted (l : Nat) : TrapAt := { f := { cause := BitVec.ofNat 8 cIllegal, word := i.g.word }, at_ := (target l, pr l) }
    let traps (l : Nat) : Prop :=
      (off l).toNat % 4 ≠ 0 ∧ tr l = bad l ∨ (off l).toNat % 4 = 0 ∧ pr l = 63 ∧ tr l = atBundle i cIllegal ∨
        (off l).toNat % 4 = 0 ∧ pr l ≠ 63 ∧ ¬ NoHintBefore s i (target l) ∧ tr l = hinted l
    prelude s g form = .ok i → (∀ l, m.getLsbD l = true → i.act.getLsbD l = true) →
    (∀ l, l < 64 → i.act.getLsbD l = true →
      if m.getLsbD l then traps l else (off l).toNat % 4 = 0 ∧ pr l ≠ 63 ∧ NoHintBefore s i (target l)) →
    (m = 0 → ∃ t, exec (.jmpi g a b) s = .next t ∧ Issued s t i (regsOf i.g) (latch i.g) (branched i fun l => (target l, pr l))) ∧
    (m ≠ 0 → Handled i m tr → ∃ t, exec (.jmpi g a b) s = .next t ∧
      Settled s t i (entered i.g m tr) (regsOf i.g) (fun l => if m.getLsbD l then (i.g.vec, 63) else branched i (fun l => (target l, pr l)) l)
        fun h => i.g.chain = none → h.b = [] ∧ h.cover = none)

/-- R52, R169: an arrival is recorded; while the phase is not complete the lanes of a BAR wait at it and those of a BARA move on; the arrival that
completes the phase releases the waiting lanes to the bundle after their BAR. With the guard false in every lane nothing arrives; with SAT armed, with
a count above the team's groups, or with one other than the count of the phase that it arrives for, the lanes trap; a group two phases ahead stalls. The
model's readings in log entry 22 stand in it. -/
def Obligations.BarrierArrivals : Prop :=
  ∀ (s : State) (g : BitVec 4) (n x : BitVec 6) (i : Iss) (tm : Team), prelude s g ctlForm = .ok i →
    Fm.get? s.teams i.g.team = some tm →
    let b := Fm.getD tm.barriers n.toNat {}
    let c := (readS s i.g x.toNat).toNat % 256
    ∀ o ∈ ([(.bar g n x, some c, true), (.bara g n, none, false)] : List (Instr × Option Nat × Bool)),
      let nb := arrived i.g n.toNat o.2.1 b
      (satArmed i.g = true → Handled i i.lanes (fun _ => atBundle i cSatArmed) →
        ∃ t, exec o.1 s = .next t ∧ Excepted s t i i.g i.lanes fun _ => atBundle i cSatArmed) ∧
      (satArmed i.g = false → i.act = 0 → ∃ t, exec o.1 s = .next t ∧ Issued s t i (regsOf i.g) (latch i.g) (onward i)) ∧
      (satArmed i.g = false → i.act ≠ 0 → o.2.1 = some c →
        (tm.d.groups < c ∨ (∃ k, b.count = some k ∧ k ≠ c) ∨
          (i.g.waitsAt n.toNat = false ∧ i.g.index ∈ b.arr ∧ i.g.index ∉ b.early ∧ ∃ k, b.earlyCount = some k ∧ k ≠ c)) → Handled i i.lanes (fun _ => atBundle i cBarrier) →
        ∃ t, exec o.1 s = .next t ∧ Excepted s t i i.g i.lanes fun _ => atBundle i cBarrier) ∧
      (satArmed i.g = false → i.act ≠ 0 → (o.2.1 = some c → c ≤ tm.d.groups ∧ (b.count = none ∨ b.count = some c)) →
        i.g.waitsAt n.toNat = false → i.g.index ∈ b.arr → i.g.index ∈ b.early →
        ∃ t, exec o.1 s = .next t ∧ Stalled s t i.gid) ∧
      (i.act ≠ 0 → satArmed i.g = false → MayArrive tm i.g n.toNat o.2.1 b → Unstuck s i →
        ∃ t h, exec o.1 s = .next t ∧ Fm.get? t.groups i.gid = some h ∧ RegsAre h (regsOf i.g) ∧ SameRest i.g h ∧ OthersKept s t i.gid ∧
          (∀ l, l < 64 → i.act.getLsbD l = false → i.lanes.getLsbD l = true → (h.lane l).pair = (pcNext i.pcI, i.e.prio)) ∧
          (¬ Complete s i.g.team nb →
            (∃ tm', Fm.get? t.teams i.g.team = some tm' ∧ Fm.getD tm'.barriers n.toNat {} = nb) ∧
            ∀ l, l < 64 → i.act.getLsbD l = true →
              if o.2.2 then (h.lane l).st = .barrier n.toNat (pcNext i.pcI) i.g.word
              else (h.lane l).st = .issuable ∧ (h.lane l).pair = (pcNext i.pcI, i.e.prio)) ∧
          (Complete s i.g.team nb →
            (∃ tm', Fm.get? t.teams i.g.team = some tm' ∧ b.phase < (Fm.getD tm'.barriers n.toNat {}).phase) ∧
            ∀ l, l < 64 → i.act.getLsbD l = true → (h.lane l).st = .issuable ∧ (h.lane l).pair = (pcNext i.pcI, i.e.prio)))

/-- R38, R52, R171: the lanes of a RECONV go on to the next bundle once every lane of the set has reached it or exited; until then they wait
there. -/
def Obligations.ReconvergenceWaitsForItsSet : Prop :=
  ∀ (s : State) (g : BitVec 4) (m : BitVec 6) (i : Iss), prelude s g ctlForm = .ok i →
    let x := readS s i.g m.toNat
    let set : LaneMask := if x = 0 then BitVec.allOnes 64 else x
    (satArmed i.g = false → i.act = 0 → ∃ t, exec (.reconv g m) s = .next t ∧ Issued s t i (regsOf i.g) (latch i.g) (onward i)) ∧
    (satArmed i.g = true → Handled i i.lanes (fun _ => atBundle i cSatArmed) →
      ∃ t, exec (.reconv g m) s = .next t ∧ Excepted s t i i.g i.lanes fun _ => atBundle i cSatArmed) ∧
    (i.act ≠ 0 → satArmed i.g = false → (∀ y ∈ i.g.lanes, Lane.atReconv y = false) →
      ((∀ l, l < 64 → set.getLsbD l = true → i.act.getLsbD l = true ∨ (i.g.lane l).st = .exited) →
        ∃ t h, exec (.reconv g m) s = .next t ∧ Fm.get? t.groups i.gid = some h ∧ RegsAre h (regsOf i.g) ∧ SameRest i.g h ∧
          OthersKept s t i.gid ∧
          ∀ l, l < 64 → i.lanes.getLsbD l = true → (h.lane l).st = .issuable ∧ (h.lane l).pair = (pcNext i.pcI, i.e.prio)) ∧
      ((∃ l, l < 64 ∧ (i.g.lane l).st = .issuable ∧ i.act.getLsbD l = false) →
        (∃ l, l < 64 ∧ set.getLsbD l = true ∧ i.act.getLsbD l = false ∧ (i.g.lane l).st ≠ .exited) →
        ∃ t h, exec (.reconv g m) s = .next t ∧ Fm.get? t.groups i.gid = some h ∧ RegsAre h (regsOf i.g) ∧ SameRest i.g h ∧
          OthersKept s t i.gid ∧ ∀ l, l < 64 → i.act.getLsbD l = true → (h.lane l).st = .reconv set (pcNext i.pcI) i.g.word))

/-- R172, R177, R237, R238, R353, R379: NOP only moves on; WAITF waits while its flag is above the threshold; FENCE waits for the accesses of its
predecessor classes, while a second FENCE stalls; BEAT reloads a persistent team's heartbeat timer that has not lapsed. -/
def Obligations.WaitsFencesAndBeats : Prop :=
  ∀ (s : State) (g : BitVec 4) (i : Iss),
    (prelude s g ctlForm = .ok i →
      (∃ t, exec (.nop g) s = .next t ∧ Issued s t i (regsOf i.g) (latch i.g) (onward i)) ∧
      (∃ t, exec (.beat g) s = .next t ∧
        Issued (if i.act = 0 then s else s.modTeam i.g.team fun x =>
          if x.d.persistent = true ∧ x.timer ≠ 0 then { x with timer := x.d.limit } else x) t i (regsOf i.g) (latch i.g) (onward i)) ∧
      ∀ (n : BitVec 4) (w : BitVec 6), ∃ t, exec (.waitf g n w) s = .next t ∧
        IssuedAs s t i (if i.act = 0 ∨ i.g.flag n.toNat ≤ w.toNat then i.g else { i.g with hold := .waitf n.toNat w.toNat })
          (regsOf i.g) (latch i.g) (onward i)) ∧
    ∀ (p q : BitVec 7) (c : BitVec 3), prelude s g { ctlForm with chain := false } = .ok i →
      let f : Fence := { pred := p, succ := q, scope := c, ops := fenceOps s i.gid p, time := (fenceTime i.g p).getD 0 }
      (i.act = 0 → ∃ t, exec (.fence g p q c) s = .next t ∧ Issued s t i (regsOf i.g) (latch i.g) (onward i)) ∧
      (i.act ≠ 0 → i.g.fence = none →
        ∃ t, exec (.fence g p q c) s = .next t ∧
          IssuedAs s t i (if p = 0 ∨ q = 0 ∨ (f.ops = [] ∧ fenceTime i.g p = none) ∨ (f.ops = [] ∧ f.time + fenceGuard s i.g c.toNat < dialOf s (i.g.core / 48))
            then i.g else { i.g with fence := some f }) (regsOf i.g) (latch i.g) (onward i)) ∧
      (i.act ≠ 0 → i.g.fence ≠ none → ∃ t, exec (.fence g p q c) s = .next t ∧ Stalled s t i.gid)

/-- R173, R177, R178: CSRR writes a CSR's value to a scalar register or, lane by lane, to a vector register or pair; CSRW writes what the field
access codes let it: GS bits are cleared by 1, read-only bits stay. -/
def Obligations.ControlRegisterAccess : Prop :=
  ∀ (s : State) (g : BitVec 4) (r : BitVec 6) (v : BitVec 1) (c : BitVec 12) (i : Iss),
    let k := r.toNat
    let n := c.toNat
    prelude s g { ctlForm with vregs := (if v = 0 then [] else if csrWide n then [k, k + 1] else [k]) } = .ok i →
    (∃ t, exec (.csrr g r v c) s = .next t ∧
      Issued s t i (if i.act = 0 then regsOf i.g
        else if v = 0 then (regsOf i.g).setS k (csrRead s i.g n 0)
        else if csrWide n then (regsOf i.g).setW k i.act (csrRead s i.g n)
        else (regsOf i.g).setV k i.act fun l => (csrRead s i.g n l).setWidth 32) (latch i.g) (onward i)) ∧
    let x (l : Nat) : DWord := if v = 0 then readS s i.g k else if csrWide n then readW s i.g k l else (readV s i.g k l).setWidth 64
    let y := x 0
    let at_ (f : Lane → DWord → Lane) : Group := { i.g with lanes := lanesOf fun l => if i.act.getLsbD l then f (i.g.lane l) (x l) else i.g.lane l }
    ∀ o ∈ ([(0x11, { i.g with gsarm := y &&& 1 }), (0x20, { i.g with crack := y.getLsbD 0 }),
        (0x30, { i.g with trapvec := y &&& BitVec.ofNat 64 (2 ^ 57 - 4) }),
        (0x31, at_ fun z w => { z with trapPc := w &&& BitVec.ofNat 64 (2 ^ 64 - 2 ^ 58 + (2 ^ 57 - 4)) }),
        (0x32, at_ fun z w => { z with trapCause := w }), (0x33, at_ fun z w => { z with trapAddr := w }),
        (0x34, { i.g with trapinfo := y &&& BitVec.ofNat 64 (2 ^ 40 - 256 + 63) }), (0x41, { i.g with kwin := y &&& 0xFFF }),
        (0x10, i.g)] : List (Nat × Group)),
      n = o.1 → ∃ t, exec (.csrw g r v c) s = .next t ∧
        IssuedAs s t i (if i.act = 0 then i.g else o.2)
          (if n = 0x10 ∧ i.act ≠ 0 then { regsOf i.g with gs := fun m => (i.g.gs &&& ~~~ y) ||| gsDue i.g.gsq m } else regsOf i.g) (latch i.g) (onward i)

/-- R35, R175, R177, R395: TRAP with a code below 48 sends the active lanes to the handler with SOFTWARE and the code, and TRAPPC at the bundle after
the TRAP. -/
def Obligations.SoftwareTrapsSaveTheNextBundle : Prop :=
  ∀ (s : State) (g : BitVec 4) (c : BitVec 6) (i : Iss), c.toNat < 48 → prelude s g ctlForm = .ok i →
    let tr : TrapAt := { f := { cause := BitVec.ofNat 8 cSoftware, word := i.g.word }, at_ := (pcNext i.pcI, i.e.prio) }
    (i.act = 0 → ∃ t, exec (.trap g c) s = .next t ∧ Issued s t i (regsOf i.g) (latch i.g) (onward i)) ∧
    (i.act ≠ 0 → Handled i i.act (fun _ => tr) → ∃ t, exec (.trap g c) s = .next t ∧
      Excepted s t i { i.g with trapinfo := infoCode i.g.trapinfo c.toNat } i.act fun _ => tr)

/-- R177, R364, R395: a TRAP with a code from 48 on is a service call, as PLMOVE, RECORD and CODEREP are: the active lanes are PARKED with the
bundle after it as their place, and the call, with s4 to s7, is in the slice kernel's queue. -/
def Obligations.ServiceCallsParkTheirLanes : Prop :=
  ∀ (s : State) (g : BitVec 4) (c : BitVec 6) (i : Iss), 48 ≤ c.toNat → prelude s g ctlForm = .ok i →
    ∀ o ∈ ([(.trap g c, c.toNat), (.plmove g, 48), (.record g, 50), (.coderep g, 62)] : List (Instr × Nat)),
      let f : LaneFault := { cause := BitVec.ofNat 8 cSoftware, word := i.g.word }
      let call : Call := { slice := coreSlice i.g.core, group := i.gid, lanes := i.act, code := o.2, word := i.g.word,
                           args := [readS s i.g 4, readS s i.g 5, readS s i.g 6, readS s i.g 7] }
      (i.act = 0 → ∃ t, exec o.1 s = .next t ∧ Issued s t i (regsOf i.g) (latch i.g) (onward i)) ∧
      (i.act ≠ 0 → ∃ t, exec o.1 s = .next t ∧
        SettledAt { s with calls := Fm.put s.calls s.nextOp call, nextOp := s.nextOp + 1 } t i
          { i.g with trapinfo := infoCode i.g.trapinfo o.2 } (regsOf i.g) (onward i)
          (fun l => if i.act.getLsbD l then .parked f else .issuable) fun _ => True)

/-- R30, R42, R68, R177: ERET sends each active lane to its saved pair and ends the SCHED cover, and a saved priority of 63 is illegal; EXIT ends
the active lanes. -/
def Obligations.ReturnsAndExits : Prop :=
  ∀ (s : State) (g : BitVec 4) (i : Iss), prelude s g ctlForm = .ok i →
    let saved (l : Nat) : Pair := (((i.g.lane l).trapPc &&& BitVec.ofNat 64 (2 ^ 57 - 4)).setWidth 57, ((i.g.lane l).trapPc >>> 58).setWidth 6)
    ((∀ l, l < 64 → i.act.getLsbD l = true → (saved l).2 ≠ 63) →
      ∃ t, exec (.eret g) s = .next t ∧ Issued s t i (regsOf i.g) (latch i.g) (branched i saved) ∧
        (i.act ≠ 0 → ∀ h, Fm.get? t.groups i.gid = some h → h.cover = none)) ∧
    ((∀ l, l < 64 → i.act.getLsbD l = true → (saved l).2 = 63) → i.act ≠ 0 → Handled i i.act (fun _ => atBundle i cIllegal) →
      ∃ t, exec (.eret g) s = .next t ∧ Excepted s t i i.g i.act fun _ => atBundle i cIllegal) ∧
    ((∃ l, l < 64 ∧ (i.g.lane l).st = .issuable ∧ i.act.getLsbD l = false) →
      ∃ t, exec (.exit g) s = .next t ∧
        SettledAt s t i i.g (regsOf i.g) (onward i) (fun l => if i.act.getLsbD l then .exited else .issuable) fun _ => True)

/-- R64, R183, R203 to R206, R211 to R219, R273, R277, R291: LD, ST, LDS, STS, ATOM, ATOMS and RESID are accepted when every active lane's access
passes its checks: an operation with one access per active lane is in flight, its flag stands one higher, every issuing lane moves on, and
no register and no byte of data memory changes before the operation runs. -/
def Obligations.MemoryInstructionsAreAccepted : Prop :=
  ∀ (s : State) (g : BitVec 4) (d : BitVec 6) (a : BitVec 8) (f w : BitVec 4) (sp z : BitVec 2) (i : Iss) (acc : Nat → Acc),
    ∀ o ∈ memoryForms s i g d a f w sp z, prelude s g o.2.1 = .ok i → flagFull i.g f = false →
      ((o.2.2.2.2.1.k = .atom ∨ o.2.2.2.2.1.k = .atoms) → replayTrap s i w.toNat = false) →
      (i.act = 0 → ∃ t, exec o.1 s = .next t ∧ Issued s t i (regsOf i.g) (latch i.g) (onward i)) ∧
      (i.act ≠ 0 → (∀ l ∈ activeLanes i, o.2.2.2.2.2 l = .ok (acc l) ∧ (acc l).held = false) →
        let accs := (activeLanes i).map acc
        ∃ t, exec o.1 s = .next t ∧ InFlight t s.nextOp i f o.2.2.2.1 (.mem { o.2.2.2.2.1 with accs := accs }) ∧
          let u : State := if o.2.2.1 then s else useWalks s i.g.core (worldOf s i.g) (accessOf o.2.2.2.2.1.k).writes (accs.map fun x => x.va)
          let dropped (x : L1Frame) : Bool := o.2.2.2.2.1.k == .atom && x.core == i.g.core && x.world == worldOf s i.g &&
            accs.any fun y => y.buf == x.buf && y.soff == x.soff
          let s1 : State := { countIssues u (worldOf s i.g) (accKeys accs) with l1 := u.l1.filter fun x => !dropped x }
          IssuedAs { s1 with ops := t.ops, nextOp := s.nextOp + 1, pmus := t.pmus } t i (flagged i.g f s.nextOp) (regsOf i.g) (latch i.g)
            (onward i))

/-- R35, R174, R206, R208, R346: a lane whose access breaks a check at acceptance takes its cause at the bundle with the syndrome and the address:
it parks for the slice kernel where the cause is one of those sent there, else it enters TRAPVEC; a full flag traps every issuing lane. No
operation is then in flight. -/
def Obligations.AcceptanceFaultsParkOrTrap : Prop :=
  ∀ (s : State) (g : BitVec 4) (d : BitVec 6) (a : BitVec 8) (f w : BitVec 4) (sp z : BitVec 2) (i : Iss)
    (c : Nat → Nat) (ad : Nat → DWord) (ax : Nat → Nat),
    ∀ o ∈ memoryForms s i g d a f w sp z, prelude s g o.2.1 = .ok i → i.act ≠ 0 →
      ((o.2.2.2.2.1.k = .atom ∨ o.2.2.2.2.1.k = .atoms) → replayTrap s i w.toNat = false) →
      let m := o.2.2.2.2.1
      let fault (l : Nat) : LaneFault :=
        { cause := BitVec.ofNat 8 (c l), syn := memSyn (kindCode m.k) m.size false (ax l), addr := ad l, word := i.g.word }
      let full : TrapAt := fullFlag i f (memSyn (kindCode m.k) m.size false 0)
      (flagFull i.g f = true → Handled i i.lanes (fun _ => full) → ∃ t, exec o.1 s = .next t ∧ NotIssued s t i fun _ => full) ∧
      (flagFull i.g f = false → (∀ l ∈ activeLanes i, o.2.2.2.2.2 l = .bad (c l) (ad l) (ax l)) →
        ((∀ l ∈ activeLanes i, toKernel (fault l).cause = false) → Handled i i.act (fun l => { f := fault l, at_ := i.pair }) →
          ∃ t, exec o.1 s = .next t ∧ Excepted s t i i.g i.act fun l => { f := fault l, at_ := i.pair }) ∧
        ((∀ l ∈ activeLanes i, toKernel (fault l).cause = true) →
          let recs := (activeLanes i).map fun l =>
            parkRec s i.gid i.g l (fault l) i.pair
              (if 4 ≤ kindCode m.k then coreSlice i.g.core else causeSlice s i.g.core (worldOf s i.g) (ad l).toNat (c l))
          ∃ t, exec o.1 s = .next t ∧
            SettledAt { s with parking := s.parking ++ recs } t i i.g (regsOf i.g) (branched i fun _ => i.pair)
              (fun l => if i.act.getLsbD l then .parked (fault l) else .issuable) fun _ => True))

/-- R211, R213, R214, R229, R235: what a memory operation of one lane does when it is performed: a scratch load returns the bytes of its place, a
scratch store changes its bytes and no other, a load returns the unit of the sector that its core or die serves; the operation completes, and the
words go to D in that lane only. The model's readings in log entries 1 and 46 stand in it. -/
def Obligations.LoadsAndScratchStoresArePerformed : Prop :=
  ∀ (s : State) (id gid f : Nat) (g : Group) (o : Op) (m : MemOp) (x : Acc), OneAccess s id gid f g o m x →
    (m.k = .lds → scratchBad s x.loc = false → ∃ t, exec (.scratchAccessPerformed id 0) s = .next t ∧ t.coreScr = s.coreScr ∧ t.dieScr = s.dieScr ∧ t.hbm = s.hbm ∧
      Completed s t id gid f (((regsOf g).loads m.d x.lane (loadWords m.k m.w (scratchRead s o.world x.loc m.size))).orGs m.gs)) ∧
    (m.k = .sts → ∀ core off, x.loc = .core core off → Mem.wf s.coreScr = true →
      ∃ t, exec (.scratchAccessPerformed id 0) s = .next t ∧ t.dieScr = s.dieScr ∧ t.hbm = s.hbm ∧
        (∀ y, Mem.read t.coreScr y =
          if core * scrSpan + off ≤ y ∧ y < core * scrSpan + off + x.data.length then (x.data[y - (core * scrSpan + off)]?).getD 0
          else Mem.read s.coreScr y) ∧ Completed s t id gid f ((regsOf g).orGs m.gs)) ∧
    (m.k = .sts → ∀ die off, x.loc = .die die off → Mem.wf s.dieScr = true →
      ∃ t, exec (.scratchAccessPerformed id 0) s = .next t ∧ t.coreScr = s.coreScr ∧ t.hbm = s.hbm ∧
        (∀ y, Mem.read t.dieScr y =
          if die * 2 ^ 25 + off ≤ y ∧ y < die * 2 ^ 25 + off + x.data.length then (x.data[y - (die * 2 ^ 25 + off)]?).getD 0
          else Mem.read s.dieScr y) ∧ Completed s t id gid f ((regsOf g).orGs m.gs)) ∧
    (m.k = .ld → ∀ r, readSector s o.core o.world x m.pol m.lease = r → r.ok = true → r.bad = false →
      ∃ t, exec (.loadDataReturn id 0) s = .next t ∧ t.coreScr = s.coreScr ∧ t.dieScr = s.dieScr ∧
        Completed s t id gid f (((regsOf g).loads m.d x.lane (loadWords m.k m.w (unitBytes r.s id o m.size r.base x))).orGs m.gs))

/-- R190, R191, R209, R212, R216, R218, R219, R228: a store to a sector that its die may write is accepted there: its lane reads the stored bytes in
it, every other byte is as it was, and its operation completes. An atomic step at the home of its sector, or in a scratchpad, applies its function
once to the newest value there, and returns the old value. RESID leaves its count as the expected reads of its sectors. The model's readings in log
entries 1 and 46 stand in it. -/
def Obligations.StoresAndAtomicsArePerformed : Prop :=
  ∀ (s : State) (id gid f : Nat) (g : Group) (o : Op) (m : MemOp) (x : Acc), OneAccess s id gid f g o m x →
    let sec := secOf x.phys
    let home := homeDie sec
    (∀ y, m.k = .st → x.data.length = m.size → x.phys % 128 + m.size ≤ 128 → Owned s o.die sec y → Plain y x.enc →
      ∃ t z, exec (.storeCompletion id 0) s = .next t ∧ SectorOnly s t o.die sec ∧ copyOf t o.die sec = some z ∧ z.st = .m ∧
        (∀ n, n < 128 → seenByte ((z.data[n]?).getD 0) z.pend o.die (dialOf s o.die) (.lane gid x.lane) n =
          if x.phys % 128 ≤ n ∧ n < x.phys % 128 + m.size then (x.data[n - x.phys % 128]?).getD 0 else (y.data[n]?).getD 0) ∧
        Completed s t id gid f ((regsOf g).orGs m.gs)) ∧
    (∀ y, m.k = .atom → x.peer = none → (∃ p, x.loc = .mem p) → x.phys % 128 + m.size ≤ 128 → Owned s home sec y → Plain y x.enc →
      y.poison = false → unserved s o.die x.phys m.size = false →
      let old := leNat ((List.range m.size).map fun j => (y.data[x.phys % 128 + j]?).getD 0)
      let r := atomEval m.w old (leNat x.data)
      ∃ t z, exec (.atomicStep id 0) s = .next t ∧ SectorOnly s t home sec ∧ copyOf t home sec = some z ∧
        (∀ n, n < 128 → seenByte ((z.data[n]?).getD 0) z.pend home (dialOf s home) .newest n =
          if x.phys % 128 ≤ n ∧ n < x.phys % 128 + m.size then BitVec.ofNat 8 (r.val / 2 ^ (8 * (n - x.phys % 128))) else (y.data[n]?).getD 0) ∧
        Completed s t id gid f (((regsOf g).loads m.d x.lane (loadWords m.k m.w (leBytes m.size old))).orGs (m.gs ||| r.gs))) ∧
    (∀ core b, m.k = .atoms → x.peer = none → scratchAddr x.loc = some (core, b) → scratchBad s x.loc = false →
      Mem.wf (if core then s.coreScr else s.dieScr) = true →
      let old := leNat (scratchRead s o.world x.loc m.size)
      let r := atomEval m.w old (leNat x.data)
      ∃ t, exec (.atomicStep id 0) s = .next t ∧ t.hbm = s.hbm ∧ (if core then t.dieScr = s.dieScr else t.coreScr = s.coreScr) ∧
        (∀ y, Mem.read (if core then t.coreScr else t.dieScr) y =
          if b ≤ y ∧ y < b + m.size then BitVec.ofNat 8 (r.val / 2 ^ (8 * (y - b))) else Mem.read (if core then s.coreScr else s.dieScr) y) ∧
        Completed s t id gid f (((regsOf g).loads m.d x.lane (loadWords m.k m.w (leBytes m.size old))).orGs (m.gs ||| r.gs))) ∧
    (m.k = .resid → (∀ z ∈ residSecs m x, ∃ y, Owned s (homeDie z) z y) →
      ∃ t, exec (.residApply id 0) s = .next t ∧ (∀ z ∈ residSecs m x, Fm.get? t.rcounts z = if m.d = 0 then none else some m.d) ∧
        t.hbm = s.hbm ∧ t.coreScr = s.coreScr ∧ t.dieScr = s.dieScr ∧ Completed s t id gid f ((regsOf g).orGs m.gs))

/-- R256, R258, R303, R306, R346: a SACC or TKT instruction that passes its checks at issue goes to its unit, and the group stands at it until the
verdict; a TKLD whose page is in transit is not accepted; a full flag traps every issuing lane and nothing is issued; with no active lane it only
moves on. TKQRY of a handle that fails the core's tests answers 7. -/
def Obligations.UnitInstructionsAwaitTheirVerdict : Prop :=
  ∀ (s : State) (g : BitVec 4) (a b : BitVec 6) (m : BitVec 2) (k : BitVec 3) (f : BitVec 4) (i : Iss),
    let hd := (readS s i.g a.toNat).toNat
    let off := (readS s i.g b.toNat).toNat % 2 ^ 32
    let unit := hdlSlice hd / 3
    let now (fn : Nat) : BitVec 56 := tktSyn (tktCode s hd (worldOf s i.g)) fn false 0
    (∀ o ∈ saccForms s i g a b m f, prelude s g o.2.1 = .ok i → i.act ≠ 0 → flagFull i.g f = false →
      ∃ t, exec o.1 s = .next t ∧ Awaits s t i o.2.2 (.verdict o.1)) ∧
    (∀ o ∈ ((saccForms s i g a b m f).map fun x => (x.1, x.2.1, (0 : BitVec 56))) ++
        [(.tkld g a b k f, tkldForm f, tktSyn 0 0 false 0), (.tkrdm g a b k f, tktForm 1 f, now 1), (.tkdrop g a f, tktForm 2 f, now 2),
          (.tkxtnd g a f, tkxtndForm f, now 3), (.tkqry g b a f, tktForm 4 f, now 4)], prelude s g o.2.1 = .ok i →
      (i.act = 0 → ∃ t, exec o.1 s = .next t ∧ Issued s t i (regsOf i.g) (latch i.g) (onward i)) ∧
      (i.act ≠ 0 → flagFull i.g f = true → Handled i i.lanes (fun _ => fullFlag i f o.2.2) →
        ∃ t, exec o.1 s = .next t ∧ NotIssued s t i fun _ => fullFlag i f o.2.2)) ∧
    (∀ o ∈ ([(.tkdrop g a f, tktForm 2 f, 2), (.tkxtnd g a f, tkxtndForm f, 3), (.tkrdm g a b k f, tktForm 1 f, 1)] : List (Instr × Form × Nat)),
      prelude s g o.2.1 = .ok i → i.act ≠ 0 → flagFull i.g f = false → (o.2.2 = 1 → off % 128 = 0) →
      (coreForged hd = true → Handled i i.lanes (unitTrap i cTktForged (tktSyn 7 o.2.2 false 0) hd) →
        ∃ t, exec o.1 s = .next t ∧ Excepted s t i i.g i.lanes (unitTrap i cTktForged (tktSyn 7 o.2.2 false 0) hd)) ∧
      (coreForged hd = false → o.2.2 ≠ 1 → ∃ t, exec o.1 s = .next t ∧ Awaits s t i unit (.ticket o.1 0 0 0)) ∧
      (coreForged hd = false → o.2.2 = 1 → ∀ p, redeemPlace s i.g k.toNat off (128 * 2 ^ hdlSize hd) = some p →
        ∃ t, exec o.1 s = .next t ∧ Awaits s t i unit (.ticket o.1 0 0 p))) ∧
    (prelude s g (tktForm 4 f) = .ok i → i.act ≠ 0 → flagFull i.g f = false →
      (coreForged hd = true → ∃ t, exec (.tkqry g b a f) s = .next t ∧ Issued s t i ((regsOf i.g).setS b.toNat 7) (latch i.g) (onward i)) ∧
      (coreForged hd = false → ∃ t, exec (.tkqry g b a f) s = .next t ∧ Awaits s t i unit (.ticket (.tkqry g b a f) 0 0 0))) ∧
    (prelude s g (tkldForm f) = .ok i → i.act ≠ 0 → flagFull i.g f = false →
      let va := ((((readS s i.g b.toNat).toNat : Int) + i.g.hints.offset) % 2 ^ 64).toNat
      let n := 128 * 2 ^ k.toNat
      va % n = 0 → ∀ x, tkldCheck s i va n = .ok x →
        ((x.transit && onlyExecutor x .ticket) = true → ∃ t, exec (.tkld g a b k f) s = .next t ∧ Stalled s t i.gid) ∧
        ((x.transit && onlyExecutor x .ticket) = false → ∃ t, exec (.tkld g a b k f) s = .next t ∧
          Awaits (useWalks s i.g.core (worldOf s i.g) false [va]) t i (x.phys / 2 ^ 36 / 3) (.ticket (.tkld g a b k f) va x.d x.o)))

/-- R12, R299, R300, R303, R304, R306, R308, R310: when the instruction has reached its slice, the slice lets due leases lapse and then takes it: TKLD gives a handle, or 0 when there is no
room; TKRDM claims the entry, whose generation advances; TKDROP frees it; TKXTND never shortens a lease; TKQRY returns the status word; a handle
that is not current traps every issuing lane with its state's cause. The model's readings in log entries 11, 17 and 18 stand in it. -/
def Obligations.TicketVerdicts : Prop :=
  ∀ (s : State) (op gid : Nat) (o : Op) (g : BitVec 4) (a b : BitVec 6) (k : BitVec 3) (f : BitVec 4) (va d p : Nat) (i : Iss),
    Fm.get? s.ops op = some o → o.group = some gid → arrives s op o = true → headWaits s o = false →
    let t := atVerdict s op gid
    let hd := (readS t i.g a.toNat).toNat
    let slice := hdlSlice hd
    let u := lapseDue t slice
    let st := handleState u hd (worldOf u i.g)
    let e := ticketOf u (hdlKey hd)
    let freed : Ticket := { gen := nextGen e.gen }
    (∀ x ∈ ([(.tkdrop g a f, tktForm 2 f, 2), (.tkxtnd g a f, tkxtndForm f, 3), (.tkrdm g a b k f, tktForm 1 f, 1)] : List (Instr × Form × Nat)),
      o.kind = .ticket x.1 va d p → prelude t g x.2.1 = .ok i → i.act ≠ 0 →
      (∀ c, stateCause st = some c → Handled i i.lanes (unitTrap i c (tktSyn st x.2.2 false 0) hd) →
        ∃ v, exec (.ticketVerdict op) s = .next v ∧ Excepted u v i i.g i.lanes (unitTrap i c (tktSyn st x.2.2 false 0) hd)) ∧
      (stateCause st = none →
        (x.2.2 = 2 → ∃ v, exec (.ticketVerdict op) s = .next v ∧
          IssuedAs (u.putTicket (hdlKey hd) (if e.st = 1 then { e with st := 4, gen := nextGen e.gen } else freed)) v i
            (i.g.noteTimes 0x40 (sliceDial u slice)) (regsOf i.g) (latch i.g) (onward i)) ∧
        (x.2.2 = 3 → ∃ v, exec (.ticketVerdict op) s = .next v ∧
          IssuedAs (u.putTicket (hdlKey hd) { e with expiry := max e.expiry (sliceDial u slice + leaseOf i.g.hints) }) v i
            (i.g.noteTimes 0x40 (sliceDial u slice)) (regsOf i.g) (latch i.g) (onward i)) ∧
        (x.2.2 = 1 → st = 3 → Handled i i.lanes (unitTrap i cTktPoison (tktSyn 3 1 false 0) hd) →
          ∃ v, exec (.ticketVerdict op) s = .next v ∧
            Excepted (u.putTicket (hdlKey hd) freed) v i i.g i.lanes (unitTrap i cTktPoison (tktSyn 3 1 false 0) hd)) ∧
        (x.2.2 = 1 → st ≠ 3 → ∃ v, exec (.ticketVerdict op) s = .next v ∧ InFlight v u.nextOp i f 0x40 (.tkRedeem (hdlKey hd)) i.lanes ∧
          let r : Redeem := { op := u.nextOp, gid := i.gid, space := k.toNat, off := p, handle := BitVec.ofNat 64 hd }
          IssuedAs { u.putTicket (hdlKey hd) { e with st := 4, gen := nextGen e.gen, red := some r } with
              ops := v.ops, nextOp := v.nextOp, pmus := v.pmus } v i (flagged i.g f u.nextOp) (regsOf i.g) (latch i.g) (onward i)))) ∧
    (o.kind = .ticket (.tkqry g b a f) va d p → prelude t g (tktForm 4 f) = .ok i → i.act ≠ 0 →
      ∃ v, exec (.ticketVerdict op) s = .next v ∧
        Issued u v i ((regsOf i.g).setS b.toNat (BitVec.ofNat 64 (st + (if 1 ≤ st ∧ st ≤ 4 then hdlSize hd * 8 else 0) +
          if 1 ≤ st ∧ st ≤ 3 then (e.expiry - sliceDial u slice) / 1000 * 256 else 0))) (latch i.g) (onward i)) ∧
    (o.kind = .ticket (.tkld g a b k f) va d p → prelude t g (tkldForm f) = .ok i → i.act ≠ 0 →
      let home := physOf d p / 2 ^ 36
      let w := lapseDue t home
      let full := (∀ n, n < 4096 → (ticketOf w (home * 4096 + n)).st ≠ 0) ∨ 65536 < unitsUsed w home + 2 ^ k.toNat
      (full → ∃ v, exec (.ticketVerdict op) s = .next v ∧ Issued w v i ((regsOf i.g).setS a.toNat 0) (latch i.g) (onward i)) ∧
      (¬ full → ∃ v key x, exec (.ticketVerdict op) s = .next v ∧ key / 4096 = home ∧
        (ticketOf w key).st = 0 ∧ x.st = 1 ∧ x.gen = (ticketOf w key).gen ∧ x.world = worldOf w i.g ∧
        x.k = k.toNat ∧ x.expiry = sliceDial w home + leaseOf i.g.hints ∧ x.src = va ∧ x.d = d ∧ x.o = p ∧ x.lru = o.lru ∧
        InFlight v w.nextOp i f 0x40 (.tkFetch key) i.lanes ∧
        IssuedAs { w.putTicket key x with ops := v.ops, nextOp := v.nextOp, pmus := v.pmus } v i (flagged i.g f w.nextOp)
          ((regsOf i.g).setS a.toNat (BitVec.ofNat 64 (handleOf w key x))) (latch i.g) (onward i)))

/-- R12, R258, R260 to R262, R264, R266, R268, R269: what the row table does with an instruction that has reached it, behind none on its row. SAOPEN opens a FREE entry, or re-arms a SEALED row;
SAADD counts its add; SANORM of a SEALED row is served and of an OPEN row waits; SAEVICT puts the row out; SAFILL restores it; SASTAT writes the
status word; SACLOSE frees the entry, whose generation advances. The model's readings in log entries 11 and 19 stand in it. -/
def Obligations.RowTableVerdicts : Prop :=
  ∀ (s : State) (op gid : Nat) (o : Op) (g : BitVec 4) (a b : BitVec 6) (m : BitVec 2) (f : BitVec 4) (i : Iss),
    Fm.get? s.ops op = some o → o.group = some gid → arrives s op o = true → behind s op o = false → headWaits s o = false → i.act ≠ 0 →
    let t := atVerdict s op gid
    let x := (readS t i.g a.toNat).toNat
    let y := (readS t i.g b.toNat).toNat
    let world := worldOf t i.g
    let die := i.g.core / 48
    (o.kind = .verdict (.saopen g a b f) → prelude t g (saForm f) = .ok i →
      let w := openWord y
      (w.reopen = false → w.bad = false → fitBanks t die (2 ^ w.log) ≠ [] → (∃ n, n < 16384 ∧ (rowOf t (die * 16384 + n)).st = 0) →
        ∃ v key bank, exec (.saccVerdict op) s = .next v ∧ key / 16384 = die ∧ (rowOf t key).st = 0 ∧ bank ∈ fitBanks t die (2 ^ w.log) ∧
          IssuedAs (t.putRow key { st := 1, gen := (rowOf t key).gen, world := world, log := w.log, e := w.e, eps := w.eps, expect := w.expect,
                                   timeout := w.timeout, bank := bank }) v i (i.g.noteTimes 0x40 (dialOf t die))
            ((regsOf i.g).setS a.toNat (BitVec.ofNat 64 (key % 16384 + die * 2 ^ 16 + (rowOf t key).gen * 2 ^ 20))) (latch i.g) (onward i)) ∧
      (w.reopen = true → w.bad = false → rowWordBad x = false →
        let key := rowKey x
        let r := rowOf t key
        rowReason r x world = none → r.st = 2 → r.evicting = false → w.log = r.log → w.e = r.e → w.eps = r.eps →
        ∃ v, exec (.saccVerdict op) s = .next v ∧
          IssuedAs (t.putRow key { r with st := 1, arrived := 0, expect := w.expect, timeout := w.timeout, rRms := none, rLayer := none }) v i
            (i.g.noteTimes 0x40 (dialOf t (key / 16384)))
            ((regsOf i.g).setS a.toNat (BitVec.ofNat 64 (key % 16384 + key / 16384 * 2 ^ 16 + r.gen * 2 ^ 20))) (latch i.g) (onward i))) ∧
    (∀ z : Nat, z = x ∨ z = y → rowWordBad z = false →
      let key := rowKey z
      let r := rowOf t key
      rowReason r z world = none →
      (z = y → o.kind = .verdict (.saadd g a b f) → prelude t g (saAddForm a f) = .ok i → r.out = false → r.poison = false →
        r.arrived ≠ r.expect → rowSeg z < r.segs →
        ∃ v, exec (.saccVerdict op) s = .next v ∧
          InFlight v t.nextOp i f 0x40 (.saAdd key (rowSeg z) i.g.hints.arith.ty
            (lanesOf fun l => if i.act.getLsbD l then (readV t i.g a.toNat l).toNat else 0)) i.lanes ∧
          IssuedAs { t.putRow key { r with arrived := r.arrived + 1 } with ops := v.ops, nextOp := v.nextOp, pmus := v.pmus } v i
            (flagged i.g f t.nextOp) (regsOf i.g) (latch i.g) (onward i)) ∧
      (z = y → o.kind = .verdict (.sanorm g a b m f) → prelude t g (saNormForm a f) = .ok i → r.out = false → r.poison = false →
        rowSeg z < r.segs →
        let gain (l : Nat) : Nat := (readV t i.g a.toNat l).toNat
        (r.st ≠ 2 → ∃ v, exec (.saccVerdict op) s = .next v ∧
          InFlight v t.nextOp i f 0x40 (.saNorm key (rowSeg z) m.toNat i.g.hints.arith.ty a.toNat i.act (lanesOf gain) (BitVec.ofNat 64 z))
            i.lanes ∧
          IssuedAs { t with ops := v.ops, nextOp := v.nextOp, pmus := v.pmus } v i (flagged i.g f t.nextOp) (regsOf i.g) (latch i.g) (onward i)) ∧
        (r.st = 2 →
          let ty := i.g.hints.arith.ty
          let fmt := if ty = tyBf16 then bf16 else if ty = tyF16 then f16 else f32
          let fac := ((if m = 1 then r.rLayer else r.rRms).getD (rowFactor r (m == 1)))
          let res (l : Nat) : Res Nat := normLane r m.toNat fac fmt (64 * rowSeg z + l) (gain l)
          ∃ v h, exec (.saccVerdict op) s = .next v ∧ Fm.get? v.ops t.nextOp = none ∧ Fm.get? v.groups gid = some h ∧
            (∀ n, n ≤ 11 → h.flag n = i.g.flag n) ∧
            RegsAre h ((((regsOf i.g).setV a.toNat i.act fun l => BitVec.ofNat 32 (res l).val).orGs (gsOf i.act res)).orGs
              (if r.sat then gsSasat else 0)))) ∧
      (z = x → o.kind = .verdict (.saevict g a b f) → prelude t g (saImageForm f) = .ok i → r.out = false → r.poison = false →
        ∀ pieces, imagePieces t i (((y : Int) + i.g.hints.offset) % 2 ^ 64).toNat (imageLen r.log) true = .ok pieces →
        ∃ v, exec (.saccVerdict op) s = .next v ∧ (rowOf v key).out = true) ∧
      (z = x → o.kind = .verdict (.safill g a b f) → prelude t g (saImageForm f) = .ok i → r.evicting = false → r.st = 3 →
        ∀ (pieces : List (Nat × Nat × Nat × Bool)) (w : SaRow),
        imagePieces t i (((y : Int) + i.g.hints.offset) % 2 ^ 64).toNat (imageLen r.log) false = .ok pieces →
        fitBanks t (key / 16384) r.segs ≠ [] →
        let secs := imageSecs t pieces
        let q := readAll t (key / 16384) (some t.nextOp) (imageFm secs)
        q.ok = true → (∀ p ∈ secs, poisonAt q.s (key / 16384) (secOf p.phys) = false) →
        (∀ n, rowFromImage t z r (secs.flatMap fun p => peek q.s (key / 16384) p.enc p.phys 128 (.engine i.gid t.nextOp)) n =
          some { w with bank := n }) → w.arrived ≠ w.expect → w.closing = false →
        ∃ v n, exec (.saccVerdict op) s = .next v ∧ n ∈ fitBanks t (key / 16384) r.segs ∧ rowOf v key = { w with bank := n }) ∧
      (z = y → o.kind = .verdict (.sastat g a b f) → prelude t g (saForm f) = .ok i →
        ∃ v, exec (.saccVerdict op) s = .next v ∧
          IssuedAs t v i (i.g.noteTimes 0x40 (dialOf t (key / 16384))) ((regsOf i.g).setS a.toNat (BitVec.ofNat 64
            ((if r.evicting then 3 else r.st) + (if r.sat then 4 else 0) + (if r.inv then 8 else 0) + (if r.poison then 16 else 0) +
              r.log * 2 ^ 6 + (BitVec.ofInt 6 r.e).toNat * 2 ^ 10 + r.expect * 2 ^ 16 + r.arrived * 2 ^ 32 + r.gen * 2 ^ 48)))
            (latch i.g) (onward i)) ∧
      (z = x → o.kind = .verdict (.saclose g a f) → prelude t g (saForm f) = .ok i → r.st ≠ 0 → r.evicting = false →
        (∀ e ∈ t.ops, ∀ sg ty ds, e.2.kind ≠ .saAdd key sg ty ds) →
        ∃ v, exec (.saccVerdict op) s = .next v ∧ rowOf v key = { gen := if r.gen = 4095 then 1 else r.gen + 1 }))

/-- R262, R263, R265, R267: an accepted add changes the elements of its segment and no other, and the sums, exactly; the last add seals the row; a read
that outlasts its row's timeout is removed, and its lanes hold the cause SA_TIMEOUT, deferred. The model's readings in log entry 19 stand in it. -/
def Obligations.SegmentAddsAndTimeouts : Prop :=
  ∀ (s : State) (op : Nat) (o : Op), Fm.get? s.ops op = some o →
    (∀ key seg ty ds, o.kind = .saAdd key seg ty ds → ds.length = 64 →
      let r := rowOf s key
      let d (l : Nat) : Fp := deltaOf ty ((ds[l]?).getD 0)
      let n (l : Nat) : Int := if (d l).isNan then 0 else (deltaInt r.e (d l)).1
      ∃ t, exec (.saaddApply op) s = .next t ∧ Fm.get? t.ops op = none ∧ t.hbm = s.hbm ∧
        (∀ k, k ≠ key → rowOf t k = rowOf s k) ∧
        (r.arrived < r.expect → r.closing = false →
          (∀ l, l < 64 → (rowOf t key).x (64 * seg + l) = r.x (64 * seg + l) + n l) ∧
          (∀ e, (e < 64 * seg ∨ 64 * seg + 64 ≤ e) → (rowOf t key).x e = r.x e) ∧
          (rowOf t key).sx = r.sx + ((List.range 64).map n).sum ∧
          (rowOf t key).sxx = r.sxx + ((List.range 64).map fun l => 2 * r.x (64 * seg + l) * n l + n l * n l).sum ∧
          ((rowOf t key).inv = (r.inv || (List.range 64).any fun l => (d l).isNan)) ∧
          ((rowOf t key).sat = (r.sat || (List.range 64).any fun l => !(d l).isNan && (deltaInt r.e (d l)).2)) ∧
          (rowOf t key).st = r.st) ∧
        (r.arrived = r.expect → r.st = 1 → r.closing = false → pendingAdds s key = 1 →
          (rowOf t key).st = 2 ∧ ∀ l, l < 64 → (rowOf t key).x (64 * seg + l) =
            max (-(2 ^ 63)) (min (2 ^ 63 - 1) (r.x (64 * seg + l) + n l)))) ∧
    (∀ key seg mode ty d act gains w gid g, o.kind = .saNorm key seg mode ty d act gains w → o.group = some gid →
      Fm.get? s.groups gid = some g → o.since + timeoutTicks (rowOf s key).timeout ≤ dialOf s o.die →
      ∃ t h, exec (.saTimeout op) s = .next t ∧ Fm.get? t.ops op = none ∧ t.rows = s.rows ∧ Fm.get? t.groups gid = some h ∧
        RegsAre h (regsOf g) ∧ h.lanes = g.lanes ∧
        h.deferred.map (fun x => (x.lane, x.f.cause.toNat, x.f.addr)) =
          g.deferred.map (fun x => (x.lane, x.f.cause.toNat, x.f.addr)) ++
            ((List.range 64).filter fun l => o.lanes.getLsbD l).map fun l => (l, cSaTimeout, w))

/-- R220, R222, R316 to R320, R322: CPY_T and CPY_HEAD put a copy, or a chain walk, at the end of their channel and of the open batch; CPY_COMMIT closes
the batch; CPY_WAIT closes it and waits until so few are outstanding; CPY_WPTR reads the team's write pointer, and CPY_WPWAIT waits for it. The
model's readings in log entry 27 stand in it. -/
def Obligations.CopyInstructionsQueueAndWait : Prop :=
  ∀ (s : State) (g : BitVec 4) (d x : BitVec 6) (c : BitVec 3) (f : BitVec 4) (i : Iss), i.act ≠ 0 →
    let world := worldOf s i.g
    let chan := chanKey i.g.core c.toNat
    let p := wptrOf s i.g.team chan
    let b := Fm.getD i.g.batches c.toNat {}
    let shape := (readS s i.g (x.toNat + 1)).toNat
    let syn := memSyn 7 (2 ^ nfield shape 0 3) false 0
    (prelude s g (cpyTForm f) = .ok i → flagFull i.g f = false →
      (shapeOf shape = none → Handled i i.lanes (fun _ => atBundle i cIllegal syn) →
        ∃ t, exec (.cpyT g d x c f) s = .next t ∧ Excepted s t i i.g i.lanes fun _ => atBundle i cIllegal syn) ∧
      (∀ sh, shapeOf shape = some sh →
        checkCopy s (some i.g) (i.g.core / 48) world (readS s i.g x.toNat).toNat (readS s i.g d.toNat).toNat sh = .stall →
        ∃ t, exec (.cpyT g d x c f) s = .next t ∧ Stalled s t i.gid) ∧
      (∀ sh cp rd wr, shapeOf shape = some sh →
        checkCopy s (some i.g) (i.g.core / 48) world (readS s i.g x.toNat).toNat (readS s i.g d.toNat).toNat sh = .ok cp rd wr →
        let u := useWalks (useWalks s i.g.core world false rd) i.g.core world true wr
        ∃ t, exec (.cpyT g d x c f) s = .next t ∧ InFlight t u.nextOp i f 0x0C (.copy chan (some cp) none) i.lanes ∧
          t.chans = Fm.put s.chans chan (Fm.getD s.chans chan [] ++ [u.nextOp]) ∧
          IssuedAs { u with ops := t.ops, nextOp := t.nextOp, pmus := t.pmus, chans := t.chans } t i (batched i.g c f u.nextOp) (regsOf i.g)
            (latch i.g) (onward i))) ∧
    (prelude s g (cpyForm (some f)) = .ok i → flagFull i.g f = false →
      (∀ y, (readS s i.g d.toNat).toNat % 64 = 0 →
        (checkVa s (i.g.core / 48) world (readS s i.g d.toNat).toNat 64 .copyRead
          fun z => if nfield z.d 5 3 != 0 then [cKind] else []) = .ok y →
        let u := useWalks s i.g.core world false [(readS s i.g d.toNat).toNat]
        ∃ t, exec (.cpyHead g d c f) s = .next t ∧
          InFlight t u.nextOp i f 0x0C (.copy chan none (some { at_ := (readS s i.g d.toNat).toNat })) i.lanes ∧
          t.chans = Fm.put s.chans chan (Fm.getD s.chans chan [] ++ [u.nextOp]) ∧
          IssuedAs { u with ops := t.ops, nextOp := t.nextOp, pmus := t.pmus, chans := t.chans } t i (batched i.g c f u.nextOp) (regsOf i.g)
            (latch i.g) (onward i)) ∧
      (let y := (readS s i.g d.toNat).toNat;
        ((p + 2 ^ 64 - y) % 2 ^ 64 < 2 ^ 63 →
          ∃ t, exec (.cpyWpwait g d c f) s = .next t ∧ Issued s t i (regsOf i.g) (latch i.g) (onward i)) ∧
        (2 ^ 63 ≤ (p + 2 ^ 64 - y) % 2 ^ 64 →
          ∃ t, exec (.cpyWpwait g d c f) s = .next t ∧ InFlight t s.nextOp i f 0 (.wpwait chan y) ∧
            IssuedAs { s with ops := t.ops, nextOp := t.nextOp, pmus := t.pmus } t i (flagged i.g f s.nextOp) (regsOf i.g) (latch i.g)
              (onward i)))) ∧
    (prelude s g (cpyForm none) = .ok i →
      (b.openOps = [] ∨ b.outs.length < 63 →
        (∃ t, exec (.cpyCommit g c) s = .next t ∧ IssuedAs s t i (committed i.g c) (regsOf i.g) (latch i.g) (onward i)) ∧
        ∃ t, exec (.cpyWait g d c) s = .next t ∧
          IssuedAs s t i
            (if (Fm.getD (committed i.g c).batches c.toNat {}).outs.length ≤ d.toNat then committed i.g c
              else { committed i.g c with hold := .copies c.toNat d.toNat i.e.pc i.lanes }) (regsOf i.g) (latch i.g) (onward i)) ∧
      (b.openOps ≠ [] → 63 ≤ b.outs.length → ∀ o ∈ [(.cpyCommit g c : Instr), .cpyWait g d c], ∃ t, exec o s = .next t ∧ Stalled s t i.gid) ∧
      ∃ t, exec (.cpyWptr g d c) s = .next t ∧ Issued s t i ((regsOf i.g).setS d.toNat (BitVec.ofNat 64 p)) (latch i.g) (onward i))

/-- R222, R249, R251, R319, R322, R325, R331: the copy at the head of a channel takes engine ownership of its destination sector; a unit is read and
written, and its sector released, and the write pointer advances by its bytes; a record that the channel does not own makes the walk wait, and one
that it owns starts its copy. The model's readings in log entry 27 stand in it. -/
def Obligations.CopyEnginesTakeWriteAndWalk : Prop :=
  ∀ (s : State) (chan op : Nat) (o : Op), Fm.get? s.ops op = some o →
    (∀ k c w u p r, chanHead s chan = some (op, o) → o.kind = .copy k (some c) w → (copyUnits c)[c.owned]? = some u →
      c.owned + 1 = (copyUnits c).length → (∀ q, Fm.get? s.cmds op = some q → started s q.1 q.2 = true) → cutOff s op o c = false → unitLoc c u = .mem p →
      let first := elemAt c.sh u.1
      ownStep s o.die (secOf p) (some op) (((c.dst.spot (elemOff c.sh c.sh.dm first.1 first.2)).map fun x => x.2.2).getD false) = r → r.ok = true →
      ∃ t, exec (.copyExecution chan) s = .next t ∧
        Fm.get? t.ops op = some { o with kind := .copy chan (some { c with owned := c.owned + 1 }) w } ∧
        (copyOf t o.die (secOf p)).map (fun y => y.engine) = (copyOf r.s o.die (secOf p)).map fun _ => some op) ∧
    (∀ k c w u r, o.kind = .copy k (some c) w → c.done < c.owned → (copyUnits c)[c.done]? = some u → c.done + 1 < (copyUnits c).length →
      cutOff s op o c = false → readElems s o op c u = r → r.ok = true →
      let len := u.2 * c.sh.e
      let wptr := o.chan.getD k
      let off (n : Nat) : Nat := elemOff c.sh c.sh.dm (elemAt c.sh (u.1 + n / c.sh.e)).1 (elemAt c.sh (u.1 + n / c.sh.e)).2 + n % c.sh.e
      let at_ (n : Nat) : Loc := c.dst.loc (off n)
      let advanced (t : State) : Prop := ∀ tm, Fm.get? r.s.teams o.team = some tm → wptrOf t o.team wptr = (Fm.getD tm.wptrs wptr 0 + len) % 2 ^ 64
      (Mem.wf r.s.coreScr = true → Mem.wf r.s.dieScr = true →
        (∀ m n, m < len → n < len → scratchAddr (at_ m) = scratchAddr (at_ n) → m = n) → (∀ p, unitLoc c u ≠ .mem p) →
        ∃ t, exec (.engineSectorRelease op c.done) s = .next t ∧ advanced t ∧
          ∀ n b, n < len → r.bs[n]? = some b →
            ∀ core a, scratchAddr (at_ n) = some (core, a) → Mem.read (if core then t.coreScr else t.dieScr) a = if b.2 then 0 else b.1) ∧
      (∀ p y, unitLoc c u = .mem p → p % 128 + len ≤ 128 → (∀ n, n < len → at_ n = .mem (p + n)) → o.die < 8 →
        copyOf r.s o.die (secOf p) = some y → y.st = .m → y.engine = some op → blocked r.s (secOf p) (some op) = false →
        hostShared r.s (secOf p) = false → Plain y (c.dst.enc r.s (off 0)) →
        ∃ t z, exec (.engineSectorRelease op c.done) s = .next t ∧ advanced t ∧ SectorOnly r.s t o.die (secOf p) ∧
          copyOf t o.die (secOf p) = some z ∧ z.engine = none ∧
          ∀ n, n < 128 → seenByte ((z.data[n]?).getD 0) z.pend o.die (dialOf r.s o.die) .newest n =
            if p % 128 ≤ n ∧ n < p % 128 + len then ((r.bs[n - p % 128]?).map fun b => b.1).getD 0 else (y.data[n]?).getD 0)) ∧
    (∀ k w y q, chanHead s chan = some (op, o) → o.kind = .copy k none (some w) → w.fill = none → w.wait = false → w.record = none → walkGoes s o chan = true →
      (checkVa s o.die o.world w.at_ 64 .copyRead fun z => if nfield z.d 5 3 != 0 then [cKind] else []) = .ok y →
      let sec := secOf y.phys
      readReq s o.die sec none (nfield y.leaf.pte 26 1 == 1) = q → q.ok = true → poisonAt q.s o.die sec = false →
      let r := readRecord q.s o op y
      let o' : Op := { o with time := max o.time (dialOf s o.die) }
      let s1 := useXl (if (copyOf s o.die sec).isNone || o.die == homeDie sec then countRead q.s sec else q.s) o.core o.world w.at_ false y
      (r.ctl % 2 = 0 → ∃ t, exec (.chainRecord chan) s = .next t ∧
        Fm.get? t.ops op = some { o' with kind := .copy chan none (some { w with wait := true }) }) ∧
      (r.ctl % 4 = 1 → r.next % 64 = 0 → ∀ sh c vr vw, shapeOf r.shape = some sh →
        (sh.ss = 1 ∨ sh.ss = 2 ∨ sh.ds = 1 ∨ sh.ds = 2 → (Fm.get? s.teams o.team).map (fun tm => tm.phase) = some .running) →
        checkCopy s1 (o.group.bind fun gid => Fm.get? s1.groups gid) o.die o.world r.src r.dst sh = .ok c vr vw →
        ∃ t, exec (.chainRecord chan) s = .next t ∧
          Fm.get? t.ops op = some { o' with kind := .copy chan (some c) (some { w with record := some r, push := none, asks := none }) })) ∧
    (∀ k w bs, chanHead s chan = some (op, o) → o.kind = .copy k none (some w) → w.wait = true → vaMarked s o.die o.world w.at_ 64 = false →
      readVa s o.die o.world (w.at_ + 8) 8 .copyRead = .ok bs → leNat bs % 2 = 1 →
      ∃ t, exec (.chainRecordWake chan) s = .next t ∧
        Fm.get? t.ops op = some { o with kind := .copy chan none (some { w with wait := false }) }) ∧
    (∀ r j epoch, o.kind = .slotFill r j epoch → o.time + 2 < dialOf s o.die → ringMarked s r 0 512 = false →
      let h := readHdr s r
      (h.epoch ≠ epoch → exec (.pushSlotFill op) s = .next (completeOp s op)) ∧
      (h.epoch = epoch → cfgOk h.cfg = true → j < h.slots → ∀ w,
        writeHdr s r (advanceFil h.slots { h with fills := bitSet h.fills j true }) = w → w.ok = true → ringWaiters w.s r = [] →
        exec (.pushSlotFill op) s = .next (completeOp (noteTime w.s op w.stamp) op)))

/-- R326 to R330, R332: RINIT sets a ring's header and empties it; RAWAIT claims the next filled slot, and completes once its bytes can be read, or waits; RREL
releases a claimed slot; RPUSH writes the next slot and fills it, or waits for room; RQRY returns the counts; a ring that is not valid answers all
ones; one whose page is in transit is not accepted. The model's readings in log entry 26 stand in it. -/
def Obligations.RingInstructions : Prop :=
  ∀ (s : State) (g : BitVec 4) (a x : BitVec 6) (f : BitVec 4) (i : Iss) (loc : RingLoc) (limit unit : Nat) (split : Bool),
    prelude s g { f := some f } = .ok i → i.act ≠ 0 → flagFull i.g f = false →
    let va := (readS s i.g a.toNat).toNat
    let v := readS s i.g x.toNat
    let dial (u : State) : Nat := dialOf u (ringDie loc)
    let who : RingWho := { die := i.g.core / 48, group := i.gid, op := s.nextOp }
    let after (w t : State) (cls : BitVec 7) (time : Nat) (r : Regs) : Prop :=
      IssuedAs (Safety.ringDone w s.nextOp) t i (i.g.noteTimes cls time) r (latch i.g) (onward i)
    (ringAt s i.g va (some v.toNat) = .at_ loc limit unit split → cfgOk v.toNat = true → split = false →
      let u := ringWalked s i va (512 + nfield v.toNat 0 11 * (nfield v.toNat 16 13 * 8)) loc
      let h := readHdr u loc
      extentOk loc v.toNat limit = true → ringMarked u loc 0 512 = false → ∀ w,
        writeHdr u loc { h with cfg := v.toNat, res := 0, fil := 0, clm := 0, rel := 0, epoch := (h.epoch + 1) % 2 ^ 64, fills := 0, rels := 0 } who = w →
        w.ok = true → ringWaiters w.s loc = [] →
        ∃ t, exec (.rinit g a x f) s = .next t ∧ after w.s t 3 (max (dial u) w.stamp) (regsOf i.g)) ∧
    (ringAt s i.g va (some v.toNat) = .stall → ∃ t, exec (.rinit g a x f) s = .next t ∧ Stalled s t i.gid) ∧
    (ringAt s i.g va none = .stall → ∀ o ∈ [(.rawait g a x f : Instr), .rrel g a x f, .rpush g a x f, .rqry g a x f],
      ∃ t, exec o s = .next t ∧ Stalled s t i.gid) ∧
    (ringAt s i.g va none = .at_ loc limit unit split →
      let u := ringWalked s i va 512 loc
      ringMarked u loc 0 512 = false → ringServe u loc = (u, true) →
      let h := readHdr u loc
      let n := h.slots
      let valid := cfgOk h.cfg && extentOk loc h.cfg limit
      (valid = false → ringWaiters u loc = [] →
        (∀ o ∈ ([(.rawait g a x f, 3, true), (.rrel g a x f, 3, false), (.rpush g a x f, 3, false), (.rqry g a x f, 1, true)] :
            List (Instr × BitVec 7 × Bool)),
          ∃ t, exec o.1 s = .next t ∧
            after u t o.2.1 (dial u) (if o.2.2 then (regsOf i.g).setS x.toNat (BitVec.allOnes 64) else regsOf i.g))) ∧
      (valid = true →
        let claim := BitVec.ofNat 64 (h.clm % 2 ^ 53 * 2 ^ 11 + h.clm % n)
        (ringWaiters u loc = [] → ∃ t, exec (.rqry g a x f) s = .next t ∧
          after u t 1 (dial u) ((regsOf i.g).setS x.toNat (BitVec.ofNat 64 (h.fil % 2 ^ 31 * 2 ^ 33 + ctrSub h.res h.fil % 2 ^ 11 * 2 ^ 22 +
            ctrSub h.clm h.rel % 2 ^ 11 * 2 ^ 11 + ctrSub h.fil h.clm % 2 ^ 11)))) ∧
        (h.fil ≠ h.clm → ∀ w, writeHdr u loc { h with clm := (h.clm + 1) % 2 ^ 64 } who = w → w.ok = true →
          (slotShown w.s loc (h.clm % n) h.size (i.g.core / 48) = true → ringWaiters w.s loc = [] →
            ∃ t, exec (.rawait g a x f) s = .next t ∧ after w.s t 3 (max (dial u) w.stamp) ((regsOf i.g).setS x.toNat claim)) ∧
          (slotShown w.s loc (h.clm % n) h.size (i.g.core / 48) = false → ∃ t, exec (.rawait g a x f) s = .next t ∧
            InFlight t w.s.nextOp i f 3 (.claimed loc (h.clm % n) h.size x.toNat claim) ∧
            IssuedAs { w.s with ops := t.ops, nextOp := t.nextOp, pmus := t.pmus } t i (flagged i.g f w.s.nextOp) (regsOf i.g) (latch i.g)
              (onward i))) ∧
        (h.fil = h.clm → unitWaiters u unit < 256 → ∃ t, exec (.rawait g a x f) s = .next t ∧
          InFlight t u.nextOp i f 3 (.ring 1 loc limit (readS s i.g 0) x.toNat unit) ∧
          IssuedAs { u with ops := t.ops, nextOp := t.nextOp, pmus := t.pmus } t i (flagged i.g f u.nextOp) (regsOf i.g) (latch i.g) (onward i)) ∧
        (let j := v.toNat % 2048;
          j < n → (j + n - h.rel % n) % n < ctrSub h.clm h.rel → bitAt h.rels j = false → ∀ w,
            writeHdr u loc (advanceRel n { h with rels := bitSet h.rels j true }) who = w → w.ok = true → ringWaiters w.s loc = [] →
            ∃ t, exec (.rrel g a x f) s = .next t ∧ after w.s t 3 (max (dial u) w.stamp) (regsOf i.g)) ∧
        (ctrSub h.res h.rel < n → ∀ z w, ringWrite u loc (512 + h.res % n * h.size) (leBytes 8 v.toNat) who = z → z.ok = true →
          writeHdr z.s loc (advanceFil n { h with res := (h.res + 1) % 2 ^ 64, fills := bitSet h.fills (h.res % n) true }) who = w → w.ok = true →
          ringWaiters w.s loc = [] →
          ∃ t, exec (.rpush g a x f) s = .next t ∧ after w.s t 3 (max (max (dial u) z.stamp) w.stamp) (regsOf i.g)) ∧
        (n ≤ ctrSub h.res h.rel → unitWaiters u unit < 256 → ∃ t, exec (.rpush g a x f) s = .next t ∧
          InFlight t u.nextOp i f 3 (.ring 3 loc limit v 0 unit) ∧
          IssuedAs { u with ops := t.ops, nextOp := t.nextOp, pmus := t.pmus } t i (flagged i.g f u.nextOp) (regsOf i.g) (latch i.g)
            (onward i)) ∧
        (unitWaiters u unit ≥ 256 → (h.fil = h.clm → ∃ t, exec (.rawait g a x f) s = .next t ∧ Stalled u t i.gid) ∧
          (n ≤ ctrSub h.res h.rel → ∃ t, exec (.rpush g a x f) s = .next t ∧ Stalled u t i.gid))))

/-- R147 to R150, R153 to R160: an MTX instruction, or CSIGN, signs its convergence register for the group, which moves on; a round whose set has signed
issues the recorded operation with a deposit to the queue of its unit, and the register is empty again; a group that has signed waits to sign again;
CVDECL declares the set of a register that holds no signature, and waits while there is one. The model's readings in log entry 23 stand in it. -/
def Obligations.SignaturesGatherIntoRounds : Prop :=
  ∀ (s : State) (g : BitVec 4) (x : BitVec 1) (m : BitVec 2) (k : BitVec 4) (o p : BitVec 6) (c : BitVec 3) (f : BitVec 4) (i : Iss) (tm : Team),
    Fm.get? s.teams i.g.team = some tm → i.act ≠ 0 → i.g.landed = false → c.toNat < tm.d.cvs →
    let cv := Fm.getD tm.cvs c.toNat {}
    let bit : BitVec 128 := BitVec.ofNat 128 (2 ^ i.g.index)
    let base (t : State) (v : Cv) : State :=
      { s.modTeam i.g.team (fun y => { y with cvs := Fm.put y.cvs c.toNat v }) with ops := t.ops, nextOp := t.nextOp, pmus := t.pmus, arrays := t.arrays }
    let waits : Prop := ∃ n, n < 128 ∧ n ≠ i.g.index ∧ cv.declared.getLsbD n = true ∧ cv.signed.getLsbD n = false ∧
      ∀ e ∈ s.groups, e.2.team = i.g.team → e.2.index = n → e.2.ended = false
    (∀ q ∈ mtxCases s i x m k o p c, prelude s g (mtxForm q.types f) = .ok i → flagFull i.g f = false → q.checks tm.d = [] →
      let word := i.g.word &&& q.mask
      cv.declared.getLsbD i.g.index = true →
      (cv.signed.getLsbD i.g.index = true → ∃ t, exec (q.instr g f) s = .next t ∧ Stalled s t i.gid) ∧
      (cv.signed.getLsbD i.g.index = false → (cv.record = none ∨ cv.record = some (word, i.g.hints.md)) →
      let signed : Cv := { cv with signed := cv.signed ||| bit, record := some (word, i.g.hints.md), sigs := Fm.put cv.sigs i.g.index (s.nextOp, q.a, q.b) }
      (waits → ∃ t, exec (q.instr g f) s = .next t ∧ InFlight t s.nextOp i f q.cls (.sign c.toNat) ∧ t.arrays = s.arrays ∧
        IssuedAs (base t signed) t i (flagged i.g f s.nextOp) (regsOf i.g) (latch i.g) (onward i)) ∧
      (Sys2Proof.decode word = .ok (q.instr 0 0) → cv.declared = bit → cv.signed = 0 → cv.sigs = [] → homeCore tm i.g.index = i.g.core →
        ((s.groups.filter fun e => e.2.team == i.g.team && e.2.index == i.g.index).map fun e => e.1) = [i.gid] →
        ∃ t, exec (q.instr g f) s = .next t ∧ InFlight t s.nextOp i f q.cls (.sign c.toNat) ∧
          (∃ n op, Fm.get? t.ops n = some op ∧ op.team = i.g.team ∧
            op.kind = .mtx { fn := q.fn, ty := mtxTy i.g.hints.arith.ty, sparse := q.sparse, core := i.g.core, unit := q.unit, tile := q.tile,
                             a := q.a, b := q.b, sigs := [s.nextOp], groups := [i.gid] } ∧
            t.arrays = (s.putArr i.g.core q.unit { arrOf s i.g.core q.unit with queue := (arrOf s i.g.core q.unit).queue ++ [n] }).arrays) ∧
          IssuedAs (base t { declared := cv.declared }) t i (flagged i.g f s.nextOp) (regsOf i.g) (latch i.g) (onward i)))) ∧
    (prelude s g { pipe := none, member := false } = .ok i →
      (cv.declared.getLsbD i.g.index = true → cv.signed.getLsbD i.g.index = false → waits →
        ∃ t, exec (.csign g c) s = .next t ∧
          IssuedAs (s.modTeam i.g.team fun y => { y with cvs := Fm.put y.cvs c.toNat { cv with signed := cv.signed ||| bit } }) t i i.g
            (regsOf i.g) (latch i.g) (onward i)) ∧
      (let set : BitVec 128 := readS s i.g (o.toNat + 1) ++ readS s i.g o.toNat;
        (cv.signed ≠ 0 → ∃ t, exec (.cvdecl g o c) s = .next t ∧ Stalled s t i.gid) ∧
        (cv.signed = 0 → declOk s i.g.team set tm.d.groups = true →
          ∃ t, exec (.cvdecl g o c) s = .next t ∧
            IssuedAs (s.modTeam i.g.team fun y => { y with cvs := Fm.put y.cvs c.toNat { declared := set } }) t i i.g (regsOf i.g) (latch i.g)
              (onward i))))

/-- R145, R150, R151, R154 to R159: the operation at the head of a unit's queue takes effect on the unit's planes and tiles or on the team's grant, and
on nothing else: a load, a swap, products added to the rows of a tile, a compression, tile transfers. One that has run completes: its signer's flag
falls, and GS.INV reaches the group that signed if the operation set it. The model's readings in log entry 23 stand in it. -/
def Obligations.MatrixOperationsRunAndComplete : Prop :=
  (∀ (s : State) (core unit id : Nat) (rest : List Nat) (o : Op) (m : MtxOp),
    let a := arrOf s core unit
    a.queue = id :: rest → Fm.get? s.ops id = some o → o.kind = .mtx m → m.ran = false → m.core = core → m.unit = unit →
    Mem.wf a.tiles = true → Mem.wf s.coreScr = true →
    let rd (n : Nat) : Byte := grantByte s o.team core n
    let len := (((Fm.get? s.teams o.team).bind fun t => Fm.get? t.places core).map fun p => p.scrLen).getD 0
    ∃ t inv, exec (.arrayOperation core unit) s = .next t ∧
      Fm.get? t.ops id = some { o with kind := .mtx { m with ran := true, inv := inv } } ∧ t.hbm = s.hbm ∧ t.groups = s.groups ∧
      (∀ k, k ≠ core * 8 + unit → Fm.get? t.arrays k = Fm.get? s.arrays k) ∧
      let b := arrOf t core unit
      (m.fn = 0 → t.coreScr = s.coreScr ∧ inv = false ∧ b.act = a.act ∧ b.tiles = a.tiles ∧ b.shd.ty = m.ty ∧ b.shd.sparse = m.sparse ∧
        ∀ j, j < 8192 + planeExtra m.ty m.sparse → Mem.read b.shd.data j = rd (m.a.toNat + j)) ∧
      (m.fn = 1 → t.coreScr = s.coreScr ∧ inv = false ∧ b = { a with act := a.shd, shd := a.act }) ∧
      (m.fn = 2 →
        let c := nfield m.b.toNat 0 7
        let row0 := nfield m.b.toNat 16 6
        row0 + c ≤ 64 → m.tile < 16 →
        t.coreScr = s.coreScr ∧ b.act = a.act ∧ b.shd = a.shd ∧
          (∀ z r n, z < 16 → r < 64 → n < 64 → (z ≠ m.tile ∨ r < row0 ∨ row0 + c ≤ r) → tileWord b.tiles z r n = tileWord a.tiles z r n) ∧
          (mtxCompatible a.act.ty m.ty = false → (∀ r n, r < c → n < 64 → tileWord b.tiles m.tile (row0 + r) n = f32.canon) ∧ (c ≠ 0 → inv = true)) ∧
          (mtxCompatible a.act.ty m.ty = true → ∀ r n, r < c → n < 64 →
            let dot := mtxDot (mtxFmt a.act.ty) (mtxFmt m.ty) (mtxTerms a.act m.ty
              (fun j => rd (m.a.toNat + (if a.act.sparse then 256 else 128) * r + j))
              (fun q => (rd (m.a.toNat + 128 * c + 8 * r + q)).toNat) n)
            tileWord b.tiles m.tile (row0 + r) n = (f32.add 0 (tileWord a.tiles m.tile (row0 + r) n) dot.val).val % 2 ^ 32)) ∧
      (m.fn = 3 → b = a ∧ inv = false ∧ ∀ j y, (compImage m.ty fun q => rd (m.b.toNat + q))[j]? = some y → m.a.toNat + j < len →
        grantByte t o.team core (m.a.toNat + j) = y) ∧
      (m.fn = 4 → b = a ∧ inv = false ∧ ∀ j, j < 16384 → m.a.toNat + j < len →
        grantByte t o.team core (m.a.toNat + j) = Mem.read a.tiles (m.tile * 16384 + j)) ∧
      (m.fn = 5 → t.coreScr = s.coreScr ∧ inv = false ∧ b.act = a.act ∧ b.shd = a.shd ∧
        ∀ y, Mem.read b.tiles y = if m.tile * 16384 ≤ y ∧ y < m.tile * 16384 + 16384 then 0 else Mem.read a.tiles y) ∧
      (m.fn = 6 → t.coreScr = s.coreScr ∧ inv = false ∧ b.act = a.act ∧ b.shd = a.shd ∧
        ∀ y, Mem.read b.tiles y = if m.tile * 16384 ≤ y ∧ y < m.tile * 16384 + 16384 then rd (m.a.toNat + (y - m.tile * 16384)) else Mem.read a.tiles y)) ∧
  ∀ (s : State) (id sid gid f : Nat) (o so : Op) (m : MtxOp) (g : Group),
    Fm.get? s.ops id = some o → o.kind = .mtx m → o.group = none → m.ran = true → m.sigs = [sid] → m.groups = [gid] → sid ≠ id →
    Fm.get? s.ops sid = some so → so.group = some gid → so.flag = some f → Fm.get? s.groups gid = some g →
    ∃ t, exec (.matrixOperationCompletion id) s = .next t ∧ Fm.get? t.ops id = none ∧
      Completed s t sid gid f ((regsOf g).orGs (if m.inv then gsBits false true else 0)) ∧
      (arrOf t m.core m.unit).queue = (arrOf s m.core m.unit).queue.filter fun q => q ≠ id

/-- R40, R282 to R285, R291, R294, R295: a PLACE whose lanes pass their checks is one operation in flight; PLSYNC waits for the counts that it selects,
and for none with a length of 0, and completes when they are reached; PLQRY writes the word of an address; MIGR goes on at once to its own die, and
else leaves for the free landing slot, with its registers and without its latches, or waits for one; a group on its way lands. The model's readings in
log entries 24 and 25 stand in it. -/
def Obligations.PlaceInstructions : Prop :=
  (∀ (s : State) (g : BitVec 4) (i : Iss), i.act ≠ 0 →
    let world := worldOf s i.g
    let core := i.g.core
    (∀ (d a b : BitVec 5) (n : BitVec 3) (f : BitVec 4) (x : Nat → PLane) (rd wr : Nat → List Nat),
      let h := hintsNow s
      let p := placeOpOf s i h n
      prelude s g (Safety.placeForm h d a b f) = .ok i → flagFull i.g f = false →
      (∀ l ∈ activeLanes i, placeLane s core world p l [placeAddr s i d l, placeAddr s i a l, placeAddr s i b l] = .ok (x l) (rd l) (wr l) ∧
        (x l).held = false) →
      let u := useWalks (useWalks s core world false ((activeLanes i).flatMap rd)) core world true ((activeLanes i).flatMap wr)
      let q : PlaceOp := { p with lanes := (activeLanes i).map x }
      ∃ t, exec (.place g d a b n f) s = .next t ∧ InFlight t u.nextOp i f 0x40 (.place q) ∧
        IssuedAs { countIssues u world q.keys with ops := t.ops, nextOp := t.nextOp, pmus := t.pmus } t i (flagged i.g f u.nextOp) (regsOf i.g)
          (latch i.g) (onward i)) ∧
    (∀ (x l : BitVec 6) (f : BitVec 4), prelude s g { f := some f, member := false } = .ok i → flagFull i.g f = false →
      (readS s i.g l.toNat = 0 → ∃ t, exec (.plsync g x l f) s = .next t ∧ Issued s t i (regsOf i.g) (latch i.g) (onward i)) ∧
      (readS s i.g l.toNat ≠ 0 → ∃ t, exec (.plsync g x l f) s = .next t ∧
        InFlight t s.nextOp i f 0x40 (.plsync (syncTargets s world (readS s i.g x.toNat).toNat (readS s i.g l.toNat).toNat)) ∧
        IssuedAs { s with ops := t.ops, nextOp := t.nextOp, pmus := t.pmus } t i (flagged i.g f s.nextOp) (regsOf i.g) (latch i.g) (onward i))) ∧
    (∀ (d a : BitVec 6) (f : BitVec 4), prelude s g { f := some f, member := false } = .ok i → flagFull i.g f = false →
      let va := (readS s i.g a.toNat).toNat
      ∃ t u, exec (.plqry g d a f) s = .next t ∧
        (∀ x, xlate s (core / 48) world va = .ok x → u = noteWalk s core world va x) ∧
        (∀ e, xlate s (core / 48) world va = .error e → u = s) ∧
        Issued u t i ((regsOf i.g).setS d.toNat (BitVec.ofNat 64 (plqryWord u core world va))) (latch i.g) (onward i)) ∧
    (∀ (d : BitVec 3), prelude s g { chain := false, member := false } = .ok i →
      (¬ MayMigrate s i → ∃ t, exec (.migr g d) s = .next t ∧ Stalled s t i.gid) ∧
      (MayMigrate s i → core / 48 = d.toNat → ∃ t, exec (.migr g d) s = .next t ∧ Issued s t i (regsOf i.g) (latch i.g) (onward i)) ∧
      (MayMigrate s i → core / 48 ≠ d.toNat → ∀ c sl, landingSlot s d.toNat = some (c, sl) →
        ∃ t, exec (.migr g d) s = .next t ∧
          Settled { (if i.g.landed then s else s.modTeam i.g.team fun y =>
              { y with places := Fm.mod y.places core fun q => { q with regs := q.regs - i.g.budget * 256 } }) with
                ccache := s.ccache.filter fun y => y.core != c }
            t i { i.g with core := c, slot := sl, away := true } (regsOf i.g) (onward i) fun h => h.b = []) ∧
      (MayMigrate s i → core / 48 ≠ d.toNat → landingSlot s d.toNat = none → ∃ t, exec (.migr g d) s = .next t ∧ Stalled s t i.gid))) ∧
  (∀ (s : State) (op gid f : Nat) (o : Op) (g : Group) (ts : Fm Nat), Fm.get? s.ops op = some o → o.group = some gid → o.flag = some f →
    Fm.get? s.groups gid = some g → o.kind = .plsync ts → (∀ e ∈ ts, (Fm.getD s.dones e.1 0 + 2 ^ 32 - e.2) % 2 ^ 32 < 2 ^ 31) →
    ∃ t, exec (.plsyncCompletion op) s = .next t ∧ Completed s t op gid f (regsOf g)) ∧
  ∀ (s : State) (gid : Nat) (g : Group), Fm.get? s.groups gid = some g → g.away = true →
    ∃ t, exec (.migrLanding gid) s = .next t ∧ Fm.get? t.groups gid = some { g with away := false } ∧
      t = { s with groups := t.groups } ∧ ∀ k, k ≠ gid → Fm.get? t.groups k = Fm.get? s.groups k

/-- R215 to R217, R248, R279, R285, R287, R290, R292, R367, R393: a part whose sectors its executor holds runs there: what its elements give is the newest in its
destination, its counters advance, and the PLACE completes; a part of a peer goes to it with the time. A held access or lane is accepted again when
its page's move is over. What a peer performs completes, and what it refuses, or does not answer in 80 µs, leaves EXECUTOR_INVALID, deferred. An
atomic that a peer sends is applied once, at the home of its sector, and answered. The model's readings in log entries 1 and 24 stand in it. -/
def Obligations.PlacedPartsRunAndAnswer : Prop :=
  (∀ (s : State) (op gid f : Nat) (o : Op) (g : Group),
    Fm.get? s.ops op = some o → o.group = some gid → o.flag = some f → Fm.get? s.groups gid = some g →
    (∀ p l q, o.kind = .place p → p.lanes = [l] → l.parts = [q] → l.held = false → q.sent = none →
      let reads := ((placeOperands p.fn).filter fun x => x.2.1).map fun x => x.1
      let here (die : Nat) (secs : Fm Bool) : Prop := ∀ x ∈ secs, ∃ y, copyOf s die x.1 = some y ∧ y.engine = none
      (q.peer = none → q.die < 8 →
        let dst := partSecs l q [0]
        let src := partSecs l q (reads.filter fun k => k != 0)
        let e := runElems p q.start q.n (fun j => l.phys 0 j) (placeByte s l q.die (.engine gid op))
        here q.die src → (∀ x ∈ dst, ∃ y, Owned s q.die x.1 y) →
        (∀ b c, Fm.get? e.out b = some c → ∀ y, copyOf s q.die (secOf b) = some y → Plain y (l.seal s b)) → e.stop = none →
        ∃ t, exec (.placePart op) s = .next t ∧ t.hbm = s.hbm ∧
          (∀ b c, Fm.get? e.out b = some c → ∃ z, copyOf t q.die (secOf b) = some z ∧ z.engine = none ∧
            seenByte ((z.data[b % 128]?).getD 0) z.pend q.die (dialOf s q.die) .newest (b % 128) = c) ∧
          (∀ d z, d < 8 → (∀ x ∈ dst ++ src, x.1 ≠ z) → (copyOf t d z).map held = (copyOf s d z).map held) ∧
          (∀ k, q.keys = [k] → Fm.getD t.dones k 0 = (Fm.getD s.dones k 0 + 1) % 2 ^ 32) ∧
          Completed s t op gid f ((regsOf g).orGs (p.gs ||| e.gs))) ∧
      (∀ n, q.peer = some n → o.die < 8 → peerFirst s op o.world n (pageOf ((l.vas[0]?).getD 0 + q.start)) = true →
        let sent := reads.filter fun k => q.remote.contains k
        let e := runElems p q.start q.n (fun _ => 2 ^ 64) fun out k j =>
          if q.remote.contains k then placeByte s l o.die (.engine gid op) out k j else (0, false)
        here o.die (partSecs l q sent) → e.stop = none →
        ∃ t, exec (.placePart op) s = .next t ∧
          Fm.get? t.ops op = some { o with kind := .place { p with lanes := [{ l with parts := [{ q with
            sent := some (dialOf s o.die), port := peerPort s o.world n ((l.vas[0]?).getD 0 + q.start),
            gs := if sent = reads then some e.gs else none }] }] } })) ∧
    (let again := s.modGroup gid fun y => { y with held := y.held - 1 };
      (∀ e ∈ s.ops, e.1 < op → e.2.core = o.core → e.2.world = o.world → e.2.heldPages = []) →
      (∀ x ∈ o.lanePages, inTransit s o.core o.world (x * 65536) = false) →
      (∀ m a b, o.kind = .mem m → m.accs = [a] → a.held = true → b.lane = a.lane → b.held = false → b.got = none →
        checkLane again o.core o.world m.k m.size m.size a.lane a.va a.data = .ok b →
        ∃ t o' h, exec (.placeQueueRelease op) s = .next t ∧ Fm.get? t.ops op = some o' ∧ o'.kind = .mem { m with accs := [b] } ∧
          Fm.get? t.groups gid = some h ∧ h.held = g.held - 1 ∧ h.flags = g.flags ∧ RegsAre h (regsOf g)) ∧
      (∀ p l x rd wr, o.kind = .place p → p.lanes = [l] → l.held = true → x.held = false → x.parts ≠ [] →
        placeLane again o.core o.world p l.lane l.vas = .ok x rd wr →
        ∃ t o' h, exec (.placeQueueRelease op) s = .next t ∧ Fm.get? t.ops op = some o' ∧ o'.kind = .place { p with lanes := [x] } ∧
          Fm.get? t.groups gid = some h ∧ h.held = g.held - 1 ∧ h.flags = g.flags ∧ RegsAre h (regsOf g))) ∧
    (∀ p l q sent, o.kind = .place p → p.lanes = [l] → l.parts = [q] → l.held = false → q.sent = some sent →
      (q.port.isSome = true → ∃ t b, exec (.peerAcknowledgement op) s = .next t ∧ Completed s t op gid f ((regsOf g).orGs (p.gs ||| b)) ∧
        (∀ c, q.gs = some c → b = c) ∧ (q.gs = none → placeFmt p.ty = none ∨ p.fn = 0 → b = 0)) ∧
      ∀ x ∈ ([(.peerRefusal op, q.port.isSome = true), (.peerAbandon op, sent + 80000 ≤ dialOf s o.die)] : List (Instr × Prop)), x.2 →
        ∃ t h, exec x.1 s = .next t ∧ Completed s t op gid f ((regsOf g).orGs p.gs) ∧ Fm.get? t.groups gid = some h ∧
          deferredOf h = deferredOf g ++ [(l.lane, cExecutor)]) ∧
    (∀ m a sent, o.kind = .mem m → m.k = .atom → m.accs = [a] → a.sent = some sent → a.got = none → a.held = false → a.bad = false → a.lane < 64 →
      let out (v : Nat) (b : DWord) : Regs := ((regsOf g).loads m.d a.lane (loadWords m.k m.w (leBytes m.size v))).orGs (m.gs ||| b)
      let old := Config.peerOld s.freeCtr a.lane % 2 ^ (8 * m.size)
      (a.port.isSome = true → ∃ t, exec (.peerAcknowledgement op) s = .next t ∧
        Completed s t op gid f (out old (atomEval m.w old (leNat a.data)).gs)) ∧
      ∀ x ∈ ([(.peerRefusal op, a.port.isSome = true), (.peerAbandon op, sent + 80000 ≤ dialOf s o.die)] : List (Instr × Prop)), x.2 →
        ∃ t h v, exec x.1 s = .next t ∧ Completed s t op gid f (out v 0) ∧ Fm.get? t.groups gid = some h ∧
          deferredOf h = deferredOf g ++ [(a.lane, cExecutor)])) ∧
  ∀ (s : State) (gen : BitVec 8) (port world addr : Nat) (w : BitVec 4) (ds : List Byte) (x : Xl) (y : L2Sec), addr % atomSize w.toNat = 0 → w.toNat ≠ 15 →
    (checkVa s 0 world addr (atomSize w.toNat) .atom fun y => if y.cls == 4 || y.cls == 5 then [cExecutor] else []) = .ok x → x.transit = false →
    let n := atomSize w.toNat
    let sec := secOf x.phys
    let home := homeDie sec
    secOf x.leaf.at_ ≠ sec → x.phys % 128 + n ≤ 128 → Owned s home sec y → Plain y (encOf s x.d x.o) → y.poison = false →
    let old := leNat ((List.range n).map fun j => (y.data[x.phys % 128 + j]?).getD 0)
    let r := atomEval w.toNat old (leNat ds)
    port < 8 → opens s world gen = true →
    ∃ t z v, exec (.peerOperationArrival { gen := gen, udp := s.udpPort, port := port, op := .atom world addr w ds }) s = .next t ∧ copyOf t home sec = some z ∧ dialOf s home ≤ v ∧
      t.reply = some (leBytes 8 (v + 2) ++ leBytes n old ++ leBytes 8 r.gs.toNat) ∧ t.groups = s.groups ∧ t.ops = s.ops ∧
      ∀ k, k < 128 → seenByte ((z.data[k]?).getD 0) z.pend home (dialOf s home) .newest k =
        if x.phys % 128 ≤ k ∧ k < x.phys % 128 + n then BitVec.ofNat 8 (r.val / 2 ^ (8 * (k - x.phys % 128))) else (y.data[k]?).getD 0

/-- R12, R189 to R191, R226, R230, R243 to R246: a read brings a copy, in E from memory when no die holds one and in S from an owner in M, which keeps
it in O; an Own makes the sole holder's copy M, and else sends invalidations; a die that is invalidated gives up its copy and acknowledges with its
stamp; the last acknowledgement ends the Own, in the writer's L2 or in the write-combining buffer; an evicted dirty copy reaches memory; an evicted clean one only leaves. The model's readings in log
entry 46 stand in it. -/
def Obligations.DirectoryMovesCopies : Prop :=
  ∀ (s : State) (die sec : Nat), die < 8 →
    let line := lineOf sec
    let served : Prop := (die = homeDie sec ∨ (Fm.get? s.snoop line).isSome = true) ∧ turns s sec = []
    (copyOf s die sec = none → blocked s sec none = false → served → (setLines s die (l2Set die line)).length < 16 →
      (∀ n, Fm.get? s.rcounts sec = some n → 1 < n) →
      (copies s sec = [] → Fm.get? s.wcb sec = none →
        ∃ t x, exec (.readRequest die sec) s = .next t ∧ copyOf t die sec = some x ∧ x.st = .e ∧ x.data = memData s sec ∧
          x.pend = Fm.getD s.memPend sec [] ∧ t.hbm = s.hbm) ∧
      (∀ o x, ownerOf s sec = some (o, x) → x.st = .m →
        ∃ t y, exec (.readRequest die sec) s = .next t ∧ copyOf t o sec = some { x with st := .o } ∧ copyOf t die sec = some y ∧ y.st = .s ∧
          y.data = x.data ∧ y.pend = x.pend ∧ t.hbm = s.hbm)) ∧
    (∀ x, copyOf s die sec = some x → blocked s sec none = false → hostShared s sec = false →
      (x.st = .m ∨ x.st = .e → ∃ t y, exec (.ownRequest die sec) s = .next t ∧ copyOf t die sec = some y ∧ y.st = .m ∧ y.data = x.data ∧
        y.pend = x.pend ∧ ∀ d, d ≠ die → d < 8 → copyOf t d sec = copyOf s d sec) ∧
      (x.st = .o ∨ x.st = .s → served → (∃ d, d < 8 ∧ d ≠ die ∧ (copyOf s d sec).isSome = true) →
        ∃ t w, exec (.ownRequest die sec) s = .next t ∧ Fm.get? t.owns sec = some w ∧ w.die = die ∧ w.flying = [] ∧ t.l2 = s.l2 ∧
          ∀ d, d < 8 → (w.left.getLsbD d = true ↔ d ≠ die ∧ (copyOf s d sec).isSome = true))) ∧
    (∀ w x, Fm.get? s.owns sec = some w → w.left.getLsbD die = true → snoopFirst s (homeDie sec) die w.order = true → copyOf s die sec = some x →
      ∃ t v n, exec (.invalidation die sec) s = .next t ∧ copyOf t die sec = none ∧ Fm.get? t.owns sec = some v ∧ v.left.getLsbD die = false ∧
        Fm.get? v.flying die = some (max x.stamp x.acks, n) ∧ (x.st ≠ .s → v.copy = some x) ∧
        ∀ d, d ≠ die → d < 8 → copyOf t d sec = copyOf s d sec) ∧
    (∀ w n k, Fm.get? s.owns sec = some w → Fm.get? w.flying die = some (n, k) → ackFirst s die w.die k = true →
      (w.left ≠ 0 → ∃ t, exec (.invalidationAck die sec) s = .next t ∧ t = { s with owns := t.owns } ∧
        Fm.get? t.owns sec = some { w with flying := Fm.del w.flying die, stamp := max w.stamp n }) ∧
      (w.left = 0 → w.flying = [(die, (n, k))] →
        (w.wcb = false → ∀ x, copyOf s w.die sec = some x → ∃ t, exec (.invalidationAck die sec) s = .next t ∧
          Fm.get? t.owns sec = none ∧ copyOf t w.die sec = some { x with st := .m, acks := max x.acks (max w.stamp n) } ∧ t.hbm = s.hbm) ∧
        (w.wcb = true → (∀ x, w.copy = some x → (Fm.get? s.wcb sec).isSome = true ∨ wcbRoom s (sliceOf sec) 1 = true) →
          ∃ t, exec (.invalidationAck die sec) s = .next t ∧ Fm.get? t.owns sec = none ∧ t.l2 = s.l2 ∧ t.hbm = s.hbm ∧
            ∀ x, w.copy = some x → x.st = .m ∨ x.st = .o → ∀ i, i < 128 → memByte t sec i = (x.data[i]?).getD 0))) ∧
    (∀ x, copyOf s die sec = some x → x.engine = none → Fm.get? s.owns sec = none → backRoom s die [sec] = true →
      (x.st = .m ∨ x.st = .o → ∃ t, exec (.writeBack die sec) s = .next t ∧ copyOf t die sec = none ∧ t.hbm = s.hbm ∧
        ∀ n, n < 128 → memByte t sec n = ((x.mature die (dialOf s die)).data[n]?).getD 0) ∧
      (x.st = .e ∨ x.st = .s → ∃ t, exec (.cleanNotice die sec) s = .next t ∧ copyOf t die sec = none ∧ t.hbm = s.hbm ∧ t.wcb = s.wcb))

/-- R186, R191, R231, R238, R244, R246: a back-invalidation reaches a die, which acknowledges when no lease runs and holds no copy then; a pending
write that every reader is served becomes part of the contents, and no reader sees a difference; a lapsed L1 lease frees its frame; a fence ends when
its accesses are complete and their times have passed by its guard; a due write-combining entry reaches HBM. The model's readings in log entry 46
stand in it. -/
def Obligations.CachesAndBuffersSettle : Prop :=
  ∀ (s : State) (die sec line core gid : Nat),
    (∀ b, b ∈ s.backs → b.line = line → b.dies.getLsbD die = true → die < 8 → snoopFirst s (homeDie (line * 4)) die b.order = true →
      ∃ t, exec (.backInvalidation die line) s = .next t ∧ t = { s with backs := t.backs } ∧ { b with seen := setDie b.seen die true } ∈ t.backs) ∧
    (∀ b, s.backs = [b] → b.line = line → b.dies = setDie 0 die true → b.seen.getLsbD die = true → die < 8 → leasesOver s die line = true →
      (∀ e ∈ s.owns, e.2.die = homeDie (line * 4) → Fm.get? e.2.flying die = none) →
      backRoom s die (lineSecs line) = true →
      ∃ t, exec (.backInvalidationAck die line) s = .next t ∧ t.backs = [] ∧ (∀ k, k < 4 → copyOf t die (line * 4 + k) = none) ∧
        (Fm.get? t.snoop line = none ∨ dialOf s (homeDie (line * 4)) ≤ snoopStamp t (line * 4) + 2)) ∧
    (∀ x, copyOf s die sec = some x → ∃ t y, exec (.pendingWriteVisible die sec) s = .next t ∧ copyOf t die sec = some y ∧
      t = { s with l2 := t.l2, memPend := t.memPend, wcb := t.wcb, hbm := t.hbm, encs := t.encs } ∧
      (∀ n r, n < 128 → seenByte ((y.data[n]?).getD 0) y.pend die (dialOf s die) r n =
        seenByte ((x.data[n]?).getD 0) x.pend die (dialOf s die) r n) ∧
      y.pend = x.pend.dropWhile (fun w => w.ended die (dialOf s die)) ∧
      (die = homeDie sec → Fm.getD t.memPend sec [] = (Fm.getD s.memPend sec []).dropWhile fun w => w.ended die (dialOf s die))) ∧
    (∃ t, exec (.l1LeaseExpiry core sec) s = .next t ∧ t = { s with l1 := t.l1 } ∧
      ∀ e, e ∈ t.l1 ↔ e ∈ s.l1 ∧ ¬(e.core = core ∧ e.sec = sec ∧ e.expiry ≤ dialOf s (core / 48))) ∧
    (∀ g w, Fm.get? s.groups gid = some g → g.fence = some w → w.ops = [] → w.time + fenceGuard s g w.scope.toNat < dialOf s (g.core / 48) →
      ∃ t, exec (.fenceCompletion gid) s = .next t ∧ t = { s with groups := t.groups } ∧ Fm.get? t.groups gid = some { g with fence := none } ∧
        ∀ k, k ≠ gid → Fm.get? t.groups k = Fm.get? s.groups k) ∧
    (∀ w, Fm.get? s.wcb sec = some w → Fm.getD s.memPend sec [] = [] → rowComplete s sec = false → wcbDue s sec = true → Mem.wf s.hbm = true →
      (w.bytes.map fun e => e.1).Nodup →
      ∃ t, exec (.wcbDrain sec) s = .next t ∧ Fm.get? t.wcb sec = none ∧ Mem.wf t.hbm = true ∧
        ∀ a, Mem.read t.hbm a = if sec * 128 ≤ a then (Fm.get? w.bytes (a - sec * 128)).getD (Mem.read s.hbm a) else Mem.read s.hbm a)

/-- R26, R42, R180, R335, R349: a group whose lanes have exited and whose flags read zero ends, and a team retires with its last group; the head team
of a die's most urgent level is placed where it fits, with every lane of its groups at the entry. -/
def Obligations.GroupsEndAndTeamsArePlaced : Prop :=
  ∀ (s : State),
    (∀ gid g, Fm.get? s.groups gid = some g → g.ended = false → g.halted = false → onCores s g = true → (∀ x ∈ g.lanes, x.st = .exited) →
      (∀ n, n < 12 → g.flag n = 0) →
      ((∃ k h l, Fm.get? s.groups k = some h ∧ k ≠ gid ∧ h.team = g.team ∧ h.ended = false ∧ l < 64 ∧ (h.lane l).st = .issuable) →
        ∃ t g', exec (.groupEnd gid) s = .next t ∧ Fm.get? t.groups gid = some g' ∧ g'.ended = true ∧ g'.lanes = g.lanes ∧
          RegsAre g' (regsOf g) ∧ t.hbm = s.hbm ∧ t.coreScr = s.coreScr) ∧
      ((∀ e ∈ s.groups, e.2.team = g.team → (∀ x ∈ e.2.lanes, x.st = .exited) ∧ (e.1 ≠ gid → e.2.ended = true)) →
        ∃ t, exec (.groupEnd gid) s = .next t ∧ Fm.get? t.teams g.team = none ∧ ∀ e ∈ t.groups, e.2.team ≠ g.team)) ∧
    ∀ die p gr c, headPend s die = some p → Fm.get? s.grids p.grid = some gr → started s gr.queue gr.seq = true → p.d.level < restoreLevel s die →
      findSpot s p.d die (fun _ => true) (fun _ => true) = some c →
      ∃ t tm, exec (.teamPlacement die) s = .next t ∧ Fm.get? t.teams s.nextOp = some tm ∧ tm.world = p.world ∧ tm.index = p.next ∧ tm.grid = p.grid ∧
        tm.d = p.d ∧ tm.phase = .running ∧ t.hbm = s.hbm ∧
        (∀ q, q < p.d.groups → ∃ h, Fm.get? t.groups (s.nextOp + 1 + q) = some h ∧ h.team = s.nextOp ∧ h.index = q ∧ h.core = p.d.coreOf c q ∧
          ∀ l, l < 64 → (h.lane l).st = .issuable ∧ (h.lane l).pair = (pcOf (p.d.codebase + p.d.entry), BitVec.ofNat 6 p.d.entryPrio)) ∧
        (p.d.teams ≤ p.next + p.step → p ∉ t.pends) ∧ (p.next + p.step < p.d.teams → { p with next := p.next + p.step } ∈ t.pends)

/-- R19, R35, R76, R208, R209, R347, R348: a lane that would next issue and holds a deferred cause takes it, in TRAPVEC or, for poison, PARKED, with its
next bundle as its place; at the end of a cycle that grants nothing more, a ready group's starvation count comes to 64, and a yield hold of 1 to 0. -/
def Obligations.DeferredCausesAndRegulator : Prop :=
  ∀ (s : State) (gid : Nat) (g : Group), Fm.get? s.groups gid = some g →
    let ended (h : Group) : Group := { g with starve := h.starve, yieldHold := h.yieldHold, since := min 8 (g.since + 1), stalled := false, fresh := false }
    let cycle (t : State) : Prop := t = { s with groups := t.groups, cycles := t.cycles, pmus := t.pmus } ∧
      ∀ k h, Fm.get? s.groups k = some h → h.core ≠ g.core → Fm.get? t.groups k = some h
    (∀ d, g.hints.n = 0 → g.ent = none → onCores s g = true → g.deferred = [d] → d.lane < 64 → (g.lane d.lane).st = .issuable →
      (d.parks = false → g.vec ≠ 0 → (g.lane d.lane).prio ≠ 63 →
        ∃ t h, exec (.deferredFaultDelivery gid) s = .next t ∧ Fm.get? t.groups gid = some h ∧ h.deferred = [] ∧ RegsAre h (regsOf g) ∧
          (h.lane d.lane).st = .issuable ∧ (h.lane d.lane).pair = (g.vec, 63) ∧ (h.lane d.lane).trapPc = trapPcOf (g.lane d.lane).pair ∧
          (h.lane d.lane).trapCause = trapCauseOf d.f ∧ (h.lane d.lane).trapAddr = d.f.addr ∧ h.trapinfo = infoWord g.trapinfo d.f.word ∧
          (∀ l, l < 64 → l ≠ d.lane → LanesStay g h l) ∧ t.hbm = s.hbm) ∧
      (d.parks = true →
        ∃ t h, exec (.deferredFaultDelivery gid) s = .next t ∧ Fm.get? t.groups gid = some h ∧ h.deferred = [] ∧ RegsAre h (regsOf g) ∧
          (h.lane d.lane).st = .parked d.f ∧ (h.lane d.lane).pair = (g.lane d.lane).pair ∧ (∀ l, l < 64 → l ≠ d.lane → LanesStay g h l) ∧
          (∃ r, t.parking = s.parking ++ [r] ∧ r.group = gid ∧ r.lane = d.lane ∧ r.f = d.f ∧ r.pc = (g.lane d.lane).pc ∧
            r.slice = if d.space then coreSlice g.core else causeSlice s g.core (worldOf s g) d.f.addr.toNat d.f.cause.toNat) ∧
          t.hbm = s.hbm)) ∧
    (g.starve = 63 → ready s gid g = true → cycleOver s g.core gid = true → ∃ t h, exec (.groupForced gid) s = .next t ∧ cycle t ∧
      Fm.get? t.groups gid = some h ∧ h.starve = 64 ∧ h = ended h) ∧
    (g.yieldHold = 1 → g.fresh = false → nextGrant s g.core = none → s.gated = false → ∃ t h, exec (.yieldHoldExpiry gid) s = .next t ∧ cycle t ∧
      Fm.get? t.groups gid = some h ∧ h.yieldHold = 0 ∧ h = ended h)

/-- R353, R373 to R375, R378, R379: a pre-emption request halts running teams, as do a lapsed heartbeat and a runtime limit; a drained team is saved
with its registers, or killed where its image has no place; a restore checks the image, and the grant lets the team run on. The model's readings in
log entries 9 and 30 stand in it. -/
def Obligations.TeamsAreSavedAndRestored : Prop :=
  ∀ (s : State) (team : Nat) (tm : Team), Fm.get? s.teams team = some tm →
    (tm.phase ≠ .running ∨ (if tm.d.persistent then tm.timer ≠ 0 else tm.d.limit = 0 ∨ tm.timer < tm.d.limit) →
      ∀ o ∈ [(.preemptionRequest (.team team) : Instr), .heartbeatExpiry team, .runtimeLimitExpiry team], exec o s = .next s) ∧
    (∀ w mask, (s.teams.map fun e => e.1).Nodup → ∃ t, exec (.preemptionRequest (.world w mask)) s = .next t ∧ t = { s with teams := t.teams } ∧
      Fm.get? t.teams team = some (if tm.world = w ∧ standsOn s team mask = true ∧ tm.phase = .running then
        { tm with phase := .halting, byWatchdog := false } else tm)) ∧
    (tm.phase = .halting → drained s team = true →
      (imagePlace s team tm = none → ∃ t, exec (.contextSave team) s = .next t ∧ Fm.get? t.teams team = none ∧ ∀ e ∈ t.groups, e.2.team ≠ team) ∧
      (∀ b o r, imagePlace s team tm = some (b, o) →
        let bs := contextBytes s team tm s.nextOp
        writeImage { s with nextOp := s.nextOp + 1 } b o bs = r → r.ok = true →
        ∃ t, exec (.contextSave team) s = .next t ∧
          Fm.get? t.teams team = some { tm with phase := .saved, saved := bs, image := some (b, o, bs.length, s.nextOp) } ∧
          ∀ gid g, Fm.get? r.s.groups gid = some g → g.team = team → ∃ h, Fm.get? t.groups gid = some h ∧ RegsAre h { regsOf g with gs := fun _ => g.gs ||| gsDue g.gsq 8 } ∧ h.b = [] ∧
            ((∀ c n pc m, g.hold ≠ .copies c n pc m) → h.lanes = g.lanes) ∧ h.flags = g.flags ∧ h.trapvec = g.trapvec ∧ h.trapinfo = g.trapinfo)) ∧
    (∀ im, tm.phase = .saved → tm.image = some im →
      (imageIntact s im tm.saved = true → ∃ t, exec (.restoreRequest team) s = .next t ∧ t = { s with teams := t.teams } ∧
        Fm.get? t.teams team = some { tm with phase := .restoring }) ∧
      (imageIntact s im tm.saved = false → ∃ t, exec (.restoreRequest team) s = .next t ∧ Fm.get? t.teams team = none)) ∧
    (∀ c, tm.phase = .restoring → (∀ p, headPend s tm.die = some p → tm.d.level ≤ p.d.level) → tm.d.level ≤ restoreLevel s tm.die →
      (∀ e ∈ s.groups, e.2.team = team → e.2.landed = false) → (s.groups.map fun e => e.1).Nodup →
      findSpot s tm.d tm.die (groupBy s team fun g => !g.landed && !g.ended) (groupBy s team fun g => !g.landed) = some c →
      ∃ t tm', exec (.restoreGrant team) s = .next t ∧ Fm.get? t.teams team = some tm' ∧ tm'.phase = .running ∧ tm'.image = none ∧ tm'.d = tm.d ∧
        ∀ gid g, Fm.get? s.groups gid = some g → g.team = team → ∃ h, Fm.get? t.groups gid = some h ∧ RegsAre h (regsOf g) ∧ h.lanes = g.lanes ∧
          h.flags = g.flags ∧ h.core = newCore ((tm.places.map fun e => e.1).foldl min (10 ^ 6)) c tm.d.cluster g.core) ∧
    ∀ o ∈ ([(.heartbeatExpiry team, true), (.runtimeLimitExpiry team, false)] : List (Instr × Bool)), tm.phase = .running →
      tm.d.persistent = o.2 → (if o.2 then tm.timer = 0 else tm.d.limit ≠ 0 ∧ tm.d.limit ≤ tm.timer) →
      ∀ x ∈ [o.1, .preemptionRequest (.team team)], ∃ t, exec x s = .next t ∧
        Fm.get? t.teams team = some { tm with phase := .halting, byWatchdog := true }

/-- R37, R68, R177, R293, R363, R364, R366, R371, R378, R395: RESUME lets parked lanes go on at their place, PASS_ON sends a parked lane to TRAPVEC with its cause, KILL
ends the team; RECORD extends MR3 with the bytes and answers 0, or 1; PLMOVE answers 3, 1 or 2 to a range or an EXEC that is not valid, 0 to an empty
one, marks the leaves of a good one, waits for their counts, then gives them their EXEC; CODEREP answers 1 or 2, or copies the bytes, extends MR2 and
answers 0 once its writes have passed; a call of any other code is passed on as SOFTWARE. The model's readings in log entry 31 stand in it. -/
def Obligations.SliceKernelsAnswerAndServe : Prop :=
  ∀ (s : State) (gid : Nat) (g : Group), Fm.get? s.groups gid = some g →
    (∀ r (lanes : BitVec 64) mended, r ∈ s.parking → r.group = gid → r.lane < 64 → lanes.getLsbD r.lane = true →
      ∃ t h, exec (.resume gid ⟨lanes, mended⟩) s = .next t ∧ Fm.get? t.groups gid = some h ∧ r ∉ t.parking ∧ RegsAre h (regsOf g) ∧ h.cover = none ∧
        (h.lane r.lane).st = .issuable ∧ (h.lane r.lane).pair = (g.lane r.lane).pair ∧ t.hbm = s.hbm) ∧
    (∀ r (lanes : BitVec 64), parkOf s gid lanes = [r] → r.lane < 64 → g.vec ≠ 0 → (g.lane r.lane).prio ≠ 63 →
      ∃ t h, exec (.passOn gid lanes) s = .next t ∧ Fm.get? t.groups gid = some h ∧ r ∉ t.parking ∧ RegsAre h (regsOf g) ∧
        (h.lane r.lane).st = .issuable ∧ (h.lane r.lane).pair = (g.vec, 63) ∧ (h.lane r.lane).trapCause = trapCauseOf r.f ∧
        (h.lane r.lane).trapAddr = r.f.addr ∧ (h.lane r.lane).trapPc = trapPcOf (r.pc, (g.lane r.lane).prio)) ∧
    (∀ tm lane, Fm.get? s.teams g.team = some tm →
      (match lane with
        | some l => ∃ r ∈ s.parking, r.group = gid ∧ r.lane = l
        | none => tm.phase = .saved ∨ tm.phase = .restoring) →
      ∃ t, exec (.kill ⟨gid, lane⟩) s = .next t ∧ Fm.get? t.teams g.team = none ∧ ∀ e ∈ t.groups, e.2.team ≠ g.team) ∧
    ∀ id c, Fm.get? s.calls id = some c → c.group = gid → c.lanes ≠ 0 →
      let world := worldOf s g
      let answered (t : State) (status : Nat) : Prop := ∃ h, Fm.get? t.calls id = none ∧ Fm.get? t.groups gid = some h ∧
        RegsAre h ((regsOf g).setS 4 (BitVec.ofNat 64 status)) ∧
        ∀ l, l < 64 → c.lanes.getLsbD l = true → (h.lane l).st = .issuable ∧ (h.lane l).pair = (g.lane l).pair
      (c.stage = 0 → switchPends s c.slice = true → exec (.serviceCall id) s = .next s) ∧
      (switchPends s c.slice = false →
      (∀ b w, c.code = 50 → 1 ≤ c.arg 1 → c.arg 1 ≤ 4096 → worldMarked s (g.core / 48) world (c.arg 0) (c.arg 1) = false → worldBytes s (g.core / 48) world (c.arg 0) (c.arg 1) = .ok b →
        Fm.get? s.worlds world = some w →
        ∃ t, exec (.serviceCall id) s = .next t ∧ answered t 0 ∧
          Fm.get? t.worlds world = some { w with mrs := w.mrs.set 3 (extendMr ((w.mrs[3]?).getD 0) b) }) ∧
      (c.code = 50 → (c.arg 1 = 0 ∨ 4096 < c.arg 1 ∨
        (worldMarked s (g.core / 48) world (c.arg 0) (c.arg 1) = false ∧ ∃ e, worldBytes s (g.core / 48) world (c.arg 0) (c.arg 1) = .error e)) →
        ∃ t, exec (.serviceCall id) s = .next t ∧ answered t 1) ∧
      (c.code = 48 → c.stage = 0 →
        ((c.arg 0 % 65536 ≠ 0 ∨ c.arg 1 % 65536 ≠ 0) → ∃ t, exec (.serviceCall id) s = .next t ∧ answered t 3) ∧
        (c.arg 0 % 65536 = 0 → c.arg 1 = 0 → ∃ t, exec (.serviceCall id) s = .next t ∧ answered t 0) ∧
        (c.arg 0 % 65536 = 0 → c.arg 1 % 65536 = 0 → c.arg 1 ≠ 0 → rangeLeaves s (g.core / 48) world (c.arg 0) (c.arg 1) = none →
          ∃ t, exec (.serviceCall id) s = .next t ∧ answered t 1) ∧
        (c.arg 0 % 65536 = 0 → c.arg 1 % 65536 = 0 → c.arg 1 ≠ 0 → (rangeLeaves s (g.core / 48) world (c.arg 0) (c.arg 1)).isSome = true →
          (execValid (c.arg 2 % 65536 / 2 ^ 13) (c.arg 2 % 65536 % 2 ^ 11) = false ∨ c.arg 2 % 65536 / 2 ^ 11 % 4 = 3) →
          ∃ t, exec (.serviceCall id) s = .next t ∧ answered t 2) ∧
        (c.arg 0 % 65536 = 0 → c.arg 1 % 65536 = 0 → c.arg 1 ≠ 0 → ∀ ls r, rangeLeaves s (g.core / 48) world (c.arg 0) (c.arg 1) = some ls →
          execValid (c.arg 2 % 65536 / 2 ^ 13) (c.arg 2 % 65536 % 2 ^ 11) = true → c.arg 2 % 65536 / 2 ^ 11 % 4 ≠ 3 → leafVersions s c ls = true →
          storeLeaves s (ls.map fun l => (l.1, withExec l.2 (c.arg 2 % 65536) true)) = r → r.ok = true →
          ∃ t n o, exec (.serviceCall id) s = .next t ∧ Fm.get? t.calls id = some { c with stage := 1, sync := n } ∧ Fm.get? t.ops n = some o ∧
            let p := pageSpan s (g.core / 48) world (c.arg 0) (c.arg 1)
            o.kind = .plsync (syncTargets r.s world p.1 p.2))) ∧
      (c.code = 48 → c.stage ≠ 0 →
        ((Fm.get? s.ops c.sync).isSome = true → exec (.serviceCall id) s = .next s) ∧
        let ls := presentLeaves s (g.core / 48) world (c.arg 0) (c.arg 1)
        (∀ r, Fm.get? s.ops c.sync = none → leafVersions s c ls = true →
          storeLeaves s (ls.map fun l => (l.1, withExec l.2 (c.arg 2 % 65536) false)) = r → r.ok = true →
          ∃ t, exec (.serviceCall id) s = .next t ∧ Fm.get? t.calls id = none ∧ t.desc = r.s.desc ∧
            ∀ g', Fm.get? r.s.groups gid = some g' → ∃ h, Fm.get? t.groups gid = some h ∧ RegsAre h ((regsOf g').setS 4 0) ∧
              ∀ l, l < 64 → c.lanes.getLsbD l = true → (h.lane l).st = .issuable ∧ (h.lane l).pair = (g'.lane l).pair)) ∧
      (c.code = 62 → c.stage ≠ 1 →
        let ps := codePieces s (g.core / 48) world (c.arg 0) (c.arg 2)
        let free := worldMarked s (g.core / 48) world (c.arg 1) (c.arg 2) = false
        let fits := c.arg 2 % 4 = 0 ∧ c.arg 2 ≠ 0 ∧ c.arg 2 ≤ 2 ^ 24
        let plain := ∀ p ∈ pagePieces (c.arg 2 / 65536 + 2) (c.arg 1) (c.arg 2), ∃ x, xlate s (g.core / 48) world p.1 = .ok x ∧ nfield x.d 5 3 = 0
        ((¬fits ∨ ps = none) → ∃ t, exec (.serviceCall id) s = .next t ∧ answered t 1) ∧
        (fits → ps.isSome = true → free → ((∃ e, worldBytes s (g.core / 48) world (c.arg 1) (c.arg 2) = .error e) ∨ ¬plain) →
          ∃ t, exec (.serviceCall id) s = .next t ∧ answered t 2) ∧
        (∀ xs b r, fits → ps = some xs → free → worldBytes s (g.core / 48) world (c.arg 1) (c.arg 2) = .ok b → plain → whole s (pieceWrites xs b) = r →
          r.ok = true →
          ∃ t, exec (.serviceCall id) s = .next t ∧ t = { r.s with worlds := t.worlds, calls := t.calls } ∧
            Fm.get? t.calls id = some { c with stage := 1, sync := r.stamp } ∧ ∀ w, Fm.get? r.s.worlds world = some w →
              Fm.get? t.worlds world = some { w with
                mrs := w.mrs.set 2 (extendMr ((w.mrs[2]?).getD 0) (sha384Bytes (leBytes 8 (c.arg 0) ++ leBytes 8 (c.arg 2) ++ b))) })) ∧
      (c.code = 62 → c.stage = 1 →
        (c.sync + 2 < dialOf s (c.slice / 3) → ∃ t, exec (.serviceCall id) s = .next t ∧ answered t 0) ∧
        (dialOf s (c.slice / 3) ≤ c.sync + 2 → exec (.serviceCall id) s = .next s)) ∧
      (c.code ≠ 48 → c.code ≠ 50 → c.code ≠ 62 → g.vec ≠ 0 → (∀ l, l < 64 → c.lanes.getLsbD l = true → (g.lane l).prio ≠ 63) →
        ∃ t h, exec (.serviceCall id) s = .next t ∧ Fm.get? t.calls id = none ∧ Fm.get? t.groups gid = some h ∧ RegsAre h (regsOf g) ∧
          ∀ l, l < 64 → c.lanes.getLsbD l = true → (h.lane l).st = .issuable ∧ (h.lane l).pair = (g.vec, 63) ∧
            (h.lane l).trapCause = trapCauseOf { cause := BitVec.ofNat 8 cSoftware, word := c.word } ∧
            (h.lane l).trapPc = trapPcOf (g.lane l).pair))

/-- R192, R275, R278, R342, R366, R387, R391, R393, R394, R396: a slice kernel stores leaves, descriptors, apertures, peer entries, die-scratch windows, which are
zeroed, bytes of its world, queues with a fit journal, and tails; what another instance owns it asks for by a message, which that one acts on in its own
version; a command for an instance is delivered to it, and its answer on the version that the command is tagged with makes the journal entry final. The model's readings in log entries 31 and 43 stand in it. -/
def Obligations.SliceKernelsStoreOwnedState : Prop :=
  ∀ (s : State),
    (∀ buf off v r, descUsable (descOf s buf) = true → nfield (descOf s buf) 5 3 = 1 → off % 16 = 0 → off + 16 ≤ descSize (descOf s buf) →
      storePte s (physOf (descOf s buf) off) (encOf s (descOf s buf) off) (leBytes 16 ((v : BitVec 128) &&& pteBits).toNat) = r → r.ok = true →
      exec (.sliceKernelStore ⟨.pte buf off v, none⟩) s = .next r.s) ∧
    (∀ i (v : BitVec 256) ls, i < 2 ^ 20 →
      let d := v &&& descBits
      let code (x : Nat) : Prop := descUsable x = true ∧ nfield x 4 1 = 1
      let kept : Prop := code (descOf s i) ∧ descOf s i % 2 ^ 256 / 2 ^ 8 = d.toNat / 2 ^ 8
      (¬ code d.toNat ∨ kept → ∃ t, exec (.sliceKernelStore ⟨.descriptor i v ls, none⟩) s = .next t ∧ t = { s with desc := t.desc, dcache := t.dcache } ∧
        Fm.get? t.desc i = some d ∧ (∀ k, k ≠ i → Fm.get? t.desc k = Fm.get? s.desc k) ∧ ∀ e ∈ t.dcache, e.2 ≠ i) ∧
      (code d.toNat → ¬ kept → ∀ w m, Fm.get? s.worlds (nfield d.toNat 8 11) = some w →
        w.mrs[1]? = some m → ∃ t, exec (.sliceKernelStore ⟨.descriptor i v ls, none⟩) s = .next t ∧ Fm.get? t.desc i = some d ∧
          Fm.get? t.worlds (nfield d.toNat 8 11) = some { w with mrs := w.mrs.set 1 (((ls.filter fun b => b.length == 256) ++
            [bufBytes { s with desc := t.desc, dcache := t.dcache } i 0 (descSize d.toNat)]).foldl extendMr m) })) ∧
    (∀ port i on world buf off, port ≤ 1 → i ≤ 63 →
      ∃ t, exec (.sliceKernelStore ⟨.aperture port i on world buf off, none⟩) s = .next t ∧ t = { s with apertures := t.apertures } ∧
        Fm.get? t.apertures (port * 64 + i) = some { enabled := on, world := world, buf := buf, off := off }) ∧
    (∀ world i a m w, i < 2048 → Fm.get? s.worlds world = some w →
      ∃ t, exec (.sliceKernelStore ⟨.peer world i true a m, none⟩) s = .next t ∧ t = { s with worlds := t.worlds } ∧
        Fm.get? t.worlds world = some { w with peers := Fm.put w.peers i (a, m) }) ∧
    (∀ die world base units w, die ≤ 7 → base + units ≤ 512 → units ≠ 0 → Fm.get? s.worlds world = some w →
      ∃ t, exec (.sliceKernelStore ⟨.dieWindow die world base units, none⟩) s = .next t ∧ t = { s with worlds := t.worlds, dieScr := t.dieScr, dieBad := t.dieBad, dieEncs := t.dieEncs } ∧
        Fm.get? t.worlds world = some { w with windows := Fm.put w.windows die (base * 65536, units * 65536) } ∧
        ∀ a, Mem.read t.dieScr a =
          if die * 2 ^ 25 + base * 65536 ≤ a ∧ a < die * 2 ^ 25 + (base + units) * 65536 then 0 else Mem.read s.dieScr a) ∧
    (∀ world i a m w, Fm.get? s.worlds world = some w →
      ∃ t, exec (.sliceKernelStore ⟨.peer world i false a m, none⟩) s = .next t ∧ t = { s with worlds := t.worlds } ∧
        Fm.get? t.worlds world = some { w with peers := Fm.del w.peers i }) ∧
    (∀ die world base w, die ≤ 7 → base ≤ 512 → Fm.get? s.worlds world = some w →
      ∃ t, exec (.sliceKernelStore ⟨.dieWindow die world base 0, none⟩) s = .next t ∧
        Fm.get? t.worlds world = some { w with windows := Fm.del w.windows die } ∧ ∀ a, Mem.read t.dieScr a = Mem.read s.dieScr a) ∧
    (∀ world buf off bs r, portCauses (descOf s buf) world off bs.length .store = [] → nfield (descOf s buf) 4 1 = 0 → writeBuf s buf off bs = r →
      exec (.sliceKernelStore ⟨.data world buf off bs, none⟩) s = .next r.s) ∧
    (∀ world buf off bs, (portCauses (descOf s buf) world off bs.length .store ≠ [] ∨ nfield (descOf s buf) 4 1 = 1) →
      exec (.sliceKernelStore ⟨.data world buf off bs, none⟩) s = .next s) ∧
    (∀ die world start len, len ≠ 0 →
      ∃ t o, exec (.sliceKernelStore ⟨.plsync die world start len, none⟩) s = .next t ∧ t = { s with ops := t.ops, nextOp := s.nextOp + 1 } ∧
        Fm.get? t.ops s.nextOp = some o ∧ o.group = none ∧ o.kind = .plsync (syncTargets s world start len)) ∧
    (∀ port world buf slots jb jl, port ≤ 1 → world ≤ 2047 →
      let q := port * 2048 + world
      (worldLive s world = true → journalFit s world jb jl = true →
        ∃ t, exec (.sliceKernelStore ⟨.hostQueue port world true buf slots jb jl, none⟩) s = .next t ∧ t = { s with queues := t.queues, journals := t.journals } ∧
          Fm.get? t.queues q = some { world := world, buf := buf, slots := slots } ∧
          Fm.get? t.journals q = some { world := world, buf := jb, log := jl }) ∧
      ((worldLive s world = false ∨ journalFit s world jb jl = false) →
        exec (.sliceKernelStore ⟨.hostQueue port world true buf slots jb jl, none⟩) s = .next s) ∧
      ∃ t, exec (.sliceKernelStore ⟨.hostQueue port world false buf slots jb jl, none⟩) s = .next t ∧ t = { s with queues := Fm.del s.queues q }) ∧
    (∀ slice buf slots jb jl, slice ≤ 23 → journalFit s 0 jb jl = true →
      ∃ t, exec (.sliceKernelStore ⟨.serviceQueue slice buf slots jb jl, none⟩) s = .next t ∧ t = { s with queues := t.queues, journals := t.journals } ∧
        Fm.get? t.queues (4096 + slice) = some { world := 0, buf := buf, slots := slots } ∧
        Fm.get? t.journals (4096 + slice) = some { world := 0, buf := jb, log := jl }) ∧
    (∀ slice (tail : BitVec 64) x, slice ≤ 23 → Fm.get? s.queues (4096 + slice) = some x →
      ∃ t, exec (.sliceKernelStore ⟨.serviceTail slice tail, none⟩) s = .next t ∧ t = { s with queues := t.queues } ∧
        Fm.get? t.queues (4096 + slice) =
          some (if x.tail ≤ tail.toNat ∧ tail.toNat ≤ x.taken + x.slots then { x with tail := tail.toNat } else x)) ∧
    (∀ world die buf w, die ≤ 7 → Fm.get? s.worlds world = some w →
      (saveFit s world buf = true → ∃ t, exec (.sliceKernelStore ⟨.saveArea world die buf, none⟩) s = .next t ∧ t = { s with worlds := t.worlds } ∧
        Fm.get? t.worlds world = some { w with saves := Fm.put w.saves die buf }) ∧
      (saveFit s world buf = false → exec (.sliceKernelStore ⟨.saveArea world die buf, none⟩) s = .next s)) ∧
    (∀ k o, storeOwner s k = some o → exec (.sliceKernelStore ⟨k, some o⟩) s = exec (.sliceKernelStore ⟨k, none⟩) s ∧
      ∀ n, n ≠ o → n ≤ 23 → exec (.sliceKernelStore ⟨k, some n⟩) s =
        .next { s with kmsgs := s.kmsgs ++ [{ sender := n, to_ := o, version := versionOf s n, store := k }] }) ∧
    (∀ slice m r, nextMsg (retryMsgs s slice) slice = some m → kernelStore (retryMsgs s slice) m.store = r → r.ok = true →
      exec (.sliceKernelStore ⟨.serve slice, none⟩) s = .next { r.s with kmsgs := r.s.kmsgs.erase m }) ∧
    (∀ queue c, nextCmd s queue = some c → c.kind = 6 → kindOk queue 6 = true →
      ((c.w 1 7 ≠ 0 ∨ 23 < c.w 32 1) → exec (.sliceKernelCommand queue none) s = .next (refuseCmd s queue 6 jDesc c)) ∧
      (c.w 1 7 = 0 → c.w 32 1 ≤ 23 →
        let a := acceptCmd s queue 6 0 c
        exec (.sliceKernelCommand queue none) s =
          .next { a.1 with kcmds := a.1.kcmds ++ [{ slice := c.w 32 1, queue := queue, seq := a.2, version := a.1.version, bytes := c.b.drop 32 }] })) ∧
    (∀ queue slice (answer : BitVec 8) r, (s.kcmds.find? fun r => r.queue == queue && r.slice == slice) = some r → s.stopped = none →
      started s queue r.seq = true →
      (r.version ≠ versionOf s slice → exec (.sliceKernelCommand queue (some (slice, answer))) s =
        .next { s with kcmds := s.kcmds.erase r ++ [{ r with version := s.version }] }) ∧
      (r.version = versionOf s slice →
        let t := { s with kcmds := s.kcmds.erase r }
        exec (.sliceKernelCommand queue (some (slice, answer))) s =
          .next (if answer = 0 then journalFinal t queue r.seq jDone 0 0 none else journalFinal t queue r.seq jFault answer.toNat 0 none)))

/-- R199, R201, R272, R299, R380, R383, R385: where an uncorrectable error strikes decides what it does: a sector takes the poison mark, a ticket is
POISONED, a row takes its flag, a team whose state or array is hit is killed, an L1 frame is dropped, a layer starts its takeover at the second
error, and a fatal class stops the part; the syndrome registers keep the first event. The model's readings in log entries 32 and 33 stand in it. -/
def Obligations.UncorrectableErrorsAreContained : Prop :=
  ∀ (s : State),
    (∀ sec, sec < 24 * 2 ^ 29 →
      (copies s sec = [] → let r := Fm.getD s.repairs (sliceOf sec) {}
        ∃ t, exec (.uncorrectableError (.sector sec)) s = .next t ∧ (∀ k, k ∈ t.poison ↔ k = sec ∨ k ∈ s.poison) ∧
        t = { s with poison := t.poison, dsyn := t.dsyn, repairs := t.repairs } ∧
        Fm.get? t.repairs (sliceOf sec) = some (r.uncorrectable (r.serves sec)) ∧
        Noted s t (homeDie sec) false 8 (sliceOf sec) (BitVec.ofNat 64 (sec * 128))) ∧
      (∀ die x, die < 8 → copyOf s die sec = some x → ∃ t, exec (.uncorrectableError (.sector sec)) s = .next t ∧
        copyOf t die sec = some { x with poison := true } ∧ t = { s with l2 := t.l2, poison := t.poison } ∧
        ∀ k, k ∈ t.poison ↔ k = sec ∨ k ∈ s.poison)) ∧
    (∀ die sec, die < 8 → sec < 2 ^ 18 → ∃ t, exec (.uncorrectableError (.dieScratch die sec)) s = .next t ∧ t = { s with dieBad := t.dieBad } ∧
      ∀ k, k ∈ t.dieBad ↔ k = die * 2 ^ 18 + sec ∨ k ∈ s.dieBad) ∧
    (∀ slice entry, slice < 24 → entry < 4096 → (ticketOf s (slice * 4096 + entry)).st = 2 →
      ∃ t, exec (.uncorrectableError (.ticket slice entry)) s = .next t ∧ t = { s with tickets := t.tickets } ∧
        ticketOf t (slice * 4096 + entry) = { ticketOf s (slice * 4096 + entry) with st := 3 }) ∧
    (∀ die row, die < 8 → row < 16384 → (rowOf s (die * 16384 + row)).st ≠ 0 →
      ∃ t, exec (.uncorrectableError (.saRow die row)) s = .next t ∧
        rowOf t (die * 16384 + row) = { rowOf s (die * 16384 + row) with poison := true }) ∧
    (∀ team core off tm, Fm.get? s.teams team = some tm → holding tm = true →
      ((Fm.get? tm.places core).isSome = true ∨ ∃ e ∈ s.groups, e.2.team = team ∧ e.2.core = core) →
      ∃ t, exec (.uncorrectableError (.coreState team core off)) s = .next t ∧ Fm.get? t.teams team = none ∧ (∀ e ∈ t.groups, e.2.team ≠ team) ∧
        Noted s t (core / 48) false 7 (core % 48 / 8) (BitVec.ofNat 64 off)) ∧
    (∀ team core arr, arrayTeam s core arr = some team →
      ∃ t, exec (.uncorrectableError (.array core arr)) s = .next t ∧ Fm.get? t.teams team = none ∧
        Noted s t (core / 48) false 7 (core % 48 / 8) (BitVec.ofNat 64 arr)) ∧
    (∀ core sec, ∃ t, exec (.uncorrectableError (.l1 core sec)) s = .next t ∧ t = { s with l1 := t.l1 } ∧
      ∀ f, f ∈ t.l1 ↔ f ∈ s.l1 ∧ ¬(f.core = core ∧ f.sec = sec)) ∧
    (∀ sec x, Fm.get? s.wcb sec = some x → x.bytes.length < 128 →
      ∃ t, exec (.uncorrectableError (.wcb sec)) s = .next t ∧ sec ∈ t.poison ∧ t = { s with poison := t.poison, l2 := t.l2 }) ∧
    (∀ stack layer off, stack < 24 → layer < 16 → off < 2 ^ 36 → let r := Fm.getD s.repairs stack {}
      ∃ t, exec (.uncorrectableError (.layer stack layer off)) s = .next t ∧
        t = { s with repairs := t.repairs, dsyn := t.dsyn, poison := t.poison, l2 := t.l2 } ∧ stack * 2 ^ 29 + off / 128 ∈ t.poison ∧
        Noted s t (stack / 3) false 8 stack (BitVec.ofNat 64 (stack * 2 ^ 36 + off)) ∧
        (Fm.getD r.uncorr layer 0 = 0 → Fm.get? t.repairs stack = some { r with uncorr := Fm.put r.uncorr layer 1 }) ∧
        (Fm.getD r.uncorr layer 0 = 1 → r.active = false → r.nospare = false → r.done = false → Fm.get? t.repairs stack =
          some { r with uncorr := Fm.put r.uncorr layer 2, layer := layer, active := true, done := false, boundary := 0, corr := 0, notes :=
            r.notes ++ [.takeover layer] })) ∧
    (∀ die (cls : BitVec 4) (unit : BitVec 5) detail, die < 8 → 1 ≤ cls.toNat → cls.toNat ≤ 4 →
      ∃ t, exec (.uncorrectableError (.fatal die cls unit detail)) s = .next t ∧ Noted s t die true cls.toNat unit.toNat detail ∧
        (s.stopped = none → Stopped s t))

/-- R19, R199 to R202, R354, R355, R381, R382, R385, R387, R397: corrected errors, refresh and scrub change no result; a layer copy advances its
boundary and ends with DONE; the 16th failed resync in a row and a trip stop the part; a sample copies the counters; the clock moves in steps of 25
MHz and issue is gated at the floor; the cap, the port modes, DSYN0 and the counters take what may be written. The model's readings in log entries
10, 12, 33, 35, 36 and 37 stand in it. -/
def Obligations.MaintenancePowerAndCounters : Prop :=
  ∀ (s : State),
    (∀ stack chan row, exec (.refresh stack chan) s = .next s ∧ exec (.scrub stack chan row) s = .next s) ∧
    (∀ w, ∃ t, exec (.correctedError w) s = .next t ∧ t = { s with repairs := t.repairs, onDie := t.onDie }) ∧
    (∀ die, die < 10 → ∃ t, exec (.correctedError (.onDie die)) s = .next t ∧ t = { s with onDie := t.onDie } ∧
      Fm.get? t.onDie die = some (Fm.getD s.onDie die 0 + 1)) ∧
    (∀ stack r, Fm.get? s.repairs stack = some r → r.active = true →
      ∃ t, exec (.layerCopy stack) s = .next t ∧ t = { s with repairs := t.repairs } ∧
        Fm.get? t.repairs stack = some (if r.boundary + 1 < 2 ^ 22 then { r with boundary := r.boundary + 1 }
          else { r with boundary := 2 ^ 22, active := false, done := true, nospare := true, waiting := [],
                           notes := r.notes ++ r.waiting.map RepairNote.degraded })) ∧
    (∀ dir ok, dir < 28 →
      let l := Fm.getD s.links dir {}
      ∃ t x, exec (.dictionaryResync dir ok) s = .next t ∧ Fm.get? t.links dir = some x ∧ x.count = l.count + 1 ∧
        x.fails = (if ok then 0 else l.fails + 1) ∧ x.dict = [] ∧ x.sent = l.sent ∧ x.acked = l.acked ∧
        ((ok = true ∨ l.fails < 15) → t = { s with links := t.links }) ∧
        (ok = false → 15 ≤ l.fails → s.stopped = none →
          Stopped s t ∧ Noted s t (linkTo dir) true 5 (dir / 2) (BitVec.ofNat 64 (dir / 2 + l.acked * 2 ^ 8)))) ∧
    (∃ t d, exec .powerOrThermalTrip s = .next t ∧ Noted s t 8 true 6 0 d ∧ (s.stopped = none → Stopped s t)) ∧
    (∀ unit p, Fm.get? s.pmus unit = some p →
      (p.ival ≠ 0 → p.last + p.ival ≤ s.dial → ∃ t, exec (.performanceSampling unit) s = .next t ∧ t = { s with pmus := t.pmus } ∧
        Fm.get? t.pmus unit = some { p with snap := (List.range 8).map fun k => Fm.getD p.cnt k 0, last := s.dial })) ∧
    (∀ unit k (v : BitVec 64), (unit < 408) → k < 8 →
      let p := Fm.getD s.pmus unit {}
      (∃ t, exec (.registerWrite (.pmc unit k) v) s = .next t ∧ Fm.get? t.pmus unit = some { p with cnt := Fm.put p.cnt k (v.toNat % 2 ^ 48) }) ∧
      (10000 ≤ v.toNat → ∃ t, exec (.registerWrite (.sample unit) v) s = .next t ∧ Fm.get? t.pmus unit = some { p with ival := v.toNat, last := s.dial }) ∧
      exec (.registerWrite (.dsyn1 k) v) s = .next s ∧ exec (.registerWrite (.kstat k) v) s = .next s ∧ exec (.registerWrite (.lfix k) v) s = .next s) ∧
    (∀ (v : BitVec 64),
      (∀ die m, ∃ t, exec (.registerWrite (.dsyn0 die m) v) s = .next t ∧ t = { s with dsyn := t.dsyn } ∧
        (m = true ∧ v.getLsbD 0 = true → Fm.getD t.dsyn die (0, 0) = (0, 0)) ∧ (m = false ∨ v.getLsbD 0 = false → t = s)) ∧
      exec (.registerWrite .holdReset v) s = .next { s with holdReset := v.getLsbD 0 } ∧
      exec (.registerWrite .udpPort v) s = .next { s with udpPort := v.setWidth 16 }) ∧
    (∀ die, ∃ t, exec (.dsyn0Clear die) s = .next t ∧ t = { s with dsyn := t.dsyn } ∧ Fm.getD t.dsyn die (0, 0) = (0, 0)) ∧
    (1225 ≤ s.clock → exec (.clockStep .lower) s = .next { s with clock := s.clock - 25 }) ∧
    (s.clock ≤ 2075 → s.gated = false → exec (.clockStep .raise) s = .next { s with clock := s.clock + 25 }) ∧
    (s.clock = 1200 → exec (.clockStep .gate) s = .next { s with gated := true }) ∧ (s.clock ≠ 1200 → exec (.clockStep .gate) s = .next s) ∧
    exec (.clockStep .ungate) s = .next { s with gated := false } ∧
    (∀ w, (1500 ≤ w ∧ w ≤ 4500 → exec (.powerCapSet w) s = .next { s with cap := w }) ∧ (w < 1500 ∨ 4500 < w → exec (.powerCapSet w) s = .next s)) ∧
    (∀ port cxl, port < 2 → exec (.portModeSet port cxl) s = .next { s with portsNext := s.portsNext.set port cxl })

/-- R299 to R301, R307, R308, R313: a due lease lapses: the entry is LAPSED or FREE in its next generation, and the handle is remembered as expired; a
sector of a fetch is kept, and the last one makes the ticket READY or POISONED and completes the TKLD; a redeemed ticket is delivered 128 bytes at a
time, and the last unit frees the entry and completes the TKRDM. The model's readings in log entry 18 stand in it. -/
def Obligations.TicketsFillDeliverAndLapse : Prop :=
  ∀ (s : State) (slice entry unit : Nat), entry < 4096 →
    let key := slice * 4096 + entry
    (let x := ticketOf s key;
      x.leased = true → x.expiry ≤ sliceDial s slice → (∀ e ∈ s.tickets, e.1 / 4096 = slice → e.2.leased = true → x.expiry ≤ e.2.expiry) →
      ∃ t, exec (.ticketLeaseLapse slice entry) s = .next t ∧
        ticketOf t key = (if x.st = 1 then { x with st := 5, gen := nextGen x.gen } else { gen := nextGen x.gen }) ∧
        (∀ k, k ≠ key → ticketOf t k = ticketOf s k) ∧
        Fm.getD t.expired slice [] = (handleOf s key x / 2 ^ 15 :: Fm.getD s.expired slice []).take 64) ∧
    (let u := lapseDue s slice;
      let x := ticketOf u key;
      let sec := secOf (physOf x.d (x.o + 128 * unit));
      let q := readReq u (slice / 3) sec none x.lru;
      let y := { x with got := Fm.put x.got unit (peekSec q.s (slice / 3) (encOf q.s x.d (x.o + 128 * unit)) sec (.engine x.gid x.op)),
                        bad := x.bad || poisonAt q.s (slice / 3) sec };
      x.st = 1 → unit < 2 ^ x.k → Fm.get? x.got unit = none → q.ok = true →
      ∃ t, exec (.ticketFill slice entry unit) s = .next t ∧
        ticketOf t key = (if y.full = true then { y with st := if y.bad = true then 3 else 2 } else y) ∧
        (y.full = true → Fm.get? t.ops x.op = none) ∧ ∀ k, k ≠ key → ticketOf t k = ticketOf u k) ∧
    (∀ (r : Redeem) (o : Op) (l : Loc) (core : Bool) (b : Nat),
      let x := ticketOf s key
      let m (u : State) : Mem := if core = true then u.coreScr else u.dieScr
      let bs := Fm.getD x.got x.done []
      x.st = 4 → x.full = true → x.bad = false → x.red = some r → Fm.get? s.ops r.op = some o → deliverAt s o.die r x.done = some l →
      scratchAddr l = some (core, b) → Mem.wf (m s) = true →
      ∃ t, exec (.ticketDelivery slice entry) s = .next t ∧ t.hbm = s.hbm ∧
        (∀ a, Mem.read (m t) a = if b ≤ a ∧ a < b + bs.length then (bs[a - b]?).getD 0 else Mem.read (m s) a) ∧
        (x.done + 1 = 2 ^ x.k → ticketOf t key = { gen := x.gen } ∧ Fm.get? t.ops r.op = none) ∧
        (x.done + 1 ≠ 2 ^ x.k → ticketOf t key = { x with done := x.done + 1 } ∧ (Fm.get? t.ops r.op).isSome = true))

/-- R179, R335 to R340, R342, R367, R391, R396: LAUNCH starts the descriptor's grid; TRANSFER becomes a copy on die channel 1; GRAPH_LOAD and
GRAPH_UNLOAD are final at once; GRAPH sends its patch to Escapement, and REPLAY starts the graph or waits in its queue, from which REPLAY_DEQUEUE
takes the oldest request; a reduction of one accepted generation ends with DONE, one of two generations with FAULT and nothing written. The model's
readings in log entries 28 and 41 stand in it. -/
def Obligations.CommandsStartTheirWork : Prop :=
  ∀ (s : State),
    (∀ q c, nextCmd s q = some c → cmdOk s q c = true →
      let a := acceptCmd s q c.kind 0 c
      (c.kind = 1 → kindOk q 1 = true → c.world ≠ 0 → (isService q = true → c.w 16 8 = 0 ∧ c.w 24 8 = 0) → ∀ b d,
        worldMarked s (cmdDie q) c.world (c.w 8 8) 256 = false →
        worldBytes s (cmdDie q) c.world (c.w 8 8) 256 = .ok b → parseDesc b = some d → neverFits d = false →
        ∃ t, exec (.launch q) s = .next t ∧ CommandTaken s t q ∧ t = { a.1 with grids := t.grids, pends := t.pends, nextOp := a.1.nextOp + 1 } ∧
          Fm.get? t.grids a.1.nextOp = some { world := c.world, queue := q, seq := a.2, left := d.teams } ∧
          (∀ k die, d.dieList[k]? = some die → k < d.teams →
            { grid := a.1.nextOp, die := die, world := c.world, d := dieCopy a.1 c.world die d, next := k, step := d.dieList.length } ∈ t.pends)) ∧
      (c.kind = 3 → kindOk q 3 = true → c.w 24 8 % 128 = 0 → c.w 24 8 ≠ 0 → ¬(isHostAddr (c.w 8 8) = true ∧ isHostAddr (c.w 16 8) = true) →
        let side (x : Nat) (dst : Bool) : SideRes :=
          if isHostAddr x then .ok (.host (x - 2 ^ 63)) [] else checkSide s none (cmdDie q) c.world x (rowShape (c.w 24 8)) dst
        (isHostAddr (c.w 8 8) = true ∨ isHostAddr (c.w 16 8) = true → tdiRuns s q c.world = true) → ∀ x rd y wr,
          side (c.w 8 8) false = .ok x rd → side (c.w 16 8) true = .ok y wr →
          ∃ t id o, exec (.transfer q) s = .next t ∧ CommandTaken s t q ∧
            let chan := dieChan (if isHostAddr (c.w 8 8) = true then y.home else x.home) 1
            Fm.get? t.ops id = some o ∧ o.world = c.world ∧ o.kind = .copy chan (some { src := x, dst := y, sh := rowShape (c.w 24 8) }) none ∧
            Fm.get? t.cmds id = some (q, a.2) ∧ Fm.getD t.chans chan [] = Fm.getD s.chans chan [] ++ [id]) ∧
      (c.kind = 4 → isService q = true → Fm.get? s.loads q = none → c.w 16 8 % 64 = 0 → c.w 24 8 ≤ 20544 →
        ((pagePieces (c.w 24 8 / 65536 + 2) (c.w 16 8) (c.w 24 8)).all fun p => match xlate s (cmdDie q) c.world p.1 with
          | .ok x => nfield x.d 5 3 == 0
          | .error _ => false) = true →
        c.w 8 8 ≤ 63 → (∀ x, Fm.get? s.graphs (c.w 8 8) = some x → x.world = c.world) → graphBusy s (c.w 8 8) = false →
        worldMarked s (cmdDie q) c.world (c.w 16 8) (c.w 24 8) = false → ∀ b x,
          worldBytes s (cmdDie q) c.world (c.w 16 8) (c.w 24 8) = .ok b → parseGraph c.world b = some x →
          let l : Load := { seq := a.2, n := c.w 8 8, world := c.world, graph := some x }
          let u := { a.1 with loads := Fm.put a.1.loads q l }
          exec (.graphLoad q) s = .next (if started u q a.2 = true then LoadSettled u q l else u)) ∧
      (c.kind = 5 → isService q = true → Fm.get? s.loads q = none → c.w 16 8 = 0 → c.w 24 8 = 0 → graphBusy s (c.w 8 8) = false → ∀ x,
        Fm.get? s.graphs (c.w 8 8) = some x → x.world = c.world →
        let l : Load := { seq := a.2, n := c.w 8 8, world := c.world, graph := none }
        let u := { a.1 with loads := Fm.put a.1.loads q l }
        exec (.graphUnload q) s = .next (if started u q a.2 = true then LoadSettled u q l else u)) ∧
      (c.kind = 2 → kindOk q 2 = true → (isService q = true → c.w 24 8 = 0) → q < 8192 → c.w 8 8 ≤ 63 → graphLoading s (c.w 8 8) = false → ∀ x p b,
        Fm.get? s.graphs (c.w 8 8) = some x → x.world = c.world →
        (c.w 16 8 = 0 ∨ patchWaits s (cmdDie q) c.world (c.w 16 8) false = false) →
        (if c.w 16 8 = 0 then .ok [] else patchBytes s (cmdDie q) c.world (c.w 16 8) .other) = .ok p → patchBlock x.block p = some b →
        (x.queue = [] → canStart s (c.w 8 8) x = true → ∃ t, exec (.replay q) s = .next t ∧ CommandTaken s t q ∧ t = { a.1 with replays := t.replays } ∧
          Fm.get? t.replays (freeReplay s) = some { graph := c.w 8 8, world := c.world, queue := q, seq := a.2, block := b, node := x.start }) ∧
        (x.queue ≠ [] ∨ canStart s (c.w 8 8) x = false → x.queue.length < 64 → ∃ t, exec (.replay q) s = .next t ∧ CommandTaken s t q ∧
          t = { a.1 with graphs := t.graphs } ∧
          Fm.get? t.graphs (c.w 8 8) = some { x with queue := x.queue ++ [{ queue := q, seq := a.2, block := b }] }))) ∧
    (∀ q l, Fm.get? s.loads q = some l → ∀ i ∈ [Instr.graphLoad q, .graphUnload q],
      exec i s = .next (if started s q l.seq = true then LoadSettled s q l else s)) ∧
    (∀ w id o n p gid f g, headRequest s w = some (id, o, n, p) → graphLoading s n = false → Fm.get? s.ops id = some o → journalRoom s (8192 + w) = true → o.group = some gid → o.flag = some f →
      Fm.get? s.groups gid = some g → ∃ t, exec (.replay (8192 + w)) s = .next t ∧ Completed s t id gid f (regsOf g)) ∧
    (∀ n x r rest, Fm.get? s.graphs n = some x → x.queue = r :: rest → canStart s n x = true →
      ∃ t, exec (.replayDequeue n) s = .next t ∧ t = { s with graphs := t.graphs, replays := t.replays } ∧
        Fm.get? t.graphs n = some { x with queue := rest } ∧
        Fm.get? t.replays (freeReplay s) = some { graph := n, world := x.world, queue := r.queue, seq := r.seq, block := r.block, node := x.start }) ∧
    (∀ (g : BitVec 4) (n p : BitVec 6) (f : BitVec 4) (i : Iss) (bs : List Byte), prelude s g (graphForm f) = .ok i → i.act ≠ 0 → flagFull i.g f = false →
      let va := (readS s i.g p.toNat).toNat
      (p = 0 ∨ patchWaits s (i.g.core / 48) (worldOf s i.g) va true = false) →
      (if p = 0 then .ok [] else patchBytes s (i.g.core / 48) (worldOf s i.g) va (.lane i.gid (firstLane i.act)) true) = .ok bs →
      let u := if p = 0 then s else useWalks s i.g.core (worldOf s i.g) false ((pagePieces 2 va bs.length).map fun x => x.1)
      ∃ t, exec (.graph g n p f) s = .next t ∧ InFlight t u.nextOp i f 1 (.graphReq (readS s i.g n.toNat).toNat bs) i.lanes ∧
        IssuedAs { u with ops := t.ops, nextOp := t.nextOp, pmus := t.pmus } t i (flagged i.g f u.nextOp) (regsOf i.g) (latch i.g) (onward i)) ∧
    (∀ (r : Reduction) p rest k j, r.parts = p :: rest → Fm.get? s.keys r.world = some k → r.die < 8 → Fm.get? s.journals r.queue = some j →
      r.seq ∈ j.opens →
      ((∃ q ∈ rest, q.1 ≠ p.1) → exec (.inNetworkReduction r) s = .next (journalFinal s r.queue r.seq jFault 0x50 0 none)) ∧
      ((∀ q ∈ rest, q.1 = p.1) → k.st = 1 → genOk k p.1 = true → ∀ xs w,
        reduceSides s r.die r.world (pagePieces (p.2.length / 65536 + 2) r.dst p.2.length) = .ok xs →
        whole s (reduceWrites s.freeCtr xs 0) = w → w.ok = true →
        exec (.inNetworkReduction r) s =
          .next (journalFinal { w.s with freeCtr := w.s.freeCtr + 1 } r.queue r.seq jDone 0 0 (some w.stamp))))

/-- R337, R338: what each node of a replay does: a KERNEL starts its grid and a COPY its copy on die channel 0, and when that is over the replay goes on
to NEXT; COND goes to NEXT or ALT by a word of memory; LOOP goes to ALT COUNT times and then to NEXT, its counter back at 0; WAIT goes on when its
word, its time or its event is there; SIGNAL stores or adds; an ASYNC node that ends sets its event. The model's readings in log entry 28 stand in
it. -/
def Obligations.NodesOfAReplayRun : Prop :=
  ∀ (s : State) (k : Nat) (r : Replay) (n : List Byte),
    (∀ x ∈ ([(.kernelNode k, 0), (.copyNode k, 1)] : List (Instr × Nat)), nodeAt s k x.2 = some (r, n) → ∀ w v, r.work = some w →
      workOver s w = some (none, v) →
      ∃ t, exec x.1 s = .next t ∧ ReplayMovesTo (clearWork s w) t k { r with latest := laterOf r.latest v } (nNext n)) ∧
    (nodeAt s k 0 = some (r, n) → r.work = none → worldMarked s 0 r.world (bField n 8 8) 256 = false → ∀ b d, worldBytes s 0 r.world (bField n 8 8) 256 = .ok b → parseDesc b = some d → neverFits d = false →
      r.world ≠ 0 → let u := (startGrid s r.world r.queue r.seq (some k) { d with params := some r.block }).1
      ∃ t, exec (.kernelNode k) s = .next t ∧
        Fm.get? t.grids s.nextOp = some { world := r.world, queue := r.queue, seq := r.seq, left := d.teams, node := some k } ∧
        (nAsync n = false → t = { u with replays := Fm.put s.replays k { r with work := some (.grid s.nextOp) } }) ∧
        (nAsync n = true → ReplayMovesTo u t k { r with async := Fm.put r.async s.nextOp (r.node, .grid s.nextOp) } (nNext n))) ∧
    (nodeAt s k 1 = some (r, n) → r.work = none → let die := bField n 32 1 % 8; ∀ sh cp rd wr, shapeOf (bField n 24 8) = some sh →
      checkCopy s none die r.world (bField n 8 8) (bField n 16 8) sh = .ok cp rd wr →
      ∃ t id o, exec (.copyNode k) s = .next t ∧ Fm.get? t.ops id = some o ∧ o.world = r.world ∧ o.kind = .copy (dieChan die 0) (some cp) none ∧
        Fm.getD t.chans (dieChan die 0) [] = Fm.getD s.chans (dieChan die 0) [] ++ [id] ∧
        (nAsync n = false → Fm.get? t.replays k = some { r with work := some (.copy id none) }) ∧
        (nAsync n = true → nNext n ≠ nodeEnd → Fm.get? t.replays k =
          some { r with async := Fm.put r.async id (r.node, .copy id none), node := nNext n, work := none, since := none })) ∧
    (nodeAt s k 2 = some (r, n) → vaMarked s 0 r.world (paramOf r n (bField n 8 8) 8) 8 = false → ∀ v, wordAt s r.world (paramOf r n (bField n 8 8) 8) = .ok v →
      ∃ t, exec (.condNode k) s = .next t ∧ ReplayMovesTo s t k r (if v &&& bField n 16 8 = bField n 24 8 then nNext n else nAlt n)) ∧
    (nodeAt s k 3 = some (r, n) →
      let c := Fm.getD r.ctrs r.node 0
      let more := decide (c < paramOf r n (bField n 8 4) 4)
      ∃ t, exec (.loopNode k) s = .next t ∧
        ReplayMovesTo s t k { r with ctrs := Fm.put r.ctrs r.node (if more then c + 1 else 0) } (if more then nAlt n else nNext n)) ∧
    (nodeAt s k 4 = some (r, n) →
      (r.since = none → exec (.waitNode k) s = .next { s with replays := Fm.put s.replays k { r with since := some s.dial } }) ∧
      (∀ b, r.since = some b →
        (bField n 8 1 = 0 → vaMarked s 0 r.world (paramOf r n (bField n 16 8) 8) 8 = false → ∀ v, wordAt s r.world (paramOf r n (bField n 16 8) 8) = .ok v → v &&& bField n 24 8 = bField n 32 8 →
          ∃ t, exec (.waitNodeSatisfied k) s = .next t ∧ ReplayMovesTo s t k r (nNext n)) ∧
        (bField n 8 1 = 1 → b + bField n 16 8 ≤ s.dial → ∃ t, exec (.waitNodeSatisfied k) s = .next t ∧ ReplayMovesTo s t k r (nNext n)) ∧
        (bField n 8 1 = 2 → r.events.getLsbD (bField n 16 8 % 16) = true →
          ∃ t, exec (.waitNodeSatisfied k) s = .next t ∧ ReplayMovesTo s t k r (nNext n)))) ∧
    (nodeAt s k 5 = some (r, n) →
      let va := paramOf r n (bField n 8 8) 8
      let add := bField n 24 1 == 1
      va % 8 = 0 → ∀ x, checkVa s 0 r.world va 8 (if add then .atom else .store) (fun _ => []) = .ok x →
        let home := homeDie (secOf x.phys)
        let old := if add then leNat (peek s home (encOf s x.d x.o) x.phys 8 .newest) else 0
        ∀ w, writePhys (markUsed s x true) home x.phys (encOf s x.d x.o) (leBytes 8 ((old + bField n 16 8) % 2 ^ 64)) 0 0 = w → w.ok = true →
          ∃ t, exec (.signalNode k) s = .next t ∧ ReplayMovesTo w.s t k { r with latest := laterOf r.latest (some w.stamp) } (nNext n)) ∧
    ∀ node key w v x y, Fm.get? s.replays k = some r →
      (r.async.find? fun e => e.2.1 == node && (workOver s e.2.2).isSome) = some (key, node, w) → workOver s w = some (none, v) → r.node ≠ nodeEnd →
      Fm.get? s.graphs r.graph = some x → x.nodes[node]? = some y →
      exec (.asyncNodeCompletion k node) s = .next { clearWork s w with
        replays := Fm.put s.replays k { r with async := Fm.del r.async key, events := r.events ||| BitVec.ofNat 16 (2 ^ nEvent y),
                                               latest := laterOf r.latest v } }

/-- R384, R388 to R392, R362: a doorbell sets its queue's tail, if the count is in range; an arm is kept 64 deep; a read of an effect word returns the
oldest final entry, and takes it with a valid arm; BAR2 reads and writes reach the memory of an aperture in RUN with IDE, a request without IDE is
refused or puts the TDI in ERROR; a port's reset unlocks its TDIs; a snoop answer ends the host's share. The model's readings in log entries 38 and
39 stand in it. -/
def Obligations.HostPortRequests : Prop :=
  ∀ (s : State) (port fn : Nat), port ≤ 1 →
    (∀ w (tail : BitVec 64) x, w < 2048 → (fn = 0 ∨ fn = w) → (∀ p ∈ s.posted, ¬(p.port = port ∧ p.fn = fn)) →
      passed s 8 (Fm.get? s.hostV (portKey port fn)) = true →
      Fm.get? s.queues (portKey port w) = some x →
      ∃ t, exec (.doorbellWrite port fn (0x100000 + w * 4096) tail) s = .next t ∧ t = { s with queues := t.queues } ∧
        Fm.get? t.queues (portKey port w) = some (if x.tail ≤ tail.toNat ∧ tail.toNat ≤ x.taken + x.slots then { x with tail := tail.toNat } else x) ∧
        ∀ k, k ≠ portKey port w → Fm.get? t.queues k = Fm.get? s.queues k) ∧
    (∀ who (value : BitVec 64), ∃ t, exec (.armWrite port who value) s = .next t ∧ t = { s with arms := t.arms } ∧
      Fm.getD t.arms port [] =
        { who := who, off := value.toNat % 65536, at_ := s.dial } :: (((Fm.getD s.arms port []).filter fun a => a.who != who).take 63)) ∧
    (∀ who w x, w < 2048 → (fn = 0 ∨ fn = w) → Fm.get? s.queues (portKey port w) = some x →
      let off := 0x4000 + 8 * w
      let armed := ∃ a ∈ Fm.getD s.arms port [], a.who = who ∧ a.off = off ∧ s.dial ≤ a.at_ + 1000
      (¬armed → ∃ t, exec (.effectWindowRead port fn who off) s = .next t ∧ t = { s with reply := t.reply } ∧
        (x.finals = [] → t.reply = some (leBytes 8 (2 ^ 62))) ∧
        ∀ e ∈ x.finals, (∀ y ∈ x.finals, y ≠ e → e.1 < y.1) → t.reply = some (leBytes 8 (e.1 % 2 ^ 32 + e.2 % 256 * 2 ^ 32))) ∧
      (armed → ∃ t, exec (.effectWindowRead port fn who off) s = .next t ∧ t = { s with reply := t.reply, arms := t.arms, queues := t.queues } ∧
        (∀ a, a ∈ Fm.getD t.arms port [] ↔ a ∈ Fm.getD s.arms port [] ∧ a.who ≠ who) ∧
        (x.finals = [] → t.reply = some (leBytes 8 (2 ^ 62)) ∧ t.queues = s.queues) ∧
        ∀ e ∈ x.finals, (∀ y ∈ x.finals, y ≠ e → e.1 < y.1) → t.reply = some (leBytes 8 (e.1 % 2 ^ 32 + e.2 % 256 * 2 ^ 32 + 2 ^ 63)) ∧
          Fm.get? t.queues (portKey port w) = some { x with finals := x.finals.filter fun y => y != e })) ∧
    (∀ who off, off < 0x1000 → ∃ bs, bs.length = 8 ∧ exec (.effectWindowRead port fn who off) s = .next { s with reply := some bs }) ∧
    (∀ off n cxl, modeOk s port cxl = true → tdiOf s port fn = 2 →
      (∀ buf o r, hasStream s port fn = true → apertureAt s port fn off n .hostRead = some (buf, o) →
        let parts := secPieces (n / 128 + 2) o n
        operandReads s (parts.map fun p => physOf (descOf s buf) p.1) = r → r.ok = true →
        ∃ t, exec (.bar2Read port fn off n ⟨.stream, cxl⟩) s = .next t ∧
          t.reply = some (parts.flatMap fun p => hostReadPart r.s (descOf s buf) p.1 p.2) ∧
          (cxl = true → ∀ p ∈ parts, (port, secOf (physOf (descOf s buf) p.1)) ∈ t.hostShare) ∧
          (cxl = false → t.hostShare = r.s.hostShare ∧ t.l2 = r.s.l2)) ∧
      exec (.bar2Read port fn off n ⟨.none, cxl⟩) s = .next { s with reply := none }) ∧
    (∀ off n bs cxl, modeOk s port cxl = true → 1 ≤ fn → fn ≤ 2047 →
      exec (.bar2Read port fn off n ⟨.broken, cxl⟩) s = .next { s with tdis := Fm.put s.tdis (portKey port fn) 3, reply := none } ∧
      ∃ t, exec (.bar2Write port fn off ⟨.broken, cxl⟩ bs) s = .next t ∧ tdiOf t port fn = 3 ∧
        t = { s with tdis := Fm.put s.tdis (portKey port fn) 3, reply := none, posted := t.posted }) ∧
    (∀ off bs cxl, let p : Posted := { port := port, fn := fn, off := off, cxl := cxl, bytes := bs }
      modeOk s port cxl = true → tdiOf s port fn = 2 →
      (hasStream s port fn = true → reachesCode s port fn off bs.length = true →
        exec (.bar2Write port fn off ⟨.stream, cxl⟩ bs) s =
          .next { s with tdis := Fm.put s.tdis (portKey port fn) 3, reply := none, posted := s.posted.erase p }) ∧
      (∀ buf o w, hasStream s port fn = true → reachesCode s port fn off bs.length = false → apertureAt s port fn off bs.length .hostWrite = some (buf, o) →
        writeBuf (if cxl then unshare s port (bufSecs s buf o bs.length) else s) buf o bs = w → (∀ q ∈ s.posted, ¬(q.port = port ∧ q.fn = fn)) →
        (w.ok = true → exec (.bar2Write port fn off ⟨.stream, cxl⟩ bs) s =
          .next { w.s with hostV := Fm.put w.s.hostV (portKey port fn) (max (Fm.getD w.s.hostV (portKey port fn) 0) w.stamp) }) ∧
        (w.ok = false → ∃ t, exec (.bar2Write port fn off ⟨.stream, cxl⟩ bs) s = .next t ∧ p ∈ t.posted)) ∧
      ∃ t, exec (.bar2Write port fn off ⟨.none, cxl⟩ bs) s = .next t ∧ t = { s with tdis := t.tdis, reply := none, posted := s.posted.erase p } ∧
        tdiOf t port fn = 3) ∧
    (∀ off, ∃ t, exec (.registerWrite (.config port off) 0) s = .next t ∧ t = { s with reply := t.reply } ∧
      (s.stopped = some 0 → t.reply = some [1, 0])) ∧
    (∃ t, exec (.hostPortReset port) s = .next t ∧ t = { s with tdis := t.tdis, ides := t.ides, posted := t.posted } ∧ Fm.getD t.ides port [] = [] ∧
      (∀ p, p ∈ t.posted ↔ p ∈ s.posted ∧ p.port ≠ port) ∧
      ∀ k, Fm.getD t.tdis k 0 = if k / 2048 = port then 0 else Fm.getD s.tdis k 0) ∧
    ∀ sec, ∃ t, exec (.backInvalidationSnoopAnswer port sec) s = .next t ∧ t = { s with hostShare := t.hostShare } ∧
      ∀ e, e ∈ t.hostShare ↔ e ∈ s.hostShare ∧ e ≠ (port, sec)

/-- R361, R362, R363, R367, R398: a session, of a TDI or of the management endpoint, is negotiated step by step, exchanges its keys, and is open from
FINISH to END_SESSION; a measurement is the running bundle's or the world's own; KEY_UPDATE advances PGEN and keeps the previous generation; TDISP locks, starts and unlocks a TDI in an open
session only. The order of the SPDM requests is presumed (log entry 13). The model's readings in log entry 40 stand in it. -/
def Obligations.SessionsAndInterfaces : Prop :=
  ∀ (s : State),
    (∀ k, k ≤ 4096 →
      let x := Fm.getD s.sessions k {}
      (∀ o ∈ ([(.getVersion k, true, { conn := 1, phase := 0 }), (.getCapabilities k, x.conn == 1, { x with conn := 2 }),
          (.negotiateAlgorithms k, x.conn == 2, { x with conn := 3 }), (.getDigests k, x.conn == 3, x), (.getCertificate k, x.conn == 3, x),
          (.challenge k, x.conn == 3, x), (.keyExchange k, x.conn == 3 && x.phase == 0, { x with phase := 1 }),
          (.finish k, x.phase == 1, { x with phase := 2 }), (.heartbeat k, x.phase == 2, x), (.endSession k, x.phase == 2, { x with phase := 0 })] :
          List (Instr × Bool × Session)),
        (o.2.1 = true → ∃ t, exec o.1 s = .next t ∧ t = { s with sessions := t.sessions, reply := some [] } ∧ Fm.get? t.sessions k = some o.2.2 ∧
          ∀ j, j ≠ k → Fm.get? t.sessions j = Fm.get? s.sessions j) ∧
        (o.2.1 = false → exec o.1 s = .next { s with reply := none })) ∧
      (x.conn = 3 → ∃ t, exec (.getMeasurements k 0) s = .next t ∧ t.reply = some (digestBytes s.boot.current.digest) ∧
        t = { s with sessions := t.sessions, reply := t.reply }) ∧
      (k < 4096 → x.conn = 3 → ∀ n w m, n < 4 → Fm.get? s.worlds (k % 2048) = some w → w.mrs[n]? = some m →
        ∃ t, exec (.getMeasurements k (n + 1)) s = .next t ∧ t.reply = some (digestBytes m) ∧ t = { s with sessions := t.sessions, reply := t.reply }) ∧
      (k = 4096 → x.phase = 2 → ∃ t, exec (.keyUpdate k) s = .next t ∧ t = { s with sessions := t.sessions, reply := some [] }) ∧
      (∀ e, k < 4096 → x.phase = 2 → Fm.get? s.keys (k % 2048) = some e →
        ∃ t, exec (.keyUpdate k) s = .next t ∧ t = { s with sessions := t.sessions, keys := t.keys, reply := some [] } ∧
          Fm.get? t.keys (k % 2048) = some { e with pgen := e.pgen + 1, pprev := true, peers := min 2 (e.peers + 1) })) ∧
    ∀ port w, port ≤ 1 → 1 ≤ w → w ≤ 2047 →
      let open_ := (Fm.getD s.sessions (portKey port w) {}).phase = 2
      let ides := Fm.getD s.ides port []
      (∀ o ∈ ([(TdispMessage.lock, some 0, 1, takeStream ides w), (.start, some 1, 2, some ides), (.unlock, none, 0, some (ides.filter (· != w)))] :
          List (TdispMessage × Option Nat × Nat × Option (List Nat))),
        open_ → (∀ y, o.2.1 = some y → tdiOf s port w = y) → ∀ l, o.2.2.2 = some l →
        ∃ t, exec (.tdispRequest port w o.1) s = .next t ∧ t = { s with tdis := t.tdis, ides := t.ides, reply := some [] } ∧
          tdiOf t port w = o.2.2.1 ∧ Fm.getD t.ides port [] = l ∧ (∀ j, j ≠ port → Fm.get? t.ides j = Fm.get? s.ides j) ∧
          ∀ j, j ≠ portKey port w → Fm.get? t.tdis j = Fm.get? s.tdis j) ∧
      (open_ → tdiOf s port w = 0 → 64 ≤ ides.length → w ∉ ides → exec (.tdispRequest port w .lock) s = .next { s with reply := none }) ∧
      (¬open_ → ∀ m, exec (.tdispRequest port w m) s = .next { s with reply := none })

/-- R357 to R359, R363, R365, R366, R384, R398, R399: a world is created with a key of its own, its attributes and MR0 over the running bundle; its
teardown kills its teams, unloads its graphs and frees its tickets at once, and later drops the record, the queues and every cached byte; a package
reset boots a passing bundle and clears the part but for what lasts; an acknowledged bundle raises the counters; without an acknowledgement the
previous bundle comes back, or the package is held; a new slice kernel is taken up slice by slice. The model's readings in log entries 42, 43 and 44
stand in it. -/
def Obligations.WorldsAndFirmware : Prop :=
  ∀ (s : State),
    (∀ (r : WorldRequest) q, createOk s r = true →
      whole { s with worlds := Fm.put s.worlds r.world (newWorld s r), keyCtr := s.keyCtr + 1 }
        [fun t => writeBuf t r.ringBuf 0 (freshHdr (r.errSlots.getD 64) 64),
         fun t => writeBuf t r.ringBuf (orphanPlace (r.errSlots.getD 64)) (freshHdr (r.orphanSlots.getD 64) 32)] = q → q.ok = true →
      ∃ t w, exec (.worldCreation r) s = .next t ∧ t = { q.s with keys := t.keys, journals := t.journals } ∧
        Fm.get? t.worlds r.world = some w ∧ w.conf = r.conf ∧ w.replay = r.replay ∧ w.rootBuf = r.rootBuf ∧ w.rootOff = r.rootOff ∧
        w.ringBuf = r.ringBuf ∧ w.mrs = [extendMr 0 (digestBytes s.boot.current.digest), 0, 0, 0] ∧ w.windows = [] ∧ w.peers = [] ∧
        t.keyCtr = s.keyCtr + 1 ∧ w.key = t.keyCtr ∧
        Fm.get? t.keys r.world = some { st := 1, conf := r.conf, src := r.fromSpdm, mgen := (Fm.getD s.keys r.world {}).mgen + 1 }) ∧
    (∀ world w k, world ≠ 0 → Fm.get? s.worlds world = some w → Fm.get? s.keys world = some k →
      (k.st = 1 → ∃ t, exec (.worldTeardown world) s = .next t ∧ Fm.get? t.keys world = some { k with st := 2 } ∧
        (∀ e ∈ t.teams, e.2.world ≠ world) ∧ (∀ e ∈ t.graphs, e.2.world ≠ world) ∧ (∀ p ∈ t.pends, p.world ≠ world) ∧
        ∀ n, (ticketOf t n).st ≠ 0 → (ticketOf t n).world ≠ world) ∧
      (k.st ≠ 1 → worldIdle s world = true → ∃ t, exec (.worldTeardown world) s = .next t ∧ Fm.get? t.worlds world = none ∧
        Fm.get? t.keys world = some { mgen := k.mgen } ∧ (∀ e ∈ t.queues, e.2.world ≠ world) ∧ (∀ e ∈ t.tlb, e.world ≠ world) ∧ (∀ e ∈ t.ccache, e.world ≠ world) ∧
        ∀ f ∈ t.l1, f.world ≠ world)) ∧
    (∀ (b : Bundle) (rest : List Bundle), s.boot.staged = none → bundleOk b s.boot.counters = true →
      ∀ c, (c = ResetCause.management ∨ c = .perst ∨ (c = .fatalError ∧ s.holdReset = false ∧ s.boot.fetching = none ∧ ∃ n, s.stopped = some n ∧ n ≤ s.dial)) →
      ∃ t, exec (.packageReset c (b :: rest)) s = .next t ∧ PackageIsReset s t ∧ t.stopped = none ∧ t.boot.current = b ∧ t.posted = [] ∧
        (Fm.get? t.worlds 0).map (fun w => w.mrs) = some [extendMr 0 (digestBytes b.digest), 0, 0, 0] ∧
        (b.digest ≠ s.boot.current.digest → t.boot.previous = s.boot.current.digest ∧ t.boot.deadline = some 600000000000) ∧
        (b.digest = s.boot.current.digest → t.boot.previous = s.boot.previous ∧ t.boot.nonce = s.boot.nonce)) ∧
    (∀ offers, s.holdReset = true → exec (.packageReset .fatalError offers) s = .next s) ∧
    (∀ (b : Bundle) (rest : List Bundle), bundleOk b s.boot.counters = true →
      ∃ t, exec (.powerOn (b :: rest)) s = .next t ∧ t.groups = [] ∧ t.teams = [] ∧ t.dsyn = [] ∧ t.poison = [] ∧ t.boot.current = b ∧
        t.boot.counters = s.boot.counters ∧ t.stopped = none) ∧
    (∀ (a : Acknowledgement), let b := s.boot.current;
      (∀ n, s.boot.deadline = some n → n ≤ s.dial → exec (.attestationAcknowledgement a) s = .next s) ∧
      ∀ n, s.boot.deadline = some n → s.dial < n → s.boot.fetching = none →
      (a.nonce = s.boot.nonce → a.digest = b.digest → Config.ownerSig a.nonce a.digest a.sig = true →
        exec (.attestationAcknowledgement a) s =
          .next { s with boot := { s.boot with counters := (b.svnKernel, b.svnMonitor, b.svnFirmware), deadline := none } }) ∧
      (a.nonce ≠ s.boot.nonce ∨ a.digest ≠ b.digest → exec (.attestationAcknowledgement a) s = .next s)) ∧
    (∀ o ∈ ([(Instr.attestationWatchdogExpiry, decide (∃ d, s.boot.deadline = some d ∧ d ≤ s.dial) && s.boot.fetching.isNone),
        (Instr.bundleFetchRetry, match s.boot.fetching with
          | some n => decide (n ≤ s.dial)
          | none => false)] : List ((Option Bundle → Instr) × Bool)), o.2 = true →
      (∀ b, b.digest = s.boot.previous → bundleOk b s.boot.counters = true →
        ∃ t, exec (o.1 (some b)) s = .next t ∧ PackageIsReset s t ∧ t.stopped = none ∧ t.boot.current = b ∧ t.boot.deadline = none ∧
          t.boot.fetching = none) ∧
      ∃ t, exec (o.1 none) s = .next t ∧ PackageIsReset s t ∧ t.stopped.isSome = true ∧ t.boot.fetching = some 30000000000) ∧
    (∀ b, s.boot.staged = some b → b.kernelOnly = true → bundleOk b s.boot.counters = true → (∀ n, n < 24 → versionOf s n = s.version) →
      ∃ t, exec (.sliceVersionSwitch 0 (s.version + 1)) s = .next t ∧ t = { s with boot := t.boot, freeCtr := t.freeCtr, version := t.version, versions := t.versions } ∧
        t.version = s.version + 1 ∧ versionOf t 0 = (if inService s 0 = true then s.version else s.version + 1) ∧ (∀ n, 1 ≤ n → n < 24 → versionOf t n = s.version) ∧ t.boot.current = b ∧
        t.boot.previous = s.boot.current.digest ∧ t.boot.deadline = some (s.dial + 600000000000)) ∧
    (∀ n, n ≤ 23 → (n = 0 ∨ versionOf s (n - 1) = s.version) → versionOf s n + 1 = s.version → inService s n = false →
      ∃ t, exec (.sliceVersionSwitch n s.version) s = .next t ∧ t = { s with versions := t.versions } ∧ versionOf t n = s.version ∧
        ∀ j, j ≠ n → versionOf t j = versionOf s j) ∧
    ∀ b, exec (.firmwareUpdateStage b) s = .next { s with boot := { s.boot with staged := some b } }

/-- R85 to R105, R60 to R73: every well-formed instruction reads back from its word, with each operand at each value; what decoding yields is well
formed and has a word. -/
def Obligations.EncodedInstructionsDecodeBack : Prop :=
  (∀ (i : Instr) (w : Word), i.wf = true → encode i = some w → decode w = .ok i) ∧
    ∀ (w : Word) (i : Instr), decode w = .ok i → i.wf = true ∧ (encode i).isSome = true

/-- R19, R182, R397: every step keeps the memories in their canonical form, the clock and the power cap within their bounds, and gates issue
only at the clock's floor. -/
def Obligations.EveryStepKeepsTheInvariant : Prop :=
  ∀ (s t : State), Inv s → step s = .next t → Inv t

/-- R19, R345, R384: the machine right after reset meets the invariant, holds no group and no team, and its dial reads 0. The model's readings in log
entries 3 and 4 stand in it. -/
def Obligations.ResetMeetsTheInvariant : Prop :=
  Inv State.reset ∧ State.reset.groups = [] ∧ State.reset.teams = [] ∧ State.reset.dial = 0 ∧ State.reset.clock = 2100 ∧
    (∀ a, Mem.read State.reset.hbm a = 0) ∧ ∀ k, (ticketOf State.reset k).st = 0

/-- R59, R86, R168, R350, R355: when a core's turn comes, the group that the regulator grants executes the instruction whose word stands at its bundle;
a word that decodes to none traps its lanes with ILLEGAL_INSTRUCTION; a step that the agenda names is executed, after the steps of higher-ranked
internal activities that are due. The model's readings in log entry 1 stand
in it. -/
def Obligations.StepRunsTheDecodedInstruction : Prop :=
  ∀ (s : State) (rest : List Move),
    (∀ core gid slot g pc w, s.agenda = .issue core :: rest →
      let u := { s with agenda := rest }
      nextGrant u core = some (gid, slot) → Fm.get? (grant u core gid slot).groups gid = some g → nextPc g = some pc →
      let a := noteFetch (grant u core gid slot) g.core (worldOf (grant u core gid slot) g) pc
      (fetchWaits a g.core (worldOf a g) pc = true → step s = .next (holdOff a gid)) ∧
      (fetchWaits a g.core (worldOf a g) pc = false →
        (∀ c, fetchWord a g.core (worldOf a g) pc = .error c → step s = .next (fetchFault a gid c)) ∧
        (fetchWord a g.core (worldOf a g) pc = .ok w →
          let v := a.modGroup gid fun h => { h with word := w }
          (∀ i, decode w = .ok i → bundleLegal g i = false → step s = exec i { v with cur := some gid }) ∧
          (∀ i, decode w = .ok i → bundleLegal g i = true → constWaits v g i = false → step s = exec i { fillConsts v g i with cur := some gid }) ∧
          (∀ i, decode w = .ok i → bundleLegal g i = true → constWaits v g i = true → step s = .next (holdOff v gid)) ∧
          (∀ e i, decode w = .error e → issueOf { v with cur := some gid } 12 = some i →
            step s = .next (trapAll { v with cur := some gid } i cIllegal (wordSyn w)))))) ∧
    ∀ i, s.agenda = .event i :: rest → let u := { s with agenda := rest }
      (s.stopped = none ∨ whileStopped i = true →
        (rankOf i = none → step s = exec i { u with cur := none }) ∧
        (firstChange u (aboveEvents u i) = none → step s = exec i { u with cur := none }) ∧
        ∀ t, firstChange u (aboveEvents u i) = some (.next t) → step s = .next { t with agenda := .event i :: t.agenda }) ∧
      (s.stopped ≠ none → whileStopped i = false → step s = .next { u with cur := none })

/-- R59, R60, R85 to R104: words written out from the encodings stand for their instructions, one of each form: the worked words ICMP.LT, PLACE.ADD,
FENCE.p, MIGR and CSRR of "Worked decoding", and IADD, MOVIV, LD, BR, TKLD, MMA and a SCHED hint; OP 0x00 stands for none. -/
def Obligations.WordsDecodeAsTheSpecEncodesThem : Prop :=
  decode 0x530A0405 = .ok (.icmp 12 1 2 0x04 0x05) ∧ decode 0xE7022191 = .ok (.place 12 1 2 3 1 1) ∧
    decode 0xF720202C = .ok (.fence 12 2 1 3) ∧ decode 0xEB080050 = .ok (.migr 12 5) ∧ decode 0xFB112003 = .ok (.csrr 12 9 0 3) ∧
    decode 0xFB113001 = .ok (.csrr 12 9 1 1) ∧ decode 0b000001_0011_000101_00000001_01000010 = .ok (.iadd 3 5 0x01 0x42) ∧
    decode 0b011001_1100_000101_1000000000000001 = .ok (.moviv 12 5 0x8001) ∧
    decode 0b101101_1100_000100_00000010_0001_0110 = .ok (.ld 12 4 0x02 1 6) ∧
    decode 0b111011_0000_101000_1111111111111110 = .ok (.br 0 40 0xFFFE) ∧
    decode 0b110100_1100_000_001000_000100_101_0010 = .ok (.tkld 12 8 4 5 2) ∧
    decode 0b110111_1100_010_0011_01_000110_000_0010 = .ok (.mma 12 3 1 6 0 2) ∧
    decode 0b111111_0000_000000000010_011_010_001_1 = .ok (.hintSched 2 3 2 1 1) ∧ decode 0x03FFFFFF = .error .opcode
end

