-- ==== Sys2Proof/Laws/Table.lean ====
section
/-! SUPPORT. The laws of sparse tables and of byte memories: a read after a write, and the canonical form that every memory operation
keeps. -/

namespace Sys2Proof.Machine

theorem Fm.get?_put {β : Type} (m : Fm β) (k j : Nat) (v : β) :
    Fm.get? (Fm.put m k v) j = if j = k then some v else Fm.get? m j := by
  induction m with
  | nil => by_cases h : j = k <;> simp [Fm.put, Fm.get?, h]
  | cons e r ih =>
    obtain ⟨a, b⟩ := e
    unfold Fm.put
    by_cases h1 : k = a
    · by_cases h2 : j = k <;> simp_all [Fm.get?]
    · by_cases h2 : k < a
      · by_cases h3 : j = k <;> simp [h1, h2, h3, Fm.get?]
      · by_cases h3 : j = a
        · have : ¬ j = k := by omega
          simp [h1, h2, Fm.get?, h3]
          intro h; omega
        · simp [h1, h2, Fm.get?, h3, ih]

@[simp] theorem Fm.get?_put_same {β : Type} (m : Fm β) (k : Nat) (v : β) : Fm.get? (Fm.put m k v) k = some v := by
  simp [Fm.get?_put]

theorem Fm.get?_put_other {β : Type} (m : Fm β) {k j : Nat} (v : β) (h : j ≠ k) : Fm.get? (Fm.put m k v) j = Fm.get? m j := by
  simp [Fm.get?_put, h]

theorem Fm.getD_put {β : Type} (m : Fm β) (k j : Nat) (v d : β) :
    Fm.getD (Fm.put m k v) j d = if j = k then v else Fm.getD m j d := by
  unfold Fm.getD; rw [Fm.get?_put]; split <;> rfl

theorem Fm.get?_filter_none {β : Type} (m : Fm β) (k : Nat) (p : Nat × β → Bool) (h : ∀ v, p (k, v) = false) :
    Fm.get? (m.filter p) k = none := by
  induction m with
  | nil => rfl
  | cons e r ih =>
    obtain ⟨a, b⟩ := e
    by_cases hp : p (a, b)
    · have : k ≠ a := by intro hk; subst hk; simp [h b] at hp
      simp [hp, Fm.get?, this, ih]
    · simp [hp, ih]

theorem Fm.get?_filter_keep {β : Type} (m : Fm β) (k : Nat) (p : Nat × β → Bool) (h : ∀ v, p (k, v) = true) :
    Fm.get? (m.filter p) k = Fm.get? m k := by
  induction m with
  | nil => rfl
  | cons e r ih =>
    obtain ⟨a, b⟩ := e
    by_cases hk : k = a
    · subst hk; simp [h b, Fm.get?]
    · by_cases hp : p (a, b) <;> simp [hp, Fm.get?, hk, ih]

theorem Fm.get?_del {β : Type} (m : Fm β) (k j : Nat) : Fm.get? (Fm.del m k) j = if j = k then none else Fm.get? m j := by
  unfold Fm.del
  split
  · rename_i h; subst h; exact Fm.get?_filter_none _ _ _ (by simp)
  · rename_i h; exact Fm.get?_filter_keep _ _ _ (by simp [h])

theorem Fm.get?_mapVals {β γ : Type} (m : Fm β) (f : Nat → β → γ) (k : Nat) :
    Fm.get? (Fm.mapVals m f) k = (Fm.get? m k).map (f k) := by
  induction m with
  | nil => rfl
  | cons e r ih =>
    obtain ⟨a, b⟩ := e
    by_cases hk : k = a
    · subst hk; simp [Fm.mapVals, Fm.get?]
    · have := ih
      simp only [Fm.mapVals] at this
      simp [Fm.mapVals, Fm.get?, hk, this]

theorem Fm.get?_mod {β : Type} (m : Fm β) (k j : Nat) (f : β → β) :
    Fm.get? (Fm.mod m k f) j = if j = k then (Fm.get? m k).map f else Fm.get? m j := by
  induction m with
  | nil => simp [Fm.mod, Fm.get?]
  | cons e r ih =>
    obtain ⟨a, b⟩ := e
    unfold Fm.mod
    by_cases h1 : k = a
    · subst h1
      by_cases h2 : j = k <;> simp [Fm.get?, h2]
    · by_cases h2 : j = a
      · have : ¬ j = k := by omega
        simp [Fm.get?, h1, h2]
        intro h; exact absurd h.symm h1
      · simp [Fm.get?, h1, h2, ih]

theorem Fm.mem_of_get? {β : Type} {m : Fm β} {k : Nat} {v : β} (h : Fm.get? m k = some v) : (k, v) ∈ m := by
  induction m with
  | nil => simp [Fm.get?] at h
  | cons e r ih =>
    obtain ⟨a, b⟩ := e
    by_cases hk : k = a
    · subst hk; simp [Fm.get?] at h; simp [h]
    · simp [Fm.get?, hk] at h; simp [ih h]

theorem Mem.read_write (m : Mem) (a c : Nat) (b : Byte) (hm : Mem.wf m = true) :
    Mem.read (Mem.write m a b) c = if c = a then b else Mem.read m c := by
  suffices h : ∀ lo, Mem.wfFrom lo m = true → Fm.getD (Mem.write m a b) c Mem.empty = if c = a then b else Fm.getD m c Mem.empty from h 0 hm
  clear hm
  have none_low : ∀ (m : Mem) lo c, Mem.wfFrom lo m = true → c < lo → Fm.get? m c = none := by
    intro m
    induction m with
    | nil => intros; rfl
    | cons e r ih =>
      obtain ⟨x, y⟩ := e
      intro lo c h hc
      simp [Mem.wfFrom] at h
      have : c ≠ x := by omega
      simp [Fm.get?, this]
      exact ih (x + 1) c h.2 (by omega)
  induction m with
  | nil =>
    intro lo _
    unfold Mem.write
    by_cases hb : b = Mem.empty <;> by_cases hc : c = a <;> simp [hb, hc, Fm.getD, Fm.get?]
  | cons e r ih =>
    obtain ⟨x, y⟩ := e
    intro lo h
    simp [Mem.wfFrom] at h
    obtain ⟨⟨h1, h2⟩, h3⟩ := h
    unfold Mem.write
    by_cases hax : a = x
    · subst hax
      by_cases hb : b = Mem.empty
      · by_cases hc : c = a
        · subst hc; simp [hb, Fm.getD, none_low r _ _ h3 (Nat.lt_succ_self _)]
        · simp [hb, hc, Fm.getD, Fm.get?]
      · by_cases hc : c = a <;> simp [hb, hc, Fm.getD, Fm.get?]
    · by_cases hlt : a < x
      · by_cases hb : b = Mem.empty
        · by_cases hc : c = a
          · subst hc
            have := none_low r _ c h3 (by omega)
            simp [hax, hlt, hb, Fm.getD, Fm.get?, this]
          · simp [hax, hlt, hb, hc]
        · by_cases hc : c = a <;> simp [hax, hlt, hb, hc, Fm.getD, Fm.get?]
      · have ih' := ih (x + 1) h3
        by_cases hcx : c = x
        · subst hcx
          have : ¬ c = a := by omega
          simp [hax, hlt, this, Fm.getD, Fm.get?]
        · simp only [Fm.getD] at ih'
          simp [hax, hlt, Fm.getD, Fm.get?, hcx, ih']

theorem Mem.write_wfFrom (m : Mem) (a : Nat) (b : Byte) : ∀ lo, Mem.wfFrom lo m = true → lo ≤ a → Mem.wfFrom lo (Mem.write m a b) = true := by
  induction m with
  | nil =>
    intro lo _ hlo
    unfold Mem.write
    by_cases hb : b = Mem.empty <;> simp [hb, Mem.wfFrom, hlo]
  | cons e r ih =>
    obtain ⟨x, y⟩ := e
    intro lo h hlo
    simp [Mem.wfFrom] at h
    obtain ⟨⟨h1, h2⟩, h3⟩ := h
    have weaken : ∀ (m : Mem) l k, Mem.wfFrom l m = true → k ≤ l → Mem.wfFrom k m = true := by
      intro m l k hm hk
      cases m with
      | nil => rfl
      | cons e r => obtain ⟨p, q⟩ := e; simp [Mem.wfFrom] at hm ⊢; exact ⟨⟨by omega, hm.1.2⟩, hm.2⟩
    unfold Mem.write
    by_cases hax : a = x
    · subst hax
      by_cases hb : b = Mem.empty
      · simp [hb]; exact weaken r _ _ h3 (by omega)
      · simp [hb, Mem.wfFrom, hlo, h3]
    · by_cases hlt : a < x
      · by_cases hb : b = Mem.empty
        · simp [hax, hlt, hb, Mem.wfFrom, h1, h2, h3]
        · simp [hax, hlt, hb, Mem.wfFrom, hlo, h2, h3] <;> omega
      · simp [hax, hlt, Mem.wfFrom, h1, h2]; exact ih (x + 1) h3 (by omega)

/-- A write keeps the canonical form. -/
theorem Mem.write_wf (m : Mem) (a : Nat) (b : Byte) (h : Mem.wf m = true) : Mem.wf (Mem.write m a b) = true :=
  Mem.write_wfFrom m a b 0 h (Nat.zero_le _)

theorem Mem.filter_wf (m : Mem) (p : Host.Cell → Bool) (h : Mem.wf m = true) : Mem.wf (m.filter p) = true := by
  suffices g : ∀ lo, Mem.wfFrom lo m = true → Mem.wfFrom lo (m.filter p) = true from g 0 h
  clear h
  induction m with
  | nil => intros; rfl
  | cons e r ih =>
    obtain ⟨x, y⟩ := e
    intro lo h
    simp [Mem.wfFrom] at h
    by_cases hp : p (x, y)
    · simp [hp, Mem.wfFrom, h.1.1, h.1.2, ih _ h.2]
    · have g := ih _ h.2
      simp [hp]
      cases hr : r.filter p with
      | nil => rfl
      | cons e t => obtain ⟨u, v⟩ := e; rw [hr] at g; simp [Mem.wfFrom] at g ⊢; exact ⟨⟨by omega, g.1.2⟩, g.2⟩

/-- Clearing a range keeps the canonical form. -/
theorem Mem.clear_wf (m : Mem) (a n : Nat) (h : Mem.wf m = true) : Mem.wf (Mem.clear m a n) = true := Mem.filter_wf m _ h

/-- A write of several bytes keeps the canonical form. -/
theorem Mem.writeN_wf (bs : List Byte) : ∀ (m : Mem) (a : Nat), Mem.wf m = true → Mem.wf (Mem.writeN m a bs) = true := by
  induction bs with
  | nil => intro m a h; exact h
  | cons b r ih => intro m a h; exact ih _ _ (Mem.write_wf m a b h)

/-- A fold of writes keeps the canonical form. -/
theorem Mem.foldl_wf {α : Type} (l : List α) (f : Mem → α → Mem) (hf : ∀ m x, Mem.wf m = true → Mem.wf (f m x) = true) :
    ∀ m : Mem, Mem.wf m = true → Mem.wf (l.foldl f m) = true := by
  induction l with
  | nil => intro m h; exact h
  | cons x r ih => intro m h; exact ih _ (hf m x h)

/-- Bytes outside a cleared range stay. -/
theorem Mem.read_clear (m : Mem) (a n c : Nat) : Mem.read (Mem.clear m a n) c = if a ≤ c ∧ c < a + n then Mem.empty else Mem.read m c := by
  unfold Mem.read Fm.getD Mem.clear
  split
  · rename_i h; rw [Fm.get?_filter_none _ _ _ (by intro v; simp [h.1, h.2])]; rfl
  · rename_i h; rw [Fm.get?_filter_keep _ _ _ (by intro v; simp at h ⊢; omega)]

end Sys2Proof.Machine
end

