-- ==== Sys2Proof/Laws/Issue.lean ====
section
/-! SUPPORT. What an issue does: the laws of lanes and of the frontier, the releases that follow an issue, and the whole effect of an
instruction that raises nothing. -/

namespace Sys2Proof.Machine

theorem maskBelow_lt (f : Nat → Bool) (n : Nat) : maskBelow f n < 2 ^ n := by
  induction n with
  | zero => simp [maskBelow]
  | succ n ih => unfold maskBelow; rw [Nat.pow_succ]; split <;> omega

theorem maskBelow_testBit (f : Nat → Bool) (n l : Nat) (h : l < n) : (maskBelow f n).testBit l = f l := by
  induction n with
  | zero => omega
  | succ n ih =>
    have hb := maskBelow_lt f n
    unfold maskBelow
    by_cases hl : l = n
    · subst hl
      by_cases hf : f l
      · simp only [hf, if_true, Nat.add_comm]
        rw [Nat.testBit_two_pow_add_eq]
        simp [Nat.testBit_lt_two_pow hb]
      · simp [hf, Nat.testBit_lt_two_pow hb]
    · have hl' : l < n := by omega
      by_cases hf : f n
      · simp only [hf, if_true, Nat.add_comm]
        rw [Nat.testBit_two_pow_add_gt hl']
        exact ih hl'
      · simp [hf, ih hl']

/-- A lane mask holds what its test accepts. -/
@[simp] theorem getLsbD_maskOf (f : Nat → Bool) (l : Nat) : (maskOf f).getLsbD l = (decide (l < 64) && f l) := by
  unfold maskOf
  rw [BitVec.getLsbD_ofNat]
  by_cases h : l < 64
  · simp [h, maskBelow_testBit f 64 l h]
  · simp [h]

theorem getElem?_lanesOf {α : Type} (f : Nat → α) (l : Nat) : (lanesOf f)[l]? = if l < 64 then some (f l) else none := by
  unfold lanesOf
  by_cases h : l < 64 <;> simp [h]

@[simp] theorem laneW_lanesOf (f : Nat → Word) (l : Nat) : laneW (lanesOf f) l = if l < 64 then f l else 0 := by
  unfold laneW; rw [getElem?_lanesOf]; split <;> rfl

theorem lane_of_lanesOf (g : Group) (f : Nat → Lane) (l : Nat) (h : l < 64) : ({ g with lanes := lanesOf f } : Group).lane l = f l := by
  simp [Group.lane, getElem?_lanesOf, h]

/-- A mask other than 0 has a lane. -/
theorem exists_lane (m : LaneMask) (h : m ≠ 0) : ∃ l, l < 64 ∧ m.getLsbD l = true := by
  apply Classical.byContradiction
  intro hn
  apply h
  apply BitVec.eq_of_getLsbD_eq
  intro i hi
  cases hm : m.getLsbD i
  · simp
  · exact absurd ⟨i, hi, hm⟩ hn

/-- What a release does to a group: WAITING lanes may become ISSUABLE elsewhere; nothing else changes but the frontier and URG. -/
structure Wakes (g h : Group) : Prop where
  rest  : h = { g with lanes := h.lanes, ents := h.ents, urg := h.urg }
  stays : ∀ l, (g.lane l).waiting = false → h.lane l = g.lane l
  keeps : ∀ l, (h.lane l).trapPc = (g.lane l).trapPc ∧ (h.lane l).trapCause = (g.lane l).trapCause ∧
    (h.lane l).trapAddr = (g.lane l).trapAddr

theorem Wakes.refl (g : Group) : Wakes g g := ⟨rfl, fun _ _ => rfl, fun _ => ⟨rfl, rfl, rfl⟩⟩

theorem Wakes.trans {g h k : Group} (a : Wakes g h) (b : Wakes h k) : Wakes g k := by
  refine ⟨?_, fun l hl => ?_, fun l => ?_⟩
  · rw [b.rest, a.rest]
  · have := a.stays l hl
    rw [b.stays l (by rw [this]; exact hl), this]
  · have p := a.keeps l
    have q := b.keeps l
    exact ⟨q.1.trans p.1, q.2.1.trans p.2.1, q.2.2.trans p.2.2⟩

theorem Wakes.urg (g : Group) (n : Nat) : Wakes g { g with urg := n } := ⟨rfl, fun _ _ => rfl, fun _ => ⟨rfl, rfl, rfl⟩⟩

/-- Lanes changed one by one, where only WAITING lanes change and their trap registers stand. -/
theorem Wakes.mapLanes (g : Group) (f : Lane → Lane) (es : List Ent) (h1 : ∀ x : Lane, x.waiting = false → f x = x)
    (h2 : ∀ x : Lane, (f x).trapPc = x.trapPc ∧ (f x).trapCause = x.trapCause ∧ (f x).trapAddr = x.trapAddr) :
    Wakes g { g with lanes := g.lanes.map f, ents := es } := by
  have hd : f { pc := 0, prio := 0, st := .exited } = { pc := 0, prio := 0, st := .exited } := h1 _ rfl
  have hl : ∀ l, ({ g with lanes := g.lanes.map f, ents := es } : Group).lane l = f (g.lane l) := by
    intro l
    simp only [Group.lane, List.getElem?_map]
    cases g.lanes[l]? with
    | none => exact hd.symm
    | some x => rfl
  exact ⟨rfl, fun l h => by rw [hl, h1 _ h], fun l => by rw [hl]; exact h2 _⟩

theorem Wakes.releaseBarrier (g : Group) (b : Nat) : Wakes g (g.releaseBarrier b) := by
  unfold Group.releaseBarrier
  apply Wakes.mapLanes
  · intro x hx
    unfold Lane.waiting at hx
    split <;> simp_all
  · intro x
    split
    · split <;> exact ⟨rfl, rfl, rfl⟩
    · exact ⟨rfl, rfl, rfl⟩

/-- A fold keeps a reflexive and transitive relation. -/
theorem foldl_rel {α β : Type} (R : β → β → Prop) (hr : ∀ b, R b b) (ht : ∀ {a b c}, R a b → R b c → R a c) (f : β → α → β)
    (h : ∀ b a, R b (f b a)) : ∀ (l : List α) (b : β), R b (l.foldl f b) := by
  intro l
  induction l with
  | nil => intro b; exact hr b
  | cons a r ih => intro b; exact ht (h b a) (ih _)

theorem Wakes.reconvRelease (g : Group) : Wakes g (reconvRelease g) := by
  unfold Machine.reconvRelease
  apply foldl_rel Wakes Wakes.refl Wakes.trans
  intro g pc
  simp only
  split
  · apply Wakes.mapLanes
    · intro x hx
      unfold Lane.waiting at hx
      split <;> simp_all
    · intro x
      refine ⟨?_, ?_, ?_⟩ <;> exact (apply_ite _ _ _ _).trans (ite_self _)
  · exact Wakes.refl g

theorem both_refl {α : Type} {r : α → α → Prop} (h : ∀ x, r x x) (o : Option α) : Safety.Both r o o := by
  cases o
  · trivial
  · exact h _

theorem both_trans {α : Type} (p q r : α → α → Prop) (h : ∀ {x y z}, p x y → q y z → r x z) {a b c : Option α}
    (x : Safety.Both p a b) (y : Safety.Both q b c) : Safety.Both r a c := by
  cases a <;> cases b <;> cases c <;> first | trivial | exact x.elim | exact y.elim | exact h x y

/-- What the releases after an issue do to the state. -/
structure Woken (s t : State) : Prop where
  only   : t = { s with groups := t.groups, teams := t.teams }
  groups : ∀ k, Safety.Both Wakes (Fm.get? s.groups k) (Fm.get? t.groups k)
  teams  : Safety.TeamsKept s t

theorem Woken.refl (s : State) : Woken s s :=
  ⟨rfl, fun _ => both_refl Wakes.refl _, fun _ => rfl⟩

theorem Woken.trans {s t u : State} (a : Woken s t) (b : Woken t u) : Woken s u := by
  exact ⟨by rw [b.only, a.only], fun k => both_trans Wakes Wakes Wakes Wakes.trans (a.groups k) (b.groups k), fun k => (b.teams k).trans (a.teams k)⟩

/-- A change of one group. -/
@[simp] theorem get?_modGroup (s : State) (gid k : Nat) (f : Group → Group) :
    Fm.get? (s.modGroup gid f).groups k = if k = gid then (Fm.get? s.groups gid).map f else Fm.get? s.groups k := by
  unfold State.modGroup; exact Fm.get?_mod _ _ _ _

@[simp] theorem get?_modTeam (s : State) (tm k : Nat) (f : Team → Team) :
    Fm.get? (s.modTeam tm f).teams k = if k = tm then (Fm.get? s.teams tm).map f else Fm.get? s.teams k := by
  unfold State.modTeam; exact Fm.get?_mod _ _ _ _

theorem Woken.modGroup (s : State) (gid : Nat) (f : Group → Group) (h : ∀ g, Wakes g (f g)) : Woken s (s.modGroup gid f) := by
  refine ⟨rfl, fun k => ?_, fun _ => rfl⟩
  rw [get?_modGroup]
  by_cases hk : k = gid
  · subst hk; rw [if_pos rfl]; cases Fm.get? s.groups k <;> simp [Safety.Both, h]
  · rw [if_neg hk]; exact both_refl Wakes.refl _

theorem Woken.modBarriers (s : State) (tm : Nat) (f : Team → Fm Barrier) : Woken s (s.modTeam tm fun x => { x with barriers := f x }) := by
  refine ⟨rfl, fun k => ?_, fun k => ?_⟩
  · exact both_refl Wakes.refl _
  · rw [get?_modTeam]
    by_cases hk : k = tm
    · subst hk; cases Fm.get? s.teams k <;> simp
    · simp [hk]

theorem Woken.barrierPhase (s : State) (t k : Nat) : Woken s (barrierPhase s t k) := by
  unfold Machine.barrierPhase
  split
  · exact Woken.refl s
  · simp only
    split
    · refine Woken.trans ?_ (Woken.modBarriers _ _ _)
      apply foldl_rel Woken Woken.refl Woken.trans
      intro s ge
      apply Woken.modGroup
      exact fun g => (Wakes.releaseBarrier g _).trans (Wakes.urg _ 0)
    · exact Woken.refl s

theorem Woken.barrierCheck (s : State) (t : Nat) : Woken s (barrierCheck s t) := by
  unfold Machine.barrierCheck
  split
  · exact Woken.refl s
  · apply foldl_rel Woken Woken.refl Woken.trans
    intro s e
    exact (Woken.barrierPhase s t e.1).trans (Woken.barrierPhase _ t e.1)

/-- The lane is ISSUABLE or PARKED. -/
def Lane.busy (x : Lane) : Prop := x.st = .issuable ∨ ∃ f, x.st = .parked f

theorem Lane.busy_not_waiting {x : Lane} (h : x.busy) : x.waiting = false := by
  rcases h with h | ⟨f, h⟩ <;> simp [Lane.waiting, h]

theorem lane_mem {g : Group} {l : Nat} (h : (g.lane l).busy) : g.lane l ∈ g.lanes := by
  unfold Group.lane at h ⊢
  cases hl : g.lanes[l]? with
  | none => rw [hl] at h; rcases h with h | ⟨f, h⟩ <;> simp at h
  | some x => exact List.mem_of_getElem? hl

/-- A group with an ISSUABLE or PARKED lane is not stuck at a RECONV (R39). -/
theorem reconvStuck_false (g : Group) (l : Nat) (h : (g.lane l).busy) : reconvStuck g = false := by
  have hm := lane_mem h
  rcases h with h | ⟨f, h⟩
  · have : (g.lanes.any fun x => x.st == .issuable) = true := List.any_eq_true.mpr ⟨_, hm, by simpa using h⟩
    simp [reconvStuck, this]
  · have : g.lanes.any Lane.keepsOff = true := List.any_eq_true.mpr ⟨_, hm, by simp [Lane.keepsOff, h]⟩
    simp [reconvStuck, this]

/-- A team with an ISSUABLE or PARKED lane does not wait for ever (R170). -/
theorem allWaiting_false (s : State) (gid l : Nat) (g : Group) (hg : Fm.get? s.groups gid = some g) (h : (g.lane l).busy) :
    allWaiting s g.team = false := by
  have hm : (gid, g) ∈ s.groupsOf g.team := by
    unfold State.groupsOf
    exact List.mem_filter.mpr ⟨Fm.mem_of_get? hg, by simp⟩
  have hl := lane_mem h
  have : (g.lanes.all fun x => !x.live || x.waiting) = false := by
    rw [List.all_eq_false]
    refine ⟨_, hl, ?_⟩
    rcases h with h | ⟨f, h⟩ <;> simp [Lane.live, Lane.waiting, h]
  have : ((s.groupsOf g.team).all fun e => !e.2.endDue && e.2.lanes.all fun x => !x.live || x.waiting) = false := by
    rw [List.all_eq_false]
    exact ⟨_, hm, by simp [this]⟩
  unfold allWaiting
  rw [this, Bool.and_false]

/-- After an issue that leaves a lane ISSUABLE or PARKED, only releases happen (R38, R39, R169, R170). -/
theorem Woken.afterLanes (s : State) (gid l : Nat) (g : Group) (hg : Fm.get? s.groups gid = some g) (h : (g.lane l).busy) :
    Woken s (afterLanes s gid) := by
  unfold Machine.afterLanes
  rw [hg]
  have hw : Woken s (Machine.barrierCheck (s.modGroup gid reconvRelease) g.team) :=
    (Woken.modGroup s gid _ Wakes.reconvRelease).trans (Woken.barrierCheck _ _)
  simp only
  generalize Machine.barrierCheck (s.modGroup gid reconvRelease) g.team = u at hw
  have hk := hw.groups gid
  rw [hg] at hk
  cases hu : Fm.get? u.groups gid with
  | none => rw [hu] at hk; exact hk.elim
  | some k =>
    rw [hu] at hk
    have hi : (k.lane l).busy := by rw [hk.stays l (Lane.busy_not_waiting h)]; exact h
    have ht : k.team = g.team := by rw [hk.rest]
    have hz : reconvTraps u gid = u := by simp [reconvTraps, hu, reconvStuck_false k l hi]
    rw [hz, ← ht, allWaiting_false u gid l k hu hi]
    exact hw

/-- What an instruction's registers may do to the group before the issue retires. -/
structure Effect (g h : Group) : Prop where
  rest  : h = { g with v := h.v, s := h.s, p := h.p, b := h.b, settle := h.settle, gs := h.gs, gsq := h.gsq, chain := h.chain }
  chain : h.chain.map (fun c => (c.left, c.faulted)) = g.chain.map fun c => (c.left, c.faulted)

theorem Effect.refl (g : Group) : Effect g g := ⟨rfl, rfl⟩

theorem Effect.trans {g h k : Group} (a : Effect g h) (b : Effect h k) : Effect g k :=
  ⟨by rw [b.rest, a.rest], b.chain.trans a.chain⟩

/-- What holds of an issue that may go on. -/
structure Issuable (s : State) (i : Iss) (g : Group) : Prop where
  cur   : s.cur = some i.gid
  group : Fm.get? s.groups i.gid = some g
  ig    : i.g = { g with settle := i.g.settle, chain := i.g.chain, gs := i.g.gs, gsq := i.g.gsq }
  chain : i.g.chain = g.chain ∨ ∃ c, i.g.chain = some c ∧ c.faulted = false
  ent   : g.issuing = some i.e
  lanes : i.lanes = g.entMask (i.e.pc, i.e.prio)
  some_ : i.lanes ≠ 0
  pc    : i.pcI = i.e.pc + BitVec.ofNat 57 (4 * g.hints.n)

theorem issuable_of_issueOf {s : State} {gd : BitVec 4} {i : Iss} (h : issueOf s gd = some i) : ∃ g, Issuable s i g := by
  unfold issueOf at h
  split at h
  · simp at h
  · rename_i gid hcur
    split at h
    · simp at h
    · rename_i g hg
      split at h
      · simp at h
      · rename_i e he
        simp only at h
        split at h
        · simp at h
        · rename_i hl
          simp only [Option.some.injEq] at h
          subst h
          exact ⟨g, hcur, hg, rfl, .inl rfl, he, rfl, by simpa using hl, rfl⟩

theorem Issuable.withAct {s : State} {i : Iss} {g : Group} (h : Issuable s i g) (m : LaneMask) : Issuable s { i with act := m } g :=
  ⟨h.cur, h.group, h.ig, h.chain, h.ent, h.lanes, h.some_, h.pc⟩

/-- What the checks before an effect leave: what is being issued, with the lanes whose guard is true, and the chain that a CHAIN hint starts. -/
theorem ok_of_prelude {s : State} {gd : BitVec 4} {f : Form} {i : Iss} (h : prelude s gd f = .ok i) :
    ∃ i0 m, issueOf s gd = some i0 ∧ (i = { i0 with act := m } ∨
      ∃ c : Chain, c.faulted = false ∧ i = { i0 with act := m, g := { i0.g with chain := some c } }) := by
  unfold prelude at h
  cases h0 : issueOf s gd with
  | none => rw [h0] at h; cases h
  | some i0 =>
    rw [h0] at h
    simp only at h
    split at h
    · cases h
    · cases hc : i0.g.hints.chain with
      | none =>
        simp only [hc] at h
        generalize (if f.every = true then _ else _ : Iss) = t at h
        split at h
        · cases h
        · split at h
          · cases h
          · cases h; exact ⟨i0, _, rfl, .inl rfl⟩
      | some n =>
        simp only [hc] at h
        generalize (if f.every = true then _ else _ : Iss) = t at h
        split at h
        · cases h
        · split at h
          · cases h
          · cases h; exact ⟨i0, _, rfl, .inr ⟨_, rfl, rfl⟩⟩

theorem issuable_of_prelude {s : State} {gd : BitVec 4} {f : Form} {i : Iss} (h : prelude s gd f = .ok i) : ∃ g, Issuable s i g := by
  obtain ⟨i0, m, h0, e⟩ := ok_of_prelude h
  obtain ⟨g, hi⟩ := issuable_of_issueOf h0
  rcases e with rfl | ⟨c, hc, rfl⟩
  · exact ⟨g, hi.withAct m⟩
  · exact ⟨g, hi.cur, hi.group, by rw [hi.ig], .inr ⟨c, rfl, hc⟩, hi.ent, hi.lanes, hi.some_, hi.pc⟩

/-- A lane that issues is ISSUABLE at the entry's pair (R27). -/
theorem lane_of_issuing {s : State} {i : Iss} {g : Group} (h : Issuable s i g) {l : Nat} (hl : i.lanes.getLsbD l = true) :
    l < 64 ∧ (g.lane l).st = .issuable ∧ (g.lane l).pc = i.e.pc ∧ (g.lane l).prio = i.e.prio := by
  rw [h.lanes] at hl
  unfold Group.entMask at hl
  rw [getLsbD_maskOf] at hl
  simp [Lane.at_] at hl
  exact ⟨hl.1, hl.2.1.1, hl.2.1.2, hl.2.2⟩

open Safety in
theorem Undisturbed.refl (g : Group) : Undisturbed g g :=
  ⟨⟨fun _ _ _ => rfl, fun _ => rfl, fun _ => rfl, fun _ => rfl⟩,
    ⟨rfl, rfl, rfl, rfl, rfl, rfl, rfl, rfl, rfl, rfl, rfl, rfl, rfl, rfl, rfl, rfl, rfl, rfl, rfl, rfl, fun _ _ => ⟨rfl, rfl, rfl⟩⟩,
    .inl rfl, fun _ _ => rfl⟩

open Safety in
theorem sameRest_wakes {g h k : Group} (a : SameRest g h) (w : Wakes h k) : SameRest g k := by
  obtain ⟨a1, a2, a3, a4, a5, a6, a7, a8, a9, a10, a11, a12, a13, a14, a15, a16, a17, a18, a19, a20, al⟩ := a
  have hr := w.rest
  refine ⟨?_, ?_, ?_, ?_, ?_, ?_, ?_, ?_, ?_, ?_, ?_, ?_, ?_, ?_, ?_, ?_, ?_, ?_, ?_, ?_, fun l hl => ?lanes⟩
  case lanes =>
    have p := al l hl
    have q := w.keeps l
    exact ⟨q.1.trans p.1, q.2.1.trans p.2.1, q.2.2.trans p.2.2⟩
  all_goals rw [hr]; assumption

open Safety in
theorem regsAre_wakes {h k : Group} {r : Regs} (a : RegsAre h r) (w : Wakes h k) : RegsAre k r := by
  have hr := w.rest
  obtain ⟨a1, a2, a3, a4⟩ := a
  refine ⟨fun n l hl => ?_, fun n => ?_, fun n => ?_, fun n => ?_⟩
  · rw [← a1 n l hl, hr]; rfl
  · rw [← a2 n, hr]; rfl
  · rw [← a3 n, hr]; rfl
  · rw [← a4 n, hr]

open Safety in
theorem undisturbed_wakes {g h k : Group} (a : Undisturbed g h) (w : Wakes h k) : Undisturbed g k := by
  obtain ⟨a1, a2, a3, a4⟩ := a
  refine ⟨regsAre_wakes a1 w, sameRest_wakes a2 w, ?_, fun l hl => ?_⟩
  · rw [w.rest]; exact a3
  · have := a4 l hl
    rw [w.stays l (by rw [this]; exact hl), this]

open Safety in
/-- The releases after an issue leave another group's registers and lanes. -/
theorem othersKept_woken {s t u : State} {gid : Nat} (a : OthersKept s t gid) (w : Woken t u) : OthersKept s u gid := by
  intro k hk
  exact both_trans Undisturbed Wakes Undisturbed undisturbed_wakes (a k hk) (w.groups k)

open Safety in
theorem othersKept_takePipe (s : State) (core gid : Nat) (pipe : Option Nat) : OthersKept s (takePipe s core gid pipe) gid := by
  intro k hk
  have hs := both_refl Undisturbed.refl (Fm.get? s.groups k)
  unfold takePipe
  split
  · exact hs
  · simp only
    split
    · split
      · show Both Undisturbed (Fm.get? s.groups k) (Fm.get? (s.modGroup _ Group.loseLatches).groups k)
        rw [get?_modGroup]
        split
        · rename_i ho
          subst ho
          cases Fm.get? s.groups k with
          | none => trivial
          | some g =>
            obtain ⟨a1, a2, a3, a4⟩ := Undisturbed.refl g
            exact ⟨a1, a2, .inr rfl, a4⟩
        · exact hs
      · exact hs
    · exact hs

theorem takePipe_own (s : State) (core gid : Nat) (pipe : Option Nat) :
    Fm.get? (takePipe s core gid pipe).groups gid = Fm.get? s.groups gid := by
  unfold takePipe
  split
  · rfl
  · simp only
    split
    · split
      · show Fm.get? (s.modGroup _ Group.loseLatches).groups gid = _
        rw [get?_modGroup]
        split
        · rename_i h1 h2; simp [h2] at h1
        · rfl
      · rfl
    · rfl

theorem takePipe_only (s : State) (core gid : Nat) (pipe : Option Nat) :
    takePipe s core gid pipe = { s with groups := (takePipe s core gid pipe).groups, pipes := (takePipe s core gid pipe).pipes } := by
  unfold takePipe
  split
  · rfl
  · simp only
    split
    · split <;> rfl
    · rfl

/-- A count changes the performance counters only. -/
theorem countUnit_only (s : State) (unit ev : Nat) (ws : List Nat) (n : Nat) :
    countUnit s unit ev ws n = { s with pmus := (countUnit s unit ev ws n).pmus } := by
  unfold countUnit
  split
  · rfl
  · split <;> rfl

/-- The state in which an issue retires: the core has counted an instruction (R354). -/
def countedState (s : State) (i : Iss) : State := countUnit s i.g.core 2 [worldOf s i.g]

open Safety in
theorem counted_countedState (s1 : State) (c : Nat) (i : Iss) : Counted s1 (countedState { s1 with freeCtr := c } i) i := by
  refine .inr ?_
  unfold countedState countUnit
  show (match Fm.get? s1.pmus i.g.core with | none => _ | some p => _ : State).pmus = (match Fm.get? s1.pmus i.g.core with | none => _ | some p => _ : State).pmus
  cases Fm.get? s1.pmus i.g.core <;> rfl

theorem countedState_only (s1 : State) (c : Nat) (i : Iss) :
    countedState { s1 with freeCtr := c } i = { s1 with freeCtr := (countedState { s1 with freeCtr := c } i).freeCtr,
                                                        pmus := (countedState { s1 with freeCtr := c } i).pmus } := by
  have h := countUnit_only { s1 with freeCtr := c } i.g.core 2 [worldOf { s1 with freeCtr := c } i.g] 1
  have hc : (countedState { s1 with freeCtr := c } i).freeCtr = c := by unfold countedState; rw [h]
  rw [hc]
  exact h

theorem firstFatal_none (g : Group) : firstFatal g (fun _ => none) = none := by simp [firstFatal]

/-- Lanes that only move: the state after the issue, before the releases. -/
theorem retire_moves (s : State) (i : Iss) (gr : Group) (fx : Nat → Fx) (pipe : Option Nat)
    (hf : ∀ l, i.lanes.getLsbD l = true → fx l = .seq ∨ ∃ p, fx l = .goto p) :
    ∃ k : Group, retire s i gr fx pipe = afterLanes ((takePipe (countedState s i) i.g.core i.gid pipe).modGroup i.gid fun _ => k) i.gid ∧
      k = { gr with lanes := lanesOf fun l => if i.lanes.getLsbD l then (fx l).apply (gr.lane l) i.pcI gr.vec else gr.lane l,
                    ents := k.ents, cover := k.cover, hints := {}, ent := none, urg := k.urg, starve := 0, yieldHold := k.yieldHold, fresh := k.fresh, since := 0,
                    accepting := false, chain := k.chain, b := k.b } ∧
      k.b = (match gr.chain with
        | some c => if c.faulted && (c.left ≤ 1 || !((List.range 64).any fun l => i.lanes.getLsbD l && fx l == .seq)) then [] else gr.b
        | none => gr.b) := by
  have hk (l : Nat) (h : i.lanes.getLsbD l = true) : (fx l).trap? = none ∧ (fx l).park? = none ∧ (fx l).isCall = false := by
    rcases hf l h with h' | ⟨p, h'⟩ <;> simp [h', Fx.trap?, Fx.park?, Fx.isCall]
  have htr : (fun l => if i.lanes.getLsbD l = true then (fx l).trap? else none) = fun _ => none := by
    funext l; split
    · rename_i h; exact (hk l h).1
    · rfl
  have hpk (l : Nat) : (if i.lanes.getLsbD l = true then (fx l).park? else none) = none := by
    split
    · rename_i h; exact (hk l h).2.1
    · rfl
  have hcl (l : Nat) : (i.lanes.getLsbD l && (fx l).isCall) = false := by
    cases h : i.lanes.getLsbD l
    · rfl
    · simp [(hk l h).2.2]
  have hfs : ((List.range 64).findSome? fun _ : Nat => (none : Option TrapAt)) = none := by simp
  have hfm : ((List.range 64).filterMap fun _ : Nat => (none : Option ParkRec)) = [] := by simp
  have hany : ((List.range 64).any fun _ : Nat => false) = false := by simp
  unfold retire
  simp only [htr, firstFatal_none, hpk, hcl, hfs, hfm, hany, Option.map_none, List.append_nil]
  refine ⟨_, rfl, ?_, ?_⟩
  · unfold nextChain Group.loseLatches
    cases gr.chain with
    | none => simp
    | some c =>
      simp only
      split <;> simp <;> split <;> rfl
  · unfold nextChain Group.loseLatches
    cases gr.chain with
    | none => rfl
    | some c =>
      simp only
      by_cases h1 : (decide (c.left ≤ 1) || !((List.range 64).any fun l => i.lanes.getLsbD l && fx l == .seq)) = true
      · by_cases h2 : c.faulted = true
        · simp [h1, h2]
        · simp [h1, h2]
      · simp [h1]

open Safety in
theorem both_self {s : State} {gid k : Nat} (h : OthersKept s s gid) (hk : k ≠ gid) :
    Both Undisturbed (Fm.get? s.groups k) (Fm.get? s.groups k) := h k hk

open Safety in
/-- The issue of a group that becomes `k`, before the releases: what it does to the state. The issue may retire in a state `s1` that differs
from the one it issued in, but not in its group. -/
theorem settled_core {s s1 sc : State} {g : Group} {i : Iss} {k0 k : Group} {pipe : Option Nat} {r : Regs}
    {nx : Nat → Pair} {st : Nat → LaneState} {q : Group → Prop}
    (hi : Issuable s i g) (hs : Fm.get? s1.groups i.gid = Fm.get? s.groups i.gid)
    (ho : sc = { s1 with freeCtr := sc.freeCtr, pmus := sc.pmus }) (hct : Counted s1 sc i)
    (hk : SameRest k0 k) (hr : RegsAre k r) (hq : ∀ h, Wakes k h → q h) (hb : ∃ l, (k.lane l).busy)
    (hl : ∀ l, l < 64 → if i.lanes.getLsbD l then (k.lane l).waiting = false ∧ (k.lane l).st = st l ∧ (k.lane l).pair = nx l
      else k.lane l = k0.lane l) :
    SettledAt s1 (afterLanes ((takePipe sc i.g.core i.gid pipe).modGroup i.gid fun _ => k) i.gid) i k0 r nx st q := by
  let s2 : State := takePipe sc i.g.core i.gid pipe
  let s3 : State := s2.modGroup i.gid fun _ => k
  have hgr : sc.groups = s1.groups := by rw [ho]
  have hown : Fm.get? s2.groups i.gid = some g := by rw [takePipe_own, ← hi.group, hgr]; exact hs
  have h2 : Fm.get? s3.groups i.gid = some k := by rw [get?_modGroup, if_pos rfl, hown]; rfl
  obtain ⟨l0, hl0⟩ := hb
  have hw : Woken s3 (afterLanes s3 i.gid) := Woken.afterLanes s3 i.gid l0 k h2 hl0
  have hwk := hw.groups i.gid
  rw [h2] at hwk
  have h1 : afterLanes s3 i.gid = { s3 with groups := (afterLanes s3 i.gid).groups, teams := (afterLanes s3 i.gid).teams } := hw.only
  have h3 : s3 = { s2 with groups := s3.groups } := rfl
  have h4 : s2 = { sc with groups := s2.groups, pipes := s2.pipes } := takePipe_only sc _ _ _
  refine ⟨?_, ?_, ?_, ?_, ?_⟩
  · show OnlyGroups s1 (afterLanes s3 i.gid)
    unfold OnlyGroups
    rw [h1, h3, h4, ho]
  · have : (afterLanes s3 i.gid).pmus = sc.pmus := by rw [h1, h3, h4]
    unfold Counted at hct ⊢
    show (afterLanes s3 i.gid).pmus = _ ∨ (afterLanes s3 i.gid).pmus = _
    rw [this]; exact hct
  · intro t
    have := hw.teams t
    have h5 : s3.teams = s1.teams := by show s2.teams = s1.teams; rw [h4, ho]
    rw [h5] at this
    exact this
  · apply othersKept_woken _ hw
    intro j hj
    have ht := othersKept_takePipe sc i.g.core i.gid pipe j hj
    show Both Undisturbed (Fm.get? s1.groups j) (Fm.get? (s2.modGroup i.gid fun _ => k).groups j)
    rw [get?_modGroup, if_neg hj, ← hgr]
    exact ht
  · cases hh : Fm.get? (afterLanes s3 i.gid).groups i.gid with
    | none => rw [hh] at hwk; exact hwk.elim
    | some h =>
      rw [hh] at hwk
      have hwk : Wakes k h := hwk
      refine ⟨h, rfl, sameRest_wakes hk hwk, regsAre_wakes hr hwk, hq h hwk, fun l h64 => ?_⟩
      have := hl l h64
      split
      · rename_i hil
        rw [if_pos hil] at this
        rw [hwk.stays l this.1]
        exact this.2
      · rename_i hil
        rw [if_neg hil] at this
        intro hwt
        rw [hwk.stays l (by rw [this]; exact hwt), this]

open Safety in
/-- An issue whose lanes only move: the group's registers are `gr`'s, every lane stands where `fx` sends it, and the rest stands. -/
theorem issued_of_moves {s s1 : State} {g : Group} {i : Iss} {k0 gr : Group} {fx : Nat → Fx} {pipe : Option Nat} {c : Nat}
    {r : Regs} {b : Nat → Nat → Word} {nx : Nat → Pair}
    (hi : Issuable s i g) (hs : Fm.get? s1.groups i.gid = Fm.get? s.groups i.gid)
    (hc0 : k0.chain = i.g.chain) (hl : ∀ l, (k0.lane l).st = (i.g.lane l).st ∧ (k0.lane l).pc = (i.g.lane l).pc ∧
      (k0.lane l).prio = (i.g.lane l).prio) (he : Effect k0 gr)
    (hf : ∀ l, i.lanes.getLsbD l = true → fx l = .seq ∧ nx l = (pcNext i.pcI, i.e.prio) ∨ fx l = .goto (nx l))
    (hst : chainLost i false = true → ∀ l, i.lanes.getLsbD l = true → fx l = .seq)
    (hr : RegsAre gr r) (hb : ∀ n l, l < 64 → latch gr n l = b n l) :
    IssuedAs s1 (retire { s1 with freeCtr := c } i gr fx pipe) i k0 r b nx := by
  obtain ⟨k, hk, hk1, hk2⟩ := retire_moves { s1 with freeCtr := c } i gr fx pipe (fun l hl => (hf l hl).imp (fun h => h.1) fun h => ⟨_, h⟩)
  rw [hk]
  have hlane : ∀ l, l < 64 → k.lane l = if i.lanes.getLsbD l then (fx l).apply (gr.lane l) i.pcI gr.vec else gr.lane l := by
    intro l hl; rw [hk1]; simp only [Group.lane, getElem?_lanesOf, if_pos hl, Option.getD_some]
  have hgl : ∀ l, gr.lane l = k0.lane l := by
    intro l; rw [he.rest]; rfl
  have hil : ∀ l, i.g.lane l = g.lane l := by
    intro l; rw [hi.ig]; rfl
  obtain ⟨l0, hl0, hl0'⟩ := exists_lane i.lanes hi.some_
  have happ : ∀ l, i.lanes.getLsbD l = true → (k.lane l).st = .issuable ∧ (k.lane l).pair = nx l ∧
      (k.lane l).trapPc = (k0.lane l).trapPc ∧ (k.lane l).trapCause = (k0.lane l).trapCause ∧ (k.lane l).trapAddr = (k0.lane l).trapAddr := by
    intro l hl'
    obtain ⟨h64, hst, hpc, hpr⟩ := lane_of_issuing hi hl'
    obtain ⟨q1, q2, q3⟩ := hl l
    rw [hil] at q1 q2 q3
    rw [hlane l h64, if_pos hl', hgl]
    rcases hf l hl' with ⟨h, hn⟩ | h
    · rw [h]; exact ⟨q1.trans hst, by rw [hn, ← hpr, ← q3]; rfl, rfl, rfl, rfl⟩
    · rw [h]; exact ⟨q1.trans hst, rfl, rfl, rfl, rfl⟩
  have hlg : chainLost i ((List.range 64).any fun l => i.lanes.getLsbD l && fx l == .seq) =
      chainLost i ((List.range 64).any fun l => i.lanes.getLsbD l && nx l == (pcNext i.pcI, i.e.prio)) := by
    unfold chainLost
    cases hc : i.g.chain with
    | none => rfl
    | some ch =>
      by_cases hfa : ch.faulted = true
      · have hcl : chainLost i false = true := by simp [chainLost, hc, hfa]
        have e1 : ((List.range 64).any fun l => i.lanes.getLsbD l && fx l == .seq) = true := by
          rw [List.any_eq_true]; exact ⟨l0, by simpa using hl0, by simp [hl0', hst hcl l0 hl0']⟩
        have e2 : ((List.range 64).any fun l => i.lanes.getLsbD l && nx l == (pcNext i.pcI, i.e.prio)) = true := by
          rw [List.any_eq_true]
          refine ⟨l0, by simpa using hl0, ?_⟩
          rcases hf l0 hl0' with ⟨_, hn⟩ | h
          · simp [hl0', hn]
          · exact absurd (hst hcl l0 hl0') (by rw [h]; simp)
        rw [e1, e2]
      · simp [hfa]
  have hkb : ∀ n l, l < 64 → latch k n l = if chainLost i ((List.range 64).any fun l => i.lanes.getLsbD l && fx l == .seq) then 0 else b n l := by
    intro n l hl
    have hgc := he.chain
    rw [hc0] at hgc
    unfold latch
    rw [hk2]
    unfold chainLost
    cases hc : i.g.chain with
    | none =>
      rw [hc] at hgc
      cases hg : gr.chain with
      | none => simp only [Bool.false_eq_true, if_false]; exact hb n l hl
      | some c2 => rw [hg] at hgc; simp at hgc
    | some c1 =>
      rw [hc] at hgc
      cases hg : gr.chain with
      | none => rw [hg] at hgc; simp at hgc
      | some c2 =>
        rw [hg] at hgc
        simp only [Option.map_some, Option.some.injEq, Prod.mk.injEq] at hgc
        simp only [hgc.1, hgc.2]
        split
        · simp [Fm.getD, Fm.get?, laneW]
        · exact hb n l hl
  refine settled_core hi hs (countedState_only ..) (counted_countedState ..) ?_ ?_ ?_ ⟨l0, .inl (happ l0 hl0').1⟩ ?_
  · have q : ∀ l, l < 64 → (k.lane l).trapPc = (k0.lane l).trapPc ∧ (k.lane l).trapCause = (k0.lane l).trapCause ∧
        (k.lane l).trapAddr = (k0.lane l).trapAddr := by
      intro l hl
      by_cases hil : i.lanes.getLsbD l = true
      · exact (happ l hil).2.2
      · rw [hlane l hl, if_neg hil, hgl]; exact ⟨rfl, rfl, rfl⟩
    refine ⟨?_, ?_, ?_, ?_, ?_, ?_, ?_, ?_, ?_, ?_, ?_, ?_, ?_, ?_, ?_, ?_, ?_, ?_, ?_, ?_, q⟩
    all_goals rw [hk1, he.rest]
  · obtain ⟨r1, r2, r3, r4⟩ := hr
    refine ⟨fun n l hl => ?_, fun n => ?_, fun n => ?_, fun n => ?_⟩
    · rw [← r1 n l hl, hk1]; rfl
    · rw [← r2 n, hk1]; rfl
    · rw [← r3 n, hk1]; rfl
    · rw [← r4 n, hk1]
  · intro h hwk n l hl
    rw [← hlg, ← hkb n l hl]
    unfold latch
    rw [hwk.rest]
  · intro l hl
    split
    · rename_i hil; exact ⟨by simp [Lane.waiting, (happ l hil).1], (happ l hil).1, (happ l hil).2.1⟩
    · rename_i hil; rw [hlane l hl, if_neg hil, hgl]

open Safety in
/-- What every instruction that raises nothing and moves on does (R29). -/
theorem issued_of_finish {s : State} {gd : BitVec 4} {f : Form} {i : Iss} {gr : Group} {pipe : Option Nat} {r : Regs}
    {b : Nat → Nat → Word} (hp : prelude s gd f = .ok i) (he : Effect i.g gr) (hr : RegsAre gr r) (hb : ∀ n l, l < 64 → latch gr n l = b n l) :
    Issued s (finish s i gr pipe) i r b (onward i) :=
  let ⟨_, hi⟩ := issuable_of_prelude hp
  issued_of_moves hi rfl rfl (fun _ => ⟨rfl, rfl, rfl⟩) he (fun _ _ => .inl ⟨rfl, rfl⟩) (fun _ _ _ => rfl) hr hb

theorem findSome_ite {α : Type} (p : Nat → Bool) (f : Nat → α) (l : List Nat) :
    (l.findSome? fun x => if p x = true then some (f x) else none) = (l.find? p).map f := by
  induction l with
  | nil => rfl
  | cons x r ih => by_cases h : p x = true <;> simp [h, ih]

theorem find_firstLane (m : LaneMask) (h : m ≠ 0) : ((List.range 64).find? fun l => m.getLsbD l) = some (firstLane m) := by
  obtain ⟨l, hl, hm⟩ := exists_lane m h
  unfold firstLane
  cases hf : (List.range 64).find? fun l => m.getLsbD l with
  | some x => rfl
  | none =>
    rw [List.find?_eq_none] at hf
    exact absurd hm (hf l (by simpa using hl))

open Safety in
/-- An issue some of whose lanes take an exception, with a handler and below priority 63 (R35, R175). -/
theorem excepted_of_retire {s s1 : State} {g : Group} {i : Iss} {k : Group} {fx : Nat → Fx} {pipe : Option Nat} {c : Nat}
    {m : LaneMask} {tr : Nat → TrapAt}
    (hi : Issuable s i g) (hs : Fm.get? s1.groups i.gid = Fm.get? s.groups i.gid)
    (hkc : k.chain = i.g.chain) (hkl : k.lanes = i.g.lanes) (hkv : k.trapvec = i.g.trapvec) (hkr : RegsAre k (regsOf i.g))
    (hm : ∀ l, m.getLsbD l = true → i.lanes.getLsbD l = true) (hm0 : m ≠ 0) (hh : Handled i m tr)
    (hfx : ∀ l, i.lanes.getLsbD l = true → fx l = if m.getLsbD l then .trap (tr l) else .seq) :
    Excepted s1 (retire { s1 with freeCtr := c } i k fx pipe) i k m tr := by
  have hvec : k.vec = i.g.vec := by unfold Group.vec; rw [hkv]
  have hfx' (l : Nat) : (if i.lanes.getLsbD l = true then (fx l).trap? else none) = if m.getLsbD l = true then some (tr l) else none := by
    by_cases h : i.lanes.getLsbD l = true
    · rw [if_pos h, hfx l h]
      by_cases h2 : m.getLsbD l = true <;> simp [h2, Fx.trap?]
    · have : ¬ m.getLsbD l = true := fun h2 => h (hm l h2)
      simp [h, this]
  have hpk (l : Nat) : (if i.lanes.getLsbD l = true then (fx l).park? else none) = none := by
    split
    · rename_i h; rw [hfx l h]; split <;> rfl
    · rfl
  have hcl (l : Nat) : (i.lanes.getLsbD l && (fx l).isCall) = false := by
    cases h : i.lanes.getLsbD l
    · rfl
    · rw [hfx l h]; split <;> rfl
  have hff : firstFatal k (fun l => if m.getLsbD l = true then some (tr l) else none) = none := by
    unfold firstFatal
    rw [List.findSome?_eq_none_iff]
    intro l hl
    by_cases h : m.getLsbD l = true
    · have h64 : l < 64 := by simpa using hl
      have h1 := hh.2 l h64 h
      have h2 := hh.1
      simp only [h, if_true, fatalTrap, hvec]
      simp only [ite_eq_right_iff, Bool.or_eq_true, beq_iff_eq, reduceCtorEq, imp_false, not_or]
      exact ⟨h1, h2⟩
    · simp [h]
  have hfs : ((List.range 64).findSome? fun l => if m.getLsbD l = true then some (tr l) else none) = some (tr (firstLane m)) := by
    rw [findSome_ite, find_firstLane m hm0]; rfl
  have hfm : ((List.range 64).filterMap fun _ : Nat => (none : Option ParkRec)) = [] := by simp
  have hany : ((List.range 64).any fun _ : Nat => false) = false := by simp
  unfold retire
  simp only [hfx', hff, hpk, hcl, hfs, hfm, hany, Option.map_none, List.append_nil, Option.isSome_some, Bool.true_or, Bool.true_and]
  have key : ∀ K : Group,
      K = { k with lanes := lanesOf fun l => if i.lanes.getLsbD l then (fx l).apply (k.lane l) i.pcI k.vec else k.lane l,
                   ents := K.ents, cover := K.cover, hints := {}, ent := none, urg := K.urg, starve := 0, yieldHold := K.yieldHold, fresh := K.fresh, since := 0, accepting := false,
                   chain := K.chain, b := K.b, trapinfo := infoWord k.trapinfo (tr (firstLane m)).f.word } →
      (i.g.chain = none → K.b = [] ∧ K.cover = none) →
      Excepted s1 (afterLanes ((takePipe (countedState { s1 with freeCtr := c } i) i.g.core i.gid pipe).modGroup i.gid fun _ => K) i.gid) i k m tr := by
    intro K hK hKc
    have hlane : ∀ l, l < 64 → K.lane l = if i.lanes.getLsbD l then (fx l).apply (k.lane l) i.pcI k.vec else k.lane l := by
      intro l hl; rw [hK]; simp only [Group.lane, getElem?_lanesOf, if_pos hl, Option.getD_some]
    have hkg : ∀ l, k.lane l = g.lane l := by
      intro l; unfold Group.lane; rw [hkl, hi.ig]
    have hent : ∀ l, l < 64 → (entered k m tr).lane l = if m.getLsbD l then
        { k.lane l with trapPc := trapPcOf (tr l).at_, trapCause := trapCauseOf (tr l).f, trapAddr := (tr l).f.addr } else k.lane l := by
      intro l hl; simp only [entered, Group.lane, getElem?_lanesOf, if_pos hl, Option.getD_some]
    have hiss : ∀ l, l < 64 → i.lanes.getLsbD l = true → (K.lane l).st = .issuable ∧
        (K.lane l).pair = if m.getLsbD l then (i.g.vec, 63) else (pcNext i.pcI, i.e.prio) := by
      intro l hl hil
      obtain ⟨_, hst, _, hpr⟩ := lane_of_issuing hi hil
      rw [hlane l hl, if_pos hil, hfx l hil]
      by_cases h2 : m.getLsbD l = true
      · rw [if_pos h2, if_pos h2, hvec]; exact ⟨rfl, rfl⟩
      · rw [if_neg h2, if_neg h2, hkg]; exact ⟨hst, by rw [← hpr]; rfl⟩
    obtain ⟨l0, hl0, hl0'⟩ := exists_lane i.lanes hi.some_
    refine settled_core hi hs (countedState_only ..) (counted_countedState ..) ?_ ?_ ?_ ⟨l0, .inl (hiss l0 hl0 hl0').1⟩ ?_
    · have q : ∀ l, l < 64 → (K.lane l).trapPc = ((entered k m tr).lane l).trapPc ∧
          (K.lane l).trapCause = ((entered k m tr).lane l).trapCause ∧ (K.lane l).trapAddr = ((entered k m tr).lane l).trapAddr := by
        intro l hl
        rw [hlane l hl, hent l hl]
        by_cases h : i.lanes.getLsbD l = true
        · rw [if_pos h, hfx l h]
          by_cases h2 : m.getLsbD l = true
          · rw [if_pos h2, if_pos h2]; exact ⟨rfl, rfl, rfl⟩
          · rw [if_neg h2, if_neg h2]; exact ⟨rfl, rfl, rfl⟩
        · have h2 : ¬ m.getLsbD l = true := fun h2 => h (hm l h2)
          rw [if_neg h, if_neg h2]; exact ⟨rfl, rfl, rfl⟩
      refine ⟨?_, ?_, ?_, ?_, ?_, ?_, ?_, ?_, ?_, ?_, ?_, ?_, ?_, ?_, ?_, ?_, ?_, ?_, ?_, ?_, q⟩
      all_goals rw [hK]; rfl
    · obtain ⟨r1, r2, r3, r4⟩ := hkr
      refine ⟨fun n l hl => ?_, fun n => ?_, fun n => ?_, fun n => ?_⟩
      · rw [← r1 n l hl, hK]; rfl
      · rw [← r2 n, hK]; rfl
      · rw [← r3 n, hK]; rfl
      · rw [← r4 n, hK]
    · intro h hw hc
      obtain ⟨h1, h2⟩ := hKc hc
      rw [hw.rest]; exact ⟨h1, h2⟩
    · intro l hl
      split
      · rename_i hil; exact ⟨by simp [Lane.waiting, (hiss l hl hil).1], hiss l hl hil⟩
      · rename_i hil
        have h2 : ¬ m.getLsbD l = true := fun h2 => hil (hm l h2)
        rw [hlane l hl, if_neg hil, hent l hl, if_neg h2]
  refine key _ ?_ ?_
  · unfold nextChain Group.loseLatches
    cases k.chain with
    | none => simp
    | some c =>
      simp only
      split <;> simp <;> split <;> rfl
  · intro hc
    rw [← hkc] at hc
    unfold nextChain Group.loseLatches
    simp [hc]

open Safety in
/-- Every issuing lane takes a cause that goes to TRAPVEC (R35, R86). -/
theorem excepted_of_trapAll {s : State} {g : Group} {i : Iss} {cause : Nat} {syn : BitVec 56} (hi : Issuable s i g)
    (hk : toKernel (BitVec.ofNat 8 cause) = false) (hh : Handled i i.lanes fun _ => atBundle i cause syn) :
    Excepted s (trapAll s i cause syn) i i.g i.lanes fun _ => atBundle i cause syn := by
  unfold trapAll
  have e : s = { s with freeCtr := s.freeCtr } := rfl
  rw [e]
  apply excepted_of_retire (s1 := s) hi rfl rfl rfl rfl ⟨fun _ _ _ => rfl, fun _ => rfl, fun _ => rfl, fun _ => rfl⟩ (fun _ h => h) hi.some_ hh
  intro l hl
  simp [faultFx, hk, hl, atBundle]

end Sys2Proof.Machine
end

