-- ==== Sys2Proof/Laws/Ops.lean ====
section
/-! SUPPORT. What the end of an operation does to its group, said once. -/

namespace Sys2Proof.Machine

open Safety

/-- The registers of a group that keeps them. -/
theorem regsAre_of_eq {g h : Group} (a : h.v = g.v) (b : h.s = g.s) (c : h.p = g.p) (d : h.gs = g.gs) (e : h.gsq = g.gsq) :
    RegsAre h (regsOf g) := by
  refine ⟨fun n l _ => ?_, fun n => ?_, fun n => ?_, fun n => ?_⟩
  · simp [vreg, regsOf, a]
  · simp [sreg, regsOf, b]
  · simp [preg, regsOf, c]
  · simp [regsOf, d, e]

/-- A wait that is over changes nothing of the group but the wait. -/
theorem freed_only (g : Group) : g.freed = { g with hold := g.freed.hold } := by
  unfold Group.freed; split <;> rfl

@[simp] theorem mapPends_ops (s : State) (f : PendW → PendW) : (mapPends s f).ops = s.ops := rfl
@[simp] theorem mapPends_groups (s : State) (f : PendW → PendW) : (mapPends s f).groups = s.groups := rfl

/-- An operation of a group that completes a flag is gone, the flag is one lower, and every register, lane and other group is as before. -/
theorem completed_of_completeOp {s : State} {id gid f : Nat} {o : Op} {g : Group} (ho : Fm.get? s.ops id = some o) (hg : o.group = some gid)
    (hf : o.flag = some f) (h : Fm.get? s.groups gid = some g) : Completed s (completeOp s id) id gid f (regsOf g) := by
  simp only [completeOp, ho, hg, hf]
  refine ⟨by simp [State.modGroup, Fm.get?_del], ⟨g, ?k, h, ?eq, ?f1, ?f2, ?r, ?l⟩, ?_⟩
  case eq => rw [get?_modGroup, if_pos rfl, mapPends_groups, h, Option.map_some, freed_only]
  case f1 => simp [Group.flag, Fm.getD_put]
  case f2 => intro n hn; simp [Group.flag, Fm.getD_put, hn]
  case r => exact regsAre_of_eq rfl rfl rfl rfl rfl
  case l => rfl
  intro k hk
  simp [get?_modGroup, hk]

/-- The end of an operation touches operations, the early visibility of its writes, and its group only, where it has one. -/
theorem completeOp_only {s : State} {id gid : Nat} {o : Op} (ho : Fm.get? s.ops id = some o) (hg : o.group = some gid) :
    completeOp s id = { s with ops := (completeOp s id).ops, l2 := (completeOp s id).l2, memPend := (completeOp s id).memPend,
                               owns := (completeOp s id).owns, groups := (completeOp s id).groups } := by
  simp only [completeOp, ho, hg]; rfl

end Sys2Proof.Machine
end

