-- ==== Sys2Proof/Laws/Regs.lean ====
section
/-! SUPPORT. What the operations that write a group's registers do to them: one law for the registers, one for the latches, and that
nothing else of the group changes. -/

namespace Sys2Proof.Machine

open Safety

theorem effect_putV (g : Group) (lat n : Nat) (act : LaneMask) (val : Nat → Word) : Effect g (putV g lat n act val) := ⟨rfl, rfl⟩

theorem effect_putB (g : Group) (lat n : Nat) (act : LaneMask) (val : Nat → Word) : Effect g (putB g lat n act val) :=
  ⟨rfl, by simp only [putB, Option.map_map]; rfl⟩

theorem effect_putS (g : Group) (lat n : Nat) (x : DWord) : Effect g (putS g lat n x) := by
  unfold putS; split
  · exact Effect.refl g
  · exact ⟨rfl, rfl⟩

theorem effect_putP (g : Group) (lat n : Nat) (act val : LaneMask) : Effect g (putP g lat n act val) := ⟨rfl, rfl⟩

theorem effect_orGsAt (g : Group) (lat : Nat) (b : DWord) : Effect g (g.orGsAt lat b) := by
  unfold Group.orGsAt; split
  · exact Effect.refl g
  · exact ⟨rfl, rfl⟩

theorem effect_orGs (g : Group) (b : DWord) : Effect g (g.orGs b) := ⟨rfl, rfl⟩

theorem effect_putVec32 (g : Group) (p lat : Nat) (d : BitVec 6) (act : LaneMask) (val : Nat → Word) : Effect g (putVec32 g p lat d act val) := by
  unfold putVec32; simp only; split
  · exact effect_putB ..
  · exact (effect_putB ..).trans (effect_putV ..)

theorem effect_putVec64 (g : Group) (p lat : Nat) (d : BitVec 6) (act : LaneMask) (val : Nat → DWord) : Effect g (putVec64 g p lat d act val) := by
  unfold putVec64; exact ((effect_putB ..).trans (effect_putV ..)).trans (effect_putV ..)

theorem effect_putScalar (g : Group) (lat : Nat) (d : BitVec 6) (act : LaneMask) (x : DWord) : Effect g (putScalar g lat d act x) := by
  unfold putScalar; split
  · exact Effect.refl g
  · exact effect_putS ..

theorem effect_putInt (g : Group) (lat n : Nat) (nat : Bool) (a : BitVec 8) (d : BitVec 6) (act : LaneMask) (val : Nat → Int) :
    Effect g (putInt g lat n nat a d act val) := by
  unfold putInt; split
  · exact effect_putScalar ..
  · split
    · exact effect_putVec64 ..
    · exact effect_putVec32 ..

theorem effect_putPair (g : Group) (lat : Nat) (k : BitVec 3) (act : LaneMask) (c : Nat → Bool) : Effect g (putPair g lat k act c) :=
  (effect_putP ..).trans (effect_putP ..)

theorem effect_putNow (g : Group) (n : Nat) (act : LaneMask) (val : Nat → Word) : Effect g (putNow g n act val) := ⟨rfl, rfl⟩

theorem regsAre_refl (g : Group) : RegsAre g (regsOf g) := ⟨fun _ _ _ => rfl, fun _ => rfl, fun _ => rfl, fun _ => rfl⟩

theorem regsAre_putV {g : Group} {r : Regs} (h : RegsAre g r) (lat n : Nat) (act : LaneMask) (val : Nat → Word) :
    RegsAre (putV g lat n act val) (r.setV n act val) := by
  obtain ⟨h1, h2, h3, h4⟩ := h
  refine ⟨fun m l hl => ?_, h2, h3, h4⟩
  have := h1 m l hl
  simp only [vreg] at this
  simp only [vreg, putV, Regs.setV, Fm.getD_put]
  by_cases hm : m = n
  · subst hm; by_cases ha : act.getLsbD l = true <;> simp [ha, hl, this]
  · simp [hm, this]

theorem regsAre_putB {g : Group} {r : Regs} (h : RegsAre g r) (lat n : Nat) (act : LaneMask) (val : Nat → Word) :
    RegsAre (putB g lat n act val) r := h

theorem regsAre_putS {g : Group} {r : Regs} (h : RegsAre g r) (lat n : Nat) (x : DWord) : RegsAre (putS g lat n x) (r.setS n x) := by
  obtain ⟨h1, h2, h3, h4⟩ := h
  by_cases hn : n = 0
  · subst hn
    refine ⟨h1, fun m => ?_, h3, h4⟩
    show sreg g m = (r.setS 0 x).s m
    rw [h2 m]
    simp only [Regs.setS]
    by_cases hm : m = 0 <;> simp [hm]
  · have e : putS g lat n x = { g with s := Fm.put g.s n x, settle := { reg := .s n, old := [Fm.getD g.s n 0], left := lat } :: g.settle } := by
      simp [putS, hn]
    rw [e]
    refine ⟨h1, fun m => ?_, h3, h4⟩
    show (if m = 0 then 0 else Fm.getD (Fm.put g.s n x) m 0) = (r.setS n x).s m
    have := h2 m
    rw [Fm.getD_put]
    simp only [Regs.setS, ← this, sreg]
    by_cases hm : m = 0
    · simp [hm]
    · by_cases hk : m = n
      · subst hk; simp [hm]
      · simp [hm, hk]

theorem regsAre_putP {g : Group} {r : Regs} (h : RegsAre g r) (lat n : Nat) (act val : LaneMask) :
    RegsAre (putP g lat n act val) (r.setP n act val) := by
  obtain ⟨h1, h2, h3, h4⟩ := h
  refine ⟨h1, h2, fun m => ?_, h4⟩
  show Fm.getD (Fm.put g.p n _) m 0 = (r.setP n act val).p m
  rw [Fm.getD_put]
  simp only [Regs.setP, ← h3, preg]
  by_cases hm : m = n
  · subst hm; simp
  · simp [hm]

theorem regsAre_orGs {g : Group} {r : Regs} (h : RegsAre g r) (b : DWord) : RegsAre (g.orGs b) (r.orGs b) := by
  obtain ⟨h1, h2, h3, h4⟩ := h
  refine ⟨h1, h2, h3, fun n => ?_⟩
  show (g.gs ||| b) ||| gsDue g.gsq n = r.gs n ||| b
  rw [← h4 n, BitVec.or_assoc, BitVec.or_assoc, BitVec.or_comm b]

/-- Bits of a fixed-latency instruction come when it completes (R52). -/
theorem regsAre_orGsAt {g : Group} {r : Regs} (h : RegsAre g r) (lat : Nat) (b : DWord) : RegsAre (g.orGsAt lat b) (r.orGsAt lat b) := by
  obtain ⟨h1, h2, h3, h4⟩ := h
  by_cases hb : b = 0
  · subst hb
    exact ⟨h1, h2, h3, fun n => by simp [Group.orGsAt, Regs.orGsAt, h4]⟩
  · have e : g.orGsAt lat b = { g with gsq := (b, lat) :: g.gsq } := by
      unfold Group.orGsAt; rw [if_neg (by simpa using hb)]
    rw [e]
    refine ⟨h1, h2, h3, fun n => ?_⟩
    show g.gs ||| ((if lat ≤ n then b else 0) ||| gsDue g.gsq n) = if lat ≤ n then r.gs n ||| b else r.gs n
    rw [← h4 n]
    by_cases hn : lat ≤ n
    · simp only [hn, if_true]; rw [BitVec.or_comm b, BitVec.or_assoc]
    · simp [hn]

/-- A write of a latch: the active lanes take the value, the others 0 (R74). -/
theorem latch_putB (g : Group) (lat p : Nat) (act : LaneMask) (val : Nat → Word) (n l : Nat) (hl : l < 64) :
    latch (putB g lat p act val) n l = if n = p then (if act.getLsbD l then val l else 0) else latch g n l := by
  simp only [latch, putB, Fm.getD_put]
  by_cases hn : n = p
  · simp [hn, hl]
  · simp [hn]

@[simp] theorem latch_putV (g : Group) (lat k : Nat) (act : LaneMask) (val : Nat → Word) (n l : Nat) :
    latch (putV g lat k act val) n l = latch g n l := rfl

@[simp] theorem latch_putP (g : Group) (lat k : Nat) (act val : LaneMask) (n l : Nat) : latch (putP g lat k act val) n l = latch g n l := rfl

@[simp] theorem latch_orGsAt (g : Group) (lat : Nat) (b : DWord) (n l : Nat) : latch (g.orGsAt lat b) n l = latch g n l := by
  unfold Group.orGsAt; split <;> rfl

@[simp] theorem latch_orGs (g : Group) (b : DWord) (n l : Nat) : latch (g.orGs b) n l = latch g n l := rfl

@[simp] theorem latch_putS (g : Group) (lat k : Nat) (x : DWord) (n l : Nat) : latch (putS g lat k x) n l = latch g n l := by
  unfold putS; split <;> rfl

@[simp] theorem latch_putScalar (g : Group) (lat : Nat) (d : BitVec 6) (act : LaneMask) (x : DWord) (n l : Nat) :
    latch (putScalar g lat d act x) n l = latch g n l := by
  unfold putScalar; split <;> simp

/-- An exact integer placed in a register, as bits (R112). -/
theorem ofNat_placeInt (t : Int) (n : Nat) (nat : Bool) (room : Nat) (hn : 0 < n) (hr : n ≤ room) :
    BitVec.ofNat room (placeInt t n nat room) = if nat then (BitVec.ofInt n t).setWidth room else (BitVec.ofInt n t).signExtend room := by
  have hy : (BitVec.ofInt n t).toNat = (t % 2 ^ n).toNat := by simp [BitVec.toNat_ofInt]
  have hlt : (t % 2 ^ n).toNat < 2 ^ n := by
    rw [← hy]; exact (BitVec.ofInt n t).isLt
  have hp : 2 ^ n ≤ 2 ^ room := Nat.pow_le_pow_right (by omega) hr
  apply BitVec.eq_of_toNat_eq
  unfold placeInt
  cases nat with
  | true => simp only [Bool.true_or, if_true, BitVec.toNat_ofNat, BitVec.toNat_setWidth, hy]
  | false =>
    simp only [Bool.false_or, decide_eq_true_eq, Bool.false_eq_true, if_false, BitVec.toNat_ofNat]
    rw [BitVec.toNat_signExtend, BitVec.toNat_setWidth, hy, BitVec.msb_eq_decide, hy]
    by_cases h : (t % 2 ^ n).toNat < 2 ^ (n - 1)
    · have : ¬ 2 ^ (n - 1) ≤ (t % 2 ^ n).toNat := by omega
      simp [h, this]
    · have : 2 ^ (n - 1) ≤ (t % 2 ^ n).toNat := by omega
      simp only [h, if_false, this, decide_true, if_true]
      rw [Nat.mod_eq_of_lt, Nat.mod_eq_of_lt] <;> omega

theorem ofNat_placeInt_64 (t : Int) (n : Nat) (nat : Bool) (hn : 0 < n) (hr : n ≤ 64) : BitVec.ofNat 64 (placeInt t n nat 64) = fitted n nat t :=
  ofNat_placeInt t n nat 64 hn hr

theorem ofNat_placeInt_32 (t : Int) (n : Nat) (nat : Bool) (hn : 0 < n) (hr : n ≤ 32) :
    BitVec.ofNat 32 (placeInt t n nat 32) = (fitted n nat t).setWidth 32 := by
  rw [ofNat_placeInt t n nat 32 hn hr]
  unfold fitted
  cases nat with
  | true => simp only [if_true]; rw [BitVec.setWidth_setWidth_of_le _ (by omega)]
  | false =>
    simp only [Bool.false_eq_true, if_false]
    apply BitVec.eq_of_getLsbD_eq
    intro j hj
    rw [BitVec.getLsbD_setWidth, BitVec.getLsbD_signExtend, BitVec.getLsbD_signExtend]
    have h1 : j < 64 := by omega
    simp [hj, h1]

theorem fitted_64 (nat : Bool) (t : Int) : fitted 64 nat t = fitted 64 true t := by
  cases nat
  · simp [fitted, BitVec.signExtend_eq]
  · rfl

theorem widthOf_ok (m : MdA) (a : BitVec 8) : 0 < widthOf m a ∧ (widthOf m a ≤ 32 ∨ widthOf m a = 64) := by
  unfold widthOf
  repeat' split
  all_goals omega

theorem regsAre_congr {g : Group} {r q : Regs} (h : RegsAre g r) (e : r = q) : RegsAre g q := e ▸ h

theorem regsAre_putVec32 {g : Group} {r : Regs} (h : RegsAre g r) (p lat : Nat) (d : BitVec 6) (act : LaneMask) (val : Nat → Word) :
    RegsAre (putVec32 g p lat d act val) (if 60 ≤ d.toNat then r else r.setV d.toNat act val) := by
  unfold putVec32; simp only; split
  · exact h
  · exact regsAre_putV (g := putB g lat p act val) h ..

theorem regsAre_putVec64 {g : Group} {r : Regs} (h : RegsAre g r) (p lat : Nat) (d : BitVec 6) (act : LaneMask) (val : Nat → DWord) :
    RegsAre (putVec64 g p lat d act val) (r.setW d.toNat act val) := by
  unfold putVec64
  have h0 : RegsAre (putB g lat p act fun l => (val l).setWidth 32) r := h
  refine regsAre_congr (regsAre_putV (regsAre_putV h0 lat d.toNat act _) lat (d.toNat + 1) act _) ?_
  unfold Regs.setV Regs.setW
  congr 1
  funext n l
  by_cases ha : act.getLsbD l = true
  · simp [ha]
  · simp [ha]

theorem regsAre_putScalar {g : Group} {r : Regs} (h : RegsAre g r) (lat : Nat) (d : BitVec 6) (act : LaneMask) (x : DWord) :
    RegsAre (putScalar g lat d act x) (if act = 0 then r else r.setS d.toNat x) := by
  unfold putScalar
  by_cases ha : act = 0
  · subst ha; exact h
  · simp only [beq_iff_eq, ha, if_false]; exact regsAre_putS h lat d.toNat x

/-- The registers after an integer result (R63, R108, R112). -/
theorem regsAre_putInt (g : Group) (lat n : Nat) (nat : Bool) (a : BitVec 8) (d : BitVec 6) (act : LaneMask) (val : Nat → Int)
    (hn : 0 < n) (hw : n ≤ 32 ∨ n = 64) :
    RegsAre (putInt g lat n nat a d act val) (intDest (regsOf g) n a d act fun l => fitted n nat (val l)) := by
  unfold putInt intDest
  by_cases hs : isScalar a = true
  · simp only [hs, if_true]
    rw [ofNat_placeInt_64 _ _ _ hn (by omega)]
    exact regsAre_putScalar (regsAre_refl g) ..
  · simp only [hs, Bool.false_eq_true, if_false]
    by_cases h64 : n = 64
    · subst h64
      simp only [beq_self_eq_true, if_true]
      have e : (fun l => BitVec.ofNat 64 (placeInt (val l) 64 true 64)) = fun l => fitted 64 nat (val l) := by
        funext l; rw [ofNat_placeInt_64 _ _ _ hn (by omega), fitted_64 nat]
      rw [e]
      exact regsAre_putVec64 (regsAre_refl g) ..
    · simp only [beq_iff_eq, h64, if_false]
      have e : (fun l => BitVec.ofNat 32 (placeInt (val l) n nat 32)) = fun l => (fitted n nat (val l)).setWidth 32 := by
        funext l; exact ofNat_placeInt_32 _ _ _ hn (by omega)
      rw [e]
      exact regsAre_putVec32 (regsAre_refl g) ..

theorem latch_putVec32 (g : Group) (p lat : Nat) (d : BitVec 6) (act : LaneMask) (val : Nat → Word) (n l : Nat) (hl : l < 64) :
    latch (putVec32 g p lat d act val) n l = if n = p then (if act.getLsbD l then val l else 0) else latch g n l := by
  unfold putVec32; simp only
  split
  · exact latch_putB _ _ _ _ _ _ _ hl
  · rw [latch_putV]; exact latch_putB _ _ _ _ _ _ _ hl

theorem latch_putVec64 (g : Group) (p lat : Nat) (d : BitVec 6) (act : LaneMask) (val : Nat → DWord) (n l : Nat) (hl : l < 64) :
    latch (putVec64 g p lat d act val) n l = latchTakes (latch g) p act val n l := by
  unfold putVec64; simp only
  rw [latch_putV, latch_putV]; exact latch_putB _ _ _ _ _ _ _ hl

/-- The latches after an integer result (R74). -/
theorem latch_putInt (g : Group) (lat n : Nat) (nat : Bool) (a : BitVec 8) (d : BitVec 6) (act : LaneMask) (val : Nat → Int)
    (hn : 0 < n) (hw : n ≤ 32 ∨ n = 64) (m l : Nat) (hl : l < 64) :
    latch (putInt g lat n nat a d act val) m l = latchBy (latch g) 0 a act (fun l => fitted n nat (val l)) m l := by
  unfold putInt latchBy
  by_cases hs : isScalar a = true
  · simp only [hs, if_true]; exact latch_putScalar ..
  · simp only [hs, Bool.false_eq_true, if_false]
    by_cases h64 : n = 64
    · subst h64
      simp only [beq_self_eq_true, if_true]
      have e : (fun l => BitVec.ofNat 64 (placeInt (val l) 64 true 64)) = fun l => fitted 64 nat (val l) := by
        funext l; rw [ofNat_placeInt_64 _ _ _ hn (by omega), fitted_64 nat]
      rw [e]; exact latch_putVec64 _ _ _ _ _ _ _ _ hl
    · simp only [beq_iff_eq, h64, if_false]
      rw [latch_putVec32 _ _ _ _ _ _ _ _ hl, ofNat_placeInt_32 _ _ _ hn (by omega)]
      rfl

end Sys2Proof.Machine
end

