-- ==== Sys2Proof/Laws/State.lean ====
section
/-! SUPPORT. What each named update of a state, or of a group, leaves in each field. -/

namespace Sys2Proof.Machine

/-! modGroup changes `groups` only. -/
@[simp] theorem modGroup_cur (s : State) (gid : Nat) (f : Group → Group) : (s.modGroup gid f).cur = s.cur := rfl
@[simp] theorem modGroup_agenda (s : State) (gid : Nat) (f : Group → Group) : (s.modGroup gid f).agenda = s.agenda := rfl
@[simp] theorem modGroup_freeCtr (s : State) (gid : Nat) (f : Group → Group) : (s.modGroup gid f).freeCtr = s.freeCtr := rfl
@[simp] theorem modGroup_dial (s : State) (gid : Nat) (f : Group → Group) : (s.modGroup gid f).dial = s.dial := rfl
@[simp] theorem modGroup_skews (s : State) (gid : Nat) (f : Group → Group) : (s.modGroup gid f).skews = s.skews := rfl
@[simp] theorem modGroup_groups (s : State) (gid : Nat) (f : Group → Group) : (s.modGroup gid f).groups = Fm.mod s.groups gid f := rfl
@[simp] theorem modGroup_teams (s : State) (gid : Nat) (f : Group → Group) : (s.modGroup gid f).teams = s.teams := rfl
@[simp] theorem modGroup_worlds (s : State) (gid : Nat) (f : Group → Group) : (s.modGroup gid f).worlds = s.worlds := rfl
@[simp] theorem modGroup_pipes (s : State) (gid : Nat) (f : Group → Group) : (s.modGroup gid f).pipes = s.pipes := rfl
@[simp] theorem modGroup_cycles (s : State) (gid : Nat) (f : Group → Group) : (s.modGroup gid f).cycles = s.cycles := rfl
@[simp] theorem modGroup_hbm (s : State) (gid : Nat) (f : Group → Group) : (s.modGroup gid f).hbm = s.hbm := rfl
@[simp] theorem modGroup_coreScr (s : State) (gid : Nat) (f : Group → Group) : (s.modGroup gid f).coreScr = s.coreScr := rfl
@[simp] theorem modGroup_dieScr (s : State) (gid : Nat) (f : Group → Group) : (s.modGroup gid f).dieScr = s.dieScr := rfl
@[simp] theorem modGroup_dieEncs (s : State) (gid : Nat) (f : Group → Group) : (s.modGroup gid f).dieEncs = s.dieEncs := rfl
@[simp] theorem modGroup_poison (s : State) (gid : Nat) (f : Group → Group) : (s.modGroup gid f).poison = s.poison := rfl
@[simp] theorem modGroup_dieBad (s : State) (gid : Nat) (f : Group → Group) : (s.modGroup gid f).dieBad = s.dieBad := rfl
@[simp] theorem modGroup_l2 (s : State) (gid : Nat) (f : Group → Group) : (s.modGroup gid f).l2 = s.l2 := rfl
@[simp] theorem modGroup_floors (s : State) (gid : Nat) (f : Group → Group) : (s.modGroup gid f).floors = s.floors := rfl
@[simp] theorem modGroup_rcounts (s : State) (gid : Nat) (f : Group → Group) : (s.modGroup gid f).rcounts = s.rcounts := rfl
@[simp] theorem modGroup_encs (s : State) (gid : Nat) (f : Group → Group) : (s.modGroup gid f).encs = s.encs := rfl
@[simp] theorem modGroup_dirq (s : State) (gid : Nat) (f : Group → Group) : (s.modGroup gid f).dirq = s.dirq := rfl
@[simp] theorem modGroup_memPend (s : State) (gid : Nat) (f : Group → Group) : (s.modGroup gid f).memPend = s.memPend := rfl
@[simp] theorem modGroup_lastV (s : State) (gid : Nat) (f : Group → Group) : (s.modGroup gid f).lastV = s.lastV := rfl
@[simp] theorem modGroup_snoop (s : State) (gid : Nat) (f : Group → Group) : (s.modGroup gid f).snoop = s.snoop := rfl
@[simp] theorem modGroup_owns (s : State) (gid : Nat) (f : Group → Group) : (s.modGroup gid f).owns = s.owns := rfl
@[simp] theorem modGroup_backs (s : State) (gid : Nat) (f : Group → Group) : (s.modGroup gid f).backs = s.backs := rfl
@[simp] theorem modGroup_l1 (s : State) (gid : Nat) (f : Group → Group) : (s.modGroup gid f).l1 = s.l1 := rfl
@[simp] theorem modGroup_wcb (s : State) (gid : Nat) (f : Group → Group) : (s.modGroup gid f).wcb = s.wcb := rfl
@[simp] theorem modGroup_uses (s : State) (gid : Nat) (f : Group → Group) : (s.modGroup gid f).uses = s.uses := rfl
@[simp] theorem modGroup_desc (s : State) (gid : Nat) (f : Group → Group) : (s.modGroup gid f).desc = s.desc := rfl
@[simp] theorem modGroup_tlb (s : State) (gid : Nat) (f : Group → Group) : (s.modGroup gid f).tlb = s.tlb := rfl
@[simp] theorem modGroup_walk (s : State) (gid : Nat) (f : Group → Group) : (s.modGroup gid f).walk = s.walk := rfl
@[simp] theorem modGroup_ccache (s : State) (gid : Nat) (f : Group → Group) : (s.modGroup gid f).ccache = s.ccache := rfl
@[simp] theorem modGroup_dcache (s : State) (gid : Nat) (f : Group → Group) : (s.modGroup gid f).dcache = s.dcache := rfl
@[simp] theorem modGroup_ops (s : State) (gid : Nat) (f : Group → Group) : (s.modGroup gid f).ops = s.ops := rfl
@[simp] theorem modGroup_chans (s : State) (gid : Nat) (f : Group → Group) : (s.modGroup gid f).chans = s.chans := rfl
@[simp] theorem modGroup_arrays (s : State) (gid : Nat) (f : Group → Group) : (s.modGroup gid f).arrays = s.arrays := rfl
@[simp] theorem modGroup_rows (s : State) (gid : Nat) (f : Group → Group) : (s.modGroup gid f).rows = s.rows := rfl
@[simp] theorem modGroup_nextOp (s : State) (gid : Nat) (f : Group → Group) : (s.modGroup gid f).nextOp = s.nextOp := rfl
@[simp] theorem modGroup_parking (s : State) (gid : Nat) (f : Group → Group) : (s.modGroup gid f).parking = s.parking := rfl
@[simp] theorem modGroup_calls (s : State) (gid : Nat) (f : Group → Group) : (s.modGroup gid f).calls = s.calls := rfl
@[simp] theorem modGroup_journals (s : State) (gid : Nat) (f : Group → Group) : (s.modGroup gid f).journals = s.journals := rfl
@[simp] theorem modGroup_jwrites (s : State) (gid : Nat) (f : Group → Group) : (s.modGroup gid f).jwrites = s.jwrites := rfl
@[simp] theorem modGroup_posts (s : State) (gid : Nat) (f : Group → Group) : (s.modGroup gid f).posts = s.posts := rfl
@[simp] theorem modGroup_grids (s : State) (gid : Nat) (f : Group → Group) : (s.modGroup gid f).grids = s.grids := rfl
@[simp] theorem modGroup_issues (s : State) (gid : Nat) (f : Group → Group) : (s.modGroup gid f).issues = s.issues := rfl
@[simp] theorem modGroup_dones (s : State) (gid : Nat) (f : Group → Group) : (s.modGroup gid f).dones = s.dones := rfl
@[simp] theorem modGroup_tickets (s : State) (gid : Nat) (f : Group → Group) : (s.modGroup gid f).tickets = s.tickets := rfl
@[simp] theorem modGroup_expired (s : State) (gid : Nat) (f : Group → Group) : (s.modGroup gid f).expired = s.expired := rfl
@[simp] theorem modGroup_keyCtr (s : State) (gid : Nat) (f : Group → Group) : (s.modGroup gid f).keyCtr = s.keyCtr := rfl
@[simp] theorem modGroup_tktKey (s : State) (gid : Nat) (f : Group → Group) : (s.modGroup gid f).tktKey = s.tktKey := rfl
@[simp] theorem modGroup_pends (s : State) (gid : Nat) (f : Group → Group) : (s.modGroup gid f).pends = s.pends := rfl
@[simp] theorem modGroup_queues (s : State) (gid : Nat) (f : Group → Group) : (s.modGroup gid f).queues = s.queues := rfl
@[simp] theorem modGroup_cmds (s : State) (gid : Nat) (f : Group → Group) : (s.modGroup gid f).cmds = s.cmds := rfl
@[simp] theorem modGroup_graphs (s : State) (gid : Nat) (f : Group → Group) : (s.modGroup gid f).graphs = s.graphs := rfl
@[simp] theorem modGroup_loads (s : State) (gid : Nat) (f : Group → Group) : (s.modGroup gid f).loads = s.loads := rfl
@[simp] theorem modGroup_kcmds (s : State) (gid : Nat) (f : Group → Group) : (s.modGroup gid f).kcmds = s.kcmds := rfl
@[simp] theorem modGroup_replays (s : State) (gid : Nat) (f : Group → Group) : (s.modGroup gid f).replays = s.replays := rfl
@[simp] theorem modGroup_keys (s : State) (gid : Nat) (f : Group → Group) : (s.modGroup gid f).keys = s.keys := rfl
@[simp] theorem modGroup_sessions (s : State) (gid : Nat) (f : Group → Group) : (s.modGroup gid f).sessions = s.sessions := rfl
@[simp] theorem modGroup_tdis (s : State) (gid : Nat) (f : Group → Group) : (s.modGroup gid f).tdis = s.tdis := rfl
@[simp] theorem modGroup_ides (s : State) (gid : Nat) (f : Group → Group) : (s.modGroup gid f).ides = s.ides := rfl
@[simp] theorem modGroup_arms (s : State) (gid : Nat) (f : Group → Group) : (s.modGroup gid f).arms = s.arms := rfl
@[simp] theorem modGroup_apertures (s : State) (gid : Nat) (f : Group → Group) : (s.modGroup gid f).apertures = s.apertures := rfl
@[simp] theorem modGroup_hostV (s : State) (gid : Nat) (f : Group → Group) : (s.modGroup gid f).hostV = s.hostV := rfl
@[simp] theorem modGroup_posted (s : State) (gid : Nat) (f : Group → Group) : (s.modGroup gid f).posted = s.posted := rfl
@[simp] theorem modGroup_hostShare (s : State) (gid : Nat) (f : Group → Group) : (s.modGroup gid f).hostShare = s.hostShare := rfl
@[simp] theorem modGroup_ports (s : State) (gid : Nat) (f : Group → Group) : (s.modGroup gid f).ports = s.ports := rfl
@[simp] theorem modGroup_portsNext (s : State) (gid : Nat) (f : Group → Group) : (s.modGroup gid f).portsNext = s.portsNext := rfl
@[simp] theorem modGroup_reply (s : State) (gid : Nat) (f : Group → Group) : (s.modGroup gid f).reply = s.reply := rfl
@[simp] theorem modGroup_cap (s : State) (gid : Nat) (f : Group → Group) : (s.modGroup gid f).cap = s.cap := rfl
@[simp] theorem modGroup_clock (s : State) (gid : Nat) (f : Group → Group) : (s.modGroup gid f).clock = s.clock := rfl
@[simp] theorem modGroup_gated (s : State) (gid : Nat) (f : Group → Group) : (s.modGroup gid f).gated = s.gated := rfl
@[simp] theorem modGroup_pmus (s : State) (gid : Nat) (f : Group → Group) : (s.modGroup gid f).pmus = s.pmus := rfl
@[simp] theorem modGroup_repairs (s : State) (gid : Nat) (f : Group → Group) : (s.modGroup gid f).repairs = s.repairs := rfl
@[simp] theorem modGroup_links (s : State) (gid : Nat) (f : Group → Group) : (s.modGroup gid f).links = s.links := rfl
@[simp] theorem modGroup_dsyn (s : State) (gid : Nat) (f : Group → Group) : (s.modGroup gid f).dsyn = s.dsyn := rfl
@[simp] theorem modGroup_spurious (s : State) (gid : Nat) (f : Group → Group) : (s.modGroup gid f).spurious = s.spurious := rfl
@[simp] theorem modGroup_onDie (s : State) (gid : Nat) (f : Group → Group) : (s.modGroup gid f).onDie = s.onDie := rfl
@[simp] theorem modGroup_kmsgs (s : State) (gid : Nat) (f : Group → Group) : (s.modGroup gid f).kmsgs = s.kmsgs := rfl
@[simp] theorem modGroup_udpPort (s : State) (gid : Nat) (f : Group → Group) : (s.modGroup gid f).udpPort = s.udpPort := rfl
@[simp] theorem modGroup_holdReset (s : State) (gid : Nat) (f : Group → Group) : (s.modGroup gid f).holdReset = s.holdReset := rfl
@[simp] theorem modGroup_versions (s : State) (gid : Nat) (f : Group → Group) : (s.modGroup gid f).versions = s.versions := rfl
@[simp] theorem modGroup_version (s : State) (gid : Nat) (f : Group → Group) : (s.modGroup gid f).version = s.version := rfl
@[simp] theorem modGroup_boot (s : State) (gid : Nat) (f : Group → Group) : (s.modGroup gid f).boot = s.boot := rfl
@[simp] theorem modGroup_aer (s : State) (gid : Nat) (f : Group → Group) : (s.modGroup gid f).aer = s.aer := rfl
@[simp] theorem modGroup_stopped (s : State) (gid : Nat) (f : Group → Group) : (s.modGroup gid f).stopped = s.stopped := rfl

/-! modTeam changes `teams` only. -/
@[simp] theorem modTeam_cur (s : State) (t : Nat) (f : Team → Team) : (s.modTeam t f).cur = s.cur := rfl
@[simp] theorem modTeam_agenda (s : State) (t : Nat) (f : Team → Team) : (s.modTeam t f).agenda = s.agenda := rfl
@[simp] theorem modTeam_freeCtr (s : State) (t : Nat) (f : Team → Team) : (s.modTeam t f).freeCtr = s.freeCtr := rfl
@[simp] theorem modTeam_dial (s : State) (t : Nat) (f : Team → Team) : (s.modTeam t f).dial = s.dial := rfl
@[simp] theorem modTeam_skews (s : State) (t : Nat) (f : Team → Team) : (s.modTeam t f).skews = s.skews := rfl
@[simp] theorem modTeam_groups (s : State) (t : Nat) (f : Team → Team) : (s.modTeam t f).groups = s.groups := rfl
@[simp] theorem modTeam_teams (s : State) (t : Nat) (f : Team → Team) : (s.modTeam t f).teams = Fm.mod s.teams t f := rfl
@[simp] theorem modTeam_worlds (s : State) (t : Nat) (f : Team → Team) : (s.modTeam t f).worlds = s.worlds := rfl
@[simp] theorem modTeam_pipes (s : State) (t : Nat) (f : Team → Team) : (s.modTeam t f).pipes = s.pipes := rfl
@[simp] theorem modTeam_cycles (s : State) (t : Nat) (f : Team → Team) : (s.modTeam t f).cycles = s.cycles := rfl
@[simp] theorem modTeam_hbm (s : State) (t : Nat) (f : Team → Team) : (s.modTeam t f).hbm = s.hbm := rfl
@[simp] theorem modTeam_coreScr (s : State) (t : Nat) (f : Team → Team) : (s.modTeam t f).coreScr = s.coreScr := rfl
@[simp] theorem modTeam_dieScr (s : State) (t : Nat) (f : Team → Team) : (s.modTeam t f).dieScr = s.dieScr := rfl
@[simp] theorem modTeam_dieEncs (s : State) (t : Nat) (f : Team → Team) : (s.modTeam t f).dieEncs = s.dieEncs := rfl
@[simp] theorem modTeam_poison (s : State) (t : Nat) (f : Team → Team) : (s.modTeam t f).poison = s.poison := rfl
@[simp] theorem modTeam_dieBad (s : State) (t : Nat) (f : Team → Team) : (s.modTeam t f).dieBad = s.dieBad := rfl
@[simp] theorem modTeam_l2 (s : State) (t : Nat) (f : Team → Team) : (s.modTeam t f).l2 = s.l2 := rfl
@[simp] theorem modTeam_floors (s : State) (t : Nat) (f : Team → Team) : (s.modTeam t f).floors = s.floors := rfl
@[simp] theorem modTeam_rcounts (s : State) (t : Nat) (f : Team → Team) : (s.modTeam t f).rcounts = s.rcounts := rfl
@[simp] theorem modTeam_encs (s : State) (t : Nat) (f : Team → Team) : (s.modTeam t f).encs = s.encs := rfl
@[simp] theorem modTeam_dirq (s : State) (t : Nat) (f : Team → Team) : (s.modTeam t f).dirq = s.dirq := rfl
@[simp] theorem modTeam_memPend (s : State) (t : Nat) (f : Team → Team) : (s.modTeam t f).memPend = s.memPend := rfl
@[simp] theorem modTeam_lastV (s : State) (t : Nat) (f : Team → Team) : (s.modTeam t f).lastV = s.lastV := rfl
@[simp] theorem modTeam_snoop (s : State) (t : Nat) (f : Team → Team) : (s.modTeam t f).snoop = s.snoop := rfl
@[simp] theorem modTeam_owns (s : State) (t : Nat) (f : Team → Team) : (s.modTeam t f).owns = s.owns := rfl
@[simp] theorem modTeam_backs (s : State) (t : Nat) (f : Team → Team) : (s.modTeam t f).backs = s.backs := rfl
@[simp] theorem modTeam_l1 (s : State) (t : Nat) (f : Team → Team) : (s.modTeam t f).l1 = s.l1 := rfl
@[simp] theorem modTeam_wcb (s : State) (t : Nat) (f : Team → Team) : (s.modTeam t f).wcb = s.wcb := rfl
@[simp] theorem modTeam_uses (s : State) (t : Nat) (f : Team → Team) : (s.modTeam t f).uses = s.uses := rfl
@[simp] theorem modTeam_desc (s : State) (t : Nat) (f : Team → Team) : (s.modTeam t f).desc = s.desc := rfl
@[simp] theorem modTeam_tlb (s : State) (t : Nat) (f : Team → Team) : (s.modTeam t f).tlb = s.tlb := rfl
@[simp] theorem modTeam_walk (s : State) (t : Nat) (f : Team → Team) : (s.modTeam t f).walk = s.walk := rfl
@[simp] theorem modTeam_ccache (s : State) (t : Nat) (f : Team → Team) : (s.modTeam t f).ccache = s.ccache := rfl
@[simp] theorem modTeam_dcache (s : State) (t : Nat) (f : Team → Team) : (s.modTeam t f).dcache = s.dcache := rfl
@[simp] theorem modTeam_ops (s : State) (t : Nat) (f : Team → Team) : (s.modTeam t f).ops = s.ops := rfl
@[simp] theorem modTeam_chans (s : State) (t : Nat) (f : Team → Team) : (s.modTeam t f).chans = s.chans := rfl
@[simp] theorem modTeam_arrays (s : State) (t : Nat) (f : Team → Team) : (s.modTeam t f).arrays = s.arrays := rfl
@[simp] theorem modTeam_rows (s : State) (t : Nat) (f : Team → Team) : (s.modTeam t f).rows = s.rows := rfl
@[simp] theorem modTeam_nextOp (s : State) (t : Nat) (f : Team → Team) : (s.modTeam t f).nextOp = s.nextOp := rfl
@[simp] theorem modTeam_parking (s : State) (t : Nat) (f : Team → Team) : (s.modTeam t f).parking = s.parking := rfl
@[simp] theorem modTeam_calls (s : State) (t : Nat) (f : Team → Team) : (s.modTeam t f).calls = s.calls := rfl
@[simp] theorem modTeam_journals (s : State) (t : Nat) (f : Team → Team) : (s.modTeam t f).journals = s.journals := rfl
@[simp] theorem modTeam_jwrites (s : State) (t : Nat) (f : Team → Team) : (s.modTeam t f).jwrites = s.jwrites := rfl
@[simp] theorem modTeam_posts (s : State) (t : Nat) (f : Team → Team) : (s.modTeam t f).posts = s.posts := rfl
@[simp] theorem modTeam_grids (s : State) (t : Nat) (f : Team → Team) : (s.modTeam t f).grids = s.grids := rfl
@[simp] theorem modTeam_issues (s : State) (t : Nat) (f : Team → Team) : (s.modTeam t f).issues = s.issues := rfl
@[simp] theorem modTeam_dones (s : State) (t : Nat) (f : Team → Team) : (s.modTeam t f).dones = s.dones := rfl
@[simp] theorem modTeam_tickets (s : State) (t : Nat) (f : Team → Team) : (s.modTeam t f).tickets = s.tickets := rfl
@[simp] theorem modTeam_expired (s : State) (t : Nat) (f : Team → Team) : (s.modTeam t f).expired = s.expired := rfl
@[simp] theorem modTeam_keyCtr (s : State) (t : Nat) (f : Team → Team) : (s.modTeam t f).keyCtr = s.keyCtr := rfl
@[simp] theorem modTeam_tktKey (s : State) (t : Nat) (f : Team → Team) : (s.modTeam t f).tktKey = s.tktKey := rfl
@[simp] theorem modTeam_pends (s : State) (t : Nat) (f : Team → Team) : (s.modTeam t f).pends = s.pends := rfl
@[simp] theorem modTeam_queues (s : State) (t : Nat) (f : Team → Team) : (s.modTeam t f).queues = s.queues := rfl
@[simp] theorem modTeam_cmds (s : State) (t : Nat) (f : Team → Team) : (s.modTeam t f).cmds = s.cmds := rfl
@[simp] theorem modTeam_graphs (s : State) (t : Nat) (f : Team → Team) : (s.modTeam t f).graphs = s.graphs := rfl
@[simp] theorem modTeam_loads (s : State) (t : Nat) (f : Team → Team) : (s.modTeam t f).loads = s.loads := rfl
@[simp] theorem modTeam_kcmds (s : State) (t : Nat) (f : Team → Team) : (s.modTeam t f).kcmds = s.kcmds := rfl
@[simp] theorem modTeam_replays (s : State) (t : Nat) (f : Team → Team) : (s.modTeam t f).replays = s.replays := rfl
@[simp] theorem modTeam_keys (s : State) (t : Nat) (f : Team → Team) : (s.modTeam t f).keys = s.keys := rfl
@[simp] theorem modTeam_sessions (s : State) (t : Nat) (f : Team → Team) : (s.modTeam t f).sessions = s.sessions := rfl
@[simp] theorem modTeam_tdis (s : State) (t : Nat) (f : Team → Team) : (s.modTeam t f).tdis = s.tdis := rfl
@[simp] theorem modTeam_ides (s : State) (t : Nat) (f : Team → Team) : (s.modTeam t f).ides = s.ides := rfl
@[simp] theorem modTeam_arms (s : State) (t : Nat) (f : Team → Team) : (s.modTeam t f).arms = s.arms := rfl
@[simp] theorem modTeam_apertures (s : State) (t : Nat) (f : Team → Team) : (s.modTeam t f).apertures = s.apertures := rfl
@[simp] theorem modTeam_hostV (s : State) (t : Nat) (f : Team → Team) : (s.modTeam t f).hostV = s.hostV := rfl
@[simp] theorem modTeam_posted (s : State) (t : Nat) (f : Team → Team) : (s.modTeam t f).posted = s.posted := rfl
@[simp] theorem modTeam_hostShare (s : State) (t : Nat) (f : Team → Team) : (s.modTeam t f).hostShare = s.hostShare := rfl
@[simp] theorem modTeam_ports (s : State) (t : Nat) (f : Team → Team) : (s.modTeam t f).ports = s.ports := rfl
@[simp] theorem modTeam_portsNext (s : State) (t : Nat) (f : Team → Team) : (s.modTeam t f).portsNext = s.portsNext := rfl
@[simp] theorem modTeam_reply (s : State) (t : Nat) (f : Team → Team) : (s.modTeam t f).reply = s.reply := rfl
@[simp] theorem modTeam_cap (s : State) (t : Nat) (f : Team → Team) : (s.modTeam t f).cap = s.cap := rfl
@[simp] theorem modTeam_clock (s : State) (t : Nat) (f : Team → Team) : (s.modTeam t f).clock = s.clock := rfl
@[simp] theorem modTeam_gated (s : State) (t : Nat) (f : Team → Team) : (s.modTeam t f).gated = s.gated := rfl
@[simp] theorem modTeam_pmus (s : State) (t : Nat) (f : Team → Team) : (s.modTeam t f).pmus = s.pmus := rfl
@[simp] theorem modTeam_repairs (s : State) (t : Nat) (f : Team → Team) : (s.modTeam t f).repairs = s.repairs := rfl
@[simp] theorem modTeam_links (s : State) (t : Nat) (f : Team → Team) : (s.modTeam t f).links = s.links := rfl
@[simp] theorem modTeam_dsyn (s : State) (t : Nat) (f : Team → Team) : (s.modTeam t f).dsyn = s.dsyn := rfl
@[simp] theorem modTeam_spurious (s : State) (t : Nat) (f : Team → Team) : (s.modTeam t f).spurious = s.spurious := rfl
@[simp] theorem modTeam_onDie (s : State) (t : Nat) (f : Team → Team) : (s.modTeam t f).onDie = s.onDie := rfl
@[simp] theorem modTeam_kmsgs (s : State) (t : Nat) (f : Team → Team) : (s.modTeam t f).kmsgs = s.kmsgs := rfl
@[simp] theorem modTeam_udpPort (s : State) (t : Nat) (f : Team → Team) : (s.modTeam t f).udpPort = s.udpPort := rfl
@[simp] theorem modTeam_holdReset (s : State) (t : Nat) (f : Team → Team) : (s.modTeam t f).holdReset = s.holdReset := rfl
@[simp] theorem modTeam_versions (s : State) (t : Nat) (f : Team → Team) : (s.modTeam t f).versions = s.versions := rfl
@[simp] theorem modTeam_version (s : State) (t : Nat) (f : Team → Team) : (s.modTeam t f).version = s.version := rfl
@[simp] theorem modTeam_boot (s : State) (t : Nat) (f : Team → Team) : (s.modTeam t f).boot = s.boot := rfl
@[simp] theorem modTeam_aer (s : State) (t : Nat) (f : Team → Team) : (s.modTeam t f).aer = s.aer := rfl
@[simp] theorem modTeam_stopped (s : State) (t : Nat) (f : Team → Team) : (s.modTeam t f).stopped = s.stopped := rfl

/-! putRow changes `rows` only. -/
@[simp] theorem putRow_cur (s : State) (key : Nat) (r : SaRow) : (s.putRow key r).cur = s.cur := rfl
@[simp] theorem putRow_agenda (s : State) (key : Nat) (r : SaRow) : (s.putRow key r).agenda = s.agenda := rfl
@[simp] theorem putRow_freeCtr (s : State) (key : Nat) (r : SaRow) : (s.putRow key r).freeCtr = s.freeCtr := rfl
@[simp] theorem putRow_dial (s : State) (key : Nat) (r : SaRow) : (s.putRow key r).dial = s.dial := rfl
@[simp] theorem putRow_skews (s : State) (key : Nat) (r : SaRow) : (s.putRow key r).skews = s.skews := rfl
@[simp] theorem putRow_groups (s : State) (key : Nat) (r : SaRow) : (s.putRow key r).groups = s.groups := rfl
@[simp] theorem putRow_teams (s : State) (key : Nat) (r : SaRow) : (s.putRow key r).teams = s.teams := rfl
@[simp] theorem putRow_worlds (s : State) (key : Nat) (r : SaRow) : (s.putRow key r).worlds = s.worlds := rfl
@[simp] theorem putRow_pipes (s : State) (key : Nat) (r : SaRow) : (s.putRow key r).pipes = s.pipes := rfl
@[simp] theorem putRow_cycles (s : State) (key : Nat) (r : SaRow) : (s.putRow key r).cycles = s.cycles := rfl
@[simp] theorem putRow_hbm (s : State) (key : Nat) (r : SaRow) : (s.putRow key r).hbm = s.hbm := rfl
@[simp] theorem putRow_coreScr (s : State) (key : Nat) (r : SaRow) : (s.putRow key r).coreScr = s.coreScr := rfl
@[simp] theorem putRow_dieScr (s : State) (key : Nat) (r : SaRow) : (s.putRow key r).dieScr = s.dieScr := rfl
@[simp] theorem putRow_dieEncs (s : State) (key : Nat) (r : SaRow) : (s.putRow key r).dieEncs = s.dieEncs := rfl
@[simp] theorem putRow_poison (s : State) (key : Nat) (r : SaRow) : (s.putRow key r).poison = s.poison := rfl
@[simp] theorem putRow_dieBad (s : State) (key : Nat) (r : SaRow) : (s.putRow key r).dieBad = s.dieBad := rfl
@[simp] theorem putRow_l2 (s : State) (key : Nat) (r : SaRow) : (s.putRow key r).l2 = s.l2 := rfl
@[simp] theorem putRow_floors (s : State) (key : Nat) (r : SaRow) : (s.putRow key r).floors = s.floors := rfl
@[simp] theorem putRow_rcounts (s : State) (key : Nat) (r : SaRow) : (s.putRow key r).rcounts = s.rcounts := rfl
@[simp] theorem putRow_encs (s : State) (key : Nat) (r : SaRow) : (s.putRow key r).encs = s.encs := rfl
@[simp] theorem putRow_dirq (s : State) (key : Nat) (r : SaRow) : (s.putRow key r).dirq = s.dirq := rfl
@[simp] theorem putRow_memPend (s : State) (key : Nat) (r : SaRow) : (s.putRow key r).memPend = s.memPend := rfl
@[simp] theorem putRow_lastV (s : State) (key : Nat) (r : SaRow) : (s.putRow key r).lastV = s.lastV := rfl
@[simp] theorem putRow_snoop (s : State) (key : Nat) (r : SaRow) : (s.putRow key r).snoop = s.snoop := rfl
@[simp] theorem putRow_owns (s : State) (key : Nat) (r : SaRow) : (s.putRow key r).owns = s.owns := rfl
@[simp] theorem putRow_backs (s : State) (key : Nat) (r : SaRow) : (s.putRow key r).backs = s.backs := rfl
@[simp] theorem putRow_l1 (s : State) (key : Nat) (r : SaRow) : (s.putRow key r).l1 = s.l1 := rfl
@[simp] theorem putRow_wcb (s : State) (key : Nat) (r : SaRow) : (s.putRow key r).wcb = s.wcb := rfl
@[simp] theorem putRow_uses (s : State) (key : Nat) (r : SaRow) : (s.putRow key r).uses = s.uses := rfl
@[simp] theorem putRow_desc (s : State) (key : Nat) (r : SaRow) : (s.putRow key r).desc = s.desc := rfl
@[simp] theorem putRow_tlb (s : State) (key : Nat) (r : SaRow) : (s.putRow key r).tlb = s.tlb := rfl
@[simp] theorem putRow_walk (s : State) (key : Nat) (r : SaRow) : (s.putRow key r).walk = s.walk := rfl
@[simp] theorem putRow_ccache (s : State) (key : Nat) (r : SaRow) : (s.putRow key r).ccache = s.ccache := rfl
@[simp] theorem putRow_dcache (s : State) (key : Nat) (r : SaRow) : (s.putRow key r).dcache = s.dcache := rfl
@[simp] theorem putRow_ops (s : State) (key : Nat) (r : SaRow) : (s.putRow key r).ops = s.ops := rfl
@[simp] theorem putRow_chans (s : State) (key : Nat) (r : SaRow) : (s.putRow key r).chans = s.chans := rfl
@[simp] theorem putRow_arrays (s : State) (key : Nat) (r : SaRow) : (s.putRow key r).arrays = s.arrays := rfl
@[simp] theorem putRow_rows (s : State) (key : Nat) (r : SaRow) : (s.putRow key r).rows = Fm.put s.rows key r := rfl
@[simp] theorem putRow_nextOp (s : State) (key : Nat) (r : SaRow) : (s.putRow key r).nextOp = s.nextOp := rfl
@[simp] theorem putRow_parking (s : State) (key : Nat) (r : SaRow) : (s.putRow key r).parking = s.parking := rfl
@[simp] theorem putRow_calls (s : State) (key : Nat) (r : SaRow) : (s.putRow key r).calls = s.calls := rfl
@[simp] theorem putRow_journals (s : State) (key : Nat) (r : SaRow) : (s.putRow key r).journals = s.journals := rfl
@[simp] theorem putRow_jwrites (s : State) (key : Nat) (r : SaRow) : (s.putRow key r).jwrites = s.jwrites := rfl
@[simp] theorem putRow_posts (s : State) (key : Nat) (r : SaRow) : (s.putRow key r).posts = s.posts := rfl
@[simp] theorem putRow_grids (s : State) (key : Nat) (r : SaRow) : (s.putRow key r).grids = s.grids := rfl
@[simp] theorem putRow_issues (s : State) (key : Nat) (r : SaRow) : (s.putRow key r).issues = s.issues := rfl
@[simp] theorem putRow_dones (s : State) (key : Nat) (r : SaRow) : (s.putRow key r).dones = s.dones := rfl
@[simp] theorem putRow_tickets (s : State) (key : Nat) (r : SaRow) : (s.putRow key r).tickets = s.tickets := rfl
@[simp] theorem putRow_expired (s : State) (key : Nat) (r : SaRow) : (s.putRow key r).expired = s.expired := rfl
@[simp] theorem putRow_keyCtr (s : State) (key : Nat) (r : SaRow) : (s.putRow key r).keyCtr = s.keyCtr := rfl
@[simp] theorem putRow_tktKey (s : State) (key : Nat) (r : SaRow) : (s.putRow key r).tktKey = s.tktKey := rfl
@[simp] theorem putRow_pends (s : State) (key : Nat) (r : SaRow) : (s.putRow key r).pends = s.pends := rfl
@[simp] theorem putRow_queues (s : State) (key : Nat) (r : SaRow) : (s.putRow key r).queues = s.queues := rfl
@[simp] theorem putRow_cmds (s : State) (key : Nat) (r : SaRow) : (s.putRow key r).cmds = s.cmds := rfl
@[simp] theorem putRow_graphs (s : State) (key : Nat) (r : SaRow) : (s.putRow key r).graphs = s.graphs := rfl
@[simp] theorem putRow_loads (s : State) (key : Nat) (r : SaRow) : (s.putRow key r).loads = s.loads := rfl
@[simp] theorem putRow_kcmds (s : State) (key : Nat) (r : SaRow) : (s.putRow key r).kcmds = s.kcmds := rfl
@[simp] theorem putRow_replays (s : State) (key : Nat) (r : SaRow) : (s.putRow key r).replays = s.replays := rfl
@[simp] theorem putRow_keys (s : State) (key : Nat) (r : SaRow) : (s.putRow key r).keys = s.keys := rfl
@[simp] theorem putRow_sessions (s : State) (key : Nat) (r : SaRow) : (s.putRow key r).sessions = s.sessions := rfl
@[simp] theorem putRow_tdis (s : State) (key : Nat) (r : SaRow) : (s.putRow key r).tdis = s.tdis := rfl
@[simp] theorem putRow_ides (s : State) (key : Nat) (r : SaRow) : (s.putRow key r).ides = s.ides := rfl
@[simp] theorem putRow_arms (s : State) (key : Nat) (r : SaRow) : (s.putRow key r).arms = s.arms := rfl
@[simp] theorem putRow_apertures (s : State) (key : Nat) (r : SaRow) : (s.putRow key r).apertures = s.apertures := rfl
@[simp] theorem putRow_hostV (s : State) (key : Nat) (r : SaRow) : (s.putRow key r).hostV = s.hostV := rfl
@[simp] theorem putRow_posted (s : State) (key : Nat) (r : SaRow) : (s.putRow key r).posted = s.posted := rfl
@[simp] theorem putRow_hostShare (s : State) (key : Nat) (r : SaRow) : (s.putRow key r).hostShare = s.hostShare := rfl
@[simp] theorem putRow_ports (s : State) (key : Nat) (r : SaRow) : (s.putRow key r).ports = s.ports := rfl
@[simp] theorem putRow_portsNext (s : State) (key : Nat) (r : SaRow) : (s.putRow key r).portsNext = s.portsNext := rfl
@[simp] theorem putRow_reply (s : State) (key : Nat) (r : SaRow) : (s.putRow key r).reply = s.reply := rfl
@[simp] theorem putRow_cap (s : State) (key : Nat) (r : SaRow) : (s.putRow key r).cap = s.cap := rfl
@[simp] theorem putRow_clock (s : State) (key : Nat) (r : SaRow) : (s.putRow key r).clock = s.clock := rfl
@[simp] theorem putRow_gated (s : State) (key : Nat) (r : SaRow) : (s.putRow key r).gated = s.gated := rfl
@[simp] theorem putRow_pmus (s : State) (key : Nat) (r : SaRow) : (s.putRow key r).pmus = s.pmus := rfl
@[simp] theorem putRow_repairs (s : State) (key : Nat) (r : SaRow) : (s.putRow key r).repairs = s.repairs := rfl
@[simp] theorem putRow_links (s : State) (key : Nat) (r : SaRow) : (s.putRow key r).links = s.links := rfl
@[simp] theorem putRow_dsyn (s : State) (key : Nat) (r : SaRow) : (s.putRow key r).dsyn = s.dsyn := rfl
@[simp] theorem putRow_spurious (s : State) (key : Nat) (r : SaRow) : (s.putRow key r).spurious = s.spurious := rfl
@[simp] theorem putRow_onDie (s : State) (key : Nat) (r : SaRow) : (s.putRow key r).onDie = s.onDie := rfl
@[simp] theorem putRow_kmsgs (s : State) (key : Nat) (r : SaRow) : (s.putRow key r).kmsgs = s.kmsgs := rfl
@[simp] theorem putRow_udpPort (s : State) (key : Nat) (r : SaRow) : (s.putRow key r).udpPort = s.udpPort := rfl
@[simp] theorem putRow_holdReset (s : State) (key : Nat) (r : SaRow) : (s.putRow key r).holdReset = s.holdReset := rfl
@[simp] theorem putRow_versions (s : State) (key : Nat) (r : SaRow) : (s.putRow key r).versions = s.versions := rfl
@[simp] theorem putRow_version (s : State) (key : Nat) (r : SaRow) : (s.putRow key r).version = s.version := rfl
@[simp] theorem putRow_boot (s : State) (key : Nat) (r : SaRow) : (s.putRow key r).boot = s.boot := rfl
@[simp] theorem putRow_aer (s : State) (key : Nat) (r : SaRow) : (s.putRow key r).aer = s.aer := rfl
@[simp] theorem putRow_stopped (s : State) (key : Nat) (r : SaRow) : (s.putRow key r).stopped = s.stopped := rfl

/-! putTicket changes `tickets` only. -/
@[simp] theorem putTicket_cur (s : State) (key : Nat) (x : Ticket) : (s.putTicket key x).cur = s.cur := rfl
@[simp] theorem putTicket_agenda (s : State) (key : Nat) (x : Ticket) : (s.putTicket key x).agenda = s.agenda := rfl
@[simp] theorem putTicket_freeCtr (s : State) (key : Nat) (x : Ticket) : (s.putTicket key x).freeCtr = s.freeCtr := rfl
@[simp] theorem putTicket_dial (s : State) (key : Nat) (x : Ticket) : (s.putTicket key x).dial = s.dial := rfl
@[simp] theorem putTicket_skews (s : State) (key : Nat) (x : Ticket) : (s.putTicket key x).skews = s.skews := rfl
@[simp] theorem putTicket_groups (s : State) (key : Nat) (x : Ticket) : (s.putTicket key x).groups = s.groups := rfl
@[simp] theorem putTicket_teams (s : State) (key : Nat) (x : Ticket) : (s.putTicket key x).teams = s.teams := rfl
@[simp] theorem putTicket_worlds (s : State) (key : Nat) (x : Ticket) : (s.putTicket key x).worlds = s.worlds := rfl
@[simp] theorem putTicket_pipes (s : State) (key : Nat) (x : Ticket) : (s.putTicket key x).pipes = s.pipes := rfl
@[simp] theorem putTicket_cycles (s : State) (key : Nat) (x : Ticket) : (s.putTicket key x).cycles = s.cycles := rfl
@[simp] theorem putTicket_hbm (s : State) (key : Nat) (x : Ticket) : (s.putTicket key x).hbm = s.hbm := rfl
@[simp] theorem putTicket_coreScr (s : State) (key : Nat) (x : Ticket) : (s.putTicket key x).coreScr = s.coreScr := rfl
@[simp] theorem putTicket_dieScr (s : State) (key : Nat) (x : Ticket) : (s.putTicket key x).dieScr = s.dieScr := rfl
@[simp] theorem putTicket_dieEncs (s : State) (key : Nat) (x : Ticket) : (s.putTicket key x).dieEncs = s.dieEncs := rfl
@[simp] theorem putTicket_poison (s : State) (key : Nat) (x : Ticket) : (s.putTicket key x).poison = s.poison := rfl
@[simp] theorem putTicket_dieBad (s : State) (key : Nat) (x : Ticket) : (s.putTicket key x).dieBad = s.dieBad := rfl
@[simp] theorem putTicket_l2 (s : State) (key : Nat) (x : Ticket) : (s.putTicket key x).l2 = s.l2 := rfl
@[simp] theorem putTicket_floors (s : State) (key : Nat) (x : Ticket) : (s.putTicket key x).floors = s.floors := rfl
@[simp] theorem putTicket_rcounts (s : State) (key : Nat) (x : Ticket) : (s.putTicket key x).rcounts = s.rcounts := rfl
@[simp] theorem putTicket_encs (s : State) (key : Nat) (x : Ticket) : (s.putTicket key x).encs = s.encs := rfl
@[simp] theorem putTicket_dirq (s : State) (key : Nat) (x : Ticket) : (s.putTicket key x).dirq = s.dirq := rfl
@[simp] theorem putTicket_memPend (s : State) (key : Nat) (x : Ticket) : (s.putTicket key x).memPend = s.memPend := rfl
@[simp] theorem putTicket_lastV (s : State) (key : Nat) (x : Ticket) : (s.putTicket key x).lastV = s.lastV := rfl
@[simp] theorem putTicket_snoop (s : State) (key : Nat) (x : Ticket) : (s.putTicket key x).snoop = s.snoop := rfl
@[simp] theorem putTicket_owns (s : State) (key : Nat) (x : Ticket) : (s.putTicket key x).owns = s.owns := rfl
@[simp] theorem putTicket_backs (s : State) (key : Nat) (x : Ticket) : (s.putTicket key x).backs = s.backs := rfl
@[simp] theorem putTicket_l1 (s : State) (key : Nat) (x : Ticket) : (s.putTicket key x).l1 = s.l1 := rfl
@[simp] theorem putTicket_wcb (s : State) (key : Nat) (x : Ticket) : (s.putTicket key x).wcb = s.wcb := rfl
@[simp] theorem putTicket_uses (s : State) (key : Nat) (x : Ticket) : (s.putTicket key x).uses = s.uses := rfl
@[simp] theorem putTicket_desc (s : State) (key : Nat) (x : Ticket) : (s.putTicket key x).desc = s.desc := rfl
@[simp] theorem putTicket_tlb (s : State) (key : Nat) (x : Ticket) : (s.putTicket key x).tlb = s.tlb := rfl
@[simp] theorem putTicket_walk (s : State) (key : Nat) (x : Ticket) : (s.putTicket key x).walk = s.walk := rfl
@[simp] theorem putTicket_ccache (s : State) (key : Nat) (x : Ticket) : (s.putTicket key x).ccache = s.ccache := rfl
@[simp] theorem putTicket_dcache (s : State) (key : Nat) (x : Ticket) : (s.putTicket key x).dcache = s.dcache := rfl
@[simp] theorem putTicket_ops (s : State) (key : Nat) (x : Ticket) : (s.putTicket key x).ops = s.ops := rfl
@[simp] theorem putTicket_chans (s : State) (key : Nat) (x : Ticket) : (s.putTicket key x).chans = s.chans := rfl
@[simp] theorem putTicket_arrays (s : State) (key : Nat) (x : Ticket) : (s.putTicket key x).arrays = s.arrays := rfl
@[simp] theorem putTicket_rows (s : State) (key : Nat) (x : Ticket) : (s.putTicket key x).rows = s.rows := rfl
@[simp] theorem putTicket_nextOp (s : State) (key : Nat) (x : Ticket) : (s.putTicket key x).nextOp = s.nextOp := rfl
@[simp] theorem putTicket_parking (s : State) (key : Nat) (x : Ticket) : (s.putTicket key x).parking = s.parking := rfl
@[simp] theorem putTicket_calls (s : State) (key : Nat) (x : Ticket) : (s.putTicket key x).calls = s.calls := rfl
@[simp] theorem putTicket_journals (s : State) (key : Nat) (x : Ticket) : (s.putTicket key x).journals = s.journals := rfl
@[simp] theorem putTicket_jwrites (s : State) (key : Nat) (x : Ticket) : (s.putTicket key x).jwrites = s.jwrites := rfl
@[simp] theorem putTicket_posts (s : State) (key : Nat) (x : Ticket) : (s.putTicket key x).posts = s.posts := rfl
@[simp] theorem putTicket_grids (s : State) (key : Nat) (x : Ticket) : (s.putTicket key x).grids = s.grids := rfl
@[simp] theorem putTicket_issues (s : State) (key : Nat) (x : Ticket) : (s.putTicket key x).issues = s.issues := rfl
@[simp] theorem putTicket_dones (s : State) (key : Nat) (x : Ticket) : (s.putTicket key x).dones = s.dones := rfl
@[simp] theorem putTicket_tickets (s : State) (key : Nat) (x : Ticket) : (s.putTicket key x).tickets = Fm.put s.tickets key x := rfl
@[simp] theorem putTicket_expired (s : State) (key : Nat) (x : Ticket) : (s.putTicket key x).expired = s.expired := rfl
@[simp] theorem putTicket_keyCtr (s : State) (key : Nat) (x : Ticket) : (s.putTicket key x).keyCtr = s.keyCtr := rfl
@[simp] theorem putTicket_tktKey (s : State) (key : Nat) (x : Ticket) : (s.putTicket key x).tktKey = s.tktKey := rfl
@[simp] theorem putTicket_pends (s : State) (key : Nat) (x : Ticket) : (s.putTicket key x).pends = s.pends := rfl
@[simp] theorem putTicket_queues (s : State) (key : Nat) (x : Ticket) : (s.putTicket key x).queues = s.queues := rfl
@[simp] theorem putTicket_cmds (s : State) (key : Nat) (x : Ticket) : (s.putTicket key x).cmds = s.cmds := rfl
@[simp] theorem putTicket_graphs (s : State) (key : Nat) (x : Ticket) : (s.putTicket key x).graphs = s.graphs := rfl
@[simp] theorem putTicket_loads (s : State) (key : Nat) (x : Ticket) : (s.putTicket key x).loads = s.loads := rfl
@[simp] theorem putTicket_kcmds (s : State) (key : Nat) (x : Ticket) : (s.putTicket key x).kcmds = s.kcmds := rfl
@[simp] theorem putTicket_replays (s : State) (key : Nat) (x : Ticket) : (s.putTicket key x).replays = s.replays := rfl
@[simp] theorem putTicket_keys (s : State) (key : Nat) (x : Ticket) : (s.putTicket key x).keys = s.keys := rfl
@[simp] theorem putTicket_sessions (s : State) (key : Nat) (x : Ticket) : (s.putTicket key x).sessions = s.sessions := rfl
@[simp] theorem putTicket_tdis (s : State) (key : Nat) (x : Ticket) : (s.putTicket key x).tdis = s.tdis := rfl
@[simp] theorem putTicket_ides (s : State) (key : Nat) (x : Ticket) : (s.putTicket key x).ides = s.ides := rfl
@[simp] theorem putTicket_arms (s : State) (key : Nat) (x : Ticket) : (s.putTicket key x).arms = s.arms := rfl
@[simp] theorem putTicket_apertures (s : State) (key : Nat) (x : Ticket) : (s.putTicket key x).apertures = s.apertures := rfl
@[simp] theorem putTicket_hostV (s : State) (key : Nat) (x : Ticket) : (s.putTicket key x).hostV = s.hostV := rfl
@[simp] theorem putTicket_posted (s : State) (key : Nat) (x : Ticket) : (s.putTicket key x).posted = s.posted := rfl
@[simp] theorem putTicket_hostShare (s : State) (key : Nat) (x : Ticket) : (s.putTicket key x).hostShare = s.hostShare := rfl
@[simp] theorem putTicket_ports (s : State) (key : Nat) (x : Ticket) : (s.putTicket key x).ports = s.ports := rfl
@[simp] theorem putTicket_portsNext (s : State) (key : Nat) (x : Ticket) : (s.putTicket key x).portsNext = s.portsNext := rfl
@[simp] theorem putTicket_reply (s : State) (key : Nat) (x : Ticket) : (s.putTicket key x).reply = s.reply := rfl
@[simp] theorem putTicket_cap (s : State) (key : Nat) (x : Ticket) : (s.putTicket key x).cap = s.cap := rfl
@[simp] theorem putTicket_clock (s : State) (key : Nat) (x : Ticket) : (s.putTicket key x).clock = s.clock := rfl
@[simp] theorem putTicket_gated (s : State) (key : Nat) (x : Ticket) : (s.putTicket key x).gated = s.gated := rfl
@[simp] theorem putTicket_pmus (s : State) (key : Nat) (x : Ticket) : (s.putTicket key x).pmus = s.pmus := rfl
@[simp] theorem putTicket_repairs (s : State) (key : Nat) (x : Ticket) : (s.putTicket key x).repairs = s.repairs := rfl
@[simp] theorem putTicket_links (s : State) (key : Nat) (x : Ticket) : (s.putTicket key x).links = s.links := rfl
@[simp] theorem putTicket_dsyn (s : State) (key : Nat) (x : Ticket) : (s.putTicket key x).dsyn = s.dsyn := rfl
@[simp] theorem putTicket_spurious (s : State) (key : Nat) (x : Ticket) : (s.putTicket key x).spurious = s.spurious := rfl
@[simp] theorem putTicket_onDie (s : State) (key : Nat) (x : Ticket) : (s.putTicket key x).onDie = s.onDie := rfl
@[simp] theorem putTicket_kmsgs (s : State) (key : Nat) (x : Ticket) : (s.putTicket key x).kmsgs = s.kmsgs := rfl
@[simp] theorem putTicket_udpPort (s : State) (key : Nat) (x : Ticket) : (s.putTicket key x).udpPort = s.udpPort := rfl
@[simp] theorem putTicket_holdReset (s : State) (key : Nat) (x : Ticket) : (s.putTicket key x).holdReset = s.holdReset := rfl
@[simp] theorem putTicket_versions (s : State) (key : Nat) (x : Ticket) : (s.putTicket key x).versions = s.versions := rfl
@[simp] theorem putTicket_version (s : State) (key : Nat) (x : Ticket) : (s.putTicket key x).version = s.version := rfl
@[simp] theorem putTicket_boot (s : State) (key : Nat) (x : Ticket) : (s.putTicket key x).boot = s.boot := rfl
@[simp] theorem putTicket_aer (s : State) (key : Nat) (x : Ticket) : (s.putTicket key x).aer = s.aer := rfl
@[simp] theorem putTicket_stopped (s : State) (key : Nat) (x : Ticket) : (s.putTicket key x).stopped = s.stopped := rfl

/-! putArr changes `arrays` only. -/
@[simp] theorem putArr_cur (s : State) (core unit : Nat) (a : Arr) : (s.putArr core unit a).cur = s.cur := rfl
@[simp] theorem putArr_agenda (s : State) (core unit : Nat) (a : Arr) : (s.putArr core unit a).agenda = s.agenda := rfl
@[simp] theorem putArr_freeCtr (s : State) (core unit : Nat) (a : Arr) : (s.putArr core unit a).freeCtr = s.freeCtr := rfl
@[simp] theorem putArr_dial (s : State) (core unit : Nat) (a : Arr) : (s.putArr core unit a).dial = s.dial := rfl
@[simp] theorem putArr_skews (s : State) (core unit : Nat) (a : Arr) : (s.putArr core unit a).skews = s.skews := rfl
@[simp] theorem putArr_groups (s : State) (core unit : Nat) (a : Arr) : (s.putArr core unit a).groups = s.groups := rfl
@[simp] theorem putArr_teams (s : State) (core unit : Nat) (a : Arr) : (s.putArr core unit a).teams = s.teams := rfl
@[simp] theorem putArr_worlds (s : State) (core unit : Nat) (a : Arr) : (s.putArr core unit a).worlds = s.worlds := rfl
@[simp] theorem putArr_pipes (s : State) (core unit : Nat) (a : Arr) : (s.putArr core unit a).pipes = s.pipes := rfl
@[simp] theorem putArr_cycles (s : State) (core unit : Nat) (a : Arr) : (s.putArr core unit a).cycles = s.cycles := rfl
@[simp] theorem putArr_hbm (s : State) (core unit : Nat) (a : Arr) : (s.putArr core unit a).hbm = s.hbm := rfl
@[simp] theorem putArr_coreScr (s : State) (core unit : Nat) (a : Arr) : (s.putArr core unit a).coreScr = s.coreScr := rfl
@[simp] theorem putArr_dieScr (s : State) (core unit : Nat) (a : Arr) : (s.putArr core unit a).dieScr = s.dieScr := rfl
@[simp] theorem putArr_dieEncs (s : State) (core unit : Nat) (a : Arr) : (s.putArr core unit a).dieEncs = s.dieEncs := rfl
@[simp] theorem putArr_poison (s : State) (core unit : Nat) (a : Arr) : (s.putArr core unit a).poison = s.poison := rfl
@[simp] theorem putArr_dieBad (s : State) (core unit : Nat) (a : Arr) : (s.putArr core unit a).dieBad = s.dieBad := rfl
@[simp] theorem putArr_l2 (s : State) (core unit : Nat) (a : Arr) : (s.putArr core unit a).l2 = s.l2 := rfl
@[simp] theorem putArr_floors (s : State) (core unit : Nat) (a : Arr) : (s.putArr core unit a).floors = s.floors := rfl
@[simp] theorem putArr_rcounts (s : State) (core unit : Nat) (a : Arr) : (s.putArr core unit a).rcounts = s.rcounts := rfl
@[simp] theorem putArr_encs (s : State) (core unit : Nat) (a : Arr) : (s.putArr core unit a).encs = s.encs := rfl
@[simp] theorem putArr_dirq (s : State) (core unit : Nat) (a : Arr) : (s.putArr core unit a).dirq = s.dirq := rfl
@[simp] theorem putArr_memPend (s : State) (core unit : Nat) (a : Arr) : (s.putArr core unit a).memPend = s.memPend := rfl
@[simp] theorem putArr_lastV (s : State) (core unit : Nat) (a : Arr) : (s.putArr core unit a).lastV = s.lastV := rfl
@[simp] theorem putArr_snoop (s : State) (core unit : Nat) (a : Arr) : (s.putArr core unit a).snoop = s.snoop := rfl
@[simp] theorem putArr_owns (s : State) (core unit : Nat) (a : Arr) : (s.putArr core unit a).owns = s.owns := rfl
@[simp] theorem putArr_backs (s : State) (core unit : Nat) (a : Arr) : (s.putArr core unit a).backs = s.backs := rfl
@[simp] theorem putArr_l1 (s : State) (core unit : Nat) (a : Arr) : (s.putArr core unit a).l1 = s.l1 := rfl
@[simp] theorem putArr_wcb (s : State) (core unit : Nat) (a : Arr) : (s.putArr core unit a).wcb = s.wcb := rfl
@[simp] theorem putArr_uses (s : State) (core unit : Nat) (a : Arr) : (s.putArr core unit a).uses = s.uses := rfl
@[simp] theorem putArr_desc (s : State) (core unit : Nat) (a : Arr) : (s.putArr core unit a).desc = s.desc := rfl
@[simp] theorem putArr_tlb (s : State) (core unit : Nat) (a : Arr) : (s.putArr core unit a).tlb = s.tlb := rfl
@[simp] theorem putArr_walk (s : State) (core unit : Nat) (a : Arr) : (s.putArr core unit a).walk = s.walk := rfl
@[simp] theorem putArr_ccache (s : State) (core unit : Nat) (a : Arr) : (s.putArr core unit a).ccache = s.ccache := rfl
@[simp] theorem putArr_dcache (s : State) (core unit : Nat) (a : Arr) : (s.putArr core unit a).dcache = s.dcache := rfl
@[simp] theorem putArr_ops (s : State) (core unit : Nat) (a : Arr) : (s.putArr core unit a).ops = s.ops := rfl
@[simp] theorem putArr_chans (s : State) (core unit : Nat) (a : Arr) : (s.putArr core unit a).chans = s.chans := rfl
@[simp] theorem putArr_arrays (s : State) (core unit : Nat) (a : Arr) : (s.putArr core unit a).arrays = Fm.put s.arrays (core * 8 + unit) a := rfl
@[simp] theorem putArr_rows (s : State) (core unit : Nat) (a : Arr) : (s.putArr core unit a).rows = s.rows := rfl
@[simp] theorem putArr_nextOp (s : State) (core unit : Nat) (a : Arr) : (s.putArr core unit a).nextOp = s.nextOp := rfl
@[simp] theorem putArr_parking (s : State) (core unit : Nat) (a : Arr) : (s.putArr core unit a).parking = s.parking := rfl
@[simp] theorem putArr_calls (s : State) (core unit : Nat) (a : Arr) : (s.putArr core unit a).calls = s.calls := rfl
@[simp] theorem putArr_journals (s : State) (core unit : Nat) (a : Arr) : (s.putArr core unit a).journals = s.journals := rfl
@[simp] theorem putArr_jwrites (s : State) (core unit : Nat) (a : Arr) : (s.putArr core unit a).jwrites = s.jwrites := rfl
@[simp] theorem putArr_posts (s : State) (core unit : Nat) (a : Arr) : (s.putArr core unit a).posts = s.posts := rfl
@[simp] theorem putArr_grids (s : State) (core unit : Nat) (a : Arr) : (s.putArr core unit a).grids = s.grids := rfl
@[simp] theorem putArr_issues (s : State) (core unit : Nat) (a : Arr) : (s.putArr core unit a).issues = s.issues := rfl
@[simp] theorem putArr_dones (s : State) (core unit : Nat) (a : Arr) : (s.putArr core unit a).dones = s.dones := rfl
@[simp] theorem putArr_tickets (s : State) (core unit : Nat) (a : Arr) : (s.putArr core unit a).tickets = s.tickets := rfl
@[simp] theorem putArr_expired (s : State) (core unit : Nat) (a : Arr) : (s.putArr core unit a).expired = s.expired := rfl
@[simp] theorem putArr_keyCtr (s : State) (core unit : Nat) (a : Arr) : (s.putArr core unit a).keyCtr = s.keyCtr := rfl
@[simp] theorem putArr_tktKey (s : State) (core unit : Nat) (a : Arr) : (s.putArr core unit a).tktKey = s.tktKey := rfl
@[simp] theorem putArr_pends (s : State) (core unit : Nat) (a : Arr) : (s.putArr core unit a).pends = s.pends := rfl
@[simp] theorem putArr_queues (s : State) (core unit : Nat) (a : Arr) : (s.putArr core unit a).queues = s.queues := rfl
@[simp] theorem putArr_cmds (s : State) (core unit : Nat) (a : Arr) : (s.putArr core unit a).cmds = s.cmds := rfl
@[simp] theorem putArr_graphs (s : State) (core unit : Nat) (a : Arr) : (s.putArr core unit a).graphs = s.graphs := rfl
@[simp] theorem putArr_loads (s : State) (core unit : Nat) (a : Arr) : (s.putArr core unit a).loads = s.loads := rfl
@[simp] theorem putArr_kcmds (s : State) (core unit : Nat) (a : Arr) : (s.putArr core unit a).kcmds = s.kcmds := rfl
@[simp] theorem putArr_replays (s : State) (core unit : Nat) (a : Arr) : (s.putArr core unit a).replays = s.replays := rfl
@[simp] theorem putArr_keys (s : State) (core unit : Nat) (a : Arr) : (s.putArr core unit a).keys = s.keys := rfl
@[simp] theorem putArr_sessions (s : State) (core unit : Nat) (a : Arr) : (s.putArr core unit a).sessions = s.sessions := rfl
@[simp] theorem putArr_tdis (s : State) (core unit : Nat) (a : Arr) : (s.putArr core unit a).tdis = s.tdis := rfl
@[simp] theorem putArr_ides (s : State) (core unit : Nat) (a : Arr) : (s.putArr core unit a).ides = s.ides := rfl
@[simp] theorem putArr_arms (s : State) (core unit : Nat) (a : Arr) : (s.putArr core unit a).arms = s.arms := rfl
@[simp] theorem putArr_apertures (s : State) (core unit : Nat) (a : Arr) : (s.putArr core unit a).apertures = s.apertures := rfl
@[simp] theorem putArr_hostV (s : State) (core unit : Nat) (a : Arr) : (s.putArr core unit a).hostV = s.hostV := rfl
@[simp] theorem putArr_posted (s : State) (core unit : Nat) (a : Arr) : (s.putArr core unit a).posted = s.posted := rfl
@[simp] theorem putArr_hostShare (s : State) (core unit : Nat) (a : Arr) : (s.putArr core unit a).hostShare = s.hostShare := rfl
@[simp] theorem putArr_ports (s : State) (core unit : Nat) (a : Arr) : (s.putArr core unit a).ports = s.ports := rfl
@[simp] theorem putArr_portsNext (s : State) (core unit : Nat) (a : Arr) : (s.putArr core unit a).portsNext = s.portsNext := rfl
@[simp] theorem putArr_reply (s : State) (core unit : Nat) (a : Arr) : (s.putArr core unit a).reply = s.reply := rfl
@[simp] theorem putArr_cap (s : State) (core unit : Nat) (a : Arr) : (s.putArr core unit a).cap = s.cap := rfl
@[simp] theorem putArr_clock (s : State) (core unit : Nat) (a : Arr) : (s.putArr core unit a).clock = s.clock := rfl
@[simp] theorem putArr_gated (s : State) (core unit : Nat) (a : Arr) : (s.putArr core unit a).gated = s.gated := rfl
@[simp] theorem putArr_pmus (s : State) (core unit : Nat) (a : Arr) : (s.putArr core unit a).pmus = s.pmus := rfl
@[simp] theorem putArr_repairs (s : State) (core unit : Nat) (a : Arr) : (s.putArr core unit a).repairs = s.repairs := rfl
@[simp] theorem putArr_links (s : State) (core unit : Nat) (a : Arr) : (s.putArr core unit a).links = s.links := rfl
@[simp] theorem putArr_dsyn (s : State) (core unit : Nat) (a : Arr) : (s.putArr core unit a).dsyn = s.dsyn := rfl
@[simp] theorem putArr_spurious (s : State) (core unit : Nat) (a : Arr) : (s.putArr core unit a).spurious = s.spurious := rfl
@[simp] theorem putArr_onDie (s : State) (core unit : Nat) (a : Arr) : (s.putArr core unit a).onDie = s.onDie := rfl
@[simp] theorem putArr_kmsgs (s : State) (core unit : Nat) (a : Arr) : (s.putArr core unit a).kmsgs = s.kmsgs := rfl
@[simp] theorem putArr_udpPort (s : State) (core unit : Nat) (a : Arr) : (s.putArr core unit a).udpPort = s.udpPort := rfl
@[simp] theorem putArr_holdReset (s : State) (core unit : Nat) (a : Arr) : (s.putArr core unit a).holdReset = s.holdReset := rfl
@[simp] theorem putArr_versions (s : State) (core unit : Nat) (a : Arr) : (s.putArr core unit a).versions = s.versions := rfl
@[simp] theorem putArr_version (s : State) (core unit : Nat) (a : Arr) : (s.putArr core unit a).version = s.version := rfl
@[simp] theorem putArr_boot (s : State) (core unit : Nat) (a : Arr) : (s.putArr core unit a).boot = s.boot := rfl
@[simp] theorem putArr_aer (s : State) (core unit : Nat) (a : Arr) : (s.putArr core unit a).aer = s.aer := rfl
@[simp] theorem putArr_stopped (s : State) (core unit : Nat) (a : Arr) : (s.putArr core unit a).stopped = s.stopped := rfl

/-! putReplay changes `replays` only. -/
@[simp] theorem putReplay_cur (s : State) (k : Nat) (r : Replay) : (s.putReplay k r).cur = s.cur := rfl
@[simp] theorem putReplay_agenda (s : State) (k : Nat) (r : Replay) : (s.putReplay k r).agenda = s.agenda := rfl
@[simp] theorem putReplay_freeCtr (s : State) (k : Nat) (r : Replay) : (s.putReplay k r).freeCtr = s.freeCtr := rfl
@[simp] theorem putReplay_dial (s : State) (k : Nat) (r : Replay) : (s.putReplay k r).dial = s.dial := rfl
@[simp] theorem putReplay_skews (s : State) (k : Nat) (r : Replay) : (s.putReplay k r).skews = s.skews := rfl
@[simp] theorem putReplay_groups (s : State) (k : Nat) (r : Replay) : (s.putReplay k r).groups = s.groups := rfl
@[simp] theorem putReplay_teams (s : State) (k : Nat) (r : Replay) : (s.putReplay k r).teams = s.teams := rfl
@[simp] theorem putReplay_worlds (s : State) (k : Nat) (r : Replay) : (s.putReplay k r).worlds = s.worlds := rfl
@[simp] theorem putReplay_pipes (s : State) (k : Nat) (r : Replay) : (s.putReplay k r).pipes = s.pipes := rfl
@[simp] theorem putReplay_cycles (s : State) (k : Nat) (r : Replay) : (s.putReplay k r).cycles = s.cycles := rfl
@[simp] theorem putReplay_hbm (s : State) (k : Nat) (r : Replay) : (s.putReplay k r).hbm = s.hbm := rfl
@[simp] theorem putReplay_coreScr (s : State) (k : Nat) (r : Replay) : (s.putReplay k r).coreScr = s.coreScr := rfl
@[simp] theorem putReplay_dieScr (s : State) (k : Nat) (r : Replay) : (s.putReplay k r).dieScr = s.dieScr := rfl
@[simp] theorem putReplay_dieEncs (s : State) (k : Nat) (r : Replay) : (s.putReplay k r).dieEncs = s.dieEncs := rfl
@[simp] theorem putReplay_poison (s : State) (k : Nat) (r : Replay) : (s.putReplay k r).poison = s.poison := rfl
@[simp] theorem putReplay_dieBad (s : State) (k : Nat) (r : Replay) : (s.putReplay k r).dieBad = s.dieBad := rfl
@[simp] theorem putReplay_l2 (s : State) (k : Nat) (r : Replay) : (s.putReplay k r).l2 = s.l2 := rfl
@[simp] theorem putReplay_floors (s : State) (k : Nat) (r : Replay) : (s.putReplay k r).floors = s.floors := rfl
@[simp] theorem putReplay_rcounts (s : State) (k : Nat) (r : Replay) : (s.putReplay k r).rcounts = s.rcounts := rfl
@[simp] theorem putReplay_encs (s : State) (k : Nat) (r : Replay) : (s.putReplay k r).encs = s.encs := rfl
@[simp] theorem putReplay_dirq (s : State) (k : Nat) (r : Replay) : (s.putReplay k r).dirq = s.dirq := rfl
@[simp] theorem putReplay_memPend (s : State) (k : Nat) (r : Replay) : (s.putReplay k r).memPend = s.memPend := rfl
@[simp] theorem putReplay_lastV (s : State) (k : Nat) (r : Replay) : (s.putReplay k r).lastV = s.lastV := rfl
@[simp] theorem putReplay_snoop (s : State) (k : Nat) (r : Replay) : (s.putReplay k r).snoop = s.snoop := rfl
@[simp] theorem putReplay_owns (s : State) (k : Nat) (r : Replay) : (s.putReplay k r).owns = s.owns := rfl
@[simp] theorem putReplay_backs (s : State) (k : Nat) (r : Replay) : (s.putReplay k r).backs = s.backs := rfl
@[simp] theorem putReplay_l1 (s : State) (k : Nat) (r : Replay) : (s.putReplay k r).l1 = s.l1 := rfl
@[simp] theorem putReplay_wcb (s : State) (k : Nat) (r : Replay) : (s.putReplay k r).wcb = s.wcb := rfl
@[simp] theorem putReplay_uses (s : State) (k : Nat) (r : Replay) : (s.putReplay k r).uses = s.uses := rfl
@[simp] theorem putReplay_desc (s : State) (k : Nat) (r : Replay) : (s.putReplay k r).desc = s.desc := rfl
@[simp] theorem putReplay_tlb (s : State) (k : Nat) (r : Replay) : (s.putReplay k r).tlb = s.tlb := rfl
@[simp] theorem putReplay_walk (s : State) (k : Nat) (r : Replay) : (s.putReplay k r).walk = s.walk := rfl
@[simp] theorem putReplay_ccache (s : State) (k : Nat) (r : Replay) : (s.putReplay k r).ccache = s.ccache := rfl
@[simp] theorem putReplay_dcache (s : State) (k : Nat) (r : Replay) : (s.putReplay k r).dcache = s.dcache := rfl
@[simp] theorem putReplay_ops (s : State) (k : Nat) (r : Replay) : (s.putReplay k r).ops = s.ops := rfl
@[simp] theorem putReplay_chans (s : State) (k : Nat) (r : Replay) : (s.putReplay k r).chans = s.chans := rfl
@[simp] theorem putReplay_arrays (s : State) (k : Nat) (r : Replay) : (s.putReplay k r).arrays = s.arrays := rfl
@[simp] theorem putReplay_rows (s : State) (k : Nat) (r : Replay) : (s.putReplay k r).rows = s.rows := rfl
@[simp] theorem putReplay_nextOp (s : State) (k : Nat) (r : Replay) : (s.putReplay k r).nextOp = s.nextOp := rfl
@[simp] theorem putReplay_parking (s : State) (k : Nat) (r : Replay) : (s.putReplay k r).parking = s.parking := rfl
@[simp] theorem putReplay_calls (s : State) (k : Nat) (r : Replay) : (s.putReplay k r).calls = s.calls := rfl
@[simp] theorem putReplay_journals (s : State) (k : Nat) (r : Replay) : (s.putReplay k r).journals = s.journals := rfl
@[simp] theorem putReplay_jwrites (s : State) (k : Nat) (r : Replay) : (s.putReplay k r).jwrites = s.jwrites := rfl
@[simp] theorem putReplay_posts (s : State) (k : Nat) (r : Replay) : (s.putReplay k r).posts = s.posts := rfl
@[simp] theorem putReplay_grids (s : State) (k : Nat) (r : Replay) : (s.putReplay k r).grids = s.grids := rfl
@[simp] theorem putReplay_issues (s : State) (k : Nat) (r : Replay) : (s.putReplay k r).issues = s.issues := rfl
@[simp] theorem putReplay_dones (s : State) (k : Nat) (r : Replay) : (s.putReplay k r).dones = s.dones := rfl
@[simp] theorem putReplay_tickets (s : State) (k : Nat) (r : Replay) : (s.putReplay k r).tickets = s.tickets := rfl
@[simp] theorem putReplay_expired (s : State) (k : Nat) (r : Replay) : (s.putReplay k r).expired = s.expired := rfl
@[simp] theorem putReplay_keyCtr (s : State) (k : Nat) (r : Replay) : (s.putReplay k r).keyCtr = s.keyCtr := rfl
@[simp] theorem putReplay_tktKey (s : State) (k : Nat) (r : Replay) : (s.putReplay k r).tktKey = s.tktKey := rfl
@[simp] theorem putReplay_pends (s : State) (k : Nat) (r : Replay) : (s.putReplay k r).pends = s.pends := rfl
@[simp] theorem putReplay_queues (s : State) (k : Nat) (r : Replay) : (s.putReplay k r).queues = s.queues := rfl
@[simp] theorem putReplay_cmds (s : State) (k : Nat) (r : Replay) : (s.putReplay k r).cmds = s.cmds := rfl
@[simp] theorem putReplay_graphs (s : State) (k : Nat) (r : Replay) : (s.putReplay k r).graphs = s.graphs := rfl
@[simp] theorem putReplay_loads (s : State) (k : Nat) (r : Replay) : (s.putReplay k r).loads = s.loads := rfl
@[simp] theorem putReplay_kcmds (s : State) (k : Nat) (r : Replay) : (s.putReplay k r).kcmds = s.kcmds := rfl
@[simp] theorem putReplay_replays (s : State) (k : Nat) (r : Replay) : (s.putReplay k r).replays = Fm.put s.replays k r := rfl
@[simp] theorem putReplay_keys (s : State) (k : Nat) (r : Replay) : (s.putReplay k r).keys = s.keys := rfl
@[simp] theorem putReplay_sessions (s : State) (k : Nat) (r : Replay) : (s.putReplay k r).sessions = s.sessions := rfl
@[simp] theorem putReplay_tdis (s : State) (k : Nat) (r : Replay) : (s.putReplay k r).tdis = s.tdis := rfl
@[simp] theorem putReplay_ides (s : State) (k : Nat) (r : Replay) : (s.putReplay k r).ides = s.ides := rfl
@[simp] theorem putReplay_arms (s : State) (k : Nat) (r : Replay) : (s.putReplay k r).arms = s.arms := rfl
@[simp] theorem putReplay_apertures (s : State) (k : Nat) (r : Replay) : (s.putReplay k r).apertures = s.apertures := rfl
@[simp] theorem putReplay_hostV (s : State) (k : Nat) (r : Replay) : (s.putReplay k r).hostV = s.hostV := rfl
@[simp] theorem putReplay_posted (s : State) (k : Nat) (r : Replay) : (s.putReplay k r).posted = s.posted := rfl
@[simp] theorem putReplay_hostShare (s : State) (k : Nat) (r : Replay) : (s.putReplay k r).hostShare = s.hostShare := rfl
@[simp] theorem putReplay_ports (s : State) (k : Nat) (r : Replay) : (s.putReplay k r).ports = s.ports := rfl
@[simp] theorem putReplay_portsNext (s : State) (k : Nat) (r : Replay) : (s.putReplay k r).portsNext = s.portsNext := rfl
@[simp] theorem putReplay_reply (s : State) (k : Nat) (r : Replay) : (s.putReplay k r).reply = s.reply := rfl
@[simp] theorem putReplay_cap (s : State) (k : Nat) (r : Replay) : (s.putReplay k r).cap = s.cap := rfl
@[simp] theorem putReplay_clock (s : State) (k : Nat) (r : Replay) : (s.putReplay k r).clock = s.clock := rfl
@[simp] theorem putReplay_gated (s : State) (k : Nat) (r : Replay) : (s.putReplay k r).gated = s.gated := rfl
@[simp] theorem putReplay_pmus (s : State) (k : Nat) (r : Replay) : (s.putReplay k r).pmus = s.pmus := rfl
@[simp] theorem putReplay_repairs (s : State) (k : Nat) (r : Replay) : (s.putReplay k r).repairs = s.repairs := rfl
@[simp] theorem putReplay_links (s : State) (k : Nat) (r : Replay) : (s.putReplay k r).links = s.links := rfl
@[simp] theorem putReplay_dsyn (s : State) (k : Nat) (r : Replay) : (s.putReplay k r).dsyn = s.dsyn := rfl
@[simp] theorem putReplay_spurious (s : State) (k : Nat) (r : Replay) : (s.putReplay k r).spurious = s.spurious := rfl
@[simp] theorem putReplay_onDie (s : State) (k : Nat) (r : Replay) : (s.putReplay k r).onDie = s.onDie := rfl
@[simp] theorem putReplay_kmsgs (s : State) (k : Nat) (r : Replay) : (s.putReplay k r).kmsgs = s.kmsgs := rfl
@[simp] theorem putReplay_udpPort (s : State) (k : Nat) (r : Replay) : (s.putReplay k r).udpPort = s.udpPort := rfl
@[simp] theorem putReplay_holdReset (s : State) (k : Nat) (r : Replay) : (s.putReplay k r).holdReset = s.holdReset := rfl
@[simp] theorem putReplay_versions (s : State) (k : Nat) (r : Replay) : (s.putReplay k r).versions = s.versions := rfl
@[simp] theorem putReplay_version (s : State) (k : Nat) (r : Replay) : (s.putReplay k r).version = s.version := rfl
@[simp] theorem putReplay_boot (s : State) (k : Nat) (r : Replay) : (s.putReplay k r).boot = s.boot := rfl
@[simp] theorem putReplay_aer (s : State) (k : Nat) (r : Replay) : (s.putReplay k r).aer = s.aer := rfl
@[simp] theorem putReplay_stopped (s : State) (k : Nat) (r : Replay) : (s.putReplay k r).stopped = s.stopped := rfl

/-! modRepair changes `repairs` only. -/
@[simp] theorem modRepair_cur (s : State) (stack : Nat) (f : Repair → Repair) : (s.modRepair stack f).cur = s.cur := rfl
@[simp] theorem modRepair_agenda (s : State) (stack : Nat) (f : Repair → Repair) : (s.modRepair stack f).agenda = s.agenda := rfl
@[simp] theorem modRepair_freeCtr (s : State) (stack : Nat) (f : Repair → Repair) : (s.modRepair stack f).freeCtr = s.freeCtr := rfl
@[simp] theorem modRepair_dial (s : State) (stack : Nat) (f : Repair → Repair) : (s.modRepair stack f).dial = s.dial := rfl
@[simp] theorem modRepair_skews (s : State) (stack : Nat) (f : Repair → Repair) : (s.modRepair stack f).skews = s.skews := rfl
@[simp] theorem modRepair_groups (s : State) (stack : Nat) (f : Repair → Repair) : (s.modRepair stack f).groups = s.groups := rfl
@[simp] theorem modRepair_teams (s : State) (stack : Nat) (f : Repair → Repair) : (s.modRepair stack f).teams = s.teams := rfl
@[simp] theorem modRepair_worlds (s : State) (stack : Nat) (f : Repair → Repair) : (s.modRepair stack f).worlds = s.worlds := rfl
@[simp] theorem modRepair_pipes (s : State) (stack : Nat) (f : Repair → Repair) : (s.modRepair stack f).pipes = s.pipes := rfl
@[simp] theorem modRepair_cycles (s : State) (stack : Nat) (f : Repair → Repair) : (s.modRepair stack f).cycles = s.cycles := rfl
@[simp] theorem modRepair_hbm (s : State) (stack : Nat) (f : Repair → Repair) : (s.modRepair stack f).hbm = s.hbm := rfl
@[simp] theorem modRepair_coreScr (s : State) (stack : Nat) (f : Repair → Repair) : (s.modRepair stack f).coreScr = s.coreScr := rfl
@[simp] theorem modRepair_dieScr (s : State) (stack : Nat) (f : Repair → Repair) : (s.modRepair stack f).dieScr = s.dieScr := rfl
@[simp] theorem modRepair_dieEncs (s : State) (stack : Nat) (f : Repair → Repair) : (s.modRepair stack f).dieEncs = s.dieEncs := rfl
@[simp] theorem modRepair_poison (s : State) (stack : Nat) (f : Repair → Repair) : (s.modRepair stack f).poison = s.poison := rfl
@[simp] theorem modRepair_dieBad (s : State) (stack : Nat) (f : Repair → Repair) : (s.modRepair stack f).dieBad = s.dieBad := rfl
@[simp] theorem modRepair_l2 (s : State) (stack : Nat) (f : Repair → Repair) : (s.modRepair stack f).l2 = s.l2 := rfl
@[simp] theorem modRepair_floors (s : State) (stack : Nat) (f : Repair → Repair) : (s.modRepair stack f).floors = s.floors := rfl
@[simp] theorem modRepair_rcounts (s : State) (stack : Nat) (f : Repair → Repair) : (s.modRepair stack f).rcounts = s.rcounts := rfl
@[simp] theorem modRepair_encs (s : State) (stack : Nat) (f : Repair → Repair) : (s.modRepair stack f).encs = s.encs := rfl
@[simp] theorem modRepair_dirq (s : State) (stack : Nat) (f : Repair → Repair) : (s.modRepair stack f).dirq = s.dirq := rfl
@[simp] theorem modRepair_memPend (s : State) (stack : Nat) (f : Repair → Repair) : (s.modRepair stack f).memPend = s.memPend := rfl
@[simp] theorem modRepair_lastV (s : State) (stack : Nat) (f : Repair → Repair) : (s.modRepair stack f).lastV = s.lastV := rfl
@[simp] theorem modRepair_snoop (s : State) (stack : Nat) (f : Repair → Repair) : (s.modRepair stack f).snoop = s.snoop := rfl
@[simp] theorem modRepair_owns (s : State) (stack : Nat) (f : Repair → Repair) : (s.modRepair stack f).owns = s.owns := rfl
@[simp] theorem modRepair_backs (s : State) (stack : Nat) (f : Repair → Repair) : (s.modRepair stack f).backs = s.backs := rfl
@[simp] theorem modRepair_l1 (s : State) (stack : Nat) (f : Repair → Repair) : (s.modRepair stack f).l1 = s.l1 := rfl
@[simp] theorem modRepair_wcb (s : State) (stack : Nat) (f : Repair → Repair) : (s.modRepair stack f).wcb = s.wcb := rfl
@[simp] theorem modRepair_uses (s : State) (stack : Nat) (f : Repair → Repair) : (s.modRepair stack f).uses = s.uses := rfl
@[simp] theorem modRepair_desc (s : State) (stack : Nat) (f : Repair → Repair) : (s.modRepair stack f).desc = s.desc := rfl
@[simp] theorem modRepair_tlb (s : State) (stack : Nat) (f : Repair → Repair) : (s.modRepair stack f).tlb = s.tlb := rfl
@[simp] theorem modRepair_walk (s : State) (stack : Nat) (f : Repair → Repair) : (s.modRepair stack f).walk = s.walk := rfl
@[simp] theorem modRepair_ccache (s : State) (stack : Nat) (f : Repair → Repair) : (s.modRepair stack f).ccache = s.ccache := rfl
@[simp] theorem modRepair_dcache (s : State) (stack : Nat) (f : Repair → Repair) : (s.modRepair stack f).dcache = s.dcache := rfl
@[simp] theorem modRepair_ops (s : State) (stack : Nat) (f : Repair → Repair) : (s.modRepair stack f).ops = s.ops := rfl
@[simp] theorem modRepair_chans (s : State) (stack : Nat) (f : Repair → Repair) : (s.modRepair stack f).chans = s.chans := rfl
@[simp] theorem modRepair_arrays (s : State) (stack : Nat) (f : Repair → Repair) : (s.modRepair stack f).arrays = s.arrays := rfl
@[simp] theorem modRepair_rows (s : State) (stack : Nat) (f : Repair → Repair) : (s.modRepair stack f).rows = s.rows := rfl
@[simp] theorem modRepair_nextOp (s : State) (stack : Nat) (f : Repair → Repair) : (s.modRepair stack f).nextOp = s.nextOp := rfl
@[simp] theorem modRepair_parking (s : State) (stack : Nat) (f : Repair → Repair) : (s.modRepair stack f).parking = s.parking := rfl
@[simp] theorem modRepair_calls (s : State) (stack : Nat) (f : Repair → Repair) : (s.modRepair stack f).calls = s.calls := rfl
@[simp] theorem modRepair_journals (s : State) (stack : Nat) (f : Repair → Repair) : (s.modRepair stack f).journals = s.journals := rfl
@[simp] theorem modRepair_jwrites (s : State) (stack : Nat) (f : Repair → Repair) : (s.modRepair stack f).jwrites = s.jwrites := rfl
@[simp] theorem modRepair_posts (s : State) (stack : Nat) (f : Repair → Repair) : (s.modRepair stack f).posts = s.posts := rfl
@[simp] theorem modRepair_grids (s : State) (stack : Nat) (f : Repair → Repair) : (s.modRepair stack f).grids = s.grids := rfl
@[simp] theorem modRepair_issues (s : State) (stack : Nat) (f : Repair → Repair) : (s.modRepair stack f).issues = s.issues := rfl
@[simp] theorem modRepair_dones (s : State) (stack : Nat) (f : Repair → Repair) : (s.modRepair stack f).dones = s.dones := rfl
@[simp] theorem modRepair_tickets (s : State) (stack : Nat) (f : Repair → Repair) : (s.modRepair stack f).tickets = s.tickets := rfl
@[simp] theorem modRepair_expired (s : State) (stack : Nat) (f : Repair → Repair) : (s.modRepair stack f).expired = s.expired := rfl
@[simp] theorem modRepair_keyCtr (s : State) (stack : Nat) (f : Repair → Repair) : (s.modRepair stack f).keyCtr = s.keyCtr := rfl
@[simp] theorem modRepair_tktKey (s : State) (stack : Nat) (f : Repair → Repair) : (s.modRepair stack f).tktKey = s.tktKey := rfl
@[simp] theorem modRepair_pends (s : State) (stack : Nat) (f : Repair → Repair) : (s.modRepair stack f).pends = s.pends := rfl
@[simp] theorem modRepair_queues (s : State) (stack : Nat) (f : Repair → Repair) : (s.modRepair stack f).queues = s.queues := rfl
@[simp] theorem modRepair_cmds (s : State) (stack : Nat) (f : Repair → Repair) : (s.modRepair stack f).cmds = s.cmds := rfl
@[simp] theorem modRepair_graphs (s : State) (stack : Nat) (f : Repair → Repair) : (s.modRepair stack f).graphs = s.graphs := rfl
@[simp] theorem modRepair_loads (s : State) (stack : Nat) (f : Repair → Repair) : (s.modRepair stack f).loads = s.loads := rfl
@[simp] theorem modRepair_kcmds (s : State) (stack : Nat) (f : Repair → Repair) : (s.modRepair stack f).kcmds = s.kcmds := rfl
@[simp] theorem modRepair_replays (s : State) (stack : Nat) (f : Repair → Repair) : (s.modRepair stack f).replays = s.replays := rfl
@[simp] theorem modRepair_keys (s : State) (stack : Nat) (f : Repair → Repair) : (s.modRepair stack f).keys = s.keys := rfl
@[simp] theorem modRepair_sessions (s : State) (stack : Nat) (f : Repair → Repair) : (s.modRepair stack f).sessions = s.sessions := rfl
@[simp] theorem modRepair_tdis (s : State) (stack : Nat) (f : Repair → Repair) : (s.modRepair stack f).tdis = s.tdis := rfl
@[simp] theorem modRepair_ides (s : State) (stack : Nat) (f : Repair → Repair) : (s.modRepair stack f).ides = s.ides := rfl
@[simp] theorem modRepair_arms (s : State) (stack : Nat) (f : Repair → Repair) : (s.modRepair stack f).arms = s.arms := rfl
@[simp] theorem modRepair_apertures (s : State) (stack : Nat) (f : Repair → Repair) : (s.modRepair stack f).apertures = s.apertures := rfl
@[simp] theorem modRepair_hostV (s : State) (stack : Nat) (f : Repair → Repair) : (s.modRepair stack f).hostV = s.hostV := rfl
@[simp] theorem modRepair_posted (s : State) (stack : Nat) (f : Repair → Repair) : (s.modRepair stack f).posted = s.posted := rfl
@[simp] theorem modRepair_hostShare (s : State) (stack : Nat) (f : Repair → Repair) : (s.modRepair stack f).hostShare = s.hostShare := rfl
@[simp] theorem modRepair_ports (s : State) (stack : Nat) (f : Repair → Repair) : (s.modRepair stack f).ports = s.ports := rfl
@[simp] theorem modRepair_portsNext (s : State) (stack : Nat) (f : Repair → Repair) : (s.modRepair stack f).portsNext = s.portsNext := rfl
@[simp] theorem modRepair_reply (s : State) (stack : Nat) (f : Repair → Repair) : (s.modRepair stack f).reply = s.reply := rfl
@[simp] theorem modRepair_cap (s : State) (stack : Nat) (f : Repair → Repair) : (s.modRepair stack f).cap = s.cap := rfl
@[simp] theorem modRepair_clock (s : State) (stack : Nat) (f : Repair → Repair) : (s.modRepair stack f).clock = s.clock := rfl
@[simp] theorem modRepair_gated (s : State) (stack : Nat) (f : Repair → Repair) : (s.modRepair stack f).gated = s.gated := rfl
@[simp] theorem modRepair_pmus (s : State) (stack : Nat) (f : Repair → Repair) : (s.modRepair stack f).pmus = s.pmus := rfl
@[simp] theorem modRepair_links (s : State) (stack : Nat) (f : Repair → Repair) : (s.modRepair stack f).links = s.links := rfl
@[simp] theorem modRepair_dsyn (s : State) (stack : Nat) (f : Repair → Repair) : (s.modRepair stack f).dsyn = s.dsyn := rfl
@[simp] theorem modRepair_spurious (s : State) (stack : Nat) (f : Repair → Repair) : (s.modRepair stack f).spurious = s.spurious := rfl
@[simp] theorem modRepair_onDie (s : State) (stack : Nat) (f : Repair → Repair) : (s.modRepair stack f).onDie = s.onDie := rfl
@[simp] theorem modRepair_kmsgs (s : State) (stack : Nat) (f : Repair → Repair) : (s.modRepair stack f).kmsgs = s.kmsgs := rfl
@[simp] theorem modRepair_udpPort (s : State) (stack : Nat) (f : Repair → Repair) : (s.modRepair stack f).udpPort = s.udpPort := rfl
@[simp] theorem modRepair_holdReset (s : State) (stack : Nat) (f : Repair → Repair) : (s.modRepair stack f).holdReset = s.holdReset := rfl
@[simp] theorem modRepair_versions (s : State) (stack : Nat) (f : Repair → Repair) : (s.modRepair stack f).versions = s.versions := rfl
@[simp] theorem modRepair_version (s : State) (stack : Nat) (f : Repair → Repair) : (s.modRepair stack f).version = s.version := rfl
@[simp] theorem modRepair_boot (s : State) (stack : Nat) (f : Repair → Repair) : (s.modRepair stack f).boot = s.boot := rfl
@[simp] theorem modRepair_aer (s : State) (stack : Nat) (f : Repair → Repair) : (s.modRepair stack f).aer = s.aer := rfl
@[simp] theorem modRepair_stopped (s : State) (stack : Nat) (f : Repair → Repair) : (s.modRepair stack f).stopped = s.stopped := rfl

/-! loseLatches changes `b` of a group only. -/
@[simp] theorem loseLatches_team (g : Group) : g.loseLatches.team = g.team := rfl
@[simp] theorem loseLatches_index (g : Group) : g.loseLatches.index = g.index := rfl
@[simp] theorem loseLatches_core (g : Group) : g.loseLatches.core = g.core := rfl
@[simp] theorem loseLatches_slot (g : Group) : g.loseLatches.slot = g.slot := rfl
@[simp] theorem loseLatches_budget (g : Group) : g.loseLatches.budget = g.budget := rfl
@[simp] theorem loseLatches_lanes (g : Group) : g.loseLatches.lanes = g.lanes := rfl
@[simp] theorem loseLatches_ents (g : Group) : g.loseLatches.ents = g.ents := rfl
@[simp] theorem loseLatches_v (g : Group) : g.loseLatches.v = g.v := rfl
@[simp] theorem loseLatches_s (g : Group) : g.loseLatches.s = g.s := rfl
@[simp] theorem loseLatches_p (g : Group) : g.loseLatches.p = g.p := rfl
@[simp] theorem loseLatches_b (g : Group) : g.loseLatches.b = [] := rfl
@[simp] theorem loseLatches_flags (g : Group) : g.loseLatches.flags = g.flags := rfl
@[simp] theorem loseLatches_gs (g : Group) : g.loseLatches.gs = g.gs := rfl
@[simp] theorem loseLatches_gsq (g : Group) : g.loseLatches.gsq = g.gsq := rfl
@[simp] theorem loseLatches_gsarm (g : Group) : g.loseLatches.gsarm = g.gsarm := rfl
@[simp] theorem loseLatches_crack (g : Group) : g.loseLatches.crack = g.crack := rfl
@[simp] theorem loseLatches_held (g : Group) : g.loseLatches.held = g.held := rfl
@[simp] theorem loseLatches_trapvec (g : Group) : g.loseLatches.trapvec = g.trapvec := rfl
@[simp] theorem loseLatches_trapinfo (g : Group) : g.loseLatches.trapinfo = g.trapinfo := rfl
@[simp] theorem loseLatches_kwin (g : Group) : g.loseLatches.kwin = g.kwin := rfl
@[simp] theorem loseLatches_word (g : Group) : g.loseLatches.word = g.word := rfl
@[simp] theorem loseLatches_hints (g : Group) : g.loseLatches.hints = g.hints := rfl
@[simp] theorem loseLatches_ent (g : Group) : g.loseLatches.ent = g.ent := rfl
@[simp] theorem loseLatches_cover (g : Group) : g.loseLatches.cover = g.cover := rfl
@[simp] theorem loseLatches_chain (g : Group) : g.loseLatches.chain = g.chain := rfl
@[simp] theorem loseLatches_settle (g : Group) : g.loseLatches.settle = g.settle := rfl
@[simp] theorem loseLatches_lastPipe (g : Group) : g.loseLatches.lastPipe = g.lastPipe := rfl
@[simp] theorem loseLatches_hold (g : Group) : g.loseLatches.hold = g.hold := rfl
@[simp] theorem loseLatches_fence (g : Group) : g.loseLatches.fence = g.fence := rfl
@[simp] theorem loseLatches_times (g : Group) : g.loseLatches.times = g.times := rfl
@[simp] theorem loseLatches_deferred (g : Group) : g.loseLatches.deferred = g.deferred := rfl
@[simp] theorem loseLatches_urg (g : Group) : g.loseLatches.urg = g.urg := rfl
@[simp] theorem loseLatches_starve (g : Group) : g.loseLatches.starve = g.starve := rfl
@[simp] theorem loseLatches_yieldHold (g : Group) : g.loseLatches.yieldHold = g.yieldHold := rfl
@[simp] theorem loseLatches_since (g : Group) : g.loseLatches.since = g.since := rfl
@[simp] theorem loseLatches_stalled (g : Group) : g.loseLatches.stalled = g.stalled := rfl
@[simp] theorem loseLatches_accepting (g : Group) : g.loseLatches.accepting = g.accepting := rfl
@[simp] theorem loseLatches_fresh (g : Group) : g.loseLatches.fresh = g.fresh := rfl
@[simp] theorem loseLatches_batches (g : Group) : g.loseLatches.batches = g.batches := rfl
@[simp] theorem loseLatches_halted (g : Group) : g.loseLatches.halted = g.halted := rfl
@[simp] theorem loseLatches_ended (g : Group) : g.loseLatches.ended = g.ended := rfl
@[simp] theorem loseLatches_away (g : Group) : g.loseLatches.away = g.away := rfl

/-! orGs changes `gs` of a group only. -/
@[simp] theorem orGs_team (g : Group) (x : DWord) : (g.orGs x).team = g.team := rfl
@[simp] theorem orGs_index (g : Group) (x : DWord) : (g.orGs x).index = g.index := rfl
@[simp] theorem orGs_core (g : Group) (x : DWord) : (g.orGs x).core = g.core := rfl
@[simp] theorem orGs_slot (g : Group) (x : DWord) : (g.orGs x).slot = g.slot := rfl
@[simp] theorem orGs_budget (g : Group) (x : DWord) : (g.orGs x).budget = g.budget := rfl
@[simp] theorem orGs_lanes (g : Group) (x : DWord) : (g.orGs x).lanes = g.lanes := rfl
@[simp] theorem orGs_ents (g : Group) (x : DWord) : (g.orGs x).ents = g.ents := rfl
@[simp] theorem orGs_v (g : Group) (x : DWord) : (g.orGs x).v = g.v := rfl
@[simp] theorem orGs_s (g : Group) (x : DWord) : (g.orGs x).s = g.s := rfl
@[simp] theorem orGs_p (g : Group) (x : DWord) : (g.orGs x).p = g.p := rfl
@[simp] theorem orGs_b (g : Group) (x : DWord) : (g.orGs x).b = g.b := rfl
@[simp] theorem orGs_flags (g : Group) (x : DWord) : (g.orGs x).flags = g.flags := rfl
@[simp] theorem orGs_gs (g : Group) (x : DWord) : (g.orGs x).gs = g.gs ||| x := rfl
@[simp] theorem orGs_gsq (g : Group) (x : DWord) : (g.orGs x).gsq = g.gsq := rfl
@[simp] theorem orGs_gsarm (g : Group) (x : DWord) : (g.orGs x).gsarm = g.gsarm := rfl
@[simp] theorem orGs_crack (g : Group) (x : DWord) : (g.orGs x).crack = g.crack := rfl
@[simp] theorem orGs_held (g : Group) (x : DWord) : (g.orGs x).held = g.held := rfl
@[simp] theorem orGs_trapvec (g : Group) (x : DWord) : (g.orGs x).trapvec = g.trapvec := rfl
@[simp] theorem orGs_trapinfo (g : Group) (x : DWord) : (g.orGs x).trapinfo = g.trapinfo := rfl
@[simp] theorem orGs_kwin (g : Group) (x : DWord) : (g.orGs x).kwin = g.kwin := rfl
@[simp] theorem orGs_word (g : Group) (x : DWord) : (g.orGs x).word = g.word := rfl
@[simp] theorem orGs_hints (g : Group) (x : DWord) : (g.orGs x).hints = g.hints := rfl
@[simp] theorem orGs_ent (g : Group) (x : DWord) : (g.orGs x).ent = g.ent := rfl
@[simp] theorem orGs_cover (g : Group) (x : DWord) : (g.orGs x).cover = g.cover := rfl
@[simp] theorem orGs_chain (g : Group) (x : DWord) : (g.orGs x).chain = g.chain := rfl
@[simp] theorem orGs_settle (g : Group) (x : DWord) : (g.orGs x).settle = g.settle := rfl
@[simp] theorem orGs_lastPipe (g : Group) (x : DWord) : (g.orGs x).lastPipe = g.lastPipe := rfl
@[simp] theorem orGs_hold (g : Group) (x : DWord) : (g.orGs x).hold = g.hold := rfl
@[simp] theorem orGs_fence (g : Group) (x : DWord) : (g.orGs x).fence = g.fence := rfl
@[simp] theorem orGs_times (g : Group) (x : DWord) : (g.orGs x).times = g.times := rfl
@[simp] theorem orGs_deferred (g : Group) (x : DWord) : (g.orGs x).deferred = g.deferred := rfl
@[simp] theorem orGs_urg (g : Group) (x : DWord) : (g.orGs x).urg = g.urg := rfl
@[simp] theorem orGs_starve (g : Group) (x : DWord) : (g.orGs x).starve = g.starve := rfl
@[simp] theorem orGs_yieldHold (g : Group) (x : DWord) : (g.orGs x).yieldHold = g.yieldHold := rfl
@[simp] theorem orGs_since (g : Group) (x : DWord) : (g.orGs x).since = g.since := rfl
@[simp] theorem orGs_stalled (g : Group) (x : DWord) : (g.orGs x).stalled = g.stalled := rfl
@[simp] theorem orGs_accepting (g : Group) (x : DWord) : (g.orGs x).accepting = g.accepting := rfl
@[simp] theorem orGs_fresh (g : Group) (x : DWord) : (g.orGs x).fresh = g.fresh := rfl
@[simp] theorem orGs_batches (g : Group) (x : DWord) : (g.orGs x).batches = g.batches := rfl
@[simp] theorem orGs_halted (g : Group) (x : DWord) : (g.orGs x).halted = g.halted := rfl
@[simp] theorem orGs_ended (g : Group) (x : DWord) : (g.orGs x).ended = g.ended := rfl
@[simp] theorem orGs_away (g : Group) (x : DWord) : (g.orGs x).away = g.away := rfl

/-! noteTimes changes `times` of a group only. -/
@[simp] theorem noteTimes_team (g : Group) (c : BitVec 7) (t : Nat) : (g.noteTimes c t).team = g.team := rfl
@[simp] theorem noteTimes_index (g : Group) (c : BitVec 7) (t : Nat) : (g.noteTimes c t).index = g.index := rfl
@[simp] theorem noteTimes_core (g : Group) (c : BitVec 7) (t : Nat) : (g.noteTimes c t).core = g.core := rfl
@[simp] theorem noteTimes_slot (g : Group) (c : BitVec 7) (t : Nat) : (g.noteTimes c t).slot = g.slot := rfl
@[simp] theorem noteTimes_budget (g : Group) (c : BitVec 7) (t : Nat) : (g.noteTimes c t).budget = g.budget := rfl
@[simp] theorem noteTimes_lanes (g : Group) (c : BitVec 7) (t : Nat) : (g.noteTimes c t).lanes = g.lanes := rfl
@[simp] theorem noteTimes_ents (g : Group) (c : BitVec 7) (t : Nat) : (g.noteTimes c t).ents = g.ents := rfl
@[simp] theorem noteTimes_v (g : Group) (c : BitVec 7) (t : Nat) : (g.noteTimes c t).v = g.v := rfl
@[simp] theorem noteTimes_s (g : Group) (c : BitVec 7) (t : Nat) : (g.noteTimes c t).s = g.s := rfl
@[simp] theorem noteTimes_p (g : Group) (c : BitVec 7) (t : Nat) : (g.noteTimes c t).p = g.p := rfl
@[simp] theorem noteTimes_b (g : Group) (c : BitVec 7) (t : Nat) : (g.noteTimes c t).b = g.b := rfl
@[simp] theorem noteTimes_flags (g : Group) (c : BitVec 7) (t : Nat) : (g.noteTimes c t).flags = g.flags := rfl
@[simp] theorem noteTimes_gs (g : Group) (c : BitVec 7) (t : Nat) : (g.noteTimes c t).gs = g.gs := rfl
@[simp] theorem noteTimes_gsq (g : Group) (c : BitVec 7) (t : Nat) : (g.noteTimes c t).gsq = g.gsq := rfl
@[simp] theorem noteTimes_gsarm (g : Group) (c : BitVec 7) (t : Nat) : (g.noteTimes c t).gsarm = g.gsarm := rfl
@[simp] theorem noteTimes_crack (g : Group) (c : BitVec 7) (t : Nat) : (g.noteTimes c t).crack = g.crack := rfl
@[simp] theorem noteTimes_held (g : Group) (c : BitVec 7) (t : Nat) : (g.noteTimes c t).held = g.held := rfl
@[simp] theorem noteTimes_trapvec (g : Group) (c : BitVec 7) (t : Nat) : (g.noteTimes c t).trapvec = g.trapvec := rfl
@[simp] theorem noteTimes_trapinfo (g : Group) (c : BitVec 7) (t : Nat) : (g.noteTimes c t).trapinfo = g.trapinfo := rfl
@[simp] theorem noteTimes_kwin (g : Group) (c : BitVec 7) (t : Nat) : (g.noteTimes c t).kwin = g.kwin := rfl
@[simp] theorem noteTimes_word (g : Group) (c : BitVec 7) (t : Nat) : (g.noteTimes c t).word = g.word := rfl
@[simp] theorem noteTimes_hints (g : Group) (c : BitVec 7) (t : Nat) : (g.noteTimes c t).hints = g.hints := rfl
@[simp] theorem noteTimes_ent (g : Group) (c : BitVec 7) (t : Nat) : (g.noteTimes c t).ent = g.ent := rfl
@[simp] theorem noteTimes_cover (g : Group) (c : BitVec 7) (t : Nat) : (g.noteTimes c t).cover = g.cover := rfl
@[simp] theorem noteTimes_chain (g : Group) (c : BitVec 7) (t : Nat) : (g.noteTimes c t).chain = g.chain := rfl
@[simp] theorem noteTimes_settle (g : Group) (c : BitVec 7) (t : Nat) : (g.noteTimes c t).settle = g.settle := rfl
@[simp] theorem noteTimes_lastPipe (g : Group) (c : BitVec 7) (t : Nat) : (g.noteTimes c t).lastPipe = g.lastPipe := rfl
@[simp] theorem noteTimes_hold (g : Group) (c : BitVec 7) (t : Nat) : (g.noteTimes c t).hold = g.hold := rfl
@[simp] theorem noteTimes_fence (g : Group) (c : BitVec 7) (t : Nat) : (g.noteTimes c t).fence = g.fence := rfl
@[simp] theorem noteTimes_deferred (g : Group) (c : BitVec 7) (t : Nat) : (g.noteTimes c t).deferred = g.deferred := rfl
@[simp] theorem noteTimes_urg (g : Group) (c : BitVec 7) (t : Nat) : (g.noteTimes c t).urg = g.urg := rfl
@[simp] theorem noteTimes_starve (g : Group) (c : BitVec 7) (t : Nat) : (g.noteTimes c t).starve = g.starve := rfl
@[simp] theorem noteTimes_yieldHold (g : Group) (c : BitVec 7) (t : Nat) : (g.noteTimes c t).yieldHold = g.yieldHold := rfl
@[simp] theorem noteTimes_since (g : Group) (c : BitVec 7) (t : Nat) : (g.noteTimes c t).since = g.since := rfl
@[simp] theorem noteTimes_stalled (g : Group) (c : BitVec 7) (t : Nat) : (g.noteTimes c t).stalled = g.stalled := rfl
@[simp] theorem noteTimes_accepting (g : Group) (c : BitVec 7) (t : Nat) : (g.noteTimes c t).accepting = g.accepting := rfl
@[simp] theorem noteTimes_fresh (g : Group) (c : BitVec 7) (t : Nat) : (g.noteTimes c t).fresh = g.fresh := rfl
@[simp] theorem noteTimes_batches (g : Group) (c : BitVec 7) (t : Nat) : (g.noteTimes c t).batches = g.batches := rfl
@[simp] theorem noteTimes_halted (g : Group) (c : BitVec 7) (t : Nat) : (g.noteTimes c t).halted = g.halted := rfl
@[simp] theorem noteTimes_ended (g : Group) (c : BitVec 7) (t : Nat) : (g.noteTimes c t).ended = g.ended := rfl
@[simp] theorem noteTimes_away (g : Group) (c : BitVec 7) (t : Nat) : (g.noteTimes c t).away = g.away := rfl

end Sys2Proof.Machine
end

