-- ==== Sys2Proof/Laws/Tickets.lean ====
section
/-! SUPPORT. A handle names the entry, the generation, the world and the size that it was made from, and is not forged (R298). -/

namespace Sys2Proof.Machine

theorem toNat_check (k x : Nat) : (Config.ticketCheck k x).toNat < 32768 := (Config.ticketCheck k x).isLt

/-- The bits of a handle above its check code. -/
theorem handleOf_upper (s : State) (key : Nat) (t : Ticket) : handleOf s key t / 2 ^ 15 =
    2 ^ 48 + key / 4096 * 2 ^ 43 + key % 4096 * 2 ^ 31 + t.gen * 2 ^ 15 + t.world * 2 ^ 4 + t.k := by
  have h := toNat_check s.tktKey (2 ^ 48 + key / 4096 * 2 ^ 43 + key % 4096 * 2 ^ 31 + t.gen * 2 ^ 15 + t.world * 2 ^ 4 + t.k)
  simp only [handleOf]; omega

theorem handleOf_check (s : State) (key : Nat) (t : Ticket) :
    nfield (handleOf s key t) 0 15 = (Config.ticketCheck s.tktKey (handleOf s key t / 2 ^ 15)).toNat := by
  rw [handleOf_upper]
  have h := toNat_check s.tktKey (2 ^ 48 + key / 4096 * 2 ^ 43 + key % 4096 * 2 ^ 31 + t.gen * 2 ^ 15 + t.world * 2 ^ 4 + t.k)
  simp only [handleOf, nfield]; omega

theorem handleOf_fields (s : State) (key : Nat) (t : Ticket) (hk : key < 24 * 4096) (hg : t.gen < 65536) (hw : t.world < 2048) (hs : t.k < 8) :
    hdlKey (handleOf s key t) = key ∧ hdlGen (handleOf s key t) = t.gen ∧ hdlWorld (handleOf s key t) = t.world ∧ hdlSize (handleOf s key t) = t.k := by
  have h := toNat_check s.tktKey (2 ^ 48 + key / 4096 * 2 ^ 43 + key % 4096 * 2 ^ 31 + t.gen * 2 ^ 15 + t.world * 2 ^ 4 + t.k)
  simp only [hdlKey, hdlSlice, hdlGen, hdlWorld, hdlSize, handleOf, nfield]; omega

theorem handleOf_not_forged (s : State) (key : Nat) (t : Ticket) (hk : key < 24 * 4096) (hg : t.gen < 65536) (hw : t.world < 2048) (hs : t.k < 8) :
    forged s (handleOf s key t) = false := by
  have h := toNat_check s.tktKey (2 ^ 48 + key / 4096 * 2 ^ 43 + key % 4096 * 2 ^ 31 + t.gen * 2 ^ 15 + t.world * 2 ^ 4 + t.k)
  have c : nfield (handleOf s key t) 63 1 = 1 ∧ hdlSlice (handleOf s key t) < 24 ∧ hdlSize (handleOf s key t) < 8 := by
    simp only [hdlSlice, hdlSize, handleOf, nfield]; omega
  have d : coreForged (handleOf s key t) = false := by simp [coreForged, c.1, c.2.1, c.2.2]
  rw [forged, d, handleOf_check]; simp

/-- The handle of a ticket whose lease runs has the ticket's state in its own world. -/
theorem handleState_of_handle (s : State) (key : Nat) (hk : key < 24 * 4096) (hg : (ticketOf s key).gen < 65536) (hw : (ticketOf s key).world < 2048)
    (hs : (ticketOf s key).k < 8) (hl : (ticketOf s key).leased = true) :
    handleState s (handleOf s key (ticketOf s key)) (ticketOf s key).world = (ticketOf s key).st := by
  obtain ⟨h1, h2, h3, -⟩ := handleOf_fields s key (ticketOf s key) hk hg hw hs
  simp [handleState, handleOf_not_forged s key _ hk hg hw hs, h1, h2, h3, hl]

end Sys2Proof.Machine
end

