-- ==== Sys2Proof/Tests/Slice0.lean ====
section
/-! SUPPORT. Tests of the model: what well-formedness refuses, words written out bit by bit from the encodings of spec/04 and spec/05,
witnesses of the statements' hypotheses, and single steps. -/

namespace Sys2Proof.Tests

open Sys2Proof Sys2Proof.Machine Sys2Proof.Safety

set_option Elab.async false

/-- R197's worked example: the stack, home agent, channel and sector of three offsets of one buffer. -/
theorem test_home_agents :
    (let d := 0xA5 * 2 ^ 32 + 3 * 2 ^ 20 + 0x800 * 2 ^ 128
     let home := fun o => let x := secOf (physOf d o); (sliceOf x, homeDie x, channelOf x, homeAgent x, x % 4)
     home 0x52180 = (5, 1, 0, 160, 3) ∧ home 0x53000 = (7, 2, 0, 224, 0) ∧ home 0x54040 = (0, 0, 8, 8, 0)) := by decide +kernel

/-! Well-formedness: an ill-formed term for each check, with the limit that it breaks. -/

/-- R61, R64: guards 13 to 15 and flags 12 to 14. -/
theorem test_wf_guard_and_flag :
    Instr.defect (.iadd 13 0 0 0) = some .guard ∧ Instr.defect (.exit 15) = some .guard ∧ Instr.defect (.br 14 0 0) = some .guard ∧
    Instr.defect (.ld 0 0 0x41 12 4) = some .flag ∧ Instr.defect (.tkdrop 12 1 14) = some .flag ∧
    Instr.wf (.ld 12 0 0x41 15 4) = true ∧ Instr.wf (.ld 12 0 0x41 11 4) = true := by decide

/-- R62, R63, R107: destinations, scalar A with a vector B, odd pairs. -/
theorem test_wf_operands :
    Instr.defect (.iadd 12 61 0 0) = some .destination ∧ Instr.wf (.iadd 12 60 0 0) = true ∧ Instr.defect (.fadd 12 60 0 0) = some .destination ∧
    Instr.wf (.iadd 12 63 0x41 0x42) = true ∧ Instr.defect (.iadd 12 1 0x41 0x02) = some .sourceB ∧
    Instr.defect (.lea 12 3 0x02 0x01) = some .destination ∧ Instr.defect (.lea 12 2 0x03 0x01) = some .sourceA ∧
    Instr.defect (.moviv 12 61 0) = some .destination ∧ Instr.defect (.shfl 12 0 0x41 0) = some .sourceA ∧
    Instr.defect (.reds 12 0 0x41 0) = some .sourceA := by decide

/-- R87, R88, R54: pairs, conditions, selectors, predicates. -/
theorem test_wf_selectors :
    Instr.defect (.icmp 12 6 0 0 0) = some .predicate ∧ Instr.defect (.icmp 12 5 7 0 0) = some .condition ∧ Instr.wf (.fcmp 12 5 7 0 0) = true ∧
    Instr.defect (.bitu 12 0 0 5) = some .selector ∧ Instr.defect (.sfu 12 0 0 8) = some .selector ∧ Instr.defect (.reds 12 0 0 11) = some .selector ∧
    Instr.defect (.cvt 12 0 0 12) = some .selector ∧ Instr.defect (.cvt 12 1 0 20) = some .destination ∧
    Instr.defect (.plog 12 12 0 0 0) = some .predicate ∧ Instr.defect (.plog 12 0 13 0 0) = some .predicate ∧
    Instr.defect (.vote 12 0 13 0) = some .predicate ∧ Instr.defect (.vote 12 0 0 4) = some .selector ∧
    Instr.defect (.vote 12 12 0 0) = some .destination ∧ Instr.wf (.vote 12 63 0 3) = true := by decide

/-- R90 to R94: sizes, addresses, data registers. -/
theorem test_wf_memory :
    Instr.defect (.ld 12 0 0x41 15 7) = some .size ∧ Instr.defect (.ld 12 0 0x01 15 4) = some .sourceA ∧ Instr.defect (.ld 12 0 0x81 15 4) = some .sourceA ∧
    Instr.defect (.ld 12 1 0x02 15 5) = some .destination ∧ Instr.defect (.st 12 2 0x02 15 6) = some .destination ∧
    Instr.defect (.lds 12 0 0x3C 15 0 0) = some .sourceA ∧ Instr.defect (.sts 12 60 0x02 15 0 1) = some .destination ∧
    Instr.defect (.atom 12 0 0x02 15 15) = some .size ∧ Instr.defect (.atom 12 2 0x02 15 14) = some .destination ∧
    Instr.defect (.atoms 12 1 0x02 15 11) = some .destination ∧ Instr.defect (.resid 12 63 0x02 15 2) = some .size := by decide

/-- R96 to R104, R30: numbers and registers of the families. -/
theorem test_wf_families :
    Instr.defect (.tkrdm 12 1 2 0 15) = some .number ∧ Instr.defect (.tkrdm 12 1 2 4 15) = some .number ∧ Instr.defect (.cpyT 12 1 63 0 15) = some .register ∧
    Instr.defect (.mma 12 0 0 63 0 15) = some .register ∧ Instr.defect (.saadd 12 60 1 15) = some .register ∧
    Instr.defect (.sanorm 12 1 1 3 15) = some .number ∧ Instr.defect (.place 12 30 0 0 0 15) = some .register ∧
    Instr.defect (.br 12 63 0) = some .priority ∧ Instr.defect (.call 12 63 0) = some .priority ∧ Instr.defect (.bar 12 16 0) = some .number ∧
    Instr.defect (.bara 12 16) = some .number ∧ Instr.defect (.cvdecl 12 63 0) = some .register ∧ Instr.defect (.fence 12 0 0 5) = some .number ∧
    Instr.defect (.waitf 12 12 0) = some .number ∧ Instr.defect (.trap 12 48) = some .number := by decide

/-- R103, R173: special-register numbers, lane values, registers. -/
theorem test_wf_csr :
    Instr.defect (.csrr 12 0 0 8) = some .csr ∧ Instr.defect (.csrr 12 0 0 1) = some .csr ∧ Instr.defect (.csrr 12 60 1 3) = some .register ∧
    Instr.defect (.csrw 12 0 1 3) = some .csr ∧ Instr.wf (.csrw 12 0 0 0x31) = true ∧ Instr.wf (.csrr 12 9 0 3) = true := by decide

/-- R66 to R73: hint payloads. -/
theorem test_wf_hints :
    Instr.defect (.hintMod 0x200000) = none ∧ Instr.defect (.hintMod 0x380000) = some .payload ∧ Instr.defect (.hintMod 0x016000) = some .payload ∧
    Instr.defect (.hintMod 1) = some .payload ∧ Instr.defect (.hintMod 0x022000) = some .payload ∧ Instr.defect (.hintPlace 6 0 0 0) = some .payload ∧
    Instr.defect (.hintPlace 0 11 0 0) = some .payload ∧ Instr.defect (.hintChain 0) = some .payload ∧ Instr.wf (.hintChain 3) = true := by decide

/-- A word reads as an instruction. -/
def reads (w : Word) (i : Instr) : Bool :=
  match Sys2Proof.decode w with
  | .ok j => j == i
  | .error _ => false

/-- A word is rejected for a reason. -/
def rejects (w : Word) (e : Reject) : Bool :=
  match Sys2Proof.decode w with
  | .ok _ => false
  | .error x => x == e

/-! Decoding: each word is written out field by field from the layouts of spec/04 R60 and spec/05. -/

/-- R85, R-form: OP, G, D, A, B. -/
theorem test_decode_integer :
    reads 0b000001_0011_000101_00000001_01000010 (.iadd 3 5 0x01 0x42) = true ∧ reads 0b000010_0011_000101_00000001_01000010 (.isub 3 5 0x01 0x42) = true ∧
    reads 0b000011_0011_000101_00000001_01000010 (.imul 3 5 0x01 0x42) = true ∧ reads 0b000100_0011_000101_00000001_01000010 (.imulhi 3 5 0x01 0x42) = true ∧
    reads 0b000101_0011_000101_00000001_01000010 (.imulhn 3 5 0x01 0x42) = true ∧ reads 0b000110_0011_000101_00000001_01000010 (.imad 3 5 0x01 0x42) = true ∧
    reads 0b000111_0011_000101_00000001_01000010 (.imin 3 5 0x01 0x42) = true ∧ reads 0b001000_0011_000101_00000001_01000010 (.imax 3 5 0x01 0x42) = true ∧
    reads 0b001001_0011_000101_00000001_01000010 (.nmin 3 5 0x01 0x42) = true ∧ reads 0b001010_0011_000101_00000001_01000010 (.nmax 3 5 0x01 0x42) = true := by
  decide
theorem test_decode_logic_shift :
    reads 0b001011_1100_111011_10111111_11000001 (.and 12 59 0xBF 0xC1) = true ∧ reads 0b001100_1100_111011_10111111_11000001 (.or 12 59 0xBF 0xC1) = true ∧
    reads 0b001101_1100_111011_10111111_11000001 (.xor 12 59 0xBF 0xC1) = true ∧ reads 0b001110_1100_111011_10111111_11000001 (.andn 12 59 0xBF 0xC1) = true ∧
    reads 0b001111_1100_111011_10111111_11000001 (.shl 12 59 0xBF 0xC1) = true ∧ reads 0b010000_1100_111011_10111111_11000001 (.shr 12 59 0xBF 0xC1) = true ∧
    reads 0b010001_1100_111011_10111111_11000001 (.sar 12 59 0xBF 0xC1) = true ∧ reads 0b010010_1100_000000_10111111_11000001 (.jmpi 12 0xBF 0xC1) = true ∧
    reads 0b010011_1100_111010_10111111_11000001 (.lea 12 58 0xBF 0xC1) = true := by decide
theorem test_decode_compare_select :
    reads 0x530A0405 (.icmp 12 1 2 0x04 0x05) = true ∧ reads 0b010101_1100_001010_00000100_00000101 (.ncmp 12 1 2 0x04 0x05) = true ∧
    reads 0b010110_1100_101111_00000100_00000101 (.fcmp 12 5 7 0x04 0x05) = true ∧ reads 0b010111_0000_000101_00000001_01000010 (.sel 0 5 0x01 0x42) = true ∧
    reads 0b011000_1100_000101_01000001_00000000 (.mov 12 5 0x41) = true ∧ reads 0b011001_1100_000101_1000000000000001 (.moviv 12 5 0x8001) = true ∧
    reads 0b011010_1100_111111_1000000000000001 (.movis 12 63 0x8001) = true ∧ reads 0b011011_1100_111111_1000000000000001 (.addis 12 63 0x8001) = true := by
  decide
theorem test_decode_selectors :
    reads 0b011100_1100_000101_00000001_11_000100 (.bitu 12 5 0x01 4) = true ∧ reads 0b011101_1100_000101_00000001_11_000011 (.cvt 12 5 0x01 3) = true ∧
    reads 0b011110_1100_00_1011_1100_0001_0000_1000 (.plog 12 11 12 1 8) = true ∧ reads 0b011111_1100_001011_0000_1100_11_000001 (.vote 12 11 12 1) = true ∧
    reads 0b101010_1100_000101_00000001_11_000111 (.sfu 12 5 0x01 7) = true ∧ reads 0b101011_1100_000101_00000001_11_000010 (.shfl 12 5 0x01 0xC2) = true ∧
    reads 0b101100_1100_000101_00000001_11_001010 (.reds 12 5 0x01 10) = true := by decide
theorem test_decode_float :
    reads 0b100000_1100_000101_00000001_01000010 (.fadd 12 5 0x01 0x42) = true ∧ reads 0b100001_1100_000101_00000001_01000010 (.fsub 12 5 0x01 0x42) = true ∧
    reads 0b100010_1100_000101_00000001_01000010 (.fmul 12 5 0x01 0x42) = true ∧ reads 0b100011_1100_000101_00000001_01000010 (.ffma 12 5 0x01 0x42) = true ∧
    reads 0b100100_1100_000101_00000001_01000010 (.fmin 12 5 0x01 0x42) = true ∧ reads 0b100101_1100_000101_00000001_01000010 (.fmax 12 5 0x01 0x42) = true ∧
    reads 0b100110_1100_000101_00000001_01000010 (.hadd2 12 5 0x01 0x42) = true ∧ reads 0b100111_1100_000101_00000001_01000010 (.hmul2 12 5 0x01 0x42) = true ∧
    reads 0b101000_1100_000101_00000001_01000010 (.hfma2 12 5 0x01 0x42) = true ∧ reads 0b101001_1100_000101_00000001_01000010 (.fdot2 12 5 0x01 0x42) = true := by
  decide

/-- M-form: OP, G, D, A, F, W. -/
theorem test_decode_memory :
    reads 0b101101_1100_000100_00000010_0001_0110 (.ld 12 4 0x02 1 6) = true ∧ reads 0b101110_1100_000100_01000010_1111_0101 (.st 12 4 0x42 15 5) = true ∧
    reads 0b101111_1100_000100_00000010_0001_01_10 (.lds 12 4 0x02 1 1 2) = true ∧ reads 0b110000_1100_000100_00000011_0001_11_00 (.sts 12 4 0x03 1 3 0) = true ∧
    reads 0b110001_1100_000100_00000010_0010_1110 (.atom 12 4 0x02 2 14) = true ∧ reads 0b110010_1100_000100_00000011_0010_0000 (.atoms 12 4 0x03 2 0) = true ∧
    reads 0b110011_1100_111111_00000010_1011_0001 (.resid 12 63 0x02 11 1) = true := by decide

/-- X-form: OP, G, fn, X1, X2, X3, F. -/
theorem test_decode_tickets :
    reads 0b110100_1100_000_001000_000100_101_0010 (.tkld 12 8 4 5 2) = true ∧ reads 0b110100_1100_001_001010_001000_011_0011 (.tkrdm 12 10 8 3 3) = true ∧
    reads 0b110100_1100_010_001000_000000_000_1111 (.tkdrop 12 8 15) = true ∧ reads 0b110100_1100_011_001000_000000_000_1111 (.tkxtnd 12 8 15) = true ∧
    reads 0b110100_1100_100_001001_001000_000_0001 (.tkqry 12 9 8 1) = true ∧ rejects 0b110100_1100_101_001001_001000_000_0001 .fn = true := by decide
theorem test_decode_copies :
    reads 0b110101_1100_000_000100_000110_010_0001 (.cpyT 12 4 6 2 1) = true ∧ reads 0b110101_1100_001_000100_000000_010_0001 (.cpyHead 12 4 2 1) = true ∧
    reads 0b110101_1100_010_000000_000000_111_0000 (.cpyCommit 12 7) = true ∧ reads 0b110101_1100_011_000010_000000_001_0000 (.cpyWait 12 2 1) = true ∧
    reads 0b110101_1100_100_001001_000000_010_0000 (.cpyWptr 12 9 2) = true ∧ reads 0b110101_1100_101_001001_000000_010_0001 (.cpyWpwait 12 9 2 1) = true ∧
    rejects 0b110101_1100_110_001001_000000_010_0001 .fn = true := by decide
theorem test_decode_rings :
    reads 0b110110_1100_000_000100_000101_000_0001 (.rinit 12 4 5 1) = true ∧ reads 0b110110_1100_001_000100_001001_000_0001 (.rawait 12 4 9 1) = true ∧
    reads 0b110110_1100_010_000100_001001_000_0001 (.rrel 12 4 9 1) = true ∧ reads 0b110110_1100_011_000100_001001_000_0001 (.rpush 12 4 9 1) = true ∧
    reads 0b110110_1100_100_000100_001001_000_0001 (.rqry 12 4 9 1) = true ∧ rejects 0b110110_1100_101_000100_001001_000_0001 .fn = true := by decide
theorem test_decode_matrix :
    reads 0b110111_1100_000_0001_01_000110_000_0001 (.mloadw 12 1 1 6 0 1) = true ∧ reads 0b110111_1100_001_0000_01_000000_011_0001 (.mswap 12 1 3 1) = true ∧
    reads 0b110111_1100_010_0011_01_000110_000_0010 (.mma 12 3 1 6 0 2) = true ∧ reads 0b110111_1100_011_000100_000110_111_0001 (.mcomp 12 4 6 7 1) = true ∧
    reads 0b110111_1100_100_0011_01_000110_000_0001 (.maccst 12 3 1 6 0 1) = true ∧ reads 0b110111_1100_101_0011_01_000000_000_0001 (.maccz 12 3 1 0 1) = true ∧
    reads 0b110111_1100_110_1111_11_000110_000_0001 (.maccld 12 15 3 6 0 1) = true ∧ rejects 0b110111_1100_111_000000_000000_000_0001 .fn = true ∧
    rejects 0b110111_1100_000_0010_01_000110_000_0001 .reserved = true ∧ rejects 0b110111_1100_001_0001_01_000000_011_0001 .reserved = true := by decide
theorem test_decode_accumulator :
    reads 0b111000_1100_000_001001_000101_000_0001 (.saopen 12 9 5 1) = true ∧ reads 0b111000_1100_001_000100_001001_000_0001 (.saadd 12 4 9 1) = true ∧
    reads 0b111000_1100_010_000100_001001_010_0001 (.sanorm 12 4 9 2 1) = true ∧ reads 0b111000_1100_011_001001_000100_000_0001 (.saevict 12 9 4 1) = true ∧
    reads 0b111000_1100_100_001001_000100_000_0001 (.safill 12 9 4 1) = true ∧ reads 0b111000_1100_101_001010_001001_000_0001 (.sastat 12 10 9 1) = true ∧
    reads 0b111000_1100_110_001001_000000_000_0001 (.saclose 12 9 1) = true ∧ rejects 0b111000_1100_111_001001_000000_000_0001 .fn = true := by decide

/-- The worked words of R104 and R105 among them. -/
theorem test_decode_place :
    reads 0xE7022191 (.place 12 1 2 3 1 1) = true ∧ rejects 0xE73C2191 (.field .register) = true ∧ reads 0xEB080050 (.migr 12 5) = true ∧
    reads 0b111010_1100_000_000100_000101_000_0001 (.plsync 12 4 5 1) = true ∧ reads 0b111010_1100_010_001001_000100_000_0001 (.plqry 12 9 4 1) = true ∧
    rejects 0b111010_1100_011_001001_000100_000_0001 .fn = true := by decide
theorem test_decode_control :
    reads 0b111011_0000_101000_1111111111111110 (.br 0 40 0xFFFE) = true ∧ reads 0b111100_1100_101000_0000000000000010 (.call 12 40 2) = true ∧
    reads 0b111101_1100_000_000011_000101_000_0000 (.bar 12 3 5) = true ∧ reads 0b111101_1100_001_000110_000000_000_0000 (.reconv 12 6) = true ∧
    reads 0b111101_1100_010_000000_000000_010_0000 (.csign 12 2) = true ∧ reads 0b111101_1100_011_000110_000000_010_0000 (.cvdecl 12 6 2) = true ∧
    reads 0xF720202C (.fence 12 2 1 3) = true ∧ rejects 0xF720202D .reserved = true ∧ reads 0b111101_1100_101_00_0011_000001_000_0000 (.waitf 12 3 1) = true ∧
    reads 0b111101_1100_110_000011_000000_000_0000 (.bara 12 3) = true ∧ rejects 0b111101_1100_111_000011_000000_000_0000 .fn = true := by decide
theorem test_decode_system :
    reads 0b111110_1100_000_000111_000000_000_0000 (.trap 12 7) = true ∧ reads 0b111110_1100_000_110000_000000_000_0000 (.plmove 12) = true ∧
    reads 0b111110_1100_000_110010_000000_000_0000 (.record 12) = true ∧ reads 0b111110_1100_000_111110_000000_000_0000 (.coderep 12) = true ∧
    reads 0b111110_1100_001_000000_000000_000_0000 (.eret 12) = true ∧ reads 0xFB112003 (.csrr 12 9 0 3) = true ∧
    reads 0b111110_1100_011_001001_0_000000010000 (.csrw 12 9 0 0x10) = true ∧ reads 0b111110_1100_100_000100_000101_000_0001 (.graph 12 4 5 1) = true ∧
    reads 0b111110_1100_101_000000_000000_000_0000 (.exit 12) = true ∧ reads 0b111110_1100_110_000000_000000_000_0000 (.beat 12) = true ∧
    reads 0b111110_1100_111_000000_000000_000_0000 (.nop 12) = true := by decide

/-- R65: a field that an instruction does not use is ignored. -/
theorem test_decode_unused_fields :
    reads 0b111110_1100_101_111111_111111_111_1111 (.exit 12) = true ∧ reads 0b011000_1100_000101_01000001_11111111 (.mov 12 5 0x41) = true ∧
    reads 0b110110_1100_000_000100_000101_111_0001 (.rinit 12 4 5 1) = true := by decide

/-- H-form: kind, payload (R66 to R73). -/
theorem test_decode_hints :
    reads 0b111111_0000_000000000010_011_010_001_1 (.hintSched 2 3 2 1 1) = true ∧ reads 0b111111_0001_0000000000001111111100 (.hintImm 0x3FC) = true ∧
    reads 0b111111_0010_0_01_1_0_1000_00_00000000000 (.hintMod 0x0D0000) = true ∧ reads 0b111111_0101_0000000000_1010_00000011 (.hintCbank 10 3) = true ∧ reads 0b111111_0011_010_0011_1000001_0000101_0 (.hintPlace 2 3 65 5) = true ∧
    reads 0b111111_0100_00000000000000000000_10 (.hintChain 2) = true ∧
    reads 0b111111_0110_0000000000000000000100 (.hintOff 4) = true ∧ rejects 0b111111_0111_0000000000000000000000 .hintKind = true ∧
    rejects 0 .opcode = true ∧ rejects 0x03FFFFFF .opcode = true := by decide

/-! Witnesses: for the hypotheses of each statement a concrete state and operands that meet them together, at boundary values of what they range
over. A witness named after a statement says so for the clauses that its comment names. -/

/-- The checks before an instruction let it go on, and a property holds of the issue. -/
def okWith (e : Except State Iss) (q : Iss → Bool) : Bool :=
  match e with
  | .ok i => q i
  | .error _ => false

theorem okWith_spec {e : Except State Iss} {q : Iss → Bool} (h : okWith e q = true) : ∃ i, e = .ok i ∧ q i = true := by
  cases e with
  | ok i => exact ⟨i, rfl, h⟩
  | error t => exact absurd h (by simp [okWith])

/-- One group of one team stands at its entry, about to issue; `f` changes the group. -/
def mini (f : Group → Group := id) : State :=
  { State.reset with
    cur := some 0, groups := [(0, f loadGroup)],
    teams := [(0, { world := 1, index := 0, grid := 0, die := 0, d := loadDesc,
                    places := [(0, { scr := 0, scrLen := 4096, lp := 4096, lpLen := 0, cl := 4096, clLen := 0, arrays := [0], regs := 15360 })] })] }

/-- A group with hints. -/
def hinted (h : Hints) (g : Group) : Group := { g with hints := h }

/-- The forms of an instruction whose width goes by A and MOD. -/
def intCase (s : State) (g : BitVec 4) (types : List Nat) (n sat add : Bool) (a b : BitVec 8) (d : BitVec 6) : Bool :=
  let w := widthOf (hintsNow s).arith a
  okWith (prelude s g (intForm types n sat a b d (w == 64) add)) fun i => i.act != 0 && wideOk w [a, b] a d

/-- IADD, ISUB, IMUL and IMAD: a vector, a latch-only, a scalar destination; 64 bits and SATURATE by a MOD hint. -/
theorem witness_IntegerArithmeticWrapsOrSaturates :
    (∀ add, intCase (mini) 12 [0, tyI8, tyI16, tyI32, tyI64] true true add 0x01 0x42 59 = true) ∧
    intCase mini 12 [0, tyI8, tyI16, tyI32, tyI64] true true false 0x01 0xC1 60 = true ∧
    (∀ add, intCase mini 12 [0, tyI8, tyI16, tyI32, tyI64] true true add 0x41 0xC1 63 = true) ∧
    (∀ add, intCase (mini (hinted { md := some 0x054000 })) 12 [0, tyI8, tyI16, tyI32, tyI64] true true add 0x02 0x04 58 = true) := by decide +kernel

/-- Both widths, and a scalar and a latch-only destination, of the instructions whose width goes by A and MOD (UpperProductsAndExtrema,
BitwiseLogic, SEL). -/
theorem witness_widths :
    intCase mini 12 [0, tyI32, tyI64] false false false 0x01 0x02 59 = true ∧ intCase mini 12 [0, tyI32, tyI64] false false false 0x01 0x02 60 = true ∧
    intCase mini 12 [0, tyI32, tyI64] false false false 0x41 0xC1 63 = true ∧
    intCase (mini (hinted { md := some 0x014000 })) 12 [0, tyI32, tyI64] false false false 0x3A 0x00 58 = true ∧
    okWith (prelude mini 12 { intForm [0, tyI32, tyI64] false false 0x01 0x02 59 false false with every := true }) (fun i => i.act != 0) = true ∧
    okWith (prelude mini 0 { intForm [0, tyI32, tyI64] false false 0x41 0xC1 63 false false with every := true }) (fun i => i.act == 0) = true := by
  decide +kernel

/-- ShiftsTakeUnmaskedAmounts; AddressesSelectsAndMoves: LEA and MOV. -/
theorem witness_shifts_addresses_moves :
    okWith (prelude mini 12 (Safety.shiftForm 32 0x01 0x02 5)) (fun _ => wideOk 32 [0x01] 0x01 5) = true ∧
    okWith (prelude (mini (hinted { md := some 0x014000 })) 12 (Safety.shiftForm 64 0x02 0x03 4)) (fun _ => wideOk 64 [0x02] 0x02 4) = true ∧
    okWith (prelude mini 12 (Safety.leaForm 0x02 0x03 58)) (fun i => i.act != 0) = true ∧ okWith (prelude mini 12 (Safety.leaForm 0x41 0xC3 63)) (fun i => i.act != 0) = true ∧
    okWith (prelude mini 12 (unaryForm 32 0x01 5)) (fun _ => wideOk 32 [0x01] 0x01 5) = true ∧
    okWith (prelude mini 12 (unaryForm 64 0x41 5)) (fun _ => wideOk 64 [0x41] 0x41 5) = true := by decide +kernel

/-- ImmediatesReachTheirRegisters: a register, the latch alone, an IMM hint for target I, a guard that no lane meets. -/
theorem witness_immediates :
    (List.all ([(0 : BitVec 6), 59, 60]) (fun d => decide (
      okWith (prelude mini 12 { pipe := some 0, imm := .i, vregs := if d.toNat < 60 then [d.toNat] else [] }) (fun i => i.act != 0) = true)) = true) ∧
    okWith (prelude (mini (hinted { imm := some 5 })) 12 { pipe := some 0, imm := .i }) (fun i => i.act != 0) = true ∧
    okWith (prelude mini 0 { pipe := some 0, imm := .i }) (fun i => i.act == 0) = true := by decide +kernel

/-- ComparesWritePredicatePairs at 32 and 64 bits, FCMP; PredicateLogicAndVotes. -/
theorem witness_compares_predicates :
    okWith (prelude mini 12 (Safety.cmpForm 32 0x01 0x02)) (fun _ => widthOf (hintsNow mini).arith 0x01 == 32) = true ∧
    okWith (prelude (mini (hinted { md := some 0x014000 })) 12 (Safety.cmpForm 64 0x02 0x04)) (fun _ => pairSrcOk 0x02 && pairSrcOk 0x04) = true ∧
    okWith (prelude mini 12 (Safety.fcmpForm 0x01 0x02)) (fun i => i.act != 0) = true ∧
    okWith (prelude mini 12 { pipe := some 0 }) (fun i => i.act != 0) = true ∧ okWith (prelude mini 12 { pipe := some 2 }) (fun i => i.act != 0) = true := by
  decide +kernel

/-- Fp32ArithmeticRoundsOnce, PackedFloatWorksOnBothHalves, SpecialFunctionsAndConversions, with and without a rounding mode. -/
theorem witness_float :
    (∀ rm imm dr : Bool, okWith (prelude mini 12 (Safety.fpForm [0, tyF32] rm imm dr 0x01 0x02 59)) (fun i => i.act != 0) = true) ∧
    okWith (prelude mini 12 (Safety.fpForm [0, tyF32] true true true 0x41 0xC2 63)) (fun i => i.act != 0) = true ∧
    okWith (prelude (mini (hinted { md := some 0x080000 })) 12 (Safety.fpForm [0, tyF32] true true false 0x01 0x02 61)) (fun i => i.act != 0) = true ∧
    (∀ dr : Bool, okWith (prelude (mini (hinted { md := some 0x004000 })) 12 (Safety.fpForm [0, tyBf16, tyF16] true false dr 0x01 0x02 5))
      (fun i => i.act != 0) = true) ∧
    okWith (prelude mini 12 (Safety.sfuForm 0x01 62)) (fun i => i.act != 0) = true ∧ okWith (prelude mini 12 (Safety.cvtForm 20 0x01 58)) (fun i => i.act != 0) = true ∧
    okWith (prelude mini 12 (Safety.cvtForm 22 0x3A 61)) (fun i => i.act != 0) = true ∧ okWith (prelude mini 12 (Safety.cvtForm 0 0x41 63)) (fun i => i.act != 0) = true := by
  decide +kernel

/-- CrossLaneDelivery at both widths; REDS of integers and of FP32. -/
theorem witness_CrossLaneDelivery :
    okWith (prelude mini 12 (Safety.shflForm false 0x01 0xC1 62)) (fun i => i.act != 0) = true ∧
    okWith (prelude (mini (hinted { md := some 0x014800 })) 12 (Safety.shflForm true 0x02 0xC1 58)) (fun _ => pairSrcOk 0x02 && pairDestOk 0x02 58) = true ∧
    okWith (prelude mini 12 (Safety.redsForm false 0 0x01 5)) (fun i => i.act != 0) = true ∧ okWith (prelude mini 12 (Safety.redsForm false 10 0x01 5)) (fun i => i.act != 0) = true ∧
    okWith (prelude (mini (hinted { md := some 0x014000 })) 12 (Safety.redsForm true 7 0x02 4)) (fun i => i.act != 0) = true := by decide +kernel

/-- A property of what is being issued. -/
def issuing (s : State) (q : Iss → Bool) : Bool :=
  match issueOf s 12 with
  | some i => q i
  | none => false

/-- No lane of a set traps at priority 63, and there is a handler. -/
def handled (i : Iss) (m : LaneMask) (tr : Nat → TrapAt) : Bool := i.g.vec != 0 && (List.range 64).all fun l => !m.getLsbD l || (tr l).at_.2 != 63

theorem handled_spec {i : Iss} {m : LaneMask} {tr : Nat → TrapAt} (h : handled i m tr = true) : Safety.Handled i m tr := by
  simp only [handled, Bool.and_eq_true, bne_iff_ne, ne_eq, List.all_eq_true, List.mem_range, Bool.or_eq_true, Bool.not_eq_true'] at h
  refine ⟨h.1, fun l hl hm => ?_⟩
  rcases h.2 l hl with h0 | h0
  · simp [h0] at hm
  · exact h0

/-- Lanes and entry at a priority. -/
def atPrio (p : BitVec 6) (g : Group) : Group := { g with lanes := g.lanes.map fun x => { x with prio := p }, ents := g.ents.map fun e => { e with prio := p } }

/-- IllegalBundlesTrapEveryLane: the register at the budget, and each kind of hint that the form does not accept; FatalTrapsKillTheTeam: at
priority 63, and with no handler. -/
theorem witness_illegal_bundles :
    issuing mini (fun i => !formOk i.g { vregs := [60] } && i.g.budget == 60 && handled i i.lanes fun _ => atBundle i cIllegal) = true ∧
    (List.all (([{ md := some 0x014000 }, { imm := some 0 }, { place := some (0, 0, 0, 0) }, { off := some 0 }, { cbank := some (0, 0) }] : List Hints)) (fun h => decide (
      issuing (mini (hinted h)) (fun i => !formOk i.g {}) = true)) = true) ∧
    issuing (mini (hinted { chain := some 1 })) (fun i => !formOk i.g { chain := false }) = true ∧
    issuing (mini (atPrio 63)) (fun i => !formOk i.g { vregs := [60] } && i.e.prio == 63 && (Fm.get? (mini (atPrio 63)).teams i.g.team).isSome) = true ∧
    issuing (mini fun g => { g with trapvec := 0 }) (fun i => !formOk i.g { vregs := [60] } && i.g.vec == 0) = true := by decide +kernel

/-- HintWordsWaitForTheirInstruction: the first three hint words, a fourth, a second of its kind. -/
theorem witness_hint_words :
    issuing (mini (hinted { n := 2, kinds := [1, 0] })) (fun i => !i.g.hints.kinds.contains 4 && i.g.hints.n < 3) = true ∧
    issuing (mini (hinted { n := 3, kinds := [2, 1, 0] })) (fun i => handled i i.lanes fun _ => atBundle i cIllegal) = true ∧
    issuing (mini (hinted { n := 1, kinds := [0] })) (fun i => i.g.hints.kinds.contains 0 && handled i i.lanes fun _ => atBundle i cIllegal) = true := by
  decide +kernel

/-- A world with one page of code at 0x10000, loaded with words, and one group at the first of them that is about to issue. -/
def coded (ws : List Word) : State := { loadProgram State.reset (ws.flatMap Sys2Proof.wordBytes) with cur := some 0 }

/-- No hint word stands before a place. -/
def noHint (s : State) (i : Iss) (pc : Pc) : Bool :=
  match fetchWord s i.g.core (worldOf s i.g) (pc - 4) with
  | .ok w => !isHint w
  | .error _ => true

theorem noHint_spec {s : State} {i : Iss} {pc : Pc} (h : noHint s i pc = true) : Safety.NoHintBefore s i pc := by
  intro w hw
  unfold noHint at h
  rw [hw] at h
  simpa using h

/-- BranchesAndCallsMoveActiveLanes: a target after an instruction word, and one after a hint word, of BR and of CALL. -/
theorem witness_branches :
    okWith (prelude (coded [0xFB800000, 0xFB800000]) 12 { ctlForm with pipe := some 0 })
      (fun i => i.act != 0 && noHint (coded [0xFB800000, 0xFB800000]) i (i.pcI + 4)) = true ∧
    okWith (prelude (coded [0xFD800000, 0xFB800000]) 12 { ctlForm with pipe := some 0 })
      (fun i => i.act != 0 && !noHint (coded [0xFD800000, 0xFB800000]) i (i.pcI + 4) && handled i i.act fun _ => { f := { cause := 0, word := i.g.word }, at_ := (i.pcI + 4, 62) }) = true ∧
    okWith (prelude mini 12 { ctlForm with pipe := some 0, vregs := [58, 59] }) (fun i => noHint mini i (i.pcI + 4)) = true ∧
    okWith (prelude (coded [0xFD800000, 0xFB800000]) 12 { ctlForm with pipe := some 0, vregs := [58, 59] })
      (fun i => i.act != 0 && !noHint (coded [0xFD800000, 0xFB800000]) i (i.pcI + 4) && handled i i.act fun _ => { f := { cause := 0, word := i.g.word }, at_ := (i.pcI + 4, 62) }) = true := by
  decide +kernel

/-- Lanes whose v2 and v3 hold a jump each: lane 0 a misaligned offset, lane 1 the priority 63, lane 2 a target after a hint word, the others none of
these. -/
def jumping (g : Group) : Group :=
  { g with v := [(2, lanesOf fun l => if l = 0 then 1 else if l = 2 then 4 else 0), (3, lanesOf fun l => if l = 1 then 63 else 40)] }

/-- A program of a hint word and a NOP, whose group jumps. -/
def jumps : State := { coded [0xFD800000, 0xFB800000] with groups := [(0, jumping loadGroup)] }

/-- IndirectJumpsReadEachLane: a bundle with lanes of every kind. -/
theorem witness_mixed_jumps :
    okWith (prelude jumps 12 { pipe := some 0, member := false, imm := .bInt 0x03, konst := false, vregs := [2, 3] }) (fun i =>
      let off (l : Nat) : Word := src32 jumps i.g litInt 0x02 l
      let pr (l : Nat) : BitVec 6 := (srcB32 jumps i.g litInt 0x03 l).setWidth 6
      let target (l : Nat) : Pc := codebaseOf jumps i.g + (off l).setWidth 57
      i.act == BitVec.allOnes 64 && srcRegs false 0x02 ++ srcRegs false 0x03 == [2, 3] && srcLatch 0x02 ++ srcLatch 0x03 == [] &&
        (off 0).toNat % 4 == 1 && (off 1).toNat % 4 == 0 && pr 1 == 63 && (off 2).toNat % 4 == 0 && pr 2 == 40 && !noHint jumps i (target 2) &&
        i.g.vec != 0 && i.pair.2 != 63 &&
        (List.range 61).all fun k => (off (k + 3)).toNat % 4 == 0 && pr (k + 3) == 40 && noHint jumps i (target (k + 3))) = true := by decide +kernel

/-- IndirectJumpsReadEachLane: aligned offsets, misaligned ones, the priority 63 (literals 4, 1 and −1). -/
theorem witness_jumps :
    (List.all ([((0xC4 : BitVec 8), (0xC1 : BitVec 8), true, false), (0xC1, 0xC1, false, false), (0xC4, 0xEF, true, true)]) (fun q => decide (
      okWith (prelude mini 12 { pipe := some 0, member := false, imm := .bInt q.2.1, konst := false }) (fun i => i.act != 0 && handled i i.act (fun _ => atBundle i 0) &&
        (List.range 64).all fun l => ((src32 mini i.g litInt q.1 l).toNat % 4 == 0) == q.2.2.1 &&
          ((srcB32 mini i.g litInt q.2.1 l).setWidth 6 == (63 : BitVec 6)) == q.2.2.2 &&
          noHint mini i (codebaseOf mini i.g + (src32 mini i.g litInt q.1 l).setWidth 57)) = true)) = true) := by decide +kernel

/-- Two groups of one team; the first is about to issue. -/
def duo (f : Group → Group := id) : State :=
  { mini f with groups := [(0, f loadGroup), (1, { loadGroup with index := 1, slot := 1 })],
                teams := (mini f).teams.map fun e => (e.1, { e.2 with d := { loadDesc with groups := 2 } }) }

/-- GS.SAT is set and SAT is armed. -/
def armed (g : Group) : Group := { g with gsarm := 1, gs := 1 }

/-- Another group of the team can issue, and no lane waits at a RECONV. -/
def unstuck (s : State) (i : Iss) : Bool :=
  (s.groups.any fun e => e.1 != i.gid && e.2.team == i.g.team && (e.2.lane 0).st == .issuable) && i.g.lanes.all fun x => !Lane.atReconv x

/-- The team of the two groups has a barrier 15, and s4 holds 3. -/
def barred (b : Barrier) : State :=
  { (duo fun g => { g with s := [(4, 3)] }) with teams := duo.teams.map fun e => (e.1, { e.2 with barriers := [(15, b)] }) }

/-- BarrierArrivals at barrier 15: no active lane, SAT armed, a count above the team's groups, a group two phases ahead, an arrival that leaves the
phase open and one that completes it. -/
theorem witness_BarrierArrivals :
    okWith (prelude duo 0 ctlForm) (fun i => i.act == 0 && (Fm.get? duo.teams i.g.team).isSome) = true ∧
    okWith (prelude (duo armed) 0 ctlForm) (fun i => i.act == 0 && satArmed i.g && handled i i.lanes fun _ => atBundle i cSatArmed) = true ∧
    okWith (prelude (barred {}) 12 ctlForm) (fun i => i.act != 0 && !satArmed i.g && 2 < (readS (barred {}) i.g 4).toNat % 256 &&
      handled i i.lanes fun _ => atBundle i cBarrier) = true ∧
    okWith (prelude (barred { arr := [0], early := [0] }) 12 ctlForm) (fun i => i.act != 0 && !satArmed i.g && !i.g.waitsAt 15 && i.g.index == 0) = true ∧
    okWith (prelude (barred { arr := [0], count := some 2 }) 12 ctlForm) (fun i => !i.g.waitsAt 15 && unstuck duo i && i.g.index == 0 &&
      (arrived i.g 15 (some 2) { arr := [0], count := some 2 }).early == [0]) = true ∧
    okWith (prelude (duo armed) 12 ctlForm) (fun i => i.act != 0 && satArmed i.g && handled i i.lanes fun _ => atBundle i cSatArmed) = true ∧
    okWith (prelude duo 12 ctlForm) (fun i => i.act != 0 && !satArmed i.g && unstuck duo i && (readS duo i.g 0).toNat % 256 == 0 &&
      (arrived i.g 15 (some 0) {}).arr == [0] && liveGroups duo i.g.team == 2) = true ∧
    okWith (prelude duo 12 ctlForm) (fun i =>
      (arrived i.g 15 (some 2) { arr := [1], count := some 2 }).arr == [1, 0] && !([] : List Nat).contains i.g.index) = true := by decide +kernel

/-- BarrierArrivals: a count other than that of the open phase, and than that of a group two phases ahead; a BAR of such a group that waits. -/
theorem witness_barrier_counts :
    okWith (prelude (barred { arr := [1], count := some 2 }) 12 ctlForm) (fun i => i.act != 0 && !satArmed i.g && (readS duo i.g 0).toNat % 256 == 0 &&
      handled i i.lanes fun _ => atBundle i cBarrier) = true ∧
    okWith (prelude (barred { arr := [0], early := [1], earlyCount := some 2 }) 12 ctlForm) (fun i => i.act != 0 && !i.g.waitsAt 15 && i.g.index == 0) = true ∧
    okWith (prelude (barred { arr := [0], early := [0], count := some 0 }) 12 ctlForm) (fun i => i.act != 0 && !i.g.waitsAt 15 &&
      (readS duo i.g 0).toNat % 256 == 0) = true := by decide +kernel

/-- One lane is active under p0, the others not. -/
def lane0 (g : Group) : Group := { g with p := [(0, 1)] }

/-- Every lane but lane 0 has exited. -/
def rest_exited (g : Group) : Group := { g with lanes := lanesOf fun l => if l = 0 then loadLane else { loadLane with st := .exited } }

/-- ReconvergenceWaitsForItsSet: no active lane, SAT armed, a set whose other lanes have exited, a set with a lane still to come. -/
theorem witness_ReconvergenceWaitsForItsSet :
    okWith (prelude mini 0 ctlForm) (fun i => i.act == 0) = true ∧
    okWith (prelude (mini armed) 12 ctlForm) (fun i => i.act != 0 && satArmed i.g && handled i i.lanes fun _ => atBundle i cSatArmed) = true ∧
    okWith (prelude (mini rest_exited) 12 ctlForm) (fun i => i.act == 1 && !satArmed i.g && (i.g.lanes.all fun y => !Lane.atReconv y) &&
      (List.range 64).all fun l => i.act.getLsbD l || (i.g.lane l).st == .exited) = true ∧
    okWith (prelude (mini lane0) 0 ctlForm) (fun i => i.act == 1 && !satArmed i.g && (i.g.lanes.all fun y => !Lane.atReconv y) &&
      (i.g.lane 1).st == .issuable) = true := by decide +kernel

/-- WaitsFencesAndBeats: WAITF at its flag's count and above it; FENCE with nothing pending and with a fence that is; BEAT of a persistent team. -/
theorem witness_waits_fences :
    okWith (prelude (mini fun g => { g with flags := [(11, 63)] }) 12 ctlForm) (fun i => i.act != 0 && i.g.flag 11 == 63) = true ∧
    okWith (prelude mini 12 { ctlForm with chain := false }) (fun i => i.act != 0 && i.g.fence.isNone) = true ∧
    okWith (prelude mini 0 { ctlForm with chain := false }) (fun i => i.act == 0) = true ∧
    okWith (prelude (mini fun g => { g with fence := some { pred := 1, succ := 1, scope := 0, ops := [], time := 0 } }) 12 { ctlForm with chain := false })
      (fun i => i.act != 0 && i.g.fence.isSome) = true := by decide +kernel

/-- ControlRegisterAccess: a scalar, a vector and a pair. -/
theorem witness_ControlRegisterAccess :
    List.all ([((0 : BitVec 1), 63, 0x11), (1, 59, 0x01), (1, 58, 0x31), (0, 0, 0x10)]) (fun q => decide (
      okWith (prelude mini 12 { ctlForm with vregs := (if q.1 = 0 then [] else if csrWide q.2.2 then [q.2.1, q.2.1 + 1] else [q.2.1]) })
        (fun i => i.act != 0) = true)) = true := by decide +kernel

/-- SoftwareTrapsSaveTheNextBundle and ServiceCallsParkTheirLanes (their codes from 0 to 47 and from 48 to 63), ReturnsAndExits: a saved priority below 63 and of 63,
and an exit that leaves a lane. -/
theorem witness_traps_returns_exits :
    okWith (prelude mini 12 ctlForm) (fun i => i.act != 0 && handled i i.act fun _ => { f := { cause := 0, word := i.g.word }, at_ := (pcNext i.pcI, i.e.prio) }) = true ∧
    okWith (prelude mini 0 ctlForm) (fun i => i.act == 0) = true ∧
    okWith (prelude mini 12 ctlForm) (fun i => (List.range 64).all fun l => ((i.g.lane l).trapPc >>> 58).setWidth 6 != (63 : BitVec 6)) = true ∧
    okWith (prelude (mini fun g => { g with lanes := lanesOf fun _ => { loadLane with trapPc := BitVec.ofNat 64 (63 * 2 ^ 58) } }) 12 ctlForm)
      (fun i => i.act != 0 && (handled i i.act fun _ => atBundle i cIllegal) && (List.range 64).all fun l => ((i.g.lane l).trapPc >>> 58).setWidth 6 == (63 : BitVec 6)) = true ∧
    okWith (prelude (mini lane0) 0 ctlForm) (fun i => !i.act.getLsbD 1 && (i.g.lane 1).st == .issuable) = true := by decide +kernel

/-- A group whose vector registers v2 and v3 hold the address 0x10080 in every lane, one lane active under p0. -/
def addressed (g : Group) : Group := { g with v := [(2, lanesOf fun _ => 0x10080), (3, lanesOf fun _ => 0), (6, lanesOf fun _ => 0x80)], p := [(0, 1)] }

/-- A loaded program whose group holds addresses. -/
def data (f : Group → Group := addressed) : State :=
  let s := coded [0xFB800000]
  { s with groups := [(0, f loadGroup)] }

/-- The verdict on a lane is an access that no move holds back, or a cause. -/
def accepts : Verdict → Bool
  | .ok a => !a.held
  | _ => false
def faults (c : Nat) : Verdict → Bool
  | .bad k _ _ => k == c
  | _ => false

/-- Each memory instruction with a predicate on its form and on the verdicts of the active lanes. -/
def memCase (s : State) (g : BitVec 4) (d : BitVec 6) (a : BitVec 8) (f w : BitVec 4) (sp z : BitVec 2) (n : Nat) (q : Iss → Bool) (p : Verdict → Bool) : Bool :=
  match issueOf s g with
  | none => false
  | some i0 =>
    match (memoryForms s i0 g d a f w sp z)[n]? with
    | none => false
    | some o0 =>
      okWith (prelude s g o0.2.1) fun i =>
        match (memoryForms s i g d a f w sp z)[n]? with
        | none => false
        | some o => q i && !replayTrap s i w.toNat && (activeLanes i).all fun l => p (o.2.2.2.2.2 l)

/-- MemoryInstructionsAreAccepted: each of the seven in one active lane, flag 11; no active lane. -/
theorem witness_MemoryInstructionsAreAccepted :
    memCase data 0 4 0x02 11 4 1 1 0 (fun i => i.act == 1 && !flagFull i.g 11) accepts = true ∧
    memCase data 0 4 0x02 11 6 1 1 1 (fun i => i.act == 1) accepts = true ∧ memCase data 0 4 0x06 11 4 1 1 2 (fun i => i.act == 1) accepts = true ∧
    memCase data 0 4 0x06 11 4 1 3 3 (fun i => i.act == 1) accepts = true ∧ memCase data 0 4 0x02 11 0 1 1 4 (fun i => i.act == 1) accepts = true ∧
    memCase (data fun g => { addressed g with v := (6, lanesOf fun _ => 0x40000080) :: (addressed g).v }) 0 4 0x06 11 0 1 1 5 (fun i => i.act == 1) accepts = true ∧
    memCase data 0 63 0x02 11 0 1 1 6 (fun i => i.act == 1) accepts = true ∧
    memCase data 1 4 0x02 11 4 1 1 0 (fun i => i.act == 0) accepts = true := by decide +kernel

/-- AcceptanceFaultsParkOrTrap: a full flag; a misaligned address, which traps; an unmapped one, which parks. -/
theorem witness_AcceptanceFaultsParkOrTrap :
    memCase (data fun g => { addressed g with flags := [(11, 63)] }) 0 4 0x02 11 4 1 1 0 (fun i => i.act == 1 && flagFull i.g 11 && handled i i.lanes fun _ => atBundle i 0) (fun _ => true) = true ∧
    memCase (data fun g => { addressed g with v := [(2, lanesOf fun _ => 0x10081), (3, lanesOf fun _ => 0)] }) 0 4 0x02 11 4 1 1 0
      (fun i => i.act == 1 && handled i i.act fun _ => atBundle i 0) (faults cMisaligned) = true ∧
    memCase (data fun g => { addressed g with v := [(2, lanesOf fun _ => 0x90000), (3, lanesOf fun _ => 0)] }) 0 4 0x02 11 4 1 1 0
      (fun i => i.act == 1) (fun v => match v with
        | .bad c _ _ => toKernel (BitVec.ofNat 8 c)
        | _ => false) = true := by decide +kernel

/-- FatalTrapsKillTheTeam: at priority 63 an illegal bundle, a TRAP, SAT armed, a full flag, a misaligned address; with no handler a cause that is
passed on and a deferred one. -/
theorem witness_FatalTrapsKillTheTeam :
    issuing (mini (atPrio 63)) (fun i => i.e.prio == 63 && (Fm.get? (mini (atPrio 63)).teams i.g.team).isSome && !formOk i.g { vregs := [60] }) = true ∧
    okWith (prelude (mini (atPrio 63)) 12 ctlForm) (fun i => i.e.prio == 63 && i.act != 0) = true ∧
    okWith (prelude (mini fun g => atPrio 63 (armed g)) 12 ctlForm) (fun i => i.e.prio == 63 && satArmed i.g) = true ∧
    memCase (data fun g => atPrio 63 { addressed g with flags := [(11, 63)] }) 0 4 0x02 11 4 1 1 0 (fun i => i.e.prio == 63 && i.act == 1 && flagFull i.g 11)
      (fun _ => true) = true ∧
    memCase (data fun g => atPrio 63 { addressed g with v := [(2, lanesOf fun _ => 0x10081), (3, lanesOf fun _ => 0)] }) 0 4 0x02 11 4 1 1 0
      (fun i => i.e.prio == 63 && i.act == 1 && !toKernel (BitVec.ofNat 8 cMisaligned)) (faults cMisaligned) = true ∧
    (let g := { loadGroup with trapvec := 0, deferred := [{ lane := 63, f := { cause := BitVec.ofNat 8 cSaTimeout } }],
                               lanes := lanesOf fun l => if l = 0 then { loadLane with st := .parked { cause := BitVec.ofNat 8 cTranslation } } else loadLane }
     let s := { mini with groups := [(0, g)], parking := [{ slice := 0, dial := 0, group := 0, lane := 0, f := { cause := BitVec.ofNat 8 cTranslation }, pc := 0x10000 }] }
     (g.vec == 0 && g.hints.n == 0 && g.ent.isNone && onCores s g && (g.lane 63).st == .issuable && BitVec.ofNat 8 cSaTimeout != BitVec.ofNat 8 cPoison &&
       (Fm.get? s.teams g.team).isSome && s.parking.any fun r => r.group == 0 && r.lane == 0) = true) := by decide +kernel

/-- An operation in flight of the loaded group, with flag 3. -/
def flying (k : OpKind) (s : State := data) : State :=
  { s with
    nextOp := 9, ops := [(7, { group := some 0, world := 1, core := 0, die := 0, flag := some 3, lanes := 1, kind := k })],
    groups := [(0, { (Fm.getD s.groups 0 loadGroup) with flags := [(3, 1)] })] }

/-- An access of lane 0 at a place. -/
def accAt (loc : Loc) (ds : List Byte := []) : Acc := { lane := 0, va := 0x10080, loc := loc, buf := 1, soff := 0x80, data := ds }

/-- A copy of sector 0x2001 (the sector of 0x10080) on a die. -/
def secCopy (die : Nat) (st : Moesi) (s : State := data) : State :=
  { s with l2 := Fm.put s.l2 (l2Key die 0x2001) { st := st, data := List.replicate 128 1, stamp := 5 } }

/-- The die writes the sector with no request, no write is pending on it and what it holds is under no key. -/
def owned (s : State) (die sec : Nat) : Bool :=
  die < 8 && !blocked s sec none && !hostShared s sec && (copyOf s die sec).any fun x =>
    (x.st == .m || x.st == .e) && x.pend == [] && !x.poison && x.encs.all fun f => f.isNone

theorem owned_spec {s : State} {die sec : Nat} (h : owned s die sec = true) :
    ∃ x, Safety.Owned s die sec x ∧ x.poison = false ∧ ∀ e, keyless e = false → Safety.Plain x e := by
  simp only [owned, Bool.and_eq_true, decide_eq_true_eq, Bool.not_eq_true', Option.any_eq_true] at h
  obtain ⟨⟨⟨hd, hb⟩, hs⟩, x, hx, h⟩ := h
  simp only [Bool.or_eq_true, beq_iff_eq, List.all_eq_true, Option.isNone_iff_eq_none] at h
  exact ⟨x, ⟨hd, hx, h.1.1.1, hb, hs⟩, h.1.2, fun e he => ⟨h.1.1.2, he, fun f hf => .inl (h.2 f hf)⟩⟩

/-- A memory operation of one access. -/
def oneMem (k : MemKind) (loc : Loc) (ds : List Byte := []) (d w : Nat) : MemOp := { k := k, d := d, w := w, accs := [accAt loc ds] }
def oneState (k : MemKind) (loc : Loc) (ds : List Byte := []) (d w : Nat) : State := flying (.mem (oneMem k loc ds d w))

/-- What OneAccess asks. -/
def oneAccess (k : MemKind) (loc : Loc) (ds : List Byte := []) (d w : Nat) : Bool :=
  let s := oneState k loc ds d w
  match Fm.get? s.ops 7, Fm.get? s.groups 0 with
  | some o, some _ => o.kind == .mem (oneMem k loc ds d w) && o.group == some 0 && o.flag == some 3 &&
      !earlierOpen s 7 o (oneMem k loc ds d w).size (accAt loc ds) fun _ => true
  | _, _ => false

/-- LoadsAndScratchStoresArePerformed: a scratch load, stores at the last byte of a core's and of a die's scratchpad, a load. -/
theorem witness_LoadsAndScratchStoresArePerformed :
    oneAccess .lds (.core 0 0) [] 4 0 = true ∧ oneAccess .lds (.die 7 (2 ^ 25 - 4)) [] 4 0 = true ∧
    scratchBad (oneState .lds (.core 0 0) [] 4 0) (.core 0 0) = false ∧ scratchBad (oneState .lds (.die 7 (2 ^ 25 - 4)) [] 4 0) (.die 7 (2 ^ 25 - 4)) = false ∧
    oneAccess .sts (.core 383 (scrSpan - 4)) [1, 2, 3, 4] 4 0 = true ∧
    oneAccess .sts (.die 7 (2 ^ 25 - 4)) [1, 2, 3, 4] 4 0 = true ∧
    Mem.wf (oneState .sts (.core 383 (scrSpan - 4)) [1, 2, 3, 4] 4 0).coreScr = true ∧ oneAccess .ld (.mem 0x100080) [] 4 4 = true ∧
    (let r := readSector (oneState .ld (.mem 0x100080) [] 4 4) 0 1 (accAt (.mem 0x100080)) 0 256
     (r.ok && !r.bad) = true) := by decide +kernel

/-- StoresAndAtomicsArePerformed: a store and an atomic at the end of a sector that die 0, its home, holds in M or in E; a scratch atomic; RESID of one
sector and of four, with a count of 0 and of 63. -/
theorem witness_StoresAndAtomicsArePerformed :
    (List.all [Moesi.m, .e] fun st =>
      oneAccess .st (.mem 0x1000FC) [1, 2, 3, 4] 4 4 && (oneMem .st (.mem 0x1000FC) [1, 2, 3, 4] 4 4).size == 4 &&
      owned (secCopy 0 st (oneState .st (.mem 0x1000FC) [1, 2, 3, 4] 4 4)) 0 0x2001 &&
      oneAccess .atom (.mem 0x1000FC) [1, 2, 3, 4] 4 0 && (oneMem .atom (.mem 0x1000FC) [1, 2, 3, 4] 4 0).size == 4 &&
      owned (secCopy 0 st (oneState .atom (.mem 0x1000FC) [1, 2, 3, 4] 4 0)) (homeDie 0x2001) 0x2001) = true ∧
    secOf 0x1000FC = 0x2001 ∧ 0x1000FC % 128 + 4 = 128 ∧
    (oneAccess .atoms (.core 383 (scrSpan - 8)) [1, 2, 3, 4, 5, 6, 7, 8] 4 0 &&
      !scratchBad (oneState .atoms (.core 383 (scrSpan - 8)) [1, 2, 3, 4, 5, 6, 7, 8] 4 0) (.core 383 (scrSpan - 8))) = true ∧
    (oneAccess .atoms (.die 7 (2 ^ 25 - 4)) [1, 2, 3, 4] 4 0 && !scratchBad (oneState .atoms (.die 7 (2 ^ 25 - 4)) [1, 2, 3, 4] 4 0) (.die 7 (2 ^ 25 - 4))) = true ∧
    (List.all [0, 63] fun d => oneAccess .resid (.mem 0x100080) [] d 0 &&
      (residSecs (oneMem .resid (.mem 0x100080) [] d 0) (accAt (.mem 0x100080))).all fun z =>
        owned (secCopy 0 .m (oneState .resid (.mem 0x100080) [] d 0)) (homeDie z) z) = true ∧
    (residSecs (oneMem .resid (.mem 0x100000) [] 63 1) (accAt (.mem 0x100000))) = [0x2000, 0x2001, 0x2002, 0x2003] := by decide +kernel

/-- A group with two scalar registers. -/
def scalars (x y : DWord) (g : Group) : Group := { addressed g with s := [(4, x), (5, y)] }

/-- A handle of entry 0 of slice 23 in generation 1 with SIZE 0, whatever its check code. -/
def anyHandle : DWord := 0xDC00000040080000

/-- The page at 0x10000 is in transit, with an executor of its own (MODE 1): TRANSIT and EXEC of its leaf. -/
def moving (s : State := data) : State := pokeWord s (393216 + 16) (leBytes 4 0x800FF)

/-- UnitInstructionsAwaitTheirVerdict: a SACC and a TKT form with an active lane, with none, with a full flag; a forged handle and one that the
core lets pass, for TKRDM with a destination; the access of a TKLD, of a page in transit too. -/
theorem witness_UnitInstructionsAwaitTheirVerdict :
    (List.all [saForm 11, saAddForm 4 11, saNormForm 4 11, saImageForm 11, tkldForm 11, tkxtndForm 11, tktForm 1 11, tktForm 2 11, tktForm 4 11] fun o =>
      okWith (prelude data 12 o) (fun i => i.act != 0 && !flagFull i.g 11) && okWith (prelude data 0 o) (fun i => i.act == 1) &&
      okWith (prelude (data fun g => { addressed g with p := [] }) 0 o) (fun i => i.act == 0) &&
      okWith (prelude (data fun g => { addressed g with flags := [(11, 63)] }) 12 o)
        (fun i => i.act != 0 && flagFull i.g 11 && handled i i.lanes fun _ => fullFlag i 11)) = true ∧
    (List.all [1, 2, 3] fun fn => okWith (prelude (data (scalars 0 128)) 12 (if fn = 3 then tkxtndForm 11 else tktForm fn 11)) fun i =>
      coreForged (readS (data (scalars 0 128)) i.g 4).toNat && (readS (data (scalars 0 128)) i.g 5).toNat % 128 == 0 &&
      handled i i.lanes (unitTrap i cTktForged (tktSyn 7 fn false 0) 0)) = true ∧
    okWith (prelude (data (scalars anyHandle 3968)) 12 (tktForm 1 11)) (fun i =>
      !coreForged anyHandle.toNat && (redeemPlace (data (scalars anyHandle 3968)) i.g 1 3968 (128 * 2 ^ hdlSize anyHandle.toNat)).isSome) = true ∧
    (List.all [(data (scalars 0 0x10080), false), (moving (data (scalars 0 0x10080)), true)] fun q =>
      okWith (prelude q.1 12 (tkldForm 11)) fun i => match tkldCheck q.1 i 0x10080 128 with
        | .ok x => (x.transit && onlyExecutor x .ticket) == q.2
        | .error _ => false) = true := by decide +kernel

/-- A TKT instruction of the loaded group waits for its verdict; the scalar s4 holds a handle, and the ticket table an entry. -/
def ticketed (x : Instr) (h : DWord) (t : Ticket) : State :=
  flying (.ticket x 0x10080 1 0x80) { data (scalars h 0) with tickets := [(23 * 4096, t)] }

/-- The prelude of the verdict passes with an active lane. -/
def verdictOk (s : State) (form : Form) (q : State → Iss → Bool) : Bool :=
  (Fm.get? s.ops 7).any (fun o => o.group == some 0 && arrives s 7 o) &&
    okWith (prelude (atVerdict s 7 0) 12 form) fun i => i.act != 0 && q (atVerdict s 7 0) i

/-- A ticket of world 1 with the longest lease. -/
def filled (st : Nat) : Ticket := { st := st, world := 1, expiry := 1000, gen := 65535, k := 7 }

/-- The state with the handle of its ticket in s4. -/
def current (x : Instr) (st : Nat) : State := ticketed x (BitVec.ofNat 64 (handleOf State.reset (23 * 4096) (filled st))) (filled st)

/-- The handle of a live ticket has the ticket's own state: what TicketVerdicts asks of a handle that is current. -/
theorem witness_current_handle (st : Nat) (h : st = 1 ∨ st = 2 ∨ st = 3) :
    handleState (current (.tkdrop 12 4 11) st) (handleOf (current (.tkdrop 12 4 11) st) (23 * 4096) (filled st)) 1 = st ∧ stateCause st = none := by
  refine ⟨handleState_of_handle (current (.tkdrop 12 4 11) st) (23 * 4096) ?_ ?_ ?_ ?_ ?_, ?_⟩
  all_goals rcases h with rfl | rfl | rfl <;> decide +kernel

/-- TicketVerdicts: the four instructions on a handle; a forged handle; TKLD with room, and with none. -/
theorem witness_TicketVerdicts :
    (List.all [((.tkdrop 12 4 11 : Instr), tktForm 2 11, 2), (.tkxtnd 12 4 11, tkxtndForm 11, 3), (.tkrdm 12 4 5 0 11, tktForm 1 11, 1), (.tkqry 12 5 4 11, tktForm 4 11, 4)] fun x =>
      verdictOk (ticketed x.1 anyHandle (filled 2)) x.2.1 (fun _ _ => true) &&
      verdictOk (ticketed x.1 0 (filled 2)) x.2.1 (fun t i => forged (lapseDue t 0) 0 && stateCause 7 == some cTktForged &&
        handled i i.lanes (unitTrap i cTktForged (tktSyn 7 x.2.2 false 0) 0)) &&
      verdictOk (ticketed x.1 anyHandle (filled 3)) x.2.1 (fun _ i => handled i i.lanes (unitTrap i cTktPoison (tktSyn 3 1 false 0) anyHandle.toNat))) = true ∧
    verdictOk (ticketed (.tkld 12 4 5 7 11) 0 (filled 2)) (tkldForm 11) (fun t _ => (ticketOf (lapseDue t 0) 0).st == 0 && unitsUsed (lapseDue t 0) 0 + 2 ^ 7 ≤ 65536) = true ∧
    65536 < unitsUsed { State.reset with tickets := (List.range 512).map fun n => (n, { st := 2, k := 7 }) } 0 + 2 ^ 0 := by decide +kernel

/-- A row of world 1 with one segment, entry 16383 of die 0 in generation 4095. -/
def aRow (st : Nat) : SaRow := { st := st, gen := 4095, world := 1, expect := 2, arrived := 1, bank := 47 }

/-- Its row word. -/
def rowW : DWord := 0xFFF03FFF

/-- A SACC instruction of the loaded group waits for its verdict; s4 and s5 hold its operands; the die has one row. -/
def rowed (x : Instr) (a b : DWord) (r : SaRow) : State := flying (.verdict x) { data (scalars a b) with rows := [(16383, r)] }

/-- The same with a buffer for images (KIND SA_IMAGE) behind the page. -/
def imaged (x : Instr) (a b : DWord) (r : SaRow) : State := { rowed x a b r with desc := Fm.put data.desc 1 (loadBuf 2 1 1 2048) }

/-- The row named by the word answers the instruction. -/
def rowOk (t : State) (q : SaRow → Bool) : Bool := !rowWordBad rowW.toNat && rowKey rowW.toNat == 16383 &&
  rowReason (rowOf t 16383) rowW.toNat 1 == none && q (rowOf t 16383)

/-- RowTableVerdicts: SAOPEN of a FREE entry at the bounds of its open word, and of a SEALED row; SAADD; SANORM of an OPEN and of a SEALED row;
SAEVICT; SAFILL up to its image (whose check code is free); SASTAT; SACLOSE. -/
theorem witness_RowTableVerdicts :
    verdictOk (rowed (.saopen 12 4 5 11) 0 0xFFFFFFF0309 (aRow 1)) (saForm 11) (fun t _ => (openWord 0xFFFFFFF0309).log == 9 && (rowOf t 0).st == 0) = true ∧
    (let w := openWord 0xFFFFFFF0309
     (!w.bad && !w.reopen && w.log == 9 && w.expect == 65535 && w.timeout == 4095 && !(fitBanks (rowed (.saopen 12 4 5 11) 0 0 (aRow 1)) 0 (2 ^ 9)).isEmpty) = true) ∧
    verdictOk (rowed (.saopen 12 4 5 11) rowW 0x8000000000010000 (aRow 2)) (saForm 11) (fun t _ =>
      (openWord 0x8000000000010000).reopen && !(openWord 0x8000000000010000).bad && rowOk t fun r => r.st == 2 && !r.evicting && r.log == 0 && r.e == 0 && r.eps == 0) = true ∧
    verdictOk (rowed (.saadd 12 4 5 11) 0 rowW (aRow 1)) (saAddForm 4 11) (fun t _ => rowOk t fun r => !r.out && !r.poison && r.arrived != r.expect && rowSeg rowW.toNat < r.segs) = true ∧
    (List.all ([1, 2]) (fun st => decide ( verdictOk (rowed (.sanorm 12 4 5 0 11) 0 rowW (aRow st)) (saNormForm 4 11) (fun t _ => rowOk t fun r => !r.out && !r.poison && r.st == st && rowSeg rowW.toNat < r.segs) = true)) = true) ∧
    verdictOk (imaged (.saevict 12 4 5 11) rowW 0x10080 (aRow 1)) (saImageForm 11) (fun t i => (rowOk t fun r => !r.out && !r.poison) &&
      match imagePieces t i 0x10080 (imageLen 0) true with
      | .ok _ => true
      | .error _ => false) = true ∧
    verdictOk (imaged (.safill 12 4 5 11) rowW 0x10080 { aRow 3 with bank := 0 }) (saImageForm 11) (fun t i => (rowOk t fun r => !r.evicting && r.st == 3) &&
      !(fitBanks t 0 1).isEmpty && match imagePieces t i 0x10080 (imageLen 0) false with
      | .ok ps =>
        let r := readAll t 0 (some t.nextOp) (imageFm (imageSecs t ps))
        r.ok && (imageSecs t ps).all fun p => !poisonAt r.s 0 (secOf p.phys)
      | .error _ => false) = true ∧
    verdictOk (rowed (.sastat 12 4 5 11) 0 rowW (aRow 1)) (saForm 11) (fun t _ => rowOk t fun _ => true) = true ∧
    verdictOk (rowed (.saclose 12 4 11) rowW 0 (aRow 2)) (saForm 11) (fun t _ => rowOk t fun r => r.st != 0 && !r.evicting) = true := by decide +kernel

/-- An image whose check word is the code of its other bytes restores its row, whatever the codes are. -/
theorem witness_image_checks (s : State) (x y z : List Byte) (hx : x.length = 8) (hy : y.length = 52) (hr : leNat x = rowWord 16383 4095)
    (hw : nfield (leNat ((y.drop 8).take 8)) 18 11 = 1) :
    (rowFromImage s (rowWord 16383 4095) (aRow 3) (x ++ y ++ leBytes 4 (Config.saCheck (worldKey s 1) (x ++ y ++ z)).toNat ++ z) 0).isSome = true := by
  have e1 : (x ++ y ++ leBytes 4 (Config.saCheck (worldKey s 1) (x ++ y ++ z)).toNat ++ z).take 60 = x ++ y := by
    rw [List.append_assoc, List.take_left' (by simp [hx, hy])]
  have e2 : (x ++ y ++ leBytes 4 (Config.saCheck (worldKey s 1) (x ++ y ++ z)).toNat ++ z).drop 64 = z :=
    List.drop_left' (by simp [hx, hy, leBytes])
  have e3 : ((x ++ y ++ leBytes 4 (Config.saCheck (worldKey s 1) (x ++ y ++ z)).toNat ++ z).drop 60).take 4 =
      leBytes 4 (Config.saCheck (worldKey s 1) (x ++ y ++ z)).toNat := by
    rw [List.append_assoc, List.drop_left' (by simp [hx, hy]), List.take_left' (by simp [leBytes])]
  have e4 : ((x ++ y ++ leBytes 4 (Config.saCheck (worldKey s 1) (x ++ y ++ z)).toNat ++ z).drop 0).take 8 = x := by
    rw [List.drop_zero, List.append_assoc, List.append_assoc, List.take_left' hx]
  have e5 : ((x ++ y ++ leBytes 4 (Config.saCheck (worldKey s 1) (x ++ y ++ z)).toNat ++ z).drop 16).take 8 = (y.drop 8).take 8 := by
    rw [List.append_assoc, List.append_assoc, show 16 = 8 + 8 from rfl, ← List.drop_drop, List.drop_left' hx,
      List.drop_append_of_le_length (by omega), List.take_append_of_le_length (by simp; omega)]
  have e6 (n : Nat) (hn : n < 2 ^ 32) : leNat (leBytes 4 n) = n := by
    simp [leBytes, leNat, List.range, List.range.loop]; omega
  have hz : rowWord 16383 4095 - rowSeg (rowWord 16383 4095) * 2 ^ 32 = rowWord 16383 4095 := by decide
  have h := e6 _ (Config.saCheck (worldKey s 1) (x ++ y ++ z)).isLt
  have c : (leNat (leBytes 4 (Config.saCheck (worldKey s 1) (x ++ y ++ z)).toNat) != (Config.saCheck (worldKey s 1) (x ++ y ++ z)).toNat) = false := by
    rw [h]; simp
  generalize x ++ y ++ leBytes 4 (Config.saCheck (worldKey s 1) (x ++ y ++ z)).toNat ++ z = bs at *
  simp only [rowFromImage]
  split
  · next hh =>
    refine absurd hh ?_
    rw [List.drop_zero] at e4
    simp only [aRow, List.drop_zero, e1, e2, e3, e4, e5, c, hr, hw, hz]
    simp
  · rfl

/-- An accepted operation of the loaded group, at the head of a channel. -/
def inChan (chan : Nat) (cur : Option Copy) (w : Option Walk) (s : State := data) : State :=
  { flying (.copy chan cur w) s with chans := [(chan, [7])] }

/-- SegmentAddsAndTimeouts: an add before the last one of an OPEN row, the last one, a SANORM whose row's timeout (4095 × 16 µs) is over. -/
theorem witness_SegmentAddsAndTimeouts :
    (let s := flying (.saAdd 16383 0 2 (List.replicate 64 0x3F800000)) { data with rows := [(16383, aRow 1)] }
     decide ((rowOf s 16383).arrived < (rowOf s 16383).expect) && !(rowOf s 16383).closing) = true ∧
    (let s := flying (.saAdd 16383 0 2 (List.replicate 64 0x7F800000)) { data with rows := [(16383, { aRow 1 with arrived := 2 })] }
     (rowOf s 16383).arrived == (rowOf s 16383).expect && (rowOf s 16383).st == 1 && pendingAdds s 16383 == 1) = true ∧
    (let s := flying (.saNorm 16383 0 0 2 4 1 [] 0) { data with rows := [(16383, { aRow 1 with timeout := 4095 })], dial := 65520000 }
     decide (0 + timeoutTicks (rowOf s 16383).timeout ≤ dialOf s 0)) = true := by decide +kernel

/-- A shape of 64 words of 4 bytes, in memory or scratch. -/
def sh64 (ss ds : Nat) : Shape := { e := 4, rows := 1, cols := 64, pitch := 256, sm := false, dm := false, ss := ss, ds := ds }

/-- s4 and s5, s6 hold what a copy instruction names: destination, source and shape word. -/
def copyRegs (x y z : DWord) (g : Group) : Group := { addressed g with s := [(4, x), (5, y), (6, z)] }

/-- The shape word of sh64: E = 2, the spaces, 64 columns. -/
def shWord (ss ds : Nat) : DWord := BitVec.ofNat 64 (2 + ss * 8 + ds * 32 + 63 * 2 ^ 28)

/-- CopyInstructionsQueueAndWait: an illegal shape, a copy, one to a page in transit, a chain, a write pointer met and not, an open batch and a full one. -/
theorem witness_CopyInstructionsQueueAndWait :
    okWith (prelude (data (copyRegs 0x10080 0 (shWord 1 0))) 12 (cpyTForm 11)) (fun i => i.act != 0 && !flagFull i.g 11 &&
      shapeOf 0x200 == none && handled i i.lanes fun _ => atBundle i cIllegal) = true ∧
    okWith (prelude (data (copyRegs 0x10080 0 (shWord 1 0))) 12 (cpyTForm 11)) (fun i => shapeOf (shWord 1 0).toNat == some (sh64 1 0) &&
      match checkCopy (data (copyRegs 0x10080 0 (shWord 1 0))) (some i.g) 0 1 0 0x10080 (sh64 1 0) with
      | .ok _ _ _ => true
      | _ => false) = true ∧
    okWith (prelude (data (copyRegs 0x10080 0 0)) 12 (cpyForm (some 11))) (fun _ =>
      match checkVa (data (copyRegs 0x10080 0 0)) 0 1 0x10080 64 .copyRead fun z => if nfield z.d 5 3 != 0 then [cKind] else [] with
      | .ok _ => true
      | .error _ => false) = true ∧
    okWith (prelude (moving (data (copyRegs 0x10080 0 (shWord 1 0)))) 12 (cpyTForm 11)) (fun i => !flagFull i.g 11 &&
      match checkCopy (moving (data (copyRegs 0x10080 0 (shWord 1 0)))) (some i.g) 0 1 0 0x10080 (sh64 1 0) with
      | .stall => true
      | _ => false) = true ∧
    (List.all ([(0, true), (2 ^ 63, false), (1, false)]) (fun y => decide ( decide (((wptrOf data 0 0) + 2 ^ 64 - y.1) % 2 ^ 64 < 2 ^ 63) = y.2)) = true) ∧
    okWith (prelude data 12 (cpyForm none)) (fun i => (Fm.getD i.g.batches 7 {}).openOps == []) = true ∧
    okWith (prelude (data fun g => { addressed g with batches := [(7, { openOps := [7], outs := List.replicate 63 [8] })] }) 12 (cpyForm none))
      (fun i => (Fm.getD i.g.batches 7 {}).openOps != [] && (Fm.getD i.g.batches 7 {}).outs.length == 63) = true := by decide +kernel

/-- A chain record's owner bits and next address at 0x100C0, with what it names. -/
def record (next flags src dst shape : Nat) : State := { data with hbm := Mem.writeN data.hbm 0x100080 (leBytes 8 next ++ leBytes 8 flags ++ leBytes 8 src ++ leBytes 8 dst ++ leBytes 8 shape) }

/-- What the walk of a record at 0x10080 reads, and the state that its copy is checked in. -/
def walkOk (s : State) (q : State → Record → Bool) : Bool :=
  match Fm.get? s.ops 7, checkVa s 0 1 0x10080 64 .copyRead fun z => if nfield z.d 5 3 != 0 then [cKind] else [] with
  | some o, .ok y =>
    let sec := secOf y.phys
    let r := readReq s 0 sec none (nfield y.leaf.pte 26 1 == 1)
    chanHead s 0 == some (7, o) && walkGoes s o 0 && r.ok && !poisonAt r.s 0 sec &&
      q (useXl (if (copyOf s 0 sec).isNone || 0 == homeDie sec then countRead r.s sec else r.s) 0 1 0x10080 false y) (readRecord r.s o 7 y)
  | _, _ => false

/-- A unit that the engine has read: it may be written, and its places are all different. -/
def unitOk (s : State) (c : Copy) (q : Reply → Nat → (Nat → Loc) → Bool) : Bool :=
  match Fm.get? s.ops 7, (copyUnits c)[c.done]? with
  | some o, some u =>
    let r := readElems s o 7 c u
    let at_ (n : Nat) : Loc := c.dst.loc (elemOff c.sh c.sh.dm (elemAt c.sh (u.1 + n / c.sh.e)).1 (elemAt c.sh (u.1 + n / c.sh.e)).2 + n % c.sh.e)
    r.ok && c.done < c.owned && c.done + 1 < (copyUnits c).length && q { s := r.s, ok := r.ok } (u.2 * c.sh.e) at_
  | _, _ => false

/-- CopyEnginesTakeWriteAndWalk: engine ownership of the last sector; a unit of four bytes at the end of 128, in a scratchpad and in the sector of
0x100FC that the engine owns; a record that is not owned, one that is, one that wakes; a slot's fill in another epoch and in its own. -/
theorem witness_CopyEnginesTakeWriteAndWalk :
    (let c : Copy := { src := .core 0 0, dst := .mem 0x10080 [(1, (loadBuf 0 1 1 2048).toNat, 0, false)], sh := sh64 1 0, owned := 1 }
     let s := inChan 0 (some c) none
     (chanHead s 0).isSome && (Fm.get? s.cmds 7).isNone && (copyUnits c).length == 2 && (match unitLoc c (((copyUnits c)[1]?).getD (0, 0)) with
      | .mem p => (ownStep s 0 (secOf p) (some 7)).ok
      | _ => false)) = true ∧
    (let c : Copy := { src := .core 0 0, dst := .die 7 124, sh := sh64 1 3, owned := 2 }
     unitOk (inChan 0 (some c) none) c fun r len at_ => len == 4 && Mem.wf r.s.coreScr && Mem.wf r.s.dieScr &&
       ((List.range 4).map fun n => scratchAddr (at_ n)) == (List.range 4).map fun n => some (false, 7 * 2 ^ 25 + 124 + n)) = true ∧
    (let c : Copy := { src := .core 0 0, dst := .mem 0x100FC [(1, (loadBuf 0 1 1 2048).toNat, 0, false)], sh := sh64 1 0, owned := 1 }
     let s := { inChan 0 (some c) none with l2 := [(l2Key 0 0x2001, { st := .m, data := List.replicate 128 1, stamp := 5, engine := some 7 })] }
     unitOk s c fun r len at_ => len == 4 && ((List.range 4).all fun n => at_ n == .mem (0x1000FC + n)) && secOf 0x1000FC == 0x2001 &&
       !blocked r.s 0x2001 (some 7) && !hostShared r.s 0x2001 &&
       (copyOf r.s 0 0x2001).any fun y => y.st == .m && y.engine == some 7 && y.pend == [] && y.encs.all fun f => f.isNone) = true ∧
    (let s := inChan 0 none (some { at_ := 0x10080 }) (record 0 2 0 0 0)
     walkOk s fun _ r => r.ctl % 2 == 0) = true ∧
    (let s := inChan 0 none (some { at_ := 0x10080 }) (record 0 1 0 0 (shWord 1 1).toNat)
     walkOk s fun u r => r.ctl % 4 == 1 && r.next % 64 == 0 && shapeOf r.shape == some (sh64 1 1) &&
       (Fm.get? s.teams 0).map (fun tm => tm.phase) == some .running &&
       match checkCopy u (Fm.get? u.groups 0) 0 1 r.src r.dst (sh64 1 1) with
       | .ok _ _ _ => true
       | _ => false) = true ∧
    (let s := inChan 0 none (some { at_ := 0x10080, wait := true }) (record 0 1 0 0 0)
     match readVa s 0 1 0x10088 8 .copyRead with
     | .ok bs => leNat bs % 2 == 1
     | .error _ => false) = true := by decide +kernel

/-- The team's die-scratch window of 64 KiB on die 0, a ring at its start with a header. -/
def ringed (h : RingHdr) (f : Group → Group := scalars 0x8000000000000000 0) : State :=
  { data f with worlds := Fm.mod (data f).worlds 1 (fun w => { w with windows := [(0, (0, 65536))] }), teams := Fm.mod (data f).teams 0 fun t => { t with d := { t.d with dsBase := 0, dsSize := 1 } },
                dieScr := Mem.writeN [] 0 h.bytes }

/-- The place of the ring at the start of the window, under the key of the world. -/
def ring0 : RingLoc := .die 0 0 (keyOf data 1)

/-- Where no operation waits at a ring, none is left to serve: what RingInstructions asks beside an empty list of waiters. -/
theorem ringServe_of_none {u : State} {r : RingLoc} (h : ringWaiters u r = []) : ringServe u r = (u, true) := by
  rw [ringServe, h]; rfl

/-- A write of a header in a die scratchpad leaves the waiters as they are: RingInstructions' ring that none waits at before has none after. -/
theorem ringWaiters_writeHdr (u : State) (die off key : Nat) (h : RingHdr) (who : RingWho) (r : RingLoc) :
    ringWaiters (writeHdr u (.die die off key) h who).s r = ringWaiters u r := by
  suffices ∀ (bs : Fm Byte) (t : State), (bs.foldl (fun t e => dieWrite t key die (off + e.1) [e.2]) t).ops = t.ops by
    simp only [writeHdr, ringPatch, ringWaiters, this]
  intro bs
  induction bs with
  | nil => exact fun _ => rfl
  | cons e bs ih => exact fun t => (ih _).trans rfl

/-- The ring's place, and what its header allows. -/
def ringOk (s : State) (init : Option Nat) (q : State → RingHdr → Bool) : Bool :=
  okWith (prelude s 12 { f := some 11 }) fun i =>
    let u := ringWalked s i 0x8000000000000000 512 ring0
    let w := writeHdr u ring0 (readHdr u ring0) { die := 0, group := i.gid, op := s.nextOp }
    i.act != 0 && !flagFull i.g 11 && ringAt s i.g 0x8000000000000000 init == .at_ ring0 65536 3000 false &&
      ringWaiters u ring0 == [] && !ringMarked u ring0 0 512 && w.ok && q u (readHdr u ring0)

/-- 256 operations wait at the unit of die 0, at a ring of their own. -/
def crowded (s : State) : State :=
  { s with ops := (List.range 256).map fun n => (100 + n, { group := none, world := 1, core := 0, die := 0, kind := .ring 1 (.die 0 4096 0) 65536 0 0 3000 }) }

/-- A header of two slots of 8 bytes. -/
def hdr2 (res fil clm rel : Nat) : RingHdr :=
  { cfg := 0x10002, res := res, fil := fil, clm := clm, rel := rel, epoch := 1, lost := 0, misuse := 0, fills := 0, rels := 0 }

/-- RingInstructions: RINIT, also of a page in transit; an object that is no ring; a filled slot. -/
theorem witness_RingInstructions :
    ringOk (ringed (hdr2 0 0 0 0)) (some 0x10002) (fun _ _ => cfgOk 0x10002 && extentOk ring0 0x10002 65536) = true ∧
    (List.all [none, some 0x10002] fun v => okWith (prelude (moving (data (scalars 0x10000 0x10002))) 12 { f := some 11 }) fun i =>
      i.act != 0 && !flagFull i.g 11 && ringAt (moving (data (scalars 0x10000 0x10002))) i.g 0x10000 v == .stall) = true ∧
    ringOk (ringed { hdr2 0 0 0 0 with cfg := 0 }) none (fun _ h => !cfgOk h.cfg) = true ∧
    ringOk (ringed (hdr2 1 1 0 0)) none (fun u h => cfgOk h.cfg && extentOk ring0 h.cfg 65536 && h.fil != h.clm && slotShown u ring0 0 h.size 0) = true := by decide +kernel

/-- RingInstructions: no slot filled, a claimed slot, a free slot at the wrap of the counters, a unit with no room; CopyEnginesTakeWriteAndWalk: the
fill of a slot. -/
theorem witness_rings_wait_and_fill :
    ringOk (ringed (hdr2 0 0 0 0)) none (fun u h => cfgOk h.cfg && h.fil == h.clm && unitWaiters u 3000 < 256) = true ∧
    ringOk (ringed (hdr2 2 2 2 0)) none (fun u h => (1 + h.slots - h.rel % h.slots) % h.slots < ctrSub h.clm h.rel && !bitAt h.rels 1 &&
      h.slots ≤ ctrSub h.res h.rel && unitWaiters u 3000 < 256) = true ∧
    ringOk (ringed (hdr2 0 0 0 (2 ^ 64 - 1))) none (fun u h => ctrSub h.res h.rel == 1 && (ringWrite u ring0 512 (leBytes 8 0)).ok) = true ∧
    ringOk (crowded (ringed (hdr2 0 0 0 0))) none (fun u h => h.fil == h.clm && 256 ≤ unitWaiters u 3000) = true ∧
    ringOk (crowded (ringed (hdr2 2 2 2 0))) none (fun u h => h.slots ≤ ctrSub h.res h.rel && 256 ≤ unitWaiters u 3000) = true ∧
    (let s := { flying (.slotFill ring0 0 1) (ringed (hdr2 1 0 0 0)) with dial := 3 }
     0 + 2 < dialOf s 0 && (readHdr s ring0).epoch == 1 && cfgOk (readHdr s ring0).cfg && ringWaiters s ring0 == [] &&
       0 < (readHdr s ring0).slots && (writeHdr s ring0 (readHdr s ring0)).ok) = true := by
  decide +kernel

/-- A ring in memory at 0x10200 whose first slot is filled and shown only later. -/
def memRing : State :=
  let s := data (scalars 0x10200 0)
  { s with hbm := Mem.writeN s.hbm (2048 * 512 + 0x200) (hdr2 1 1 0 0).bytes, lastV := [(0x2008, 100)] }

/-- RingInstructions: a RAWAIT that claims a slot whose bytes cannot be read yet. -/
theorem witness_claims_wait :
    okWith (prelude memRing 12 { f := some 11 }) (fun i =>
      let loc : RingLoc := .mem (descOf data 1) 0x200
      let u := ringWalked memRing i 0x10200 512 loc
      let h := readHdr u loc
      let w := writeHdr u loc { h with clm := 1 } { die := 0, group := i.gid, op := memRing.nextOp }
      (match ringAt memRing i.g 0x10200 none with
      | .at_ l limit _ split => l == loc && !split && cfgOk h.cfg && extentOk loc h.cfg limit
      | _ => false) && ringWaiters u loc == [] && !ringMarked u loc 0 512 && h.fil != h.clm && w.ok && !slotShown w.s loc 0 8 0) = true := by decide +kernel

/-- A convergence register of the loaded team, and the word that its group issues. -/
def converging (cv : Cv) (w : Word) (f : Group → Group := scalars 0 0x4000000040) : State :=
  let s := data fun g => { f g with word := w }
  { s with teams := Fm.mod s.teams 0 fun t => { t with
    cvs := Fm.put t.cvs 7 cv, places := [(0, { scr := 0, scrLen := 65536, lp := 65536, lpLen := 0, cl := 65536, clLen := 0, arrays := [0], regs := 15360 })] } }

/-- A matrix instruction stands at a convergence register that its group may sign. -/
def signOk (s : State) (n : Nat) (q : Iss → MtxCase → Cv → Bool) : Bool :=
  match issueOf s 12, Fm.get? s.teams 0 with
  | some i0, some tm =>
    match (mtxCases s i0 0 0 15 4 6 7)[n]? with
    | none => false
    | some c0 =>
      okWith (prelude s 12 (mtxForm c0.types 11)) fun i =>
        match (mtxCases s i 0 0 15 4 6 7)[n]? with
        | none => false
        | some c => i.act != 0 && !i.g.landed && 7 < tm.d.cvs && !flagFull i.g 11 && (c.checks tm.d).isEmpty && q i c (Fm.getD tm.cvs 7 {})
  | _, _ => false

/-- The word of a matrix instruction that its round records. -/
def mtxWord (n : Nat) : Word :=
  match issueOf mini 12 with
  | some i => (((mtxCases mini i 0 0 15 4 6 7)[n]?).bind fun c => encode (c.instr 12 11)).getD 0
  | none => 0

/-- SignaturesGatherIntoRounds: each matrix instruction on a set of one group; MSWAP of a group that has signed, and in a set that still
waits for group 1; CSIGN and CVDECL. -/
theorem witness_SignaturesGatherIntoRounds :
    (List.all ([0, 1, 2, 4, 5, 6]) (fun n => decide ( signOk (converging { declared := 1 } (mtxWord n)) n (fun i c cv =>
      cv.declared.getLsbD i.g.index && cv.signed == 0 && cv.sigs == [] && cv.record == none &&
      homeCore ((Fm.get? (converging { declared := 1 } 0).teams 0).getD { world := 0, index := 0, grid := 0, die := 0, d := loadDesc }) 0 == 0 &&
      match Sys2Proof.decode (i.g.word &&& c.mask) with
      | .ok j => j == c.instr 0 0
      | .error _ => false) = true)) = true) ∧
    (((converging { declared := 1 } 0).groups.filter fun e => e.2.team == 0 && e.2.index == 0).map fun e => e.1) = [0] ∧
    signOk (converging { declared := 1, signed := 1 } (mtxWord 1)) 1 (fun i _ cv => cv.declared.getLsbD i.g.index && cv.signed.getLsbD i.g.index) = true ∧
    signOk (converging { declared := 1 } (mtxWord 3) fun g => { scalars 0 0 g with s := [(4, 0), (6, 16384)] }) 3 (fun _ _ _ => true) = true ∧
    (let s := { converging { declared := 3 } 0 with groups := [(0, scalars 0 0 loadGroup), (1, { loadGroup with index := 1 })] }
     signOk s 1 (fun i _ cv => cv.declared.getLsbD 1 && !cv.signed.getLsbD 1 && i.g.index == 0 && s.groups.all fun e => e.2.index != 1 || !e.2.ended)) = true ∧
    okWith (prelude (converging { declared := 1 } 0 (scalars 1 0)) 12 { pipe := none, member := false }) (fun i =>
      i.act != 0 && declOk (converging { declared := 1 } 0 (scalars 1 0)) 0 (readS data i.g 5 ++ readS (converging {} 0 (scalars 1 0)) i.g 4) 1) = true ∧
    okWith (prelude (converging { declared := 1, signed := 1 } 0 (scalars 1 0)) 12 { pipe := none, member := false }) (fun i => i.act != 0) = true := by
  decide +kernel

/-- A matrix operation at the head of array 0's queue. -/
def mtxAt (m : MtxOp) (a : Arr := {}) : State := { flying (.mtx m) with arrays := [(0, { a with queue := [7] })] }

/-- MatrixOperationsRunAndComplete: the head of a queue; MMA of the last rows of tile 15 on a compatible plane and on another; a completion. -/
theorem witness_MatrixOperationsRunAndComplete :
    (List.all ([0, 1, 2, 3, 4, 5, 6]) (fun n => decide (
      (let s := mtxAt { fn := n, ty := 3, sparse := false, core := 0, unit := 0, tile := 15, a := 0, b := 0x3F0001, sigs := [8], groups := [0] }
       (arrOf s 0 0).queue == [7] && Mem.wf (arrOf s 0 0).tiles && Mem.wf s.coreScr && nfield 0x3F0001 16 6 + nfield 0x3F0001 0 7 ≤ 64) = true)) = true) ∧
    mtxCompatible 3 3 = true ∧ mtxCompatible 3 4 = false ∧ mtxCompatible 6 6 = true ∧
    (let s := mtxAt { fn := 1, ty := 3, sparse := false, core := 0, unit := 0, tile := 0, a := 0, b := 0, sigs := [8], groups := [0], ran := true, inv := true }
     let t := { s with ops := [(7, { (Fm.getD s.ops 7 { world := 1, core := 0, die := 0, group := none, kind := .sign 0 }) with group := none, flag := none }),
                               (8, { world := 1, core := 0, die := 0, group := some 0, flag := some 3, kind := .sign 7 })] }
     (Fm.get? t.ops 7).map (fun o => o.group) == some none && (Fm.get? t.ops 8).map (fun o => (o.group, o.flag)) == some (some 0, some 3) &&
       (Fm.get? t.groups 0).isSome) = true := by decide +kernel

/-- PlaceInstructions: a PLACE of one lane; PLSYNC of no bytes and of one; PLQRY of a mapped page and of none; a MIGR within its die, to another, to
a die with no landing slot, and one that must wait; the counts of a PLSYNC that are met; a group on its way. -/
theorem witness_PlaceInstructions :
    (let f (g : Group) : Group := { addressed g with v := [(2, lanesOf fun _ => 0x10080), (3, lanesOf fun _ => 0), (4, lanesOf fun _ => 0x10100), (5, lanesOf fun _ => 0)] }
     let s := data f
     okWith (prelude s 0 (Safety.placeForm (hintsNow s) 1 2 2 11)) fun i => i.act == 1 && !flagFull i.g 11 &&
      match placeLane s i.g.core 1 (placeOpOf s i (hintsNow s) 1) 0 [placeAddr s i 1 0, placeAddr s i 2 0, placeAddr s i 2 0] with
      | .ok x _ _ => !x.held
      | _ => false) = true ∧
    okWith (prelude (data (scalars 0x10080 0)) 12 { f := some 11, member := false }) (fun i => i.act != 0 && readS data i.g 5 == 0 && readS data i.g 4 != 0) = true ∧
    (match xlate data 0 1 0x10080, xlate data 0 1 0x90000 with
     | .ok _, .error _ => true
     | _, _ => false) = true ∧
    okWith (prelude data 12 { chain := false, member := false }) (fun i => i.act != 0 && (List.range 12).all (fun n => i.g.flag n == 0) && i.g.fence.isNone &&
      fenceOps data i.gid 0x7F == [] && fenceTime i.g 0x7F == none && i.g.core / 48 == 0 && landingSlot data 7 == some (336, 32)) = true ∧
    okWith (prelude (data fun g => { addressed g with flags := [(0, 1)] }) 12 { chain := false, member := false }) (fun i => i.g.flag 0 == 1) = true ∧
    landingSlot { data with groups := (List.range 96).map fun k => (100 + k, { loadGroup with team := 0, core := 336 + k / 2, slot := 32 + k % 2 }) } 7 = none ∧
    (let s := { flying (.plsync [(5, 3)]) with dones := [(5, 3)] }
     ((Fm.getD s.dones 5 0 + 2 ^ 32 - 3) % 2 ^ 32 < 2 ^ 31)) ∧
    (Fm.get? (data fun g => { addressed g with away := true }).groups 0).map (fun g => g.away) = some true := by
  decide +kernel

/-- One lane's part of a PLACE.COPY of 4 bytes at 0x10080 from 0x10100, with the operands that its peer asks for. -/
def part (sent : Option Nat) (peer : Option Nat) (remote : List Nat := []) (held : Bool := false) : PlaceOp :=
  { fn := 0, ty := 0, rm := 0, len := 4, ca := 1, cb := 1, crack := false,
    lanes := [{ lane := 0, vas := [0x10080, 0x10100], pages := [(1, (loadBuf 0 1 1 2048).toNat, 0, false)], held := held,
                parts := [{ start := 0, n := 4, exec := 416, die := 0, peer := peer, remote := remote, keys := [5], sent := sent }] }] }

/-- A PLACE of that part, while die 0 holds the sector of 0x10080 in M and that of 0x10100 in S. -/
def placing (p : PlaceOp) : State :=
  let s := secCopy 0 .m (flying (.place p))
  { s with l2 := Fm.put s.l2 (l2Key 0 0x2002) { st := .s, data := List.replicate 128 2 } }

/-- The only lane and the only part of a PLACE. -/
def onePart (p : PlaceOp) (q : PLane → PPart → Bool) : Bool :=
  match p.lanes with
  | [l] => match l.parts with
    | [x] => q l x
    | _ => false
  | _ => false

/-- Its executor holds the sectors of some operands, with no engine at them. -/
def holds (s : State) (l : PLane) (x : PPart) (ks : List Nat) : Bool :=
  (partSecs l x ks).all fun e => (copyOf s 0 e.1).any fun y => y.engine.isNone

/-- PlacedPartsRunAndAnswer: a part of this die, whose destination it may write; a part of a peer that wants no operand and one that wants one; a held
atomic and a held lane whose page's move is over; an answer and the last time for one, for a PLACE and for an atomic; an atomic of a peer. -/
theorem witness_PlacedPartsRunAndAnswer :
    (let s := placing (part none none)
     onePart (part none none) fun l x => holds s l x [1] && ((partSecs l x [0]).all fun e => owned s 0 e.1) && ((partSecs l x [0]).length == 1) &&
       (runElems (part none none) 0 4 (fun j => l.phys 0 j) (placeByte s l 0 (.engine 0 7))).stop.isNone &&
       (runElems (part none none) 0 4 (fun j => l.phys 0 j) (placeByte s l 0 (.engine 0 7))).out.length == 4) = true ∧
    (List.all [[], [1]] fun rm => onePart (part none (some 1) rm) fun l x => holds (placing (part none (some 1) rm)) l x rm &&
      (runElems (part none (some 1) rm) 0 4 (fun _ => 2 ^ 64) fun out k j =>
        if rm.contains k then placeByte (placing (part none (some 1) rm)) l 0 (.engine 0 7) out k j else (0, false)).stop.isNone) = true ∧
    (let a := { accAt (.mem 0x100080) with held := true }
     let s := flying (.mem { k := .atom, d := 4, w := 0, accs := [a] })
     (s.ops.all fun e => 7 ≤ e.1) && !inTransit s 0 1 0x10000 &&
       match checkLane (s.modGroup 0 fun y => { y with held := y.held - 1 }) 0 1 .atom 4 4 0 a.va a.data with
       | .ok b => b.lane == 0 && !b.held && b.got.isNone
       | _ => false) = true ∧
    (let s := flying (.place (part none none [] true))
     !inTransit s 0 1 0x10000 && match placeLane (s.modGroup 0 fun y => { y with held := y.held - 1 }) 0 1 (part none none [] true) 0 [0x10080, 0x10100] with
       | .ok x _ _ => !x.held && !x.parts.isEmpty
       | _ => false) = true ∧
    ((0 + 80000 : Nat) ≤ dialOf { flying (.place (part (some 0) (some 1))) with dial := 80000 } 0) ∧
    (let s := { flying (.mem { k := .atom, d := 4, w := 0, accs := [{ accAt (.mem 0x100080) with peer := some 1, sent := some 5 }] }) with dial := 80005 }
     5 + 80000 ≤ dialOf s 0 ∧ (accAt (.mem 0x100080)).bad = false ∧ (accAt (.mem 0x100080)).got = none) ∧
    (let s := secCopy 0 .m
     match checkVa s 0 1 0x100FC 4 .atom fun y => if y.cls == 4 || y.cls == 5 then [cExecutor] else [] with
     | .ok x => !x.transit && secOf x.phys == 0x2001 && secOf x.leaf.at_ != 0x2001 && x.phys % 128 + 4 == 128 && owned s (homeDie 0x2001) 0x2001
     | .error _ => false) = true := by decide +kernel

/-- PlacedPartsRunAndAnswer: a part and an atomic that may leave for their peer, and have left through a port; a message that the world's key opens. -/
theorem witness_peer_ports :
    peerFirst (placing (part none (some 1))) 7 1 1 (pageOf (0x10080 + 0)) = true ∧
    (let q : PPart := { start := 0, n := 4, exec := 416, die := 0, peer := some 1, remote := [], keys := [5], sent := some 0, port := some 7 }
     let a : Acc := { accAt (.mem 0x100080) with peer := some 1, sent := some 5, port := some 0 }
     q.port.isSome = true ∧ a.port.isSome = true ∧ a.got = none ∧ a.held = false ∧ a.bad = false) ∧
    (let s := { data with keys := [(1, { st := 1, pgen := 3, peers := 1 })] }
     opens s 1 3 = true ∧ opens s 1 2 = false ∧ opens s 2 3 = false) := by decide +kernel

/-- Plain: a seal under a key of a world, and the seal of a place whose owner has none. -/
theorem witness_seals : keyless (encOf data (descOf data 1) 0) = false ∧ keyless (encOf data (loadBuf 0 5 1 2048).toNat 0) = true := by decide +kernel

/-- DirectoryMovesCopies: no holder, an owner in M; the sole holder, a holder in O beside another; an invalidation, its acknowledgement, the last
one; a dirty and a clean copy to evict. -/
theorem witness_DirectoryMovesCopies :
    (let s := { data with l2 := [] }
     homeDie 0x2001 = 0 ∧ copyOf s 0 0x2001 = none ∧ blocked s 0x2001 none = false ∧ (setLines s 0 (l2Set 0 (lineOf 0x2001))).length < 16 ∧
      copies s 0x2001 = [] ∧ Fm.get? s.wcb 0x2001 = none ∧ turns s 0x2001 = [] ∧ Fm.get? s.rcounts 0x2001 = none) ∧
    (let s := secCopy 7 .m { data with l2 := [] }
     copyOf s 0 0x2001 = none ∧ (ownerOf s 0x2001).map (fun x => (x.1, x.2.st)) = some (7, .m)) ∧
    (List.all ([Moesi.m, .e]) (fun st => decide ( let s := secCopy 0 st { data with l2 := [] }
     (copyOf s 0 0x2001).map (fun x => x.st) = some st ∧ blocked s 0x2001 none = false ∧ hostShared s 0x2001 = false)) = true) ∧
    (List.all ([Moesi.o, .s]) (fun st => decide ( let s := secCopy 0 st (secCopy 7 .s { data with l2 := [] })
     (copyOf s 0 0x2001).map (fun x => x.st) = some st ∧ blocked s 0x2001 none = false ∧ turns s 0x2001 = [] ∧ (copyOf s 7 0x2001).isSome = true)) = true) ∧
    (let s := { secCopy 7 .o with owns := [(0x2001, { die := 0, left := 0x80 })] }
     (Fm.get? s.owns 0x2001).map (fun w => w.left.getLsbD 7) = some true ∧ (copyOf s 7 0x2001).isSome = true) ∧
    (List.all ([(0 : BitVec 8), 0x40]) (fun left => decide ( let s := { secCopy 0 .s with owns := [(0x2001, { die := 0, left := left, flying := [(7, (5, 1))] })] }
     (Fm.get? s.owns 0x2001).map (fun w => (w.left, Fm.get? w.flying 7, w.flying.length)) = some (left, some (5, 1), 1) ∧ ackFirst s 7 0 1 = true ∧
       (copyOf s 0 0x2001).isSome = true)) = true) ∧
    (List.all ([Moesi.m, .o, .e, .s]) (fun st => decide ( let s := secCopy 0 st
     (copyOf s 0 0x2001).map (fun x => (x.st, x.engine)) = some (st, none) ∧ Fm.get? s.owns 0x2001 = none ∧ backRoom s 0 [0x2001] = true)) = true) := by decide +kernel

/-- CachesAndBuffersSettle: the last die to see a back-invalidation and to acknowledge it; a fence whose time has just passed; a write-combining entry
of 2,048 ticks. -/
theorem witness_CachesAndBuffersSettle :
    (let b : BackInv := { line := 0x800, dies := 0x80, seen := 0x80 }
     let s := { secCopy 7 .m { data with l2 := [] } with backs := [b], dial := 5 }
     b.dies = setDie 0 7 true ∧ b.dies.getLsbD 7 = true ∧ b.seen.getLsbD 7 = true ∧ leasesOver s 7 0x800 = true ∧ backRoom s 7 (lineSecs 0x800) = true ∧ (copyOf s 7 0x2001).isSome = true) ∧
    (let s := { (data fun g => { addressed g with fence := some { pred := 1, succ := 1, scope := 1, ops := [], time := 2 } }) with dial := 5 }
     (Fm.get? s.groups 0).map (fun g => g.fence.map fun w => (w.ops.length, decide (w.time + fenceGuard s g w.scope.toNat < dialOf s (g.core / 48)))) = some (some (0, true))) ∧
    (let s := { data with wcb := [(0x2001, { bytes := [(0, 1), (127, 2)], since := 0 })], dial := 2048 }
     rowComplete s 0x2001 = false ∧ wcbDue s 0x2001 = true ∧ Mem.wf s.hbm = true ∧ ([0, 127] : List Nat).Nodup) := by decide +kernel

/-- DirectoryMovesCopies: the last acknowledgement of an Own that the write-combining buffer asked for, with the dirty copy that an invalidation
brought. -/
theorem witness_buffered_own_ends :
    (let x : L2Sec := { st := .m, data := List.replicate 128 7, stamp := 5 }
     let w : OwnTx := { die := 0, left := 0, flying := [(7, (5, 1))], wcb := true, copy := some x }
     let s := { data with owns := [(0x2001, w)] }
     Fm.get? s.owns 0x2001 = some w ∧ Fm.get? w.flying 7 = some (5, 1) ∧ ackFirst s 7 0 1 = true ∧ wcbRoom s (sliceOf 0x2001) 1 = true) := by
  decide +kernel

/-- Every lane of a group has exited. -/
def allExited (g : Group) : Group := { g with lanes := lanesOf fun _ => { loadLane with st := .exited } }

/-- GroupsEndAndTeamsArePlaced: an end beside a group that runs on, the end of the last group, a team to place. -/
theorem witness_GroupsEndAndTeamsArePlaced :
    (let s := duo allExited
     (Fm.get? s.groups 0).map (fun g => !g.ended && !g.halted && g.lanes.all (fun x => x.st == .exited) && (List.range 12).all fun n => g.flag n == 0) = some true ∧
      (Fm.get? s.groups 1).map (fun h => h.team == 0 && !h.ended && (h.lane 63).st == .issuable) = some true) ∧
    (let s := mini allExited
     (Fm.get? s.teams 0).isSome = true ∧ s.groups.all (fun e => e.2.lanes.all fun x => x.st == .exited) = true) ∧
    (let s := { State.reset with grids := [(5, { world := 1, queue := 1, seq := 1, left := 1 })], pends := [{ grid := 5, die := 7, world := 1, d := loadDesc, next := 0, step := 1 }] }
     (headPend s 7).map (fun p => p.grid) = some 5 ∧ started s 1 1 = true ∧ loadDesc.level < restoreLevel s 7 ∧
      findSpot s loadDesc 7 (fun _ => true) (fun _ => true) = some 336) := by decide +kernel

/-- DeferredCausesAndRegulator: a cause that traps in lane 63, one that parks it; a starvation count of 63 in a core whose cycle is over; a yield hold
of 1 where nothing can be granted. -/
theorem witness_DeferredCausesAndRegulator :
    (List.all ([(cSaTimeout, false), (cPoison, true)]) (fun c => decide (
      (let d : Deferred := { lane := 63, f := { cause := BitVec.ofNat 8 c.1 } }
       let g := { loadGroup with deferred := [d] }
       (g.hints.n == 0 && g.ent.isNone && (g.lane 63).st == .issuable && d.parks == c.2 && g.vec != 0 && (g.lane 63).prio != 63) = true))) = true) ∧
    (let s := { (data fun g => { addressed g with starve := 63 }) with cycles := [(0, { used := [4, 4], granted := [] })] }
     (Fm.get? s.groups 0).map (fun g => g.starve == 63 && ready s 0 g && cycleOver s 0 0) = some true) ∧
    (let s := data fun g => { allExited g with ents := [], yieldHold := 1 }
     (Fm.get? s.groups 0).map (fun g => (g.yieldHold, g.fresh)) = some (1, false) ∧ nextGrant s 0 = none ∧ s.gated = false) := by decide +kernel

/-- A team in a phase. -/
def phased (p : TeamPhase) (f : Team → Team := id) : State := { data with teams := Fm.mod data.teams 0 fun t => f { t with phase := p } }

/-- A save area for world 1 on die 0: buffer 1. -/
def saving : State :=
  { State.reset with
    desc := data.desc, keys := data.keys, worlds := Fm.mod data.worlds 1 fun w => { w with saves := [(0, 1)] },
    teams := [(0, { world := 1, index := 0, grid := 0, die := 0, d := loadDesc, phase := .halting })] }

/-- TeamsAreSavedAndRestored: a running team, one that drains with and without a place for its image, a saved one with its image intact and damaged, one
that waits for its grant, a heartbeat and a limit that are over. -/
theorem witness_TeamsAreSavedAndRestored :
    (Fm.get? (phased .running).teams 0).map (fun t => t.phase) = some .running ∧ ((phased .running).teams.map fun e => e.1).Nodup ∧
    (drained (phased .halting) 0 = true ∧ (Fm.get? (phased .halting).teams 0).map (imagePlace (phased .halting) 0) = some none) ∧
    (drained saving 0 = true ∧ (Fm.get? saving.teams 0).map (imagePlace saving 0) = some (some (1, 0))) ∧
    imageIntact (phased .saved) (1, 0, 1, 9) [0] = true ∧ imageIntact (phased .saved) (1, 0, 1, 9) [0x55] = false ∧
    (let s := phased .restoring
     (Fm.get? s.teams 0).map (fun t => (headPend s t.die).isNone && t.d.level ≤ restoreLevel s t.die &&
        findSpot s t.d t.die (groupBy s 0 fun g => !g.landed && !g.ended) (groupBy s 0 fun g => !g.landed) == some 0) = some true ∧
      s.groups.all (fun e => !e.2.landed) = true) ∧
    (Fm.get? (phased .running fun t => { t with d := { t.d with persistent := true } }).teams 0).map (fun t => (t.d.persistent, t.timer)) = some (true, 0) ∧
    (Fm.get? (phased .running fun t => { t with d := { t.d with limit := 7 }, timer := 7 }).teams 0).map (fun t => (t.d.persistent, decide (t.d.limit ≤ t.timer))) = some (false, true) := by
  decide +kernel

/-- The first sector of buffer 1 is poisoned. -/
def spoiled : State := { phased .saved with poison := [2048 * 512 / 128] }

/-- A poisoned byte of an image fails its check. -/
theorem witness_image_damaged : imageIntact spoiled (1, 0, 1, 9) [0] = false := by decide +kernel

set_option maxRecDepth 100000 in
/-- The bytes of an image are written. -/
theorem witness_image_written :
    (writeImage { saving with nextOp := 1 } 1 0 (contextBytes saving 0 ((Fm.get? saving.teams 0).getD { world := 1, index := 0, grid := 0, die := 0, d := loadDesc }) 0)).ok = true := by decide +kernel

/-- A lane parked with a cause, and its record. -/
def parked (cause : Nat) (l : Nat) : State :=
  { (data fun g => { g with lanes := lanesOf fun k => if k = l then { loadLane with st := .parked { cause := BitVec.ofNat 8 cause } } else loadLane }) with
    parking := [{ slice := 0, dial := 0, group := 0, lane := l, f := { cause := BitVec.ofNat 8 cause }, pc := 0x10000 }] }

/-- A service call of lane 63. -/
def calling (code : Nat) (args : List DWord) : State :=
  { data with calls := [(8, { slice := 0, group := 0, lanes := 0x8000000000000000, code := code, word := 0, args := args })] }

/-- Measured code of world 1 behind index 7, mapped at 0x20000. -/
def measured (s : State) : State :=
  { s with desc := Fm.put s.desc 7 (loadBuf 0 1 1 2304 ||| 16), hbm := Mem.writeN s.hbm (393216 + 32) (pteBytes 127 7 0) }

/-- A CODEREP call as far as its writes: from 0x10000 to a place, of some bytes. -/
def replacing (va n : Nat) : State := measured (calling 62 [BitVec.ofNat 64 va, 0x10000, BitVec.ofNat 64 n])

/-- SliceKernelsAnswerAndServe: a parked lane 63; RECORD of 1 byte and of 4,096, of none, of 4,097 and of what is not mapped; PLMOVE of a misaligned
range, of none, of one that is not mapped, to an EXEC that is not valid, of a page, once its PLSYNC is over; CODEREP to what is no code, from what
cannot be read and from code, of 4 bytes and of 64 KiB, at its end; another call. -/
theorem witness_SliceKernelsAnswerAndServe :
    (let s := parked cTranslation 63
     (parkOf s 0 0x8000000000000000).length = 1 ∧ (Fm.get? s.groups 0).map (fun g => g.vec != 0 && (g.lane 63).prio != 63) = some true ∧ (Fm.get? s.teams 0).isSome = true) ∧
    (List.all ([1, 4096]) (fun n => decide ( (match worldBytes (calling 50 [0x10000, BitVec.ofNat 64 n]) 0 1 0x10000 n with
      | .ok _ => (Fm.get? data.worlds 1).isSome
      | .error _ => false) = true)) = true) ∧
    (List.all ([(0 : Nat), 4097]) (fun n => decide ( n = 0 ∨ 4096 < n)) = true) ∧
    (worldBytes data 0 1 0x30000 1).toOption = none ∧ rangeLeaves data 0 1 0x30000 65536 = none ∧
    execValid (0xC000 / 2 ^ 13) 0 = false ∧ 0x1800 / 2 ^ 11 % 4 = 3 ∧
    (Fm.get? (calling 48 [0x10080, 65536, 0x2000, 0]).calls 8).map (fun c => decide (c.arg 0 % 65536 ≠ 0)) = some true ∧
    (Fm.get? data.ops 8).isNone = true ∧
    (List.all ([(4 : Nat), 65536]) fun n => match codePieces (replacing 0x20000 n) 0 1 0x20000 n, worldBytes (replacing 0x20000 n) 0 1 0x10000 n with
      | some xs, .ok b => n != 4 || (whole (replacing 0x20000 n) (pieceWrites xs b)).ok
      | _, _ => false) = true ∧
    (pagePieces 3 0x10000 65536).all (fun p => match xlate (replacing 0x20000 65536) 0 1 p.1 with
      | .ok x => nfield x.d 5 3 == 0
      | .error _ => false) = true ∧
    codePieces (replacing 0x20000 4) 0 1 0x10000 4 = none ∧
    (let s := { calling 62 [] with dial := 3 }
     0 + 2 < dialOf s (0 / 3)) ∧
    (let s := calling 48 [0x10000, 65536, 0x2007, 0]
     (match rangeLeaves s 0 1 0x10000 65536 with
     | some ls => execValid 1 7 && (storeLeaves s (ls.map fun l => (l.1, withExec l.2 0x2007 true))).ok
     | none => false) = true) ∧
    (Fm.get? (calling 49 []).calls 8).map (fun c => c.lanes != 0 && (Fm.getD data.groups 0 loadGroup).vec != 0) = some true := by decide +kernel

/-- SliceKernelsAnswerAndServe: a team that is saved; a slice that is to switch, and its calls; leaves on the version of the call's slice and on an older
one. -/
theorem witness_switches_and_kills :
    (Fm.get? (phased .saved).teams 0).map (fun t => t.phase) = some .saved ∧
    (let s := { calling 48 [0x10000, 65536, 0x2007, 0] with version := 1, versions := [] }
     switchPends s 0 = true ∧ switchPends { s with versions := [(0, 1)] } 0 = false ∧ switchPends { s with versions := [(0, 1)] } 1 = true) ∧
    (let s := calling 48 [0x10000, 65536, 0x2007, 0]
     let c : Call := { slice := 0, group := 0, lanes := 1, code := 48, word := 0, args := [] }
     let ls := presentLeaves s 0 1 0x10000 65536
     ls.length = 1 ∧ leafVersions s c ls = true ∧ leafVersions { s with version := 1, versions := [(5, 1)] } { c with slice := 5 } ls = false) := by
  decide +kernel

/-- SliceKernelsStoreOwnedState: a save area that fits and one that does not; an owner, a sender and a message that is served; a descriptor that keeps
its code. -/
theorem witness_messages_between_kernels :
    (let s := { data with desc := Fm.put data.desc 9 (BitVec.ofNat 256 (9 + 2 ^ 8 + 2 ^ 32 + 2 ^ 64 + 2400 * 2 ^ 128)) }
     saveFit s 1 9 = true ∧ saveFit s 1 1 = false) ∧
    storeOwner data (.descriptor 25 0 []) = some 1 ∧ storeOwner data (.data 1 1 0 []) = none ∧
    (let m : KernelMsg := { sender := 2, to_ := 1, version := 0, store := .descriptor 25 0 [] }
     let s := { data with kmsgs := [m] }
     nextMsg (retryMsgs s 1) 1 = some m ∧ (kernelStore (retryMsgs s 1) m.store).ok = true) ∧
    (let v := loadBuf 0 1 1 2304 ||| 16
     let s := { data with desc := Fm.put data.desc 7 v }
     descUsable (descOf s 7) = true ∧ nfield (descOf s 7) 4 1 = 1 ∧ descOf s 7 % 2 ^ 256 / 2 ^ 8 = (v &&& descBits).toNat / 2 ^ 8) := by decide +kernel

/-- A queue with one command; a host queue of world 0 or of a world, or a service core's, in a buffer of its own. -/
def queued (q : Nat) (cmd : List Byte) (world : Nat := 0) (s : State := data) : State :=
  { s with
    desc := Fm.put s.desc 3 (loadBuf 0 world 1 2176), hbm := Mem.writeN s.hbm (2176 * 512) cmd,
    queues := [(q, { world := world, buf := 3, slots := 16, tail := 1 })], journals := [(q, { world := world, buf := 3, log := 4 })] }

/-- A buffer of KIND JOURNAL of world 1 behind index 6. -/
def journaled (s : State := data) : State := { s with desc := Fm.put s.desc 6 (loadBuf 3 1 1 2304) }

/-- SliceKernelsStoreOwnedState: a table entry; a descriptor with CODE, where its index held none, and without; a place for the journal of the longest and
of the shortest length that fits it; a world that is live; bytes of a page; a service queue's tail at its end; a command for instance 23, its answer on
its version and on an older one. -/
theorem witness_SliceKernelsStoreOwnedState :
    (descUsable (descOf data 0) = true ∧ nfield (descOf data 0) 5 3 = 1 ∧ 0 + 16 ≤ descSize (descOf data 0) ∧
      (storePte data (physOf (descOf data 0) 0) (encOf data (descOf data 0) 0) (leBytes 16 1)).ok = true) ∧
    (let d := (loadBuf 0 1 1 2304 ||| 16) &&& descBits
     nfield d.toNat 4 1 = 1 ∧ nfield (descOf data (2 ^ 20 - 1)) 4 1 = 0 ∧ descUsable d.toNat = true ∧ nfield d.toNat 8 11 = 1 ∧
      ((Fm.get? data.worlds 1).bind fun w => w.mrs[1]?) = some 0) ∧ nfield (loadBuf 0 1 1 2304 &&& descBits).toNat 4 1 = 0 ∧
    journalFit journaled 1 6 6 = true ∧ journalFit journaled 1 6 10 = true ∧ journalFit journaled 1 6 5 = false ∧ journalFit journaled 1 6 11 = false ∧
    (Fm.get? data.worlds 1).isSome = true ∧ worldLive data 1 = true ∧
    (let s := queued 2048 (leBytes 64 (6 + 23 * 2 ^ 256))
     (match nextCmd s 2048 with
     | some c => c.kind == 6 && kindOk 2048 6 && c.w 1 7 == 0 && c.w 32 1 ≤ 23
     | none => false) = true) ∧
    (let s := queued 2048 (leBytes 64 (6 + 24 * 2 ^ 256))
     (match nextCmd s 2048 with
     | some c => c.kind == 6 && 23 < c.w 32 1
     | none => false) = true) ∧
    (List.all [(0 : Nat), 1] fun v =>
      let s := { data with kcmds := [{ slice := 23, queue := 2048, seq := 1, version := v, bytes := [] }], journals := [(2048, { world := 0, buf := 3, log := 6 })] }
      ((s.kcmds.find? fun r => r.queue == 2048 && r.slice == 23).any fun r => (r.version == versionOf s 23) == (v == 0)) && s.stopped.isNone && started s 2048 1) = true ∧
    portCauses (descOf data 1) 1 65528 8 .store = [] ∧ nfield (descOf data 1) 4 1 = 0 ∧ portCauses (descOf data 1) 1 65529 8 .store ≠ [] ∧
    (let x : Queue := { world := 0, buf := 3, slots := 16, tail := 3, taken := 2 }
     x.tail ≤ 3 ∧ 18 ≤ x.taken + x.slots) := by decide +kernel

/-- UncorrectableErrorsAreContained: the last sector, held by memory and by die 7; a FILLED ticket; a row; a team with its core and array; the second
error of layer 15. -/
theorem witness_UncorrectableErrorsAreContained :
    (copies State.reset (24 * 2 ^ 29 - 1) = [] ∧ (copyOf (secCopy 7 .s) 7 0x2001).isSome = true) ∧
    (ticketOf { State.reset with tickets := [(23 * 4096 + 4095, filled 2)] } (23 * 4096 + 4095)).st = 2 ∧
    (rowOf { State.reset with rows := [(7 * 16384 + 16383, aRow 1)] } (7 * 16384 + 16383)).st = 1 ∧
    (Fm.get? data.teams 0).map (fun t => holding t && (Fm.get? t.places 0).isSome) = some true ∧ arrayTeam data 0 0 = some 0 ∧
    (let r : Repair := { uncorr := [(15, 1)] }
     Fm.getD r.uncorr 15 0 = 1 ∧ Fm.getD r.uncorr 0 0 = 0 ∧ r.active = false ∧ r.nospare = false ∧ r.done = false) ∧ State.reset.stopped = none := by
  decide +kernel

/-- MaintenancePowerAndCounters: a takeover at its last step and before; a link's 15th failure in a row; a sample that is due; the clock at its bounds. -/
theorem witness_MaintenancePowerAndCounters :
    (List.all ([(0 : Nat), 2 ^ 22 - 1]) (fun b => decide ( (Fm.get? { State.reset with repairs := [(23, { active := true, boundary := b })] }.repairs 23).map (fun r => r.active) = some true)) = true) ∧
    (Fm.getD { State.reset with links := [(27, { fails := 15 })] }.links 27 {}).fails = 15 ∧
    (let p : Pmu := { ival := 10000, last := 0 }
     p.ival ≠ 0 ∧ p.last + p.ival ≤ { State.reset with dial := 10000 }.dial) ∧
    (1225 ≤ State.reset.clock ∧ { State.reset with clock := 1200 }.clock = 1200 ∧ { State.reset with clock := 2075 }.clock ≤ 2075 ∧ State.reset.gated = false) := by
  decide +kernel

/-- TicketsFillDeliverAndLapse: a lease that is due at this tick, the last unit of a fetch, a delivery. -/
theorem witness_TicketsFillDeliverAndLapse :
    (let s := { data with tickets := [(4095, filled 1)], dial := 1000 }
     (ticketOf s 4095).leased = true ∧ (ticketOf s 4095).expiry ≤ sliceDial s 0) ∧
    (let s := { data with tickets := [(0, { st := 1, world := 1, expiry := 9, k := 0, d := (loadBuf 0 1 1 2048).toNat, o := 0x80 })] }
     (ticketOf (lapseDue s 0) 0).st = 1 ∧ Fm.get? (ticketOf (lapseDue s 0) 0).got 0 = none ∧ (readReq (lapseDue s 0) 0 (secOf (physOf (loadBuf 0 1 1 2048).toNat 0x80))).ok = true) ∧
    (let r : Redeem := { op := 7, gid := 0, space := 1, off := 0, handle := 0 }
     let s := flying (.tkRedeem 0) { data with tickets := [(0, { st := 4, got := [(0, List.replicate 128 1)], red := some r })] }
     (ticketOf s 0).full = true ∧ (ticketOf s 0).bad = false ∧ (Fm.get? s.ops 7).isSome = true ∧ (deliverAt s 0 r 0).map scratchAddr = some (some (true, 0)) ∧
      Mem.wf s.coreScr = true) := by decide +kernel

/-- A command of KIND `k` with its operands and, at a service core, its world 23. -/
def cmd (k w a b c : Nat) : List Byte := leBytes 8 (k + w * 256) ++ leBytes 8 a ++ leBytes 8 b ++ leBytes 8 c ++ leBytes 32 0

/-- The head of a queue is a valid command. -/
def cmdAt (s : State) (q k : Nat) (p : Cmd → Bool := fun _ => true) : Bool :=
  match nextCmd s q with
  | some c => c.kind == k && cmdOk s q c && p c
  | none => false

/-- A launch descriptor of one team of one group, at the end of the code page. -/
def descBytes : List Byte :=
  leBytes 8 0x10000 ++ leBytes 4 0 ++ [40, 2, 1, 0] ++ leBytes 4 1 ++ [1, 0, 0, 60] ++ leBytes 232 0

/-- A graph of one node, SIGNAL at 0x10080, and no parameter block. -/
def nodeBytes (ty : Nat) (rest : List Byte) : List Byte := ([BitVec.ofNat 8 ty, 0] ++ leBytes 2 nodeEnd ++ leBytes 4 0 ++ rest ++ List.replicate 64 0).take 64

/-- World 1's memory at 0x10400, and its graph 63. -/
def withBytes (bs : List Byte) (s : State := data) : State := { s with hbm := Mem.writeN s.hbm (2048 * 512 + 0x400) bs }

/-- A resident graph of world 1. -/
def aGraph (n : List Byte) : Graph := { world := 1, reentrant := false, start := 0, nodes := [n], block := List.replicate 256 0 }

/-- CommandsStartTheirWork: LAUNCH of a readable descriptor; TRANSFER between device and host; a service core's GRAPH_LOAD and GRAPH_UNLOAD, and one that
waits for its journal entry and one that does not; REPLAY of a graph that can
start and of one that runs; a GRAPH request; the head of a graph's queue; reductions of one generation and of two. -/
theorem witness_CommandsStartTheirWork :
    (let s := queued 1 (cmd 1 0 0x10400 0 0) 1 (withBytes descBytes)
     cmdAt s 1 1 (fun c => match worldBytes s 0 c.world (c.w 8 8) 256 with
       | .ok b => (parseDesc b).any fun d => !neverFits d
       | .error _ => false)) = true ∧
    (let s := { queued 1 (cmd 3 0 0x10400 (2 ^ 63) 128) 1 with tdis := [(1, 2)], ides := [(0, [1])] }
     cmdAt s 1 3 (fun c => isHostAddr (c.w 16 8) && !isHostAddr (c.w 8 8) && c.w 24 8 == 128 && tdiRuns s 1 1 &&
       match checkSide s none 0 1 (c.w 8 8) (rowShape 128) false with
       | .ok .. => true
       | _ => false)) = true ∧
    (let g := leBytes 2 1 ++ leBytes 62 0 ++ nodeBytes 5 (leBytes 8 0x10080)
     let s := queued 4097 (cmd 4 1 63 0x10400 128) 0 (withBytes g)
     cmdAt s 4097 4 (fun c => c.world == 1 && c.w 8 8 == 63 && !graphBusy s 63 && (Fm.get? s.loads 4097).isNone && match worldBytes s 0 1 0x10400 128 with
       | .ok b => (parseGraph 1 b).isSome
       | .error _ => false)) = true ∧
    (let s := { queued 4097 (cmd 5 1 63 0 0) 0 with graphs := [(63, aGraph [])] }
     cmdAt s 4097 5 (fun c => c.w 16 8 == 0 && c.w 24 8 == 0 && !graphBusy s 63)) = true ∧
    (let s := { queued 1 (cmd 2 0 63 0 0) 1 with graphs := [(63, aGraph [])] }
     cmdAt s 1 2 (fun c => c.w 8 8 == 63 && !graphLoading s 63 && canStart s 63 (aGraph []) && patchBlock (aGraph []).block [] == some (aGraph []).block)) = true ∧
    canStart { data with replays := [(0, { graph := 63, world := 1, queue := 1, seq := 1, block := [], node := 0 })] } 63 (aGraph []) = false ∧
    (let s := { flying (.graphReq 63 []) with journals := [(8193, { world := 1, buf := 1, log := 4 })] }
     (headRequest s 1).isSome = true ∧ journalRoom s 8193 = true ∧ (Fm.get? s.groups 0).isSome = true) ∧
    okWith (prelude data 12 (graphForm 11)) (fun i => i.act != 0 && !flagFull i.g 11) = true ∧
    (match patchBytes data 0 1 0x10400 (.lane 0 0) with
     | .ok _ => true
     | .error _ => false) = true ∧
    (let k : KeySlot := { st := 1, pgen := 255, pprev := true, peers := 2 }
     genOk k 254 = true ∧ genOk k 255 = true ∧ genOk k 253 = false ∧ genOk { k with peers := 1 } 254 = false ∧ genOk { k with peers := 0 } 255 = false) ∧
    (match reduceSides data 0 1 (pagePieces 2 0x10400 128) with
     | .ok xs => (whole data (reduceWrites 0 xs 0)).ok
     | .error _ => false) = true ∧
    (let s := { queued 4097 [] with loads := [(4097, { seq := 1, n := 63, world := 1, graph := none })] }
     started s 4097 1 = true ∧ started { s with jwrites := [{ queue := 4097, seq := 1, after := none, off := 0, bytes := [], final := false }] } 4097 1 = false) := by
  decide +kernel

/-- CommandsStartTheirWork, NodesOfAReplayRun, SliceKernelsAnswerAndServe: no engine owns what they read. -/
theorem witness_nothing_is_marked :
    worldMarked data 0 1 0x10400 256 = false ∧ vaMarked data 0 1 0x10080 8 = false ∧ patchWaits data 0 1 0x10400 true = false ∧
      patchWaits data 0 1 0x10400 false = false := by decide +kernel

/-- A replay of graph 63 stands at its only node. -/
def atNode (n : List Byte) (r : Replay → Replay := id) (s : State := data) : State :=
  { s with graphs := [(63, aGraph n)], replays := [(255, r { graph := 63, world := 1, queue := 1, seq := 1, block := List.replicate 256 0, node := 0 })] }

/-- NodesOfAReplayRun: work that is over; a KERNEL, a COPY, a COND, a LOOP node; a WAIT of each kind that is met; a SIGNAL that adds; an ASYNC node that is over. -/
theorem witness_NodesOfAReplayRun :
    (List.all ([(0 : Nat), 1]) (fun x => decide ( let s := atNode (nodeBytes x []) fun r => { r with work := some (.copy 9 (some (0, 0))) }
     (nodeAt s 255 x).isSome = true ∧ workOver s (.copy 9 (some (0, 0))) = some (none, none))) = true) ∧
    (let s := atNode (nodeBytes 0 (leBytes 8 0x10400)) id (withBytes descBytes)
     (nodeAt s 255 0).isSome && match worldBytes s 0 1 0x10400 256 with
     | .ok b => (parseDesc b).any fun d => !neverFits d
     | .error _ => false) = true ∧
    (let s := atNode (nodeBytes 1 (leBytes 8 0x10080 ++ leBytes 8 0x10400 ++ leBytes 8 (shWord 0 0).toNat ++ [7]))
     (nodeAt s 255 1).isSome && shapeOf (shWord 0 0).toNat == some (sh64 0 0) && match checkCopy s none 7 1 0x10080 0x10400 (sh64 0 0) with
     | .ok .. => true
     | _ => false) = true ∧
    ((nodeAt (atNode (nodeBytes 2 (leBytes 8 0x10080))) 255 2).isSome && match wordAt data 1 0x10080 with
     | .ok _ => true
     | .error _ => false) = true ∧
    (List.all ([(0 : Nat), 1]) (fun c => decide ( (nodeAt (atNode (nodeBytes 3 (leBytes 4 1)) fun r => { r with ctrs := [(0, c)] }) 255 3).isSome = true)) = true) ∧
    (List.all ([(0 : Nat), 1, 2]) (fun k => decide ( (nodeAt { atNode (nodeBytes 4 (leBytes 8 k ++ leBytes 8 0x10080)) (fun r => { r with since := some 0, events := 1 }) with dial := 0x10080 } 255 4).isSome = true)) = true) ∧
    ((nodeAt (atNode (nodeBytes 5 (leBytes 8 0x10080 ++ leBytes 8 1 ++ [1]))) 255 5).isSome && match checkVa data 0 1 0x10080 8 .atom fun _ => [] with
     | .ok x => (writePhys (markUsed data x true) 0 x.phys (encOf data x.d x.o) (leBytes 8 1) 0 0).ok
     | .error _ => false) = true ∧
    (let s := atNode (nodeBytes 4 []) fun r => { r with async := [(9, (0, .copy 9 (some (0, 0))))] }
     (Fm.get? s.replays 255).any (fun r => (r.async.find? fun e => e.2.1 == 0 && (workOver s e.2.2).isSome).any fun e =>
       e.1 == 9 && e.2.1 == 0 && workOver s e.2.2 == some (none, none))) = true := by decide +kernel

/-- HostPortRequests: a tail at the end of its range, an arm of 1,000 ticks, an older one, two final entries, an aperture of 64 KiB in RUN. -/
theorem witness_HostPortRequests :
    (let x : Queue := { world := 1, buf := 3, slots := 16, finals := [(8, 3), (5, 2)] }
     x.tail ≤ 16 ∧ 16 ≤ x.taken + x.slots ∧ (List.all (x.finals) (fun y => decide ( y ≠ (5, 2) → 5 < y.1)) = true)) ∧
    (let s := { data with arms := [(1, [{ who := 5, off := 0x4008, at_ := 0 }])], dial := 1000 }
     ∃ a ∈ Fm.getD s.arms 1 [], a.who = 5 ∧ a.off = 0x4000 + 8 * 1 ∧ s.dial ≤ a.at_ + 1000) ∧
    (let s := { data with apertures := [(127, { enabled := true, world := 1, buf := 1, off := 0 })], tdis := [(2049, 2)], ides := [(1, [1])], ports := [false, true] }
     tdiOf s 1 1 = 2 ∧ hasStream s 1 1 = true ∧ apertureAt s 1 1 (63 * 2 ^ 30 + 65408) 128 .hostRead = some (1, 65408) ∧
      apertureAt s 1 1 (63 * 2 ^ 30) 8 .hostWrite = some (1, 0) ∧ reachesCode s 1 1 (63 * 2 ^ 30) 8 = false ∧ (writeBuf s 1 0 (leBytes 8 1)).ok = true ∧
      (operandReads s ((secPieces (128 / 128 + 2) 65408 128).map fun p => physOf (descOf s 1) p.1)).ok = true ∧ (s.ports[1]?).getD false = true ∧
      reachesCode { s with desc := Fm.put s.desc 1 (loadBuf 0 1 1 2048 ||| 16) } 1 1 (63 * 2 ^ 30) 8 = true) := by decide +kernel

/-- HostPortRequests: a CXL.mem access of a port in CXL mode; a write that waits for the host's own copy of another port; none that waits. -/
theorem witness_posted_writes :
    (let s := { data with apertures := [(127, { enabled := true, world := 1, buf := 1, off := 0 })], tdis := [(2049, 2)], ides := [(1, [1])], ports := [false, true], hostShare := [(0, 0x2000)] }
     modeOk s 1 true = true ∧ modeOk s 0 true = false ∧ modeOk s 0 false = true ∧ s.posted = [] ∧
       (writeBuf (unshare s 1 (bufSecs s 1 0 8)) 1 0 (leBytes 8 1)).ok = false ∧ (writeBuf s 1 0 (leBytes 8 1)).ok = false) := by decide +kernel

/-- SessionsAndInterfaces: each step of a session, a measurement of MR3, a TDI in its three states, the last IDE stream of a port
and none. -/
theorem witness_SessionsAndInterfaces :
    (List.all ([0, 1, 2, 3]) (fun n => decide ( ({ conn := n } : Session).conn = n)) = true) ∧ (4096 : Nat) = mgmtSession ∧ ({ conn := 3, phase := 1 } : Session).phase = 1 ∧ ({ conn := 3, phase := 2 } : Session).phase = 2 ∧
    (Fm.get? data.worlds (1 % 2048)).map (fun w => (w.mrs[3]?).isSome) = some true ∧ (Fm.get? data.keys (2049 % 2048)).isSome = true ∧
    (let s := { data with tdis := [(4095, 1)], sessions := [(4095, { conn := 3, phase := 2 })] }
     tdiOf s 1 2047 = 1 ∧ tdiOf s 0 2047 = 0 ∧ takeStream (List.range 63) 2047 = some (2047 :: List.range 63) ∧ takeStream (List.range 64) 2047 = none ∧
       takeStream (List.range 64) 63 = some (List.range 64) ∧ (Fm.getD s.sessions (portKey 1 2047) {}).phase = 2) := by decide +kernel

/-- A request for world 2047. -/
def request : WorldRequest :=
  { world := 2047, conf := true, replay := true, rootBuf := 1, rootOff := 0, ringBuf := 4, errSlots := some 2, orphanSlots := none, saveBufs := [], journalLog := 10, journalBuf := 5, fromSpdm := false }

/-- WorldsAndFirmware: a world that can be made, one that can go, a staged bundle to switch to; a bundle whose signature holds passes. The signatures are
free: `h` stands for one that holds. -/
theorem witness_WorldsAndFirmware (b : Bundle) (h : Config.bundleSig b.digest b.sig = true) (hd : sha384 b.image = b.digest) (hs : b.svnKernel ≤ 128 ∧ b.svnMonitor ≤ 128 ∧ b.svnFirmware ≤ 128) :
    bundleOk b (0, 0, 0) = true ∧ State.reset.boot.fetching = none ∧ State.reset.boot.staged = none ∧ State.reset.boot.deadline.isSome = true ∧
      (∀ n, n < 24 → versionOf State.reset n = State.reset.version) ∧ inService State.reset 0 = false ∧ worldIdle data 1 = true ∧
      (Fm.get? data.keys 1).map (fun k => k.st) = some 1 := by
  refine ⟨by simp [bundleOk, h, hd, hs], ?_⟩
  decide +kernel

/-- WorldsAndFirmware: a watchdog that runs and one that has expired, a part that is held in reset, a stop whose 10 ms are over. -/
theorem witness_resets_and_deadlines :
    State.reset.boot.deadline = some 600000000000 ∧ State.reset.dial < 600000000000 ∧
    (let s := { State.reset with dial := 600000000000, holdReset := true }
     600000000000 ≤ s.dial ∧ s.holdReset = true) ∧
    (let s := { State.reset with dial := 10000000, stopped := some 10000000 }
     s.holdReset = false ∧ s.boot.fetching = none ∧ s.stopped = some 10000000 ∧ 10000000 ≤ s.dial) := by decide +kernel

/-- WorldsAndFirmware: a world that can be made. -/
theorem witness_world_can_be_made :
    (let s := { data with desc := Fm.put (Fm.put data.desc 4 (loadBuf 0 2047 1 2176)) 5 (loadBuf 3 2047 1 2304) }
     createOk s request && (whole { s with worlds := Fm.put s.worlds 2047 (newWorld s request), keyCtr := s.keyCtr + 1 }
       [fun t => writeBuf t 4 0 (freshHdr 2 64), fun t => writeBuf t 4 (orphanPlace 2) (freshHdr 64 32)]).ok) = true := by decide +kernel

/-- EncodedInstructionsDecodeBack: an instruction at its fields' last values. -/
theorem witness_EncodedInstructionsDecodeBack :
    (Instr.ld 12 59 0x3A 15 4).wf = true ∧ (encode (.ld 12 59 0x3A 15 4)).isSome = true := by decide +kernel

/-- EveryStepKeepsTheInvariant: the loaded program meets the invariant and steps. -/
theorem witness_EveryStepKeepsTheInvariant :
    Mem.wf data.hbm = true ∧ Mem.wf data.coreScr = true ∧ 1200 ≤ data.clock ∧ (match step data with
      | .next _ => true
      | _ => false) = true := by decide +kernel

/-- What the head of core 0's turn comes to: it waits for an engine, faults, its constants wait, or its word is read. -/
def turn (s : State) (q : State → Group → Bool × Except Nat Word → Bool) : Bool :=
  match nextGrant s 0 with
  | none => false
  | some (gid, slot) =>
    match Fm.get? (grant s 0 gid slot).groups gid with
    | none => false
    | some g =>
      match nextPc g with
      | none => false
      | some pc =>
        let a := noteFetch (grant s 0 gid slot) g.core (worldOf (grant s 0 gid slot) g) pc
        q a g (fetchWaits a g.core (worldOf a g) pc, fetchWord a g.core (worldOf a g) pc)

/-- The bank of constants of team 0 lies in memory. -/
def bound (s : State) : State :=
  { s with teams := s.teams.map fun t => (t.1, { t.2 with d := { t.2.d with banks := List.replicate 16 0x10400 } }) }

/-- StepRunsTheDecodedInstruction: a core's turn with a word that decodes, one with a word that does not, one whose sector an engine owns, one that
cannot be fetched, one whose constant lies in a sector that an engine owns; an event. -/
theorem witness_StepRunsTheDecodedInstruction :
    (List.all ([((encode (.nop 12)).getD 0, true), (0x03FFFFFF, false)]) fun w => turn { coded [w.1] with agenda := [] } fun a g x =>
      !x.1 && match x.2 with
        | .ok v => v == w.1 && match Sys2Proof.decode v with
          | .ok i => w.2 && !constWaits a g i
          | .error _ => !w.2 && (issueOf { a with cur := some 0 } 12).isSome
        | .error _ => false) = true ∧
    turn { coded [0xFB800000] with agenda := [], l2 := [(l2Key 0 0x2000, { st := .m, data := [], engine := some 7 })] } (fun _ _ x => x.1) = true ∧
    turn { coded [0xFB800000] with agenda := [], poison := [0x2000] } (fun _ _ x => !x.1 && match x.2 with
      | .ok _ => false
      | .error c => c == cPoison) = true ∧
    turn (bound { coded [(encode (.iadd 12 1 0x80 0)).getD 0] with agenda := [], l2 := [(l2Key 0 0x2008, { st := .m, data := [], engine := some 7 })] }) (fun a g x => !x.1 && match x.2 with
      | .ok v => match Sys2Proof.decode v with
        | .ok i => constWaits a g i
        | .error _ => false
      | .error _ => false) = true ∧
    (coded []).stopped = none := by decide +kernel

/-- StepRunsTheDecodedInstruction: a bundle that reads a constant and is legal, and one that is not; an event of no rank, and a ranked one that nothing
goes before. -/
theorem witness_bundles_and_ranks :
    bundleLegal loadGroup (.iadd 12 1 0x80 0) = true ∧ bundleLegal (hinted { chain := some 1, off := some 0 } loadGroup) (.iadd 12 1 0x80 0) = false ∧
    rankOf (.nop 12) = none ∧ (rankOf (.layerCopy 0)).isSome = true ∧ aboveEvents State.reset (.layerCopy 0) = [] ∧ firstChange data [] = none ∧
    whileStopped (.dsyn0Clear 0) = true ∧ whileStopped (.nop 12) = false := by
  refine ⟨?_, ?_, ?_, ?_, ?_, rfl, ?_, ?_⟩ <;> decide +kernel

end Sys2Proof.Tests
end

section
/-! The results of SFU and CVT (spec/03 R54, spec/06 R125, spec/07 R136): one law for a write of bits to the destination that A selects,
which both instructions come down to. -/

namespace Sys2Proof.Machine

open Safety

/-- A result as 64 bits to the destination that A selects: a scalar, a pair where it is wide, else a vector register or the latch alone
(R63, R108, R125). -/
def putBits (g : Group) (p lat : Nat) (wide : Bool) (a : BitVec 8) (d : BitVec 6) (act : LaneMask) (val : Nat → DWord) : Group :=
  if isScalar a then putScalar g lat d act (val (firstLane act))
  else if wide then putVec64 g p lat d act val
  else putVec32 g p lat d act fun l => (val l).setWidth 32

theorem putBits_scalar {a : BitVec 8} (h : isScalar a = true) (g : Group) (p lat : Nat) (wide : Bool) (d : BitVec 6) (act : LaneMask)
    (val : Nat → DWord) : putBits g p lat wide a d act val = putScalar g lat d act (val (firstLane act)) := if_pos h

theorem putBits_pair {a : BitVec 8} (h : isScalar a = false) (g : Group) (p lat : Nat) (d : BitVec 6) (act : LaneMask) (val : Nat → DWord) :
    putBits g p lat true a d act val = putVec64 g p lat d act val := by simp [putBits, h]

theorem putBits_vector {a : BitVec 8} (h : isScalar a = false) (g : Group) (p lat : Nat) (d : BitVec 6) (act : LaneMask) (val : Nat → DWord) :
    putBits g p lat false a d act val = putVec32 g p lat d act fun l => (val l).setWidth 32 := by simp [putBits, h]

theorem effect_putBits (g : Group) (p lat : Nat) (wide : Bool) (a : BitVec 8) (d : BitVec 6) (act : LaneMask) (val : Nat → DWord) :
    Effect g (putBits g p lat wide a d act val) := by
  unfold putBits
  split
  · exact effect_putScalar ..
  · split
    · exact effect_putVec64 ..
    · exact effect_putVec32 ..

theorem regsAre_putBits (g : Group) (p lat : Nat) (wide : Bool) (a : BitVec 8) (d : BitVec 6) (act : LaneMask) (val : Nat → DWord) :
    RegsAre (putBits g p lat wide a d act val) (intDest (regsOf g) (if wide then 64 else 32) a d act val) := by
  unfold intDest
  cases hs : isScalar a with
  | true => rw [putBits_scalar hs]; exact regsAre_putScalar (regsAre_refl g) ..
  | false =>
    cases wide with
    | true => rw [putBits_pair hs]; exact regsAre_putVec64 (regsAre_refl g) ..
    | false => rw [putBits_vector hs]; exact regsAre_putVec32 (regsAre_refl g) ..

theorem latch_putBits (g : Group) (p lat : Nat) (wide : Bool) (a : BitVec 8) (d : BitVec 6) (act : LaneMask) (val : Nat → DWord) (n l : Nat)
    (hl : l < 64) : latch (putBits g p lat wide a d act val) n l = latchBy (latch g) p a act val n l := by
  unfold latchBy
  cases hs : isScalar a with
  | true => rw [putBits_scalar hs]; exact latch_putScalar ..
  | false =>
    cases wide with
    | true => rw [putBits_pair hs]; exact latch_putVec64 _ _ _ _ _ _ _ _ hl
    | false => rw [putBits_vector hs]; exact latch_putVec32 _ _ _ _ _ _ _ _ hl

theorem fitted_32_natCast (x : Nat) : fitted 32 true (x : Int) = BitVec.ofNat 64 (x % 2 ^ 32) := by
  apply BitVec.eq_of_toNat_eq
  simp [fitted]

/-- A 32-bit floating-point result is one of 32 bits, zero-extended (R129). -/
theorem putF_eq_putBits (g : Group) (p lat : Nat) (a : BitVec 8) (d : BitVec 6) (act : LaneMask) (val : Nat → Nat) :
    putF g p lat a d act val = putBits g p lat false a d act fun l => fitted 32 true (val l) := by
  unfold putF
  cases hs : isScalar a with
  | true => simp only [putBits_scalar hs, fitted_32_natCast, if_true]
  | false =>
    rw [putBits_vector hs]
    simp [fitted]

/-- The lanes that compute are the active ones, or the lowest of them for a scalar A (R108). -/
theorem any_onceMask (a : BitVec 8) (act : LaneMask) (q : Nat → Bool) :
    ((List.range 64).any fun l => (onceMask a act).getLsbD l && q l) = someLane a act q := by
  unfold someLane onceMask
  rw [Bool.eq_iff_iff, List.any_eq_true, List.any_eq_true]
  refine exists_congr fun l => and_congr_right fun hl => ?_
  cases isScalar a with
  | true => simp only [if_true, getLsbD_maskOf, List.mem_range.mp hl, decide_true, Bool.true_and]
  | false => rfl

theorem gsOf_onceMask {α : Type} (a : BitVec 8) (act : LaneMask) (r : Nat → Res α) :
    gsOf (onceMask a act) r = gsBits (someLane a act fun l => (r l).sat) (someLane a act fun l => (r l).inv) := by
  unfold gsOf
  rw [any_onceMask, any_onceMask]

/-- What an instruction does whose result goes to the destination that A selects and whose GS bits come after its latency (R29, R52). -/
theorem issued_of_putBits {s : State} {gd : BitVec 4} {f : Form} {i : Iss} (hp : prelude s gd f = .ok i) {α : Type} (p lat : Nat) (wide : Bool)
    (a : BitVec 8) (d : BitVec 6) (val : Nat → DWord) (r : Nat → Res α) :
    Issued s (finish s i ((putBits i.g p lat wide a d i.act val).orGsAt lat (gsOf (onceMask a i.act) r)) (some p)) i
      ((intDest (regsOf i.g) (if wide then 64 else 32) a d i.act val).orGsAt lat
        (gsBits (someLane a i.act fun l => (r l).sat) (someLane a i.act fun l => (r l).inv)))
      (latchBy (latch i.g) p a i.act val) (onward i) := by
  rw [gsOf_onceMask]
  refine issued_of_finish hp ((effect_putBits ..).trans (effect_orGsAt ..)) (regsAre_orGsAt (regsAre_putBits ..) ..) fun n l hl => ?_
  rw [latch_orGsAt]
  exact latch_putBits _ _ _ _ _ _ _ _ _ _ hl

theorem exec_sfu_of_ok {s : State} {g : BitVec 4} {d : BitVec 6} {a : BitVec 8} {c : BitVec 6} {i : Iss}
    (hp : prelude s g (Safety.sfuForm a d) = .ok i) :
    let r (l : Nat) : Res Nat := sfuEval c.toNat (hintsNow s).arith.rm (src32 s i.g litFp a l).toNat
    exec (.sfu g d a c) s = .next (finish s i
      ((putBits i.g 2 6 false a d i.act fun l => fitted 32 true (r l).val).orGsAt 6 (gsOf (onceMask a i.act) r)) (some 2)) := by
  have hp' : prelude s g (sfuForm a d) = .ok i := hp
  show execSfu g d a c s = _
  simp only [execSfu, hp', putF_eq_putBits]

theorem exec_cvt_of_ok {s : State} {g : BitVec 4} {d : BitVec 6} {a : BitVec 8} {c : BitVec 6} {i : Iss}
    (hp : prelude s g (Safety.cvtForm c.toNat a d) = .ok i) :
    let r (l : Nat) : Res Nat := cvtEval c.toNat (hintsNow s).arith.rm (if isScalar a then 64 else 32) (cvtSource s i.g c.toNat a l)
    exec (.cvt g d a c) s = .next (finish s i
      ((putBits i.g 1 4 (cvtDstWide c.toNat) a d i.act fun l => BitVec.ofNat 64 (r l).val).orGsAt 4 (gsOf (onceMask a i.act) r)) (some 1)) := by
  have hp' : prelude s g (cvtForm c.toNat a d) = .ok i := hp
  have hv (x : Nat) : (BitVec.ofNat 64 x).setWidth 32 = BitVec.ofNat 32 x := BitVec.setWidth_ofNat_of_le (by omega) x
  show execCvt g d a c s = _
  simp only [execCvt, hp', putBits, hv]

/-- Settles O12: each instruction's result is written by `putBits`, and `issued_of_putBits` says what that issue does. -/
theorem specialFunctionsAndConversions : Obligations.SpecialFunctionsAndConversions := by
  unfold Obligations.SpecialFunctionsAndConversions
  intro s g d a c i
  refine ⟨fun hp => ⟨_, exec_sfu_of_ok hp, ?_⟩, fun hp => ⟨_, exec_cvt_of_ok hp, ?_⟩⟩
  · exact issued_of_putBits hp 2 6 false a d _ _
  · exact issued_of_putBits hp 1 4 (cvtDstWide c.toNat) a d _ _

end Sys2Proof.Machine
end

section
/-! The integer instructions (spec/06 R111 to R127, conversions apart): an exact result counts modulo 2^n only, and one law says what an
instruction does that writes such a result. -/

namespace Sys2Proof.Machine

open Safety

/-! Exact results as bits of width n (R112). -/

theorem emod_two_pow_congr {n : Nat} {t u : Int} (c : Int) (h : t = u + 2 ^ n * c) : t % 2 ^ n = u % 2 ^ n := by
  rw [h, Int.add_mul_emod_self_left]

/-- What a register takes of an exact integer depends on it modulo 2^n only. -/
theorem fitted_congr {n : Nat} {nat : Bool} {t u : Int} (h : t % 2 ^ n = u % 2 ^ n) : fitted n nat t = fitted n nat u := by
  have e : BitVec.ofInt n t = BitVec.ofInt n u := by
    apply BitVec.eq_of_toNat_eq
    rw [BitVec.toNat_ofInt, BitVec.toNat_ofInt]
    have h' : t % ((2 ^ n : Nat) : Int) = u % ((2 ^ n : Nat) : Int) := by exact_mod_cast h
    rw [h']
  unfold fitted
  rw [e]

theorem fitted_emod (n : Nat) (nat : Bool) (t : Int) : fitted n nat (t % 2 ^ n) = fitted n nat t := fitted_congr (Int.emod_emod _ _)

/-- Both readings of a bit pattern agree with it modulo 2^n (R112). -/
theorem readAs_emod (x n : Nat) (nat : Bool) : readAs x n nat % 2 ^ n = (x : Int) % 2 ^ n := by
  have hx : ((x % 2 ^ n : Nat) : Int) % 2 ^ n = (x : Int) % 2 ^ n := by
    push_cast
    exact Int.emod_emod _ _
  unfold readAs
  simp only
  split
  · exact hx
  · exact (emod_two_pow_congr (-1) (by rw [Int.mul_neg, Int.mul_one]; rfl)).trans hx

theorem fitted_readAs (x n : Nat) (nat nat' : Bool) : fitted n nat (readAs x n nat') = fitted n nat x := fitted_congr (readAs_emod x n nat')

theorem readAs_true {x n : Nat} (h : x < 2 ^ n) : readAs x n true = x := by
  simp [readAs, Nat.mod_eq_of_lt h]

/-- A natural of width n extended with zeros, bit by bit. -/
theorem fitted_natCast {n : Nat} (x : Nat) : fitted n true x = maskOf fun k => decide (k < n) && x.testBit k := by
  apply BitVec.eq_of_getLsbD_eq
  intro k hk
  rw [getLsbD_maskOf]
  simp [fitted, hk, BitVec.getLsbD_ofNat]

theorem fitted_natCast_of_lt {n x : Nat} (h : x < 2 ^ n) : fitted n true x = BitVec.ofNat 64 x := by
  apply BitVec.eq_of_toNat_eq
  simp [fitted, Nat.mod_eq_of_lt h]

theorem intMin_le_intMax (n : Nat) (nat : Bool) : intMin n nat ≤ intMax n nat := by
  have h1 : (0 : Int) < 2 ^ n := Int.pow_pos (by decide)
  have h2 : (0 : Int) < 2 ^ (n - 1) := Int.pow_pos (by decide)
  cases nat
  · simp only [intMin, intMax, Bool.false_eq_true, if_false]; omega
  · simp only [intMin, intMax, if_true]; omega

/-- The value that a type of width n takes of an exact integer: the nearest bound under SATURATE, else what is left modulo 2^n (R114). -/
theorem fitted_intInto (t : Int) (n : Nat) (nat sat : Bool) :
    fitted n nat (intInto t n nat sat).val = fitted n nat (if sat then max (intMin n nat) (min (intMax n nat) t) else t) := by
  have hb := intMin_le_intMax n nat
  cases sat with
  | false => exact fitted_emod n nat t
  | true =>
    congr 1
    simp only [intInto, if_true]
    split
    · simp only; omega
    · split
      · simp only; omega
      · simp only; omega

theorem intInto_sat (t : Int) (n : Nat) (nat sat : Bool) :
    (intInto t n nat sat).sat = (sat && (decide (t < intMin n nat) || decide (intMax n nat < t))) := by
  cases sat with
  | false => rfl
  | true =>
    simp only [intInto, if_true, Bool.true_and, gt_iff_lt]
    split
    · simp_all
    · split <;> simp_all

theorem intInto_inv (t : Int) (n : Nat) (nat sat : Bool) : (intInto t n nat sat).inv = false := by
  unfold intInto
  repeat' split
  all_goals rfl

/-- ANDN on bits (R117). -/
theorem testBit_andNot (x y k : Nat) : (x ^^^ (x &&& y)).testBit k = (x.testBit k && !y.testBit k) := by
  rw [Nat.testBit_xor, Nat.testBit_and]
  cases x.testBit k <;> simp

theorem opA_lt (s : State) (g : Group) (n : Nat) (a : BitVec 8) (l : Nat) : opA s g n a l < 2 ^ n := by
  unfold opA
  split
  · rename_i h; rw [beq_iff_eq] at h; subst h; exact (src64 s g a l).isLt
  · exact Nat.mod_lt _ (Nat.two_pow_pos n)

theorem opB_lt (s : State) (g : Group) (n : Nat) (b : BitVec 8) (l : Nat) : opB s g n b l < 2 ^ n := by
  unfold opB
  split
  · rename_i h; rw [beq_iff_eq] at h; subst h; exact (srcB64 s g b l).isLt
  · exact Nat.mod_lt _ (Nat.two_pow_pos n)

/-! What an instruction does whose exact result goes to the destination that A selects (R29, R63, R112). -/

theorem someLane_false (a : BitVec 8) (act : LaneMask) : someLane a act (fun _ => false) = false := by simp [someLane]

/-- GS bits of 0 set nothing. -/
theorem Group.orGsAt_zero (g : Group) (lat : Nat) : g.orGsAt lat 0 = g := rfl

theorem Regs.orGsAt_zero (r : Regs) (lat : Nat) : r.orGsAt lat 0 = r := by simp [Regs.orGsAt]

theorem gsBits_false : gsBits false false = 0 := rfl

/-- An exact result goes to the destination that A selects, and GS bits come after the latency (R52, R112). -/
theorem issued_of_putInt_gs {s : State} {gd : BitVec 4} {f : Form} {i : Iss} (hp : prelude s gd f = .ok i) (lat : Nat) (m : MdA)
    (nat : Bool) (a : BitVec 8) (d : BitVec 6) (act : LaneMask) (val : Nat → Int) (bits : DWord) :
    let n := widthOf m a
    Issued s (finish s i ((putInt i.g lat n nat a d act val).orGsAt lat bits) (some 0)) i
      ((intDest (regsOf i.g) n a d act fun l => fitted n nat (val l)).orGsAt lat bits)
      (latchBy (latch i.g) 0 a act fun l => fitted n nat (val l)) (onward i) := by
  obtain ⟨hn, hw⟩ := widthOf_ok m a
  refine issued_of_finish hp ((effect_putInt ..).trans (effect_orGsAt ..)) (regsAre_orGsAt (regsAre_putInt _ _ _ _ _ _ _ _ hn hw) ..)
    fun k l hl => ?_
  rw [latch_orGsAt]
  exact latch_putInt _ _ _ _ _ _ _ _ hn hw k l hl

/-- An exact result goes to the destination that A selects, and no GS bit is set (R112). -/
theorem issued_of_putInt {s : State} {gd : BitVec 4} {f : Form} {i : Iss} (hp : prelude s gd f = .ok i) (lat : Nat) (m : MdA)
    (nat : Bool) (a : BitVec 8) (d : BitVec 6) (act : LaneMask) (val : Nat → Int) :
    let n := widthOf m a
    Issued s (finish s i (putInt i.g lat n nat a d act val) (some 0)) i (intDest (regsOf i.g) n a d act fun l => fitted n nat (val l))
      (latchBy (latch i.g) 0 a act fun l => fitted n nat (val l)) (onward i) := by
  simpa only [Group.orGsAt_zero, Regs.orGsAt_zero] using issued_of_putInt_gs hp lat m nat a d act val 0

/-- What an R-form integer instruction does that passes its checks (R111 to R114). -/
theorem issued_of_runInt {s : State} {gd : BitVec 4} {d : BitVec 6} {a b : BitVec 8} {i : Iss} (o : IntOp) :
    let m := (hintsNow s).arith
    let n := widthOf m a
    prelude s gd (intForm o.types o.nOk o.satOk a b d (n == 64) o.dRead) = .ok i →
    let r (l : Nat) : Res Int := o.f n m.n m.sat (opA s i.g n a l) (opB s i.g n b l) (if o.dRead then opD s i.g 0 n a d l else 0)
    let v (l : Nat) : DWord := fitted n (o.zext m.n) (r l).val
    Issued s (runInt o gd d a b s) i ((intDest (regsOf i.g) n a d i.act v).orGsAt o.lat
      (gsBits (someLane a i.act fun l => (r l).sat) (someLane a i.act fun l => (r l).inv))) (latchBy (latch i.g) 0 a i.act v) (onward i) := by
  intro m n hp r v
  have e : runInt o gd d a b s =
      finish s i ((putInt i.g o.lat n (o.zext m.n) a d i.act fun l => (r l).val).orGsAt o.lat (gsOf (onceMask a i.act) r)) (some 0) := by
    simp only [runInt, m, n, hp]
    rfl
  rw [e, gsOf_onceMask]
  exact issued_of_putInt_gs hp o.lat m _ a d i.act _ _

theorem arithOp_zext (lat : Nat) (dRead : Bool) (f : Int → Int → Int → Int) (nat : Bool) : (arithOp lat dRead f).zext nat = nat := rfl

/-- An operation that does not read D is the same at any D (R114). -/
theorem arithOp_f (lat : Nat) {dRead : Bool} {f : Int → Int → Int → Int} (hf : dRead = false → ∀ x y z w, f x y z = f x y w) (n : Nat)
    (nat sat : Bool) (x y z : Nat) : (arithOp lat dRead f).f n nat sat x y (if (arithOp lat dRead f).dRead then z else 0) =
      intInto (f (readAs x n nat) (readAs y n nat) (readAs z n nat)) n nat sat := by
  cases dRead with
  | false => exact congrArg (intInto · n nat sat) (hf rfl _ _ _ _)
  | true => rfl

/-- IADD, ISUB, IMUL and IMAD, for any function of the operands, which reads the old D only where the instruction does (R114). -/
theorem issued_of_arithOp {s : State} {g : BitVec 4} {d : BitVec 6} {a b : BitVec 8} {i : Iss} (lat : Nat) (dRead : Bool)
    (f : Int → Int → Int → Int) (hf : dRead = false → ∀ x y z w, f x y z = f x y w) :
    let m := (hintsNow s).arith
    let n := widthOf m a
    prelude s g (intForm tyArith true true a b d (n == 64) dRead) = .ok i →
    let e (l : Nat) : Int := f (readAs (opA s i.g n a l) n m.n) (readAs (opB s i.g n b l) n m.n) (readAs (opD s i.g 0 n a d l) n m.n)
    let v (l : Nat) : DWord := fitted n m.n (if m.sat then max (intMin n m.n) (min (intMax n m.n) (e l)) else e l)
    let out (l : Nat) : Bool := m.sat && (decide (e l < intMin n m.n) || decide (intMax n m.n < e l))
    Issued s (runInt (arithOp lat dRead f) g d a b s) i
      ((intDest (regsOf i.g) n a d i.act v).orGsAt lat (gsBits (someLane a i.act out) false)) (latchBy (latch i.g) 0 a i.act v) (onward i) := by
  intro m n hp e v out
  have h := issued_of_runInt (arithOp lat dRead f) hp
  simp only [arithOp_f lat hf, arithOp_zext, fitted_intInto, intInto_sat, intInto_inv, someLane_false] at h
  exact h

/-- The products' upper halves and the extrema, for any function of the operands' readings (R115, R116). -/
theorem issued_of_plainOp {s : State} {g : BitVec 4} {d : BitVec 6} {a b : BitVec 8} {i : Iss} (lat : Nat) (nat : Bool)
    (f : Nat → Int → Int → Int) :
    let n := widthOf (hintsNow s).arith a
    prelude s g (intForm tyPlain false false a b d (n == 64) false) = .ok i →
    let v (l : Nat) : DWord := fitted n nat (f n (readAs (opA s i.g n a l) n nat) (readAs (opB s i.g n b l) n nat))
    Issued s (runInt (plainOp lat nat f) g d a b s) i (intDest (regsOf i.g) n a d i.act v) (latchBy (latch i.g) 0 a i.act v) (onward i) := by
  intro n hp v
  have h := issued_of_runInt (plainOp lat nat f) hp
  simpa only [plainOp, someLane_false, gsBits_false, Regs.orGsAt_zero] using h

/-- The bitwise instructions, for any function that acts on each bit by itself (R117). -/
theorem issued_of_bitOp {s : State} {g : BitVec 4} {d : BitVec 6} {a b : BitVec 8} {i : Iss} (f : Nat → Nat → Nat) (c : Bool → Bool → Bool)
    (hf : ∀ x y k, (f x y).testBit k = c (x.testBit k) (y.testBit k)) :
    let n := widthOf (hintsNow s).arith a
    prelude s g (intForm tyPlain false false a b d (n == 64) false) = .ok i →
    let v (l : Nat) : DWord := maskOf fun k => decide (k < n) && c ((opA s i.g n a l).testBit k) ((opB s i.g n b l).testBit k)
    Issued s (runInt (bitOp f) g d a b s) i (intDest (regsOf i.g) n a d i.act v) (latchBy (latch i.g) 0 a i.act v) (onward i) := by
  intro n hp v
  have h := issued_of_runInt (bitOp f) hp
  simpa only [bitOp, someLane_false, gsBits_false, Regs.orGsAt_zero, fitted_natCast, hf] using h

/-- Settles O1: the four instructions are `arithOp` of their exact functions, of which only IMAD reads D. -/
theorem integerArithmeticWrapsOrSaturates : Obligations.IntegerArithmeticWrapsOrSaturates := by
  unfold Obligations.IntegerArithmeticWrapsOrSaturates
  intro s g d a b i o ho
  simp only [List.mem_cons, List.not_mem_nil, or_false] at ho
  rcases ho with rfl | rfl | rfl | rfl <;> intro m n hp e v out
  · exact ⟨_, rfl, issued_of_arithOp 2 false (fun x y _ => x + y) (fun _ _ _ _ _ => rfl) hp⟩
  · exact ⟨_, rfl, issued_of_arithOp 2 false (fun x y _ => x - y) (fun _ _ _ _ _ => rfl) hp⟩
  · exact ⟨_, rfl, issued_of_arithOp 4 false (fun x y _ => x * y) (fun _ _ _ _ _ => rfl) hp⟩
  · exact ⟨_, rfl, issued_of_arithOp 4 true (fun x y z => x * y + z) (fun h => nomatch h) hp⟩

/-- Settles O2: the six instructions are `plainOp` of their functions. -/
theorem upperProductsAndExtrema : Obligations.UpperProductsAndExtrema := by
  unfold Obligations.UpperProductsAndExtrema
  intro s g d a b i o ho
  simp only [List.mem_cons, List.not_mem_nil, or_false] at ho
  rcases ho with rfl | rfl | rfl | rfl | rfl | rfl <;> intro n hp v
  · exact ⟨_, rfl, issued_of_plainOp 4 false (fun n x y => x * y / 2 ^ n) hp⟩
  · exact ⟨_, rfl, issued_of_plainOp 4 true (fun n x y => x * y / 2 ^ n) hp⟩
  · exact ⟨_, rfl, issued_of_plainOp 2 false (fun _ x y => min x y) hp⟩
  · exact ⟨_, rfl, issued_of_plainOp 2 false (fun _ x y => max x y) hp⟩
  · exact ⟨_, rfl, issued_of_plainOp 2 true (fun _ x y => min x y) hp⟩
  · exact ⟨_, rfl, issued_of_plainOp 2 true (fun _ x y => max x y) hp⟩

/-- Settles O3: the four instructions are `bitOp` of functions that act bit by bit. -/
theorem bitwiseLogic : Obligations.BitwiseLogic := by
  unfold Obligations.BitwiseLogic
  intro s g d a b i o ho
  simp only [List.mem_cons, List.not_mem_nil, or_false] at ho
  rcases ho with rfl | rfl | rfl | rfl <;> intro n hp v
  · exact ⟨_, rfl, issued_of_bitOp (fun x y => x &&& y) _ Nat.testBit_and hp⟩
  · exact ⟨_, rfl, issued_of_bitOp (fun x y => x ||| y) _ Nat.testBit_or hp⟩
  · exact ⟨_, rfl, issued_of_bitOp (fun x y => x ^^^ y) _ Nat.testBit_xor hp⟩
  · exact ⟨_, rfl, issued_of_bitOp (fun x y => x ^^^ (x &&& y)) _ testBit_andNot hp⟩

end Sys2Proof.Machine
end

section
/-! Shifts, moves, immediates and predicates (spec/06 R118 to R123, R126, R127). -/

namespace Sys2Proof.Machine

open Safety

/-! Shifts: an amount of n or more shifts every bit out (R118). -/

theorem shl_emod (x n k : Nat) : ((Shift.shl.eval n x k : Nat) : Int) % 2 ^ n = ((x : Int) * 2 ^ k) % 2 ^ n := by
  simp only [Shift.eval]
  split
  · rename_i h
    have hd : 2 ^ n ∣ x * 2 ^ k := Nat.dvd_mul_left_of_dvd (Nat.pow_dvd_pow 2 h) x
    exact_mod_cast (Nat.mod_eq_zero_of_dvd hd).symm
  · push_cast
    exact Int.emod_emod _ _

theorem shr_eq {x n : Nat} (hx : x < 2 ^ n) (k : Nat) : ((Shift.shr.eval n x k : Nat) : Int) = x / 2 ^ k := by
  simp only [Shift.eval]
  split
  · rename_i h
    have : x / 2 ^ k = 0 := Nat.div_eq_of_lt (Nat.lt_of_lt_of_le hx (Nat.pow_le_pow_right (by omega) h))
    exact_mod_cast this.symm
  · push_cast
    rfl

/-- The signed reading of a pattern of width n goes by its highest bit (R112). -/
theorem readAs_false {x n : Nat} (hn : 0 < n) (hx : x < 2 ^ n) :
    readAs x n false = if x / 2 ^ (n - 1) % 2 = 1 then (x : Int) - 2 ^ n else x := by
  have h2 : 2 ^ n = 2 ^ (n - 1) * 2 := by rw [← Nat.pow_succ]; congr 1; omega
  have hd : x / 2 ^ (n - 1) < 2 := Nat.div_lt_of_lt_mul (by omega)
  have hlt : x < 2 ^ (n - 1) ↔ x / 2 ^ (n - 1) = 0 := (Nat.div_eq_zero_iff_lt (Nat.two_pow_pos _)).symm
  simp only [readAs, Nat.mod_eq_of_lt hx, Bool.false_or, decide_eq_true_eq, hlt]
  by_cases h0 : x / 2 ^ (n - 1) = 0
  · simp [h0]
  · have h1 : x / 2 ^ (n - 1) = 1 := Nat.le_antisymm (Nat.le_of_lt_succ hd) (Nat.pos_of_ne_zero h0)
    simp [h1]

/-- A negative number shifted right beyond its width is -1. -/
theorem neg_div_two_pow {x n k : Nat} (hx : x < 2 ^ n) (hk : n ≤ k) : ((x : Int) - 2 ^ n) / 2 ^ k = -1 := by
  have hp : (2 : Int) ^ n ≤ 2 ^ k := by exact_mod_cast Nat.pow_le_pow_right (by decide : 0 < 2) hk
  have hx' : (x : Int) < 2 ^ n := by exact_mod_cast hx
  rw [Int.ediv_eq_iff_of_pos (Int.pow_pos (by decide))]
  constructor <;> omega

theorem sar_emod {x n : Nat} (hn : 0 < n) (hx : x < 2 ^ n) (k : Nat) :
    ((Shift.sar.eval n x k : Nat) : Int) % 2 ^ n = (readAs x n false / 2 ^ k) % 2 ^ n := by
  have h1 : 1 ≤ 2 ^ n := Nat.one_le_two_pow
  rw [readAs_false hn hx]
  simp only [Shift.eval, beq_iff_eq]
  by_cases hneg : x / 2 ^ (n - 1) % 2 = 1
  · simp only [hneg, if_true]
    split
    · rename_i hk
      rw [neg_div_two_pow hx hk, Int.natCast_sub h1]
      exact emod_two_pow_congr 1 (by push_cast; omega)
    · rename_i hk
      have hle : 2 ^ (n - k) ≤ 2 ^ n := Nat.pow_le_pow_right (by omega) (by omega)
      have hs : (2 : Int) ^ n = 2 ^ (n - k) * 2 ^ k := by rw [← Int.pow_add, Nat.sub_add_cancel (by omega)]
      have hq : ((x : Int) - 2 ^ n) / 2 ^ k = x / 2 ^ k - 2 ^ (n - k) := by
        rw [hs, Int.sub_mul_ediv_right _ _ (Int.ne_of_gt (Int.pow_pos (by decide)))]
      rw [hq, Int.natCast_add, Int.natCast_sub hle]
      exact emod_two_pow_congr 1 (by push_cast; omega)
  · simp only [hneg, if_false]
    split
    · rename_i hk
      have hz : x / 2 ^ k = 0 := Nat.div_eq_of_lt (Nat.lt_of_lt_of_le hx (Nat.pow_le_pow_right (by omega) hk))
      have h0 : (x : Int) / 2 ^ k = 0 := by exact_mod_cast hz
      rw [h0]
      rfl
    · push_cast
      rfl

/-- What a shift writes: the reading of A, multiplied or divided by a power of two, at width n (R118). -/
theorem issued_of_runShift {s : State} {g : BitVec 4} {d : BitVec 6} {a b : BitVec 8} {i : Iss} (k : Shift) (nat : Bool) (f : Int → Nat → Int)
    (hk : (k != .sar) = nat)
    (hf : ∀ x n c, 0 < n → x < 2 ^ n → ((k.eval n x c : Nat) : Int) % 2 ^ n = f (readAs x n nat) c % 2 ^ n) :
    let n := widthOf (hintsNow s).arith a
    prelude s g (Safety.shiftForm n a b d) = .ok i →
    let v (l : Nat) : DWord := fitted n nat (f (readAs (opA s i.g n a l) n nat) (srcB32 s i.g litInt b l).toNat)
    Issued s (runShift k g d a b s) i (intDest (regsOf i.g) n a d i.act v) (latchBy (latch i.g) 0 a i.act v) (onward i) := by
  intro n hp v
  have hp' : prelude s g (shiftForm a b d n) = .ok i := hp
  have e : runShift k g d a b s = finish s i
      (putInt i.g 2 n nat a d i.act fun l => (k.eval n (opA s i.g n a l) (srcB32 s i.g litInt b l).toNat : Nat)) (some 0) := by
    simp only [runShift, n, hp', hk]
  have hv (l : Nat) : fitted n nat (k.eval n (opA s i.g n a l) (srcB32 s i.g litInt b l).toNat : Nat) = v l :=
    fitted_congr (hf _ n _ (widthOf_ok _ a).1 (opA_lt s i.g n a l))
  have h := issued_of_putInt hp 2 (hintsNow s).arith nat a d i.act
    fun l => (k.eval n (opA s i.g n a l) (srcB32 s i.g litInt b l).toNat : Nat)
  rw [e]
  exact funext hv ▸ h

/-- Settles O4: each shift multiplies or divides the reading of A, modulo 2^n. -/
theorem shiftsTakeUnmaskedAmounts : Obligations.ShiftsTakeUnmaskedAmounts := by
  unfold Obligations.ShiftsTakeUnmaskedAmounts
  intro s g d a b i o ho
  simp only [List.mem_cons, List.not_mem_nil, or_false] at ho
  rcases ho with rfl | rfl | rfl <;> intro n hp v
  · refine ⟨_, rfl, issued_of_runShift .shl true (fun x k => x * 2 ^ k) rfl (fun x n k _ hx => ?_) hp⟩
    rw [readAs_true hx]
    exact shl_emod x n k
  · refine ⟨_, rfl, issued_of_runShift .shr true (fun x k => x / 2 ^ k) rfl (fun x n k _ hx => ?_) hp⟩
    rw [readAs_true hx, shr_eq hx]
  · exact ⟨_, rfl, issued_of_runShift .sar false (fun x k => x / 2 ^ k) rfl (fun x n k hn hx => sar_emod hn hx k) hp⟩

/-! LEA, SEL and MOV (R119, R121, R122). -/

/-- LEA's scale by TYPE: 1 where the table names none (R119). -/
theorem leaScale_eq_lookup (ty : Nat) : leaScale ty = (([(0, 4), (tyI8, 1), (tyE4m3, 1), (tyE5m2, 1), (tyI16, 2), (tyF16, 2), (tyBf16, 2), (tyI32, 4),
    (tyF32, 4), (tyI64, 8)] : List (Nat × Nat)).lookup ty).getD 1 := by
  match ty with
  | 0 | 1 | 2 | 3 | 4 | 5 | 6 | 7 | 8 | 9 | 10 => rfl
  | _ + 11 => rfl

/-- LEA: a sum modulo 2^64, written as 64 bits (R119). -/
theorem issued_of_lea {s : State} {g : BitVec 4} {d : BitVec 6} {a b : BitVec 8} {i : Iss} (hp : prelude s g (Safety.leaForm a b d) = .ok i) :
    let m := (hintsNow s).arith
    let v (l : Nat) : DWord :=
      let x := srcB32 s i.g litInt b l
      src64 s i.g a l + (if m.n then x.setWidth 64 else x.signExtend 64) * BitVec.ofNat 64 (leaScale m.ty)
    ∃ t, exec (.lea g d a b) s = .next t ∧
      Issued s t i (intDest (regsOf i.g) 64 a d i.act v) (latchBy (latch i.g) 0 a i.act v) (onward i) := by
  intro m v
  have hp' : prelude s g (leaForm a b d) = .ok i := hp
  have e : exec (.lea g d a b) s = .next (finish s i (putBits i.g 0 2 true a d i.act v) (some 0)) := by
    show execLea g d a b s = _
    simp only [execLea, hp']
    rfl
  exact ⟨_, e, issued_of_finish hp (effect_putBits ..) (regsAre_putBits ..) fun n l hl => latch_putBits _ _ _ _ _ _ _ _ _ _ hl⟩

/-- SEL: every issuing lane takes A or B by the guard (R121). -/
theorem issued_of_sel {s : State} {g : BitVec 4} {d : BitVec 6} {a b : BitVec 8} {i : Iss} :
    let n := widthOf (hintsNow s).arith a
    prelude s g { intForm tyPlain false false a b d (n == 64) false with every := true } = .ok i →
    let v (l : Nat) : DWord :=
      fitted n false (if (if isScalar a then i.act != 0 else i.act.getLsbD l) then (opA s i.g n a l : Int) else opB s i.g n b l)
    ∃ t, exec (.sel g d a b) s = .next t ∧
      Issued s t i (intDest (regsOf i.g) n a d i.lanes v) (latchBy (latch i.g) 0 a i.lanes v) (onward i) := by
  intro n hp v
  let x (l : Nat) : Nat := if (if isScalar a then i.act != 0 else i.act.getLsbD l) then opA s i.g n a l else opB s i.g n b l
  have e : exec (.sel g d a b) s = .next (finish s i (putInt i.g 2 n false a d i.lanes fun l => readAs (x l) n false) (some 0)) := by
    show execSel g d a b s = _
    simp only [execSel, n, hp]
    rfl
  have hv (l : Nat) : fitted n false (readAs (x l) n false) = v l := by
    rw [fitted_readAs]
    exact congrArg _ (apply_ite _ _ _ _)
  have h := issued_of_putInt hp 2 (hintsNow s).arith false a d i.lanes fun l => readAs (x l) n false
  exact ⟨_, e, funext hv ▸ h⟩

/-- MOV: the active lanes take A at width n (R122). -/
theorem issued_of_mov {s : State} {g : BitVec 4} {d : BitVec 6} {a : BitVec 8} {i : Iss} :
    let n := widthOf (hintsNow s).arith a
    prelude s g (unaryForm n a d) = .ok i →
    let v (l : Nat) : DWord := fitted n false (opA s i.g n a l)
    ∃ t, exec (.mov g d a) s = .next t ∧ Issued s t i (intDest (regsOf i.g) n a d i.act v) (latchBy (latch i.g) 0 a i.act v) (onward i) := by
  intro n hp v
  have hp' : prelude s g (movForm a d n) = .ok i := hp
  have e : exec (.mov g d a) s = .next (finish s i (putInt i.g 2 n false a d i.act fun l => readAs (opA s i.g n a l) n false) (some 0)) := by
    show execMov g d a s = _
    simp only [execMov, n, hp']
  have hv (l : Nat) : fitted n false (readAs (opA s i.g n a l) n false) = v l := fitted_readAs ..
  have h := issued_of_putInt hp 2 (hintsNow s).arith false a d i.act fun l => readAs (opA s i.g n a l) n false
  exact ⟨_, e, funext hv ▸ h⟩

/-- Settles O5: SEL and MOV write a pattern's reading, which agrees with it at width n; LEA writes 64 bits, with its scale looked up by TYPE. -/
theorem addressesSelectsAndMoves : Obligations.AddressesSelectsAndMoves := by
  unfold Obligations.AddressesSelectsAndMoves
  intro s g d a b i m n
  refine ⟨fun hp => ?_, issued_of_sel, issued_of_mov⟩
  have h := issued_of_lea hp
  simp only [leaScale_eq_lookup] at h
  exact h

/-! The immediates (R123). -/

/-- What an instruction does that writes a scalar once, if the guard is met (R108). -/
theorem issued_of_putScalar {s : State} {gd : BitVec 4} {f : Form} {i : Iss} {pipe : Option Nat} (hp : prelude s gd f = .ok i) (lat : Nat)
    (d : BitVec 6) (x : DWord) : Issued s (finish s i (putScalar i.g lat d i.act x) pipe) i
      (if i.act = 0 then regsOf i.g else (regsOf i.g).setS d.toNat x) (latch i.g) (onward i) :=
  issued_of_finish hp (effect_putScalar ..) (regsAre_putScalar (regsAre_refl _) ..) fun _ _ _ => latch_putScalar ..

/-- What an instruction does that writes a predicate in the active lanes (R109). -/
theorem issued_of_putP {s : State} {gd : BitVec 4} {f : Form} {i : Iss} {pipe : Option Nat} (hp : prelude s gd f = .ok i) (lat d : Nat)
    (val : LaneMask) : Issued s (finish s i (putP i.g lat d i.act val) pipe) i ((regsOf i.g).setP d i.act val) (latch i.g) (onward i) :=
  issued_of_finish hp (effect_putP ..) (regsAre_putP (regsAre_refl _) ..) fun _ _ _ => latch_putP ..

/-- Settles O6: MOVIV writes its lanes and the latch as a result of pipe 0 does; MOVIS and ADDIS write a scalar once. -/
theorem immediatesReachTheirRegisters : Obligations.ImmediatesReachTheirRegisters := by
  unfold Obligations.ImmediatesReachTheirRegisters
  intro s g d imm i
  refine ⟨?_, fun hp => ⟨?_, ?_⟩⟩
  · intro hp x
    have e : exec (.moviv g d imm) s = .next (finish s i (putVec32 i.g 0 2 d i.act fun l => (x l).setWidth 32) (some 0)) := by
      show execMoviv g d imm s = _
      simp only [execMoviv, hp, x]
    exact ⟨_, e, issued_of_finish hp (effect_putVec32 ..) (regsAre_putVec32 (regsAre_refl _) ..) fun n l hl => latch_putVec32 _ _ _ _ _ _ _ _ hl⟩
  · have e : exec (.movis g d imm) s = .next (finish s i (putScalar i.g 2 d i.act (immI i.g.hints imm)) (some 0)) := by
      show execMovis g d imm s = _
      simp only [execMovis, hp]
    exact ⟨_, e, issued_of_putScalar hp ..⟩
  · have e : exec (.addis g d imm) s =
        .next (finish s i (putScalar i.g 2 d i.act (readS s i.g d.toNat + immI i.g.hints imm)) (some 0)) := by
      show execAddis g d imm s = _
      simp only [execAddis, hp]
    exact ⟨_, e, issued_of_putScalar hp ..⟩

/-! PLOG and VOTE (R126, R127). -/

/-- The predicate holds in every active lane. -/
theorem and_eq_right_iff (p act : LaneMask) : p &&& act = act ↔ ∀ l, l < 64 → act.getLsbD l = true → p.getLsbD l = true := by
  constructor
  · intro h l _ ha
    have := congrArg (·.getLsbD l) h
    simp only [BitVec.getLsbD_and, ha, Bool.and_true] at this
    exact this
  · intro h
    apply BitVec.eq_of_getLsbD_eq
    intro l hl
    rw [BitVec.getLsbD_and]
    cases ha : act.getLsbD l with
    | false => exact Bool.and_false _
    | true => rw [h l hl ha]; rfl

/-- The predicate holds in no active lane. -/
theorem and_eq_zero_iff (p act : LaneMask) : p &&& act = 0 ↔ ∀ l, l < 64 → act.getLsbD l = true → p.getLsbD l = false := by
  constructor
  · intro h l _ ha
    have := congrArg (·.getLsbD l) h
    simpa [ha] using this
  · intro h
    apply BitVec.eq_of_getLsbD_eq
    intro l hl
    rw [BitVec.getLsbD_and]
    cases ha : act.getLsbD l with
    | false => simp
    | true => simp [h l hl ha]

/-- The verdict of VOTE, by its selector, on the active lanes where the predicate holds (R127). -/
def voted (sel : Nat) (act m : LaneMask) : Bool :=
  if sel = 0 then m == act else if sel = 1 then m != 0 else m == act || !(m != 0)

theorem exec_vote_of_ok {s : State} {g : BitVec 4} {d : BitVec 6} {a : BitVec 4} {sel : BitVec 6} {i : Iss}
    (hp : prelude s g { pipe := some 2 } = .ok i) :
    let m := readP s i.g a.toNat &&& i.act
    exec (.vote g d a sel) s = .next (if sel.toNat = 3 then finish s i (putScalar i.g 3 d i.act m) (some 2)
      else finish s i (putP i.g 3 d.toNat i.act (if voted sel.toNat i.act m then BitVec.allOnes 64 else 0)) (some 2)) := by
  intro m
  show execVote g d a sel s = _
  simp only [execVote, hp, beq_iff_eq, voted]
  split <;> rfl

theorem voted_all (p act : LaneMask) : voted 0 act (p &&& act) = true ↔ ∀ l, l < 64 → act.getLsbD l = true → p.getLsbD l = true :=
  beq_iff_eq.trans (and_eq_right_iff p act)

theorem voted_any (p act : LaneMask) : voted 1 act (p &&& act) = true ↔ ¬ ∀ l, l < 64 → act.getLsbD l = true → p.getLsbD l = false :=
  bne_iff_ne.trans (not_congr (and_eq_zero_iff p act))

theorem voted_same (p act : LaneMask) : voted 2 act (p &&& act) = true ↔
    (∀ l, l < 64 → act.getLsbD l = true → p.getLsbD l = true) ∨ ∀ l, l < 64 → act.getLsbD l = true → p.getLsbD l = false := by
  show (p &&& act == act || !(p &&& act != 0)) = true ↔ _
  rw [Bool.or_eq_true, beq_iff_eq, Bool.not_eq_true', bne_eq_false_iff_eq]
  exact or_congr (and_eq_right_iff p act) (and_eq_zero_iff p act)

/-- Settles O9: PLOG's mask is its truth table lane by lane, and VOTE's verdict on the active lanes that hold is `voted`. -/
theorem predicateLogicAndVotes : Obligations.PredicateLogicAndVotes := by
  unfold Obligations.PredicateLogicAndVotes
  intro s g i
  refine ⟨fun d u v t hp => ?_, fun d a sel hsel hp => ?_⟩
  · have e : exec (.plog g d u v t) s = .next (finish s i (putP i.g 2 d.toNat i.act (maskOf fun l =>
        t.getLsbD ((if (readP s i.g v.toNat).getLsbD l then 2 else 0) + if (readP s i.g u.toNat).getLsbD l then 1 else 0))) (some 0)) := by
      show execPlog g d u v t s = _
      simp only [execPlog, hp]
    exact ⟨_, e, issued_of_putP hp ..⟩
  · intro p every none_
    have e := exec_vote_of_ok (d := d) (a := a) (sel := sel) hp
    by_cases h3 : sel.toNat = 3
    · simp only [h3, if_true] at e
      exact ⟨_, _, e, issued_of_putScalar hp .., fun _ => rfl, fun h => absurd h3 (by omega)⟩
    · simp only [h3, if_false] at e
      refine ⟨_, _, e, issued_of_putP hp .., fun h => absurd h h3, fun _ => ⟨_, rfl, fun h0 => ?_, fun h1 => ?_, fun h2 => ?_⟩⟩
      · rw [h0]; exact voted_all p i.act
      · rw [h1]; exact voted_any p i.act
      · rw [h2]; exact voted_same p i.act

end Sys2Proof.Machine
end

section
/-! The functions of BITU (spec/06 R124), each as what it says of the bits of its operand. -/

namespace Sys2Proof.Machine

open Safety

/-- A bit as the model's functions read it. -/
theorem testBit_eq_beq (x k : Nat) : x.testBit k = (x / 2 ^ k % 2 == 1) := by
  rw [Nat.testBit_eq_decide_div_mod_eq]
  rfl

theorem popBits_eq (x n : Nat) : popBits x n = ((List.range n).filter fun k => x.testBit k).length := by
  induction n with
  | zero => rfl
  | succ n ih =>
    have hb := Nat.mod_two_eq_zero_or_one (x / 2 ^ n)
    rw [List.range_succ, List.filter_append, List.length_append, popBits, ih]
    rcases hb with h | h <;> simp [testBit_eq_beq, h]

/-- The numbers below n up to the first that fails: `c` of them, if they hold up to `c`, which fails where it is below n. -/
theorem length_takeWhile_range {p : Nat → Bool} {n c : Nat} (hc : c ≤ n) (hp : ∀ k, k < c → p k = true) (hs : c < n → p c = false) :
    ((List.range n).takeWhile p).length = c := by
  have hr : List.range n = List.range c ++ (List.range (n - c)).map (c + ·) := by
    rw [← List.range_add]
    congr 1
    omega
  have hrest : ((List.range (n - c)).map (c + ·)).takeWhile p = [] := by
    by_cases h : c < n
    · obtain ⟨k, hk⟩ : ∃ k, n - c = k + 1 := ⟨n - c - 1, by omega⟩
      rw [hk, List.range_succ_eq_map, List.map_cons, Nat.add_zero]
      exact List.takeWhile_cons_of_neg (by simp [hs h])
    · rw [Nat.sub_eq_zero_of_le (Nat.not_lt.mp h)]
      rfl
  rw [hr, List.takeWhile_append_of_pos (fun k hk => hp k (List.mem_range.mp hk)), hrest, List.append_nil, List.length_range]

theorem clz_eq {x n : Nat} (hx : x < 2 ^ n) :
    (if x == 0 then n else n - 1 - Nat.log2 x) = ((List.range n).takeWhile fun k => !x.testBit (n - 1 - k)).length := by
  symm
  by_cases h0 : x = 0
  · subst h0
    exact length_takeWhile_range (Nat.le_refl n) (fun k _ => by simp) (fun h => absurd h (Nat.lt_irrefl n))
  · have hl : Nat.log2 x < n := (Nat.log2_lt h0).mpr hx
    simp only [beq_iff_eq, h0, if_false]
    refine length_takeWhile_range (by omega) (fun k hk => ?_) (fun _ => ?_)
    · have : x < 2 ^ (n - 1 - k) := (Nat.log2_lt h0).mp (by omega)
      simp [Nat.testBit_lt_two_pow this]
    · rw [show n - 1 - (n - 1 - Nat.log2 x) = Nat.log2 x by omega, Nat.testBit_log2 h0]
      rfl

theorem ctz_eq (x n : Nat) : ctz x n = ((List.range n).takeWhile fun k => !x.testBit k).length := by
  symm
  unfold ctz
  simp only [← testBit_eq_beq]
  cases h : (List.range n).find? fun k => x.testBit k with
  | none =>
    rw [List.find?_range_eq_none] at h
    exact length_takeWhile_range (Nat.le_refl n) (fun k hk => by simpa using h k hk) (fun h => absurd h (Nat.lt_irrefl n))
  | some c =>
    rw [List.find?_range_eq_some] at h
    obtain ⟨hc, hm, hlow⟩ := h
    have hcn : c < n := List.mem_range.mp hm
    exact length_takeWhile_range (Nat.le_of_lt hcn) hlow (fun _ => by simp [hc])

/-- Digits of `w` bits put one below the other, as both reversals do. -/
theorem testBit_add_digit {m c w e : Nat} (hm : 2 ^ (e + w) ∣ m) (hc : c < 2 ^ w) (j : Nat) :
    (m + c * 2 ^ e).testBit j = if e ≤ j ∧ j < e + w then c.testBit (j - e) else m.testBit j := by
  obtain ⟨q, rfl⟩ := hm
  have hlt : c * 2 ^ e < 2 ^ (e + w) := by
    rw [Nat.pow_add, Nat.mul_comm]
    exact Nat.mul_lt_mul_of_pos_left hc (Nat.two_pow_pos e)
  rw [Nat.testBit_two_pow_mul_add _ hlt, Nat.testBit_two_pow_mul, Nat.testBit_mul_two_pow]
  by_cases h : j < e + w
  · by_cases he : e ≤ j <;> simp [h, he, Nat.not_le.mpr h]
  · have : e + w ≤ j := by omega
    simp [h, this]

theorem dvd_revBits (x n k : Nat) (hk : k ≤ n) : 2 ^ (n - k) ∣ revBits x n k := by
  induction k with
  | zero => exact Nat.dvd_zero _
  | succ k ih =>
    exact Nat.dvd_add (Nat.dvd_trans (Nat.pow_dvd_pow 2 (by omega)) (ih (by omega))) (Nat.dvd_mul_left_of_dvd (Nat.pow_dvd_pow 2 (by omega)) _)

/-- The lowest `k` bits, reversed at the top of a width n. -/
theorem testBit_revBits (x n k j : Nat) (hk : k ≤ n) (hj : j < n) :
    (revBits x n k).testBit j = (decide (n - k ≤ j) && x.testBit (n - 1 - j)) := by
  induction k with
  | zero => simp [revBits, Nat.not_le.mpr hj]
  | succ k ih =>
    have hd : 2 ^ (n - 1 - k + 1) ∣ revBits x n k := by
      rw [show n - 1 - k + 1 = n - k by omega]
      exact dvd_revBits x n k (by omega)
    rw [revBits, testBit_add_digit hd (show x / 2 ^ k % 2 < 2 ^ 1 from Nat.mod_lt _ (by omega))]
    by_cases h : j = n - 1 - k
    · subst h
      have hback : n - 1 - (n - 1 - k) = k := by omega
      have htop : n - (k + 1) ≤ n - 1 - k := by omega
      simp [hback, htop, testBit_eq_beq]
    · rw [if_neg (by omega), ih (by omega)]
      congr 1
      simp only [decide_eq_decide]
      omega

theorem dvd_revBytes (x n k : Nat) (hk : 8 * k ≤ n) : 2 ^ (n - 8 * k) ∣ revBytes x n k := by
  induction k with
  | zero => exact Nat.dvd_zero _
  | succ k ih =>
    exact Nat.dvd_add (Nat.dvd_trans (Nat.pow_dvd_pow 2 (by omega)) (ih (by omega))) (Nat.dvd_mul_left_of_dvd (Nat.pow_dvd_pow 2 (by omega)) _)

/-- The lowest `k` bytes, reversed at the top of a width n. -/
theorem testBit_revBytes (x n k j : Nat) (h8 : 8 ∣ n) (hk : 8 * k ≤ n) (hj : j < n) :
    (revBytes x n k).testBit j = (decide (n - 8 * k ≤ j) && x.testBit (n - 8 - 8 * (j / 8) + j % 8)) := by
  induction k with
  | zero => simp [revBytes, Nat.not_le.mpr hj]
  | succ k ih =>
    have hd : 2 ^ (n - 8 - 8 * k + 8) ∣ revBytes x n k := by
      rw [show n - 8 - 8 * k + 8 = n - 8 * k by omega]
      exact dvd_revBytes x n k (by omega)
    rw [revBytes, testBit_add_digit hd (show x / 2 ^ (8 * k) % 256 < 2 ^ 8 from Nat.mod_lt _ (by omega))]
    by_cases h : n - 8 - 8 * k ≤ j ∧ j < n - 8 - 8 * k + 8
    · have hpos : n - 8 - 8 * (j / 8) + j % 8 = j - (n - 8 - 8 * k) + 8 * k := by omega
      have hlow : j - (n - 8 - 8 * k) < 8 := by omega
      have hin : n - 8 * (k + 1) ≤ j := by omega
      rw [if_pos h, hpos, show (256 : Nat) = 2 ^ 8 from rfl, Nat.testBit_mod_two_pow, Nat.testBit_div_two_pow]
      simp [hlow, hin]
    · rw [if_neg h, ih (by omega)]
      congr 1
      simp only [decide_eq_decide]
      omega

theorem eight_dvd_widthOf (m : MdA) (a : BitVec 8) : 8 ∣ widthOf m a := by
  unfold widthOf
  repeat' split
  all_goals decide

/-- A result that has the bits of a mask below n. -/
theorem fitted_of_testBit {n y : Nat} {q : Nat → Bool} (h : ∀ k, k < n → y.testBit k = q k) :
    fitted n true y = maskOf fun k => decide (k < n) && q k := by
  rw [fitted_natCast]
  congr 1
  funext k
  by_cases hk : k < n
  · simp [hk, h k hk]
  · simp [hk]

/-- A count of bit positions below n fits in n bits. -/
theorem fitted_count {n c : Nat} (hc : c ≤ n) : fitted n true c = BitVec.ofNat 64 c := fitted_natCast_of_lt (Nat.lt_of_le_of_lt hc Nat.lt_two_pow_self)

/-- What BITU writes, by its selector, in terms of its operand's bits (R124). -/
def bituBits (sel n x : Nat) : DWord :=
  match sel with
  | 0 => BitVec.ofNat 64 ((List.range n).filter fun k => x.testBit k).length
  | 1 => BitVec.ofNat 64 ((List.range n).takeWhile fun k => !x.testBit (n - 1 - k)).length
  | 2 => BitVec.ofNat 64 ((List.range n).takeWhile fun k => !x.testBit k).length
  | 3 => maskOf fun k => decide (k < n) && x.testBit (n - 1 - k)
  | _ => maskOf fun k => decide (k < n) && x.testBit (n - 8 - 8 * (k / 8) + k % 8)

theorem fitted_bituEval {sel n x : Nat} (h8 : 8 ∣ n) (hx : x < 2 ^ n) (hs : sel ≤ 4) :
    fitted n true (bituEval sel n x : Nat) = bituBits sel n x := by
  have hw (p : Nat → Bool) : ((List.range n).takeWhile p).length ≤ n := by
    simpa using (List.takeWhile_sublist p (l := List.range n)).length_le
  match sel, hs with
  | 0, _ =>
    simp only [bituEval, popBits_eq]
    exact fitted_count (by simpa using List.length_filter_le (fun k => x.testBit k) (List.range n))
  | 1, _ =>
    simp only [bituEval, clz_eq hx]
    exact fitted_count (hw _)
  | 2, _ =>
    simp only [bituEval, ctz_eq]
    exact fitted_count (hw _)
  | 3, _ =>
    exact fitted_of_testBit fun k hk => by simp [bituEval, testBit_revBits x n n k (Nat.le_refl n) hk]
  | 4, _ =>
    refine fitted_of_testBit fun k hk => ?_
    have hn : n - 8 * (n / 8) = 0 := by omega
    simp [bituEval, testBit_revBytes x n (n / 8) k h8 (by omega) hk, hn]

theorem exec_bitu_of_ok {s : State} {g : BitVec 4} {d : BitVec 6} {a : BitVec 8} {sel : BitVec 6} {i : Iss} :
    let n := widthOf (hintsNow s).arith a
    prelude s g (unaryForm n a d) = .ok i → exec (.bitu g d a sel) s =
      .next (finish s i (putInt i.g 3 n true a d i.act fun l => (bituEval sel.toNat n (opA s i.g n a l) : Nat)) (some 0)) := by
  intro n hp
  have hp' : prelude s g (movForm a d n) = .ok i := hp
  show execBitu g d a sel s = _
  simp only [execBitu, n, hp']

/-- Settles O7: the result has the bits, or the count, that `fitted_bituEval` gives for each selector. -/
theorem bitUnaryFunctions : Obligations.BitUnaryFunctions := by
  unfold Obligations.BitUnaryFunctions
  intro s g d a sel i hs n hp v
  have hv (l : Nat) : fitted n true (bituEval sel.toNat n (opA s i.g n a l) : Nat) = v l :=
    fitted_bituEval (eight_dvd_widthOf _ a) (opA_lt s i.g n a l) hs
  have h := issued_of_putInt hp 3 (hintsNow s).arith true a d i.act fun l => (bituEval sel.toNat n (opA s i.g n a l) : Nat)
  exact ⟨_, exec_bitu_of_ok hp, funext hv ▸ h⟩

end Sys2Proof.Machine
end

section
/-! The floating-point instructions of two operands (spec/07 R131, R132, R134, R135): one law for a run of the model's `FpOp`, which both
families come down to. -/

namespace Sys2Proof.Machine

open Safety

/-- What a floating-point instruction of pipe 1 does that passes its checks (R128 to R131), for any function `q` that its own agrees with in
the mode of MOD, given the old D only where the instruction reads it. -/
theorem issued_of_runFp {s : State} {gd : BitVec 4} {d : BitVec 6} {a b : BitVec 8} {i : Iss} (o : FpOp) (q : Nat → Nat → Nat → Res Nat)
    (hq : ∀ x y z, o.f (hintsNow s).arith.rm x y (if o.dRead then z else 0) = q x y z)
    (hp : prelude s gd (Safety.fpForm o.types o.rm o.immOk o.dRead a b d) = .ok i) :
    let r (l : Nat) : Res Nat := q (src32 s i.g o.lit a l).toNat (srcB32 s i.g o.lit b l).toNat (oldD s i.g 1 a d l)
    let v (l : Nat) : DWord := fitted 32 true (r l).val
    Issued s (runFp o gd d a b s) i ((intDest (regsOf i.g) 32 a d i.act v).orGsAt o.lat
      (gsBits (someLane a i.act fun l => (r l).sat) (someLane a i.act fun l => (r l).inv))) (latchBy (latch i.g) 1 a i.act v) (onward i) := by
  intro r v
  have hp' : prelude s gd (fpForm o.types o.rm o.immOk o.dRead a b d) = .ok i := hp
  have e : runFp o gd d a b s =
      finish s i ((putBits i.g 1 o.lat false a d i.act v).orGsAt o.lat (gsOf (onceMask a i.act) r)) (some 1) := by
    simp only [runFp, hp', hq, putF_eq_putBits, v, r]
  rw [e]
  exact issued_of_putBits hp 1 o.lat false a d v r

/-- Settles O10: the six instructions are `fp32Op` of their functions, of which only FFMA reads D. -/
theorem fp32ArithmeticRoundsOnce : Obligations.Fp32ArithmeticRoundsOnce := by
  unfold Obligations.Fp32ArithmeticRoundsOnce
  intro s g d a b i o ho
  simp only [List.mem_cons, List.not_mem_nil, or_false] at ho
  rcases ho with rfl | rfl | rfl | rfl | rfl | rfl <;> intro hp r v
  · exact ⟨_, rfl, issued_of_runFp (fp32Op 4 true false fun m x y _ => f32.add m x y) _ (fun _ _ _ => rfl) hp⟩
  · exact ⟨_, rfl, issued_of_runFp (fp32Op 4 true false fun m x y _ => f32.sub m x y) _ (fun _ _ _ => rfl) hp⟩
  · exact ⟨_, rfl, issued_of_runFp (fp32Op 4 true false fun m x y _ => f32.mul m x y) _ (fun _ _ _ => rfl) hp⟩
  · exact ⟨_, rfl, issued_of_runFp (fp32Op 4 true true fun m x y z => f32.fma m x y z) _ (fun _ _ _ => rfl) hp⟩
  · exact ⟨_, rfl, issued_of_runFp (fp32Op 2 false false fun _ x y _ => f32.minmax false x y) _ (fun _ _ _ => rfl) hp⟩
  · exact ⟨_, rfl, issued_of_runFp (fp32Op 2 false false fun _ x y _ => f32.minmax true x y) _ (fun _ _ _ => rfl) hp⟩

/-- An operation on both halves of a word, low half first (R129, R134). -/
theorem packed2_eq_halves (op : Nat → Nat → Nat → Res Nat) (x y z : Nat) : packed2 op x y z =
    let lo := op (x % 65536) (y % 65536) (z % 65536)
    let hi := op (x / 65536 % 65536) (y / 65536 % 65536) (z / 65536 % 65536)
    { val := lo.val + 65536 * hi.val, sat := lo.sat || hi.sat, inv := lo.inv || hi.inv } := by
  have h0 (x : Nat) : elem x 0 = x % 65536 := by rw [elem, Nat.mul_zero, Nat.pow_zero, Nat.div_one]
  have h1 (x : Nat) : elem x 1 = x / 65536 % 65536 := by simp [elem]
  simp only [packed2, h0, h1]

/-- The format of a packed instruction, by TYPE (R128). -/
theorem packedFmt_eq_ite (ty : Nat) : packedFmt ty = if ty = tyF16 then f16 else bf16 := by simp only [packedFmt, beq_iff_eq]

/-- What a packed instruction does (R134, R135), for any function `q` that its own agrees with in the format that TYPE names. -/
theorem issued_of_packedOp {s : State} {g : BitVec 4} {d : BitVec 6} {a b : BitVec 8} {i : Iss} (lat : Nat) (dRead : Bool)
    (op : Fmt → Nat → Nat → Nat → Nat → Res Nat) (q : Nat → Nat → Nat → Res Nat) :
    let m := (hintsNow s).arith
    let f := if m.ty = tyF16 then f16 else bf16
    (∀ x y z, op f m.rm x y (if dRead then z else 0) = q x y z) →
    prelude s g (Safety.fpForm [0, tyBf16, tyF16] true false dRead a b d) = .ok i →
    let r (l : Nat) : Res Nat := q (src32 s i.g (litPacked f) a l).toNat (srcB32 s i.g (litPacked f) b l).toNat (oldD s i.g 1 a d l)
    let v (l : Nat) : DWord := fitted 32 true (r l).val
    Issued s (runFp (packedOp lat dRead s op) g d a b s) i ((intDest (regsOf i.g) 32 a d i.act v).orGsAt lat
      (gsBits (someLane a i.act fun l => (r l).sat) (someLane a i.act fun l => (r l).inv))) (latchBy (latch i.g) 1 a i.act v) (onward i) := by
  intro m f hq hp r v
  rw [packedOp, packedFmt_eq_ite]
  exact issued_of_runFp _ q hq hp

/-- Settles O11: three instructions are `packed2` of their functions, which works on both halves, and FDOT2 is the model's `fdot2`. -/
theorem packedFloatWorksOnBothHalves : Obligations.PackedFloatWorksOnBothHalves := by
  unfold Obligations.PackedFloatWorksOnBothHalves
  intro s g d a b i m f both o ho
  simp only [List.mem_cons, List.not_mem_nil, or_false] at ho
  rcases ho with rfl | rfl | rfl | rfl <;> intro hp r v
  · exact ⟨_, rfl, issued_of_packedOp 4 false (fun f m => packed2 fun x y _ => f.add m x y) _ (fun _ _ _ => packed2_eq_halves ..) hp⟩
  · exact ⟨_, rfl, issued_of_packedOp 4 false (fun f m => packed2 fun x y _ => f.mul m x y) _ (fun _ _ _ => packed2_eq_halves ..) hp⟩
  · exact ⟨_, rfl, issued_of_packedOp 4 true (fun f m => packed2 fun x y z => f.fma m x y z) _ (fun _ _ _ => packed2_eq_halves ..) hp⟩
  · exact ⟨_, rfl, issued_of_packedOp 5 true fdot2 _ (fun _ _ _ => rfl) hp⟩

end Sys2Proof.Machine
end

section
/-! The cross-lane instructions (spec/07 R138 to R141): their vector destination, whatever A is, and the source lane of SHFL. -/

namespace Sys2Proof.Machine

open Safety

/-- Write a vector destination, a pair where it is wide, from 64 bits per lane (R139, R140). -/
def putVec (g : Group) (p lat : Nat) (wide : Bool) (d : BitVec 6) (act : LaneMask) (val : Nat → DWord) : Group :=
  if wide then putVec64 g p lat d act val else putVec32 g p lat d act fun l => (val l).setWidth 32

/-- The registers after such a write: a pair, a vector register, or none where D names the latch alone (R63). -/
def vecDest (r : Regs) (wide : Bool) (d : BitVec 6) (act : LaneMask) (x : Nat → DWord) : Regs :=
  if wide then r.setW d.toNat act x else if 60 ≤ d.toNat then r else r.setV d.toNat act fun l => (x l).setWidth 32

theorem effect_putVec (g : Group) (p lat : Nat) (wide : Bool) (d : BitVec 6) (act : LaneMask) (val : Nat → DWord) :
    Effect g (putVec g p lat wide d act val) := by
  cases wide with
  | true => exact effect_putVec64 ..
  | false => exact effect_putVec32 ..

theorem regsAre_putVec {g : Group} {r : Regs} (h : RegsAre g r) (p lat : Nat) (wide : Bool) (d : BitVec 6) (act : LaneMask)
    (val : Nat → DWord) : RegsAre (putVec g p lat wide d act val) (vecDest r wide d act val) := by
  cases wide with
  | true => exact regsAre_putVec64 h ..
  | false => exact regsAre_putVec32 h ..

theorem latch_putVec (g : Group) (p lat : Nat) (wide : Bool) (d : BitVec 6) (act : LaneMask) (val : Nat → DWord) (n l : Nat) (hl : l < 64) :
    latch (putVec g p lat wide d act val) n l = latchTakes (latch g) p act val n l := by
  cases wide with
  | true => exact latch_putVec64 _ _ _ _ _ _ _ _ hl
  | false => exact latch_putVec32 _ _ _ _ _ _ _ _ hl

/-- Operand A as the cross-lane instructions deliver it, at either width. -/
theorem ofNat_opA_wide (s : State) (g : Group) (a : BitVec 8) (l : Nat) : BitVec.ofNat 64 (opA s g 64 a l) = src64 s g a l := by
  simp [opA]

theorem setWidth_opA_narrow (s : State) (g : Group) (a : BitVec 8) (l : Nat) :
    (BitVec.ofNat 64 (opA s g 32 a l)).setWidth 32 = src32 s g litInt a l := by
  rw [BitVec.setWidth_ofNat_of_le (by omega)]
  exact BitVec.eq_of_toNat_eq (by simpa [opA] using (src32 s g litInt a l).isLt)

/-- The lane that SHFL names in a mode, for the lane `l` and the effective operand `k` (R138). -/
def shflLane (sh l : Nat) (k : Int) : Int :=
  match sh with
  | 0 => k
  | 1 => l - k
  | 2 => l + k
  | _ => (l ^^^ k.toNat : Nat)

theorem shflSource_eq (sh l : Nat) (e : Int) : shflSource sh l e = (shflOperand e).map (shflLane sh l) := by
  unfold shflSource
  congr 1
  funext k
  match sh with
  | 0 | 1 | 2 | _ + 3 => rfl

/-- The effective operand: B itself, or 64 shifted right by a small negative B (R138). -/
theorem shflOperand_eq (e : Int) :
    shflOperand e = if -16 ≤ e then some (if 0 ≤ e then e else 64 / 2 ^ (-e).toNat) else none := by
  unfold shflOperand
  by_cases h0 : 0 ≤ e
  · have h16 : -16 ≤ e := by omega
    simp only [h0, h16, if_true]
  · simp only [h0, if_false]

/-- The source lane of SHFL, if there is one: a lane of the group, and active (R138, R139). -/
theorem shflFrom_eq (sh l : Nat) (e : Int) (act : LaneMask) : shflFrom sh l e act =
    let x := shflLane sh l (if 0 ≤ e then e else 64 / 2 ^ (-e).toNat)
    if -16 ≤ e ∧ 0 ≤ x ∧ x < 64 ∧ act.getLsbD x.toNat = true then some x.toNat else none := by
  unfold shflFrom
  rw [shflSource_eq, shflOperand_eq]
  by_cases h16 : -16 ≤ e
  · simp only [h16, if_true, Option.map_some, true_and, Bool.and_eq_true, decide_eq_true_eq, and_assoc]
  · simp only [h16, if_false, Option.map_none, false_and]

theorem exec_shfl_of_ok {s : State} {g : BitVec 4} {d : BitVec 6} {a b : BitVec 8} {i : Iss} {wide : Bool}
    (hw : ((hintsNow s).arith.ty == tyI64) = wide) (hp : prelude s g (Safety.shflForm wide a b d) = .ok i) :
    let source (l : Nat) : Option Nat := shflFrom (hintsNow s).arith.sh l (srcB32 s i.g litInt b l).toInt i.act
    let v (l : Nat) : DWord := BitVec.ofNat 64 (opA s i.g (if wide then 64 else 32) a ((source l).getD l))
    exec (.shfl g d a b) s = .next (finish s i
      (putP (putVec i.g 2 4 wide d i.act v) 4 11 i.act (maskOf fun l => (source l).isSome)) (some 2)) := by
  have hp' : prelude s g (shflForm wide a b d) = .ok i := hp
  intro source v
  show execShfl g d a b s = _
  simp only [execShfl, hw, hp']
  cases wide with
  | true => simp only [putVec, if_true, v, source, ofNat_opA_wide]
  | false => simp only [putVec, Bool.false_eq_true, if_false, v, source, setWidth_opA_narrow]

theorem exec_reds_of_ok {s : State} {g : BitVec 4} {d : BitVec 6} {a : BitVec 8} {sel : BitVec 6} {i : Iss} :
    let m := (hintsNow s).arith
    let wide := m.ty == tyI64
    let n := if wide then 64 else 32
    prelude s g (Safety.redsForm wide sel.toNat a d) = .ok i →
    let x := lanesOf fun l => if i.act.getLsbD l then some ({ val := opA s i.g n a l } : Res Nat) else none
    let r := (redsTree (redsOp sel.toNat n m.rm) x).getD { val := 0 }
    exec (.reds g d a sel) s =
      .next (finish s i ((putVec i.g 2 6 wide d i.act fun _ => BitVec.ofNat 64 r.val).orGsAt 6 (gsBits r.sat r.inv)) (some 2)) := by
  intro m wide n hp x r
  have hp' : prelude s g (redsForm sel.toNat wide a d) = .ok i := hp
  have hv (y : Nat) : (BitVec.ofNat 64 y).setWidth 32 = BitVec.ofNat 32 y := BitVec.setWidth_ofNat_of_le (by omega) y
  show execReds g d a sel s = _
  simp only [execReds, m, wide, hp', putVec, hv]
  rfl

/-- Settles O13: both write a vector destination by `putVec`; `shflFrom_eq` writes out the source lane, and REDS's tree is the model's. -/
theorem crossLaneDelivery : Obligations.CrossLaneDelivery := by
  unfold Obligations.CrossLaneDelivery
  intro s g d a i m wide n dest
  refine ⟨fun b hp => ?_, fun sel hp => ?_⟩
  · intro source v
    have hs (l : Nat) : shflFrom m.sh l (srcB32 s i.g litInt b l).toInt i.act = source l := shflFrom_eq ..
    have e := exec_shfl_of_ok rfl hp
    simp only [m, hs] at e
    exact ⟨_, e, issued_of_finish hp ((effect_putVec ..).trans (effect_putP ..)) (regsAre_putP (regsAre_putVec (regsAre_refl _) ..) ..)
      fun n l hl => latch_putVec _ _ _ _ _ _ _ _ _ hl⟩
  · refine ⟨_, exec_reds_of_ok hp, issued_of_finish hp ((effect_putVec ..).trans (effect_orGsAt ..))
      (regsAre_orGsAt (regsAre_putVec (regsAre_refl _) ..) ..) fun n l hl => ?_⟩
    rw [latch_orGsAt]
    exact latch_putVec _ _ _ _ _ _ _ _ _ hl

end Sys2Proof.Machine
end

section
/-! Matrix operations (spec/08 R145, R150 to R159): what the operation at the head of a unit's queue becomes as it runs. -/

namespace Sys2Proof.Machine

open Safety

/-- A matrix operation moves no dial. -/
theorem dialOf_runMtx (s : State) (team : Nat) (m : MtxOp) (die : Nat) : dialOf (runMtx s team m).1 die = dialOf s die := by
  unfold runMtx grantWrite
  split
  case h_4 | h_5 => split <;> rfl
  all_goals rfl

theorem dialOf_countUnit (s : State) (unit ev : Nat) (ws : List Nat) (n die : Nat) : dialOf (countUnit s unit ev ws n) die = dialOf s die := by
  rw [countUnit_only]; rfl

/-- The operation at the head of a unit's queue, once it has run: its ordering time has risen to the dial of its die (R235, R236). -/
theorem get?_ops_exec_arrayOperation {s : State} {core unit id : Nat} {rest : List Nat} {o : Op} {m : MtxOp}
    (hq : (arrOf s core unit).queue = id :: rest) (ho : Fm.get? s.ops id = some o) (hk : o.kind = .mtx m) (hr : m.ran = false) :
    ∃ t, exec (.arrayOperation core unit) s = .next t ∧
      Fm.get? t.ops id = some { o with time := max o.time (dialOf s o.die), kind := .mtx { m with ran := true, inv := (runMtx s o.team m).2 } } := by
  refine ⟨_, by show execArrayOperation core unit s = _; simp only [execArrayOperation, hq, ho, hk, hr, Bool.false_eq_true, if_false]; rfl, ?_⟩
  rw [Fm.get?_put_same, dialOf_countUnit, dialOf_runMtx]

/-- An MSWAP of array 0, accepted at dial 0. -/
def acceptedSwap : Op :=
  { group := none, world := 0, core := 0, die := 0
    kind := .mtx { fn := 1, ty := 3, sparse := false, core := 0, unit := 0, tile := 0, a := 0, b := 0, sigs := [], groups := [] } }

/-- One tick after reset, with that MSWAP at the head of its queue. -/
def swapAtOneTick : State := { State.reset with dial := 1, ops := [(7, acceptedSwap)], arrays := [(0, { queue := [7] })] }

/-- Refutes O38: it leaves the operation's ordering time as it was, but an operation that runs has performed its accesses to scratch, so
its time rises to the dial (R235, R236); of an MSWAP accepted at 0 and run at 1 it is 1. -/
theorem not_matrixOperationsRunAndComplete : ¬ Obligations.MatrixOperationsRunAndComplete := by
  unfold Obligations.MatrixOperationsRunAndComplete
  rintro ⟨run, -⟩
  obtain ⟨t, inv, he, hop, -⟩ := run swapAtOneTick 0 0 7 [] _ _ rfl rfl rfl rfl rfl rfl rfl rfl
  obtain ⟨u, he', hop'⟩ := get?_ops_exec_arrayOperation (s := swapAtOneTick) (core := 0) (unit := 0) (rest := []) rfl rfl rfl rfl
  obtain rfl : t = u := by simpa only [he, Host.Outcome.next.injEq] using he'
  have htime : some 0 = some 1 := congrArg (Option.map Op.time) (hop.symm.trans hop')
  exact absurd htime (by decide)

end Sys2Proof.Machine
end

section
/-! What an issue does that retires in a state other than the one it issued in, an accepted operation, and a group that must wait
(spec/02 R29, spec/04 R64, spec/17 R347). -/

namespace Sys2Proof.Machine

open Safety

theorem Fm.put_put {β : Type} (m : Fm β) (k : Nat) (v w : β) : Fm.put (Fm.put m k v) k w = Fm.put m k w := by
  induction m with
  | nil => simp [Fm.put]
  | cons e r ih =>
    obtain ⟨a, b⟩ := e
    by_cases h1 : k = a
    · simp [Fm.put, h1]
    · by_cases h2 : k < a
      · simp [Fm.put, h1, h2]
      · simp [Fm.put, h1, h2, ih]

/-- An instruction that raises nothing and moves on, where the state has changed outside its group and the group is now `k0` (R29). -/
theorem issuedAs_of_finish {s s1 : State} {gd : BitVec 4} {f : Form} {i : Iss} {k0 gr : Group} {pipe : Option Nat} {r : Regs}
    {b : Nat → Nat → Word} (hp : prelude s gd f = .ok i) (hs : s1.groups = s.groups) (hc : k0.chain = i.g.chain)
    (hl : k0.lanes = i.g.lanes) (he : Effect k0 gr) (hr : RegsAre gr r) (hb : ∀ n l, l < 64 → latch gr n l = b n l) :
    IssuedAs s1 (finish s1 i gr pipe) i k0 r b (onward i) := by
  obtain ⟨_, hi⟩ := issuable_of_prelude hp
  have hlane (l : Nat) : k0.lane l = i.g.lane l := by unfold Group.lane; rw [hl]
  exact issued_of_moves hi (by rw [hs]) hc (fun l => by rw [hlane]; exact ⟨rfl, rfl, rfl⟩) he (fun _ _ => .inl ⟨rfl, rfl⟩) (fun _ _ _ => rfl) hr hb

/-- What an issue does to its group and to the others depends on their groups alone. -/
theorem issuedAs_recast {s t s' t' : State} {i : Iss} {k : Group} {r : Regs} {b : Nat → Nat → Word} {nx : Nat → Pair}
    (h : IssuedAs s t i k r b nx) (ho : OnlyGroups s' t') (hp : t'.pmus = s'.pmus) (ht : TeamsKept s' t') (hs : s'.groups = s.groups)
    (hg : t'.groups = t.groups) : IssuedAs s' t' i k r b nx := by
  obtain ⟨-, -, -, hothers, hown⟩ := h
  refine ⟨ho, .inl hp, ht, ?_, ?_⟩
  · unfold OthersKept
    rw [hs, hg]
    exact hothers
  · rw [hg]
    exact hown

/-- A word that cannot be accepted now (R206, R347). -/
theorem stalled_of_stall {s : State} {gid : Nat} {g : Group} (h : Fm.get? s.groups gid = some g) : Stalled s (stall s gid) gid := by
  unfold stall holdOff
  simp only [h]
  refine ⟨⟨g, h, ?_, fun c hc hh => ?_⟩, fun k hk => ?_, rfl⟩
  · simp only [get?_modGroup, if_true, Fm.get?_put_same, Option.map_some]
  · simp only [modGroup_cycles, Fm.get?_mod, if_true, hc, Option.map_some, hh]
  · simp only [get?_modGroup, if_neg hk, Fm.get?_put_other _ _ hk]

/-! An accepted operation (R64, R206). -/

/-- The state that an accepted operation leaves: one operation more is in flight. -/
theorem startOp_state (s : State) (g : Group) (f : BitVec 4) (o : Op) :
    (startOp s g f o).1 = { s with
      ops := Fm.put s.ops s.nextOp { o with flag := if f.toNat = 15 then none else some f.toNat, since := dialOf s o.die }
      nextOp := s.nextOp + 1
      pmus := (startOp s g f o).1.pmus } := by
  simp only [startOp, newOp, dialOf_countUnit, beq_iff_eq]
  rw [countUnit_only]

@[simp] theorem countUnit_nextOp (s : State) (unit ev : Nat) (ws : List Nat) (n : Nat) : (countUnit s unit ev ws n).nextOp = s.nextOp := by
  rw [countUnit_only]

theorem startOp_id (s : State) (g : Group) (f : BitVec 4) (o : Op) : (startOp s g f o).2.2 = s.nextOp := by
  simp only [startOp, newOp, countUnit_nextOp]

/-- The group of an accepted operation is `flagged`, and its chain knows that its head waits (R64, R352). -/
theorem effect_startOp (s : State) (g : Group) (f : BitVec 4) (o : Op) : Effect (flagged g f s.nextOp) (startOp s g f o).2.1 := by
  simp only [startOp, newOp, countUnit_nextOp, flagged, beq_iff_eq]
  split
  · exact ⟨rfl, by simp only [Option.map_map]; rfl⟩
  · exact Effect.refl _

theorem flagged_chain (g : Group) (f : BitVec 4) (id : Nat) : (flagged g f id).chain = g.chain := by unfold flagged; split <;> rfl
theorem flagged_lanes (g : Group) (f : BitVec 4) (id : Nat) : (flagged g f id).lanes = g.lanes := by unfold flagged; split <;> rfl

end Sys2Proof.Machine
end

section
/-! Which groups a team has, and which of them have ended, as a convergence register counts them (spec/08 R148): no issue of an instruction
that raises nothing changes it. -/

namespace Sys2Proof.Machine

open Safety

/-- The groups in the order of the state, each with its team, its index in it, and whether it has ended. -/
def groupIds (s : State) : List (Nat × Nat × Nat × Bool) := s.groups.map fun e => (e.1, e.2.team, e.2.index, e.2.ended)

theorem groupIds_modGroup (s : State) (gid : Nat) (f : Group → Group)
    (h : ∀ g, Fm.get? s.groups gid = some g → (f g).team = g.team ∧ (f g).index = g.index ∧ (f g).ended = g.ended) :
    groupIds (s.modGroup gid f) = groupIds s := by
  unfold groupIds State.modGroup
  simp only
  generalize s.groups = gs at h
  induction gs with
  | nil => rfl
  | cons e r ih =>
    obtain ⟨a, g⟩ := e
    by_cases ha : gid = a
    · obtain ⟨ht, hx, he⟩ := h g (by simp [Fm.get?, ha])
      simp [Fm.mod, ha, ht, hx, he]
    · simp [Fm.mod, ha, ih fun g hg => h g (by simpa [Fm.get?, ha] using hg)]

theorem groupIds_modGroup_wakes (s : State) (gid : Nat) (f : Group → Group) (h : ∀ g, Wakes g (f g)) :
    groupIds (s.modGroup gid f) = groupIds s :=
  groupIds_modGroup s gid f fun g _ => by rw [(h g).rest]; exact ⟨rfl, rfl, rfl⟩

/-- A fold of steps that keep the groups keeps them. -/
theorem groupIds_foldl {α : Type} (f : State → α → State) (h : ∀ s a, groupIds (f s a) = groupIds s) (l : List α) (s : State) :
    groupIds (l.foldl f s) = groupIds s :=
  foldl_rel (fun s t => groupIds t = groupIds s) (fun _ => rfl) (fun a b => b.trans a) f h l s

theorem groupIds_barrierPhase (s : State) (t k : Nat) : groupIds (barrierPhase s t k) = groupIds s := by
  unfold barrierPhase
  split
  · rfl
  · simp only
    split
    · exact groupIds_foldl _ (fun s (e : Nat × Group) => groupIds_modGroup_wakes s e.1 _ fun g => (Wakes.releaseBarrier g k).trans (Wakes.urg _ 0)) _ s
    · rfl

theorem groupIds_barrierCheck (s : State) (t : Nat) : groupIds (barrierCheck s t) = groupIds s := by
  unfold barrierCheck
  split
  · rfl
  · exact groupIds_foldl _ (fun s (e : Nat × Barrier) => (groupIds_barrierPhase _ t e.1).trans (groupIds_barrierPhase s t e.1)) _ s

/-- After an issue that leaves a lane ISSUABLE or PARKED, no lane waits for ever, and what is left is the releases (R38, R169). -/
theorem afterLanes_of_busy {s : State} {gid l : Nat} {g : Group} (hg : Fm.get? s.groups gid = some g) (h : (g.lane l).busy) :
    afterLanes s gid = barrierCheck (s.modGroup gid reconvRelease) g.team := by
  have hw := ((Woken.modGroup s gid _ Wakes.reconvRelease).trans (Woken.barrierCheck _ g.team)).groups gid
  unfold afterLanes
  rw [hg] at hw ⊢
  simp only
  generalize barrierCheck (s.modGroup gid reconvRelease) g.team = u at hw
  cases hu : Fm.get? u.groups gid with
  | none => rw [hu] at hw; exact hw.elim
  | some k =>
    rw [hu] at hw
    have hk : Wakes g k := hw
    have hb : (k.lane l).busy := by rw [hk.stays l (Lane.busy_not_waiting h)]; exact h
    have ht : k.team = g.team := by rw [hk.rest]
    have hz : reconvTraps u gid = u := by simp [reconvTraps, hu, reconvStuck_false k l hb]
    rw [hz, ← ht, allWaiting_false u gid l k hu hb]
    rfl

theorem groupIds_takePipe (s : State) (core gid : Nat) (pipe : Option Nat) : groupIds (takePipe s core gid pipe) = groupIds s := by
  have hl (o : Nat) : groupIds (s.modGroup o Group.loseLatches) = groupIds s := groupIds_modGroup s o _ fun _ _ => ⟨rfl, rfl, rfl⟩
  unfold takePipe
  cases pipe with
  | none => rfl
  | some p =>
    simp only
    split
    · split
      · exact hl _
      · rfl
    · rfl

/-- An instruction that raises nothing and moves on (R29). -/
theorem groupIds_finish {s s1 : State} {gd : BitVec 4} {f : Form} {i : Iss} {k0 gr : Group} {pipe : Option Nat} (hp : prelude s gd f = .ok i)
    (hs : s1.groups = s.groups) (he : Effect k0 gr) (ht : k0.team = i.g.team) (hx : k0.index = i.g.index) (hn : k0.ended = i.g.ended)
    (hl : k0.lanes = i.g.lanes) : groupIds (finish s1 i gr pipe) = groupIds s := by
  obtain ⟨g, hi⟩ := issuable_of_prelude hp
  obtain ⟨k, hk, hke, -⟩ := retire_moves { s1 with freeCtr := s1.freeCtr + 1 } i gr (fun _ => .seq) pipe fun _ _ => .inl rfl
  have hgroups : (countedState { s1 with freeCtr := s1.freeCtr + 1 } i).groups = s.groups := by rw [countedState_only, hs]
  have hown : Fm.get? (takePipe (countedState { s1 with freeCtr := s1.freeCtr + 1 } i) i.g.core i.gid pipe).groups i.gid = some g := by
    rw [takePipe_own, hgroups]; exact hi.group
  obtain ⟨l, hl64, hll⟩ := exists_lane i.lanes hi.some_
  have hbusy : (k.lane l).busy := by
    refine .inl ?_
    have hst := (lane_of_issuing hi hll).2.1
    rw [hke]
    simp only [Group.lane, getElem?_lanesOf, if_pos hl64, Option.getD_some, if_pos hll, Fx.apply]
    rw [he.rest]
    simp only [hl]
    rw [hi.ig]
    exact hst
  unfold finish
  rw [hk, afterLanes_of_busy (g := k) (by rw [get?_modGroup, if_pos rfl, hown]; rfl) hbusy, groupIds_barrierCheck,
    groupIds_modGroup_wakes _ _ _ Wakes.reconvRelease, groupIds_modGroup, groupIds_takePipe]
  · unfold groupIds; rw [hgroups]
  · intro g' hg'
    obtain rfl : g = g' := by simpa [hown] using hg'
    rw [hke, he.rest]
    refine ⟨ht.trans ?_, hx.trans ?_, hn.trans ?_⟩ <;> rw [hi.ig]

end Sys2Proof.Machine
end

section
/-! Convergence registers and their rounds (spec/08 R147 to R160): a signature, the round that it completes or that still waits, the declaration
of a set. -/

namespace Sys2Proof.Machine

open Safety

/-! A convergence register. -/

/-- A convergence register of a team takes a value. -/
def putCv (s : State) (team cv : Nat) (v : Cv) : State := s.modTeam team fun y => { y with cvs := Fm.put y.cvs cv v }

theorem get?_teams_putCv {s : State} {team : Nat} {tm : Team} (cv : Nat) (v : Cv) (h : Fm.get? s.teams team = some tm) :
    Fm.get? (putCv s team cv v).teams team = some { tm with cvs := Fm.put tm.cvs cv v } := by
  unfold putCv
  rw [get?_modTeam, if_pos rfl, h, Option.map_some]

/-- Barriers apart, a team is as it was. -/
theorem team_of_teamsKept {s t : State} {k : Nat} {x : Team} (h : TeamsKept s t) (hx : Fm.get? s.teams k = some x) :
    ∃ bs, Fm.get? t.teams k = some { x with barriers := bs } := by
  have hk := h k
  rw [hx] at hk
  cases ht : Fm.get? t.teams k with
  | none => rw [ht] at hk; cases hk
  | some y =>
    rw [ht] at hk
    simp only [Option.map_some, Option.some.injEq] at hk
    refine ⟨y.barriers, congrArg some ?_⟩
    calc y = { ({ y with barriers := [] } : Team) with barriers := y.barriers } := rfl
      _ = { ({ x with barriers := [] } : Team) with barriers := y.barriers } := by rw [hk]

/-- A register written twice holds what was written last. -/
theorem teamsKept_putCv {s s1 t : State} {team cv : Nat} {v : Cv} (h : TeamsKept s1 t) (hs : s1.teams = (putCv s team cv v).teams) (w : Cv) :
    TeamsKept (putCv s team cv w) (putCv t team cv w) := by
  intro k
  have hk := h k
  rw [hs] at hk
  unfold putCv at hk ⊢
  simp only [get?_modTeam] at hk ⊢
  by_cases hkt : k = team
  · subst hkt
    simp only [if_true] at hk ⊢
    have := congrArg (Option.map fun y : Team => { y with cvs := Fm.put y.cvs cv w }) hk
    simpa only [Option.map_map, Function.comp_def, Fm.put_put] using this
  · simpa only [if_neg hkt] using hk

theorem getLsbD_groupBit (j n : Nat) : (BitVec.ofNat 128 (2 ^ j)).getLsbD n = (decide (n < 128) && decide (j = n)) := by
  rw [BitVec.getLsbD_ofNat, Nat.testBit_two_pow]

/-- The signature of one group is no other's. -/
theorem getLsbD_or_groupBit_of_ne {j n : Nat} (h : n ≠ j) (x : BitVec 128) : (x ||| BitVec.ofNat 128 (2 ^ j)).getLsbD n = x.getLsbD n := by
  rw [BitVec.getLsbD_or, getLsbD_groupBit, decide_eq_false h.symm, Bool.and_false, Bool.or_false]

/-- A round that a group of the declared set has neither signed nor ended does not issue (R148). -/
theorem cvCheck_of_waits {s : State} {team cv n : Nat} {tm : Team} {c : Cv} (ht : Fm.get? s.teams team = some tm)
    (hc : Fm.getD tm.cvs cv {} = c) (hn : n < 128) (hd : c.declared.getLsbD n = true) (hs : c.signed.getLsbD n = false)
    (he : ∀ e ∈ s.groups, e.2.team = team → e.2.index = n → e.2.ended = false) : cvCheck s team cv = s := by
  have hgone : ((s.groupsOf team).any fun e => e.2.index == n && e.2.ended) = false := by
    rw [List.any_eq_false]
    intro e hm
    obtain ⟨hmem, hteam⟩ := List.mem_filter.mp hm
    by_cases hx : e.2.index = n
    · simp [he e hmem (by simpa using hteam) hx]
    · simp [hx]
  have hall : ((List.range 128).all fun k => !c.declared.getLsbD k || c.signed.getLsbD k ||
      (s.groupsOf team).any fun e => e.2.index == k && e.2.ended) = false := by
    rw [List.all_eq_false]
    exact ⟨n, by simpa using hn, by simp [hd, hs, hgone]⟩
  unfold cvCheck
  simp only [ht, hc, hall, Bool.not_false, Bool.or_true, if_true]

/-- The operation that a round issues joins the queue of its unit (R151). -/
def issueRound (s : State) (o : Op) (unit : Nat) : State :=
  let x := newOp s o
  x.1.putArr o.core unit { arrOf x.1 o.core unit with queue := (arrOf x.1 o.core unit).queue ++ [x.2] }

/-- A round whose declared set is one group that has signed issues the recorded operation, and the register is empty again (R148, R151). -/
theorem cvCheck_of_complete {s : State} {team cv gid core : Nat} {tm : Team} {d : BitVec 128} {w : Word} {md : Option (BitVec 22)}
    {x : Nat × Nat × DWord × DWord} {m : MtxOp} (ht : Fm.get? s.teams team = some tm)
    (hc : Fm.getD tm.cvs cv {} = { declared := d, signed := d, record := some (w, md), sigs := [x] }) (hd : d ≠ 0)
    (hg : ((s.groupsOf team).filter fun e => d.getLsbD e.2.index).map (fun e => e.1) = [gid])
    (hh : ∀ n, d.getLsbD n = true → homeCore tm n = core)
    (hm : roundOp w md core (((Fm.get? tm.places core).map fun p => p.arrays).getD []) x.2.2.1 x.2.2.2 [x.2.1] [gid] = some m) :
    cvCheck s team cv = issueRound (putCv s team cv { declared := d })
      { group := none, team := team, world := tm.world, core := core, die := core / 48, kind := .mtx m } m.unit := by
  have hall : ((List.range 128).all fun k => !d.getLsbD k || d.getLsbD k ||
      (s.groupsOf team).any fun e => e.2.index == k && e.2.ended) = true := by
    rw [List.all_eq_true]
    intro k _
    cases d.getLsbD k <;> rfl
  have hd' : (d == 0) = false := by simpa using hd
  obtain ⟨e, he, rfl⟩ := List.map_eq_singleton_iff.mp hg
  have hmem : e ∈ (s.groupsOf team).filter fun e => d.getLsbD e.2.index := by rw [he]; exact List.mem_singleton.mpr rfl
  have hbit : d.getLsbD e.2.index = true := (List.mem_filter.mp hmem).2
  have hgs : ((s.modTeam team fun y => { y with cvs := Fm.put y.cvs cv { declared := d } }).groupsOf team) = s.groupsOf team := rfl
  unfold cvCheck
  simp only [ht, hc, hall, hd', hgs, he, Bool.or_self, Bool.not_true, Bool.false_eq_true, if_false, List.head?_cons, Option.map_some,
    Option.getD_some, hh _ hbit, List.map_cons, List.map_nil, hm]
  rfl

/-! A signature (R148 to R150, R153). -/

/-- What an MTX instruction brings to its register. -/
def caseSig (q : MtxCase) (f : BitVec 4) : MtxSig := { f := f, a := q.a, b := q.b, cls := q.cls, mask := q.mask }

/-- The operation in flight that is an MTX signature. -/
def signOp (i : Iss) (tm : Team) (cv : Nat) (cls : BitVec 7) : Op :=
  { group := some i.gid, team := i.g.team, world := tm.world, core := i.g.core, die := i.g.core / 48, pc := i.e.pc, word := i.g.word,
    lanes := i.act, cls := cls, kind := .sign cv }

/-- A register with an MTX signature of the issuing group, of operation `id`. -/
def Cv.signedBy (c : Cv) (i : Iss) (m : MtxSig) (id : Nat) : Cv :=
  { c with signed := c.signed ||| BitVec.ofNat 128 (2 ^ i.g.index), record := some (i.g.word &&& m.mask, i.g.hints.md),
           sigs := Fm.put c.sigs i.g.index (id, m.a, m.b) }

/-- The state in which an MTX signature retires. -/
def signedState (s : State) (i : Iss) (tm : Team) (cv : Nat) (m : MtxSig) (v : Cv) : State :=
  putCv (startOp s i.g m.f (signOp i tm cv m.cls)).1 i.g.team cv v

section

variable {s : State} {i : Iss} {tm : Team} {cv : Nat} {c : Cv} {checks : Desc → List SignBad} {pipe : Option Nat}
variable (ht : Fm.get? s.teams i.g.team = some tm) (hl : i.g.landed = false) (hcv : cv < tm.d.cvs) (hc : Fm.getD tm.cvs cv {} = c)

include ht hl hcv hc

/-- A group that has signed waits to sign again (R148). -/
theorem runSign_of_signed {mtx : Option MtxSig} (hs : c.signed.getLsbD i.g.index = true) :
    runSign s i cv checks mtx pipe = stall s i.gid := by
  unfold runSign
  simp only [ht, hl, Nat.not_le.mpr hcv, decide_false, Bool.or_self, Bool.false_eq_true, if_false, hc, hs, if_true]

/-- An MTX instruction signs, and the round is checked (R148 to R150). -/
theorem runSign_mtx {m : MtxSig} (hf : flagFull i.g m.f = false) (hk : checks tm.d = []) (hd : c.declared.getLsbD i.g.index = true)
    (hs : c.signed.getLsbD i.g.index = false) (hr : c.record = none ∨ c.record = some (i.g.word &&& m.mask, i.g.hints.md)) :
    runSign s i cv checks (some m) pipe =
      cvCheck (finish (signedState s i tm cv m (c.signedBy i m s.nextOp)) i (startOp s i.g m.f (signOp i tm cv m.cls)).2.1 pipe) i.g.team cv := by
  have hid := startOp_id s i.g m.f (signOp i tm cv m.cls)
  unfold runSign
  rcases hr with h | h
  all_goals
    simp only [ht, hl, Nat.not_le.mpr hcv, decide_false, Bool.or_self, Bool.false_eq_true, if_false, hc, hs, hf, hk, hd, h, Bool.not_true,
      bne_self_eq_false, List.append_nil, leastBy]
    rw [← hid]
    rfl

/-- CSIGN signs, and the round is checked (R160). -/
theorem runSign_csign (hk : checks tm.d = []) (hd : c.declared.getLsbD i.g.index = true) (hs : c.signed.getLsbD i.g.index = false) :
    runSign s i cv checks none pipe =
      cvCheck (finish (putCv s i.g.team cv { c with signed := c.signed ||| BitVec.ofNat 128 (2 ^ i.g.index) }) i i.g pipe) i.g.team cv := by
  unfold runSign
  simp only [ht, hl, Nat.not_le.mpr hcv, decide_false, Bool.or_self, Bool.false_eq_true, if_false, hc, hs, hk, hd, Bool.not_true,
    List.append_nil, leastBy]
  rfl

end

/-! The MTX instructions as one (R152 to R159). -/

theorem runMtxInstr_of_ok {s : State} {g : BitVec 4} {cls : BitVec 7} {types : List Nat} {x2 : Bool} {c : BitVec 3} {f : BitVec 4} {i : Iss}
    (body : Iss → (Desc → List SignBad) × DWord × DWord) (hp : prelude s g (Safety.mtxForm types f) = .ok i) (ha : i.act ≠ 0) :
    runMtxInstr g cls types x2 c f body s = runSign s i c.toNat (body i).1
      (some { f := f, a := (body i).2.1, b := (body i).2.2, cls := cls, mask := if x2 then 0xFC3FFFF0 else 0xFC3FE070 }) (some 3) := by
  have hp' : prelude s g { md := if types.isEmpty then .none else .arith types false false false false, f := some f } = .ok i := hp
  unfold runMtxInstr
  simp only [hp', beq_iff_eq, ha, if_false]

section

variable {s : State} {i : Iss} {x : BitVec 1} {m : BitVec 2} {k : BitVec 4} {o p : BitVec 6} {c : BitVec 3} {q : MtxCase}
variable (hq : q ∈ mtxCases s i x m k o p c)

include hq

/-- Each MTX instruction that passes its issue checks signs with what it brings. -/
theorem exec_mtxCase {g f : BitVec 4} (hp : prelude s g (Safety.mtxForm q.types f) = .ok i) (ha : i.act ≠ 0) :
    exec (q.instr g f) s = .next (runSign s i c.toNat q.checks (some (caseSig q f)) (some 3)) := by
  simp only [mtxCases, List.mem_cons, List.not_mem_nil, or_false] at hq
  rcases hq with rfl | rfl | rfl | rfl | rfl | rfl | rfl
  · show execMloadw g x m o c f s = _
    unfold execMloadw
    simp only [beq_iff_eq]
    rw [runMtxInstr_of_ok _ hp ha]
    rfl
  · exact congrArg _ (runMtxInstr_of_ok _ hp ha)
  · show execMma g k m o c f s = _
    unfold execMma
    simp only [beq_iff_eq]
    rw [runMtxInstr_of_ok _ hp ha]
    rfl
  · exact congrArg _ (runMtxInstr_of_ok _ hp ha)
  · exact congrArg _ (runMtxInstr_of_ok _ hp ha)
  · exact congrArg _ (runMtxInstr_of_ok _ hp ha)
  · exact congrArg _ (runMtxInstr_of_ok _ hp ha)

/-- What a round issues that records the word of an MTX instruction (R149, R151). -/
theorem roundOp_mtxCase {w : Word} {core : Nat} {sigs groups : List Nat} (hw : Sys2Proof.decode w = .ok (q.instr 0 0)) :
    roundOp w i.g.hints.md core (reservedArrays s i) q.a q.b sigs groups =
      some { fn := q.fn, ty := mtxTy i.g.hints.arith.ty, sparse := q.sparse, core := core, unit := q.unit, tile := q.tile, a := q.a, b := q.b,
             sigs := sigs, groups := groups } := by
  have hty : ({ md := i.g.hints.md } : Hints).arith.ty = i.g.hints.arith.ty := rfl
  unfold roundOp
  simp only [mtxCases, List.mem_cons, List.not_mem_nil, or_false] at hq
  rcases hq with rfl | rfl | rfl | rfl | rfl | rfl | rfl <;> simp only [hw, hty]

end

/-! What a signature leaves before its round is checked, and the round that follows. -/

/-- The groups of some teams and indices are the same, in the same order, where the groups are. -/
theorem filter_fst_of_groupIds {s t : State} (h : groupIds t = groupIds s) (p : Nat → Nat → Bool) :
    (t.groups.filter fun e => p e.2.team e.2.index).map (fun e => e.1) = (s.groups.filter fun e => p e.2.team e.2.index).map fun e => e.1 := by
  have hids (u : State) : (u.groups.filter fun e => p e.2.team e.2.index).map (fun e => e.1) =
      ((groupIds u).filter fun x => p x.2.1 x.2.2.1).map fun x => x.1 := by
    unfold groupIds
    rw [List.filter_map, List.map_map]
    rfl
  rw [hids, hids, h]

theorem ended_of_groupIds {s t : State} (h : groupIds t = groupIds s) {team n : Nat}
    (he : ∀ e ∈ s.groups, e.2.team = team → e.2.index = n → e.2.ended = false) :
    ∀ e ∈ t.groups, e.2.team = team → e.2.index = n → e.2.ended = false := by
  intro e hm hteam hx
  have hids : (e.1, e.2.team, e.2.index, e.2.ended) ∈ groupIds s := by rw [← h]; exact List.mem_map_of_mem hm
  obtain ⟨e0, hm0, heq⟩ := List.mem_map.mp hids
  simp only [Prod.mk.injEq] at heq
  obtain ⟨-, ht0, hx0, hn0⟩ := heq
  exact hn0 ▸ he e0 hm0 (ht0.trans hteam) (hx0.trans hx)

/-- The state that an MTX signature leaves before its round is checked. -/
def afterSign (s : State) (i : Iss) (tm : Team) (cv : Nat) (m : MtxSig) (v : Cv) : State :=
  finish (signedState s i tm cv m v) i (startOp s i.g m.f (signOp i tm cv m.cls)).2.1 (some 3)

/-- No part of the state but groups, teams, operations, arrays, the pipes' last users and counters. -/
def OnlySignature (s t : State) : Prop :=
  t = { s with groups := t.groups, teams := t.teams, ops := t.ops, nextOp := t.nextOp, arrays := t.arrays, pipes := t.pipes,
               freeCtr := t.freeCtr, pmus := t.pmus }

theorem signedState_groups (s : State) (i : Iss) (tm : Team) (cv : Nat) (m : MtxSig) (v : Cv) :
    (signedState s i tm cv m v).groups = s.groups := by
  unfold signedState putCv
  rw [startOp_state]
  rfl

theorem signedState_teams (s : State) (i : Iss) (tm : Team) (cv : Nat) (m : MtxSig) (v : Cv) :
    (signedState s i tm cv m v).teams = (putCv s i.g.team cv v).teams := by
  unfold signedState putCv
  rw [startOp_state]
  rfl

theorem flagged_ids (g : Group) (f : BitVec 4) (id : Nat) :
    (flagged g f id).team = g.team ∧ (flagged g f id).index = g.index ∧ (flagged g f id).ended = g.ended := by
  unfold flagged; split <;> exact ⟨rfl, rfl, rfl⟩

section

variable {s : State} {gd : BitVec 4} {fm : Form} {i : Iss} (hp : prelude s gd fm = .ok i) (tm : Team) (cv : Nat) (m : MtxSig) (v : Cv)

include hp

/-- The group of an MTX signature moves on, with the signature in flight (R64, R150). -/
theorem issuedAs_afterSign : IssuedAs (signedState s i tm cv m v) (afterSign s i tm cv m v) i (flagged i.g m.f s.nextOp) (regsOf i.g)
    (latch i.g) (onward i) := by
  have hregs : RegsAre (startOp s i.g m.f (signOp i tm cv m.cls)).2.1 (regsOf i.g) := by
    unfold startOp
    simp only
    split <;> exact regsAre_of_eq rfl rfl rfl rfl rfl
  refine issuedAs_of_finish hp (signedState_groups ..) (flagged_chain ..) (flagged_lanes ..) (effect_startOp ..) hregs fun n l _ => ?_
  unfold startOp latch
  simp only
  split <;> rfl

theorem groupIds_afterSign : groupIds (afterSign s i tm cv m v) = groupIds s :=
  have ⟨ht, hx, hn⟩ := flagged_ids i.g m.f s.nextOp
  groupIds_finish hp (signedState_groups ..) (effect_startOp ..) ht hx hn (flagged_lanes ..)

theorem afterSign_only : afterSign s i tm cv m v = { s with
    groups := (afterSign s i tm cv m v).groups, teams := (afterSign s i tm cv m v).teams, pipes := (afterSign s i tm cv m v).pipes
    freeCtr := (afterSign s i tm cv m v).freeCtr, pmus := (afterSign s i tm cv m v).pmus
    ops := Fm.put s.ops s.nextOp
      { signOp i tm cv m.cls with flag := if m.f.toNat = 15 then none else some m.f.toNat, since := dialOf s (i.g.core / 48) }
    nextOp := s.nextOp + 1 } := by
  obtain ⟨honly, -⟩ := issuedAs_afterSign hp tm cv m v
  unfold OnlyGroups signedState putCv State.modTeam at honly
  rw [startOp_state] at honly
  exact honly

theorem afterSign_ops : (afterSign s i tm cv m v).ops = Fm.put s.ops s.nextOp
    { signOp i tm cv m.cls with flag := if m.f.toNat = 15 then none else some m.f.toNat, since := dialOf s (i.g.core / 48) } :=
  congrArg State.ops (afterSign_only hp tm cv m v)

theorem afterSign_nextOp : (afterSign s i tm cv m v).nextOp = s.nextOp + 1 := congrArg State.nextOp (afterSign_only hp tm cv m v)

theorem afterSign_arrays : (afterSign s i tm cv m v).arrays = s.arrays := by
  rw [afterSign_only hp tm cv m v]

theorem onlySignature_afterSign : OnlySignature s (afterSign s i tm cv m v) := by
  unfold OnlySignature
  rw [afterSign_ops hp, afterSign_nextOp hp, afterSign_arrays hp]
  exact afterSign_only hp tm cv m v

theorem teamsKept_afterSign : TeamsKept (putCv s i.g.team cv v) (afterSign s i tm cv m v) := by
  obtain ⟨-, -, hteams, -⟩ := issuedAs_afterSign hp tm cv m v
  unfold TeamsKept at hteams ⊢
  rw [signedState_teams] at hteams
  exact hteams

theorem team_afterSign (ht : Fm.get? s.teams i.g.team = some tm) :
    ∃ bs, Fm.get? (afterSign s i tm cv m v).teams i.g.team = some { tm with cvs := Fm.put tm.cvs cv v, barriers := bs } :=
  team_of_teamsKept (x := { tm with cvs := Fm.put tm.cvs cv v }) (teamsKept_afterSign hp tm cv m v) (get?_teams_putCv cv v ht)

end

/-- An operation whose signature is in flight. -/
theorem inFlight_sign {t : State} {id n : Nat} {i : Iss} {tm : Team} {cv : Nat} {f : BitVec 4} {cls : BitVec 7}
    (h : Fm.get? t.ops id = some { signOp i tm cv cls with flag := if f.toNat = 15 then none else some f.toNat, since := n }) :
    InFlight t id i f cls (.sign cv) :=
  ⟨_, h, rfl, rfl, rfl, rfl, rfl, rfl, rfl⟩

/-- The state before a signature with a value of its register, and with the operations, arrays and counters that the signature leaves. -/
def roundBase (s : State) (team cv : Nat) (t : State) (v : Cv) : State :=
  { putCv s team cv v with ops := t.ops, nextOp := t.nextOp, pmus := t.pmus, arrays := t.arrays }

theorem onlySignature_issueRound {s u : State} (h : OnlySignature s u) (team cv : Nat) (v : Cv) (o : Op) (unit : Nat) :
    OnlySignature s (issueRound (putCv u team cv v) o unit) := by
  have hround : issueRound (putCv u team cv v) o unit = { u with
    teams := (issueRound (putCv u team cv v) o unit).teams, ops := (issueRound (putCv u team cv v) o unit).ops
    nextOp := (issueRound (putCv u team cv v) o unit).nextOp, arrays := (issueRound (putCv u team cv v) o unit).arrays } := rfl
  unfold OnlySignature at h ⊢
  rw [hround, h]

/-- The group of an MTX signature moves on, whatever its round then does to teams, operations and arrays. -/
theorem issuedAs_roundBase {s t : State} {gd : BitVec 4} {fm : Form} {i : Iss} (hp : prelude s gd fm = .ok i) {tm : Team} {cv : Nat} {m : MtxSig}
    {v w : Cv} (ho : OnlySignature s t) (hg : t.groups = (afterSign s i tm cv m v).groups) (hk : TeamsKept (putCv s i.g.team cv w) t) :
    IssuedAs (roundBase s i.g.team cv t w) t i (flagged i.g m.f s.nextOp) (regsOf i.g) (latch i.g) (onward i) :=
  issuedAs_recast (issuedAs_afterSign hp tm cv m v) ho rfl hk (signedState_groups s i tm cv m v).symm hg

/-- The groups of a team that a set of one index names. -/
theorem groupsOf_filter_groupBit (s : State) (team : Nat) {j : Nat} (hj : j < 128) :
    ((s.groupsOf team).filter fun e => (BitVec.ofNat 128 (2 ^ j)).getLsbD e.2.index) =
      s.groups.filter fun e => e.2.team == team && e.2.index == j := by
  unfold State.groupsOf
  rw [List.filter_filter]
  refine List.filter_congr fun e _ => ?_
  rw [getLsbD_groupBit]
  by_cases hx : e.2.index = j
  · simp [hx, hj]
  · simp [hx, Ne.symm hx]

/-- A register that a set of one group has signed first. -/
theorem signedBy_empty {cv : Cv} {i : Iss} (hbit : cv.declared = BitVec.ofNat 128 (2 ^ i.g.index)) (hs : cv.signed = 0) (hsigs : cv.sigs = [])
    (m : MtxSig) (id : Nat) : cv.signedBy i m id =
      { declared := cv.declared, signed := cv.declared, record := some (i.g.word &&& m.mask, i.g.hints.md), sigs := [(i.g.index, id, m.a, m.b)] } := by
  simp [Cv.signedBy, hs, hsigs, hbit, Fm.put]

section

variable {s : State} {g f : BitVec 4} {x : BitVec 1} {m : BitVec 2} {k : BitVec 4} {o p : BitVec 6} {c : BitVec 3} {i : Iss} {tm : Team} {cv : Cv}
  {q : MtxCase}
variable (ht : Fm.get? s.teams i.g.team = some tm) (ha : i.act ≠ 0) (hl : i.g.landed = false) (hcv : c.toNat < tm.d.cvs)
  (hc : Fm.getD tm.cvs c.toNat {} = cv) (hq : q ∈ mtxCases s i x m k o p c) (hp : prelude s g (Safety.mtxForm q.types f) = .ok i)
  (hf : flagFull i.g f = false) (hk : q.checks tm.d = []) (hd : cv.declared.getLsbD i.g.index = true)
  (hs : cv.signed.getLsbD i.g.index = false) (hr : cv.record = none ∨ cv.record = some (i.g.word &&& q.mask, i.g.hints.md))

include ht ha hl hcv hc hq hp hf hk hd hs hr

theorem exec_mtxCase_signs : exec (q.instr g f) s =
    .next (cvCheck (afterSign s i tm c.toNat (caseSig q f) (cv.signedBy i (caseSig q f) s.nextOp)) i.g.team c.toNat) := by
  rw [exec_mtxCase hq hp ha, runSign_mtx ht hl hcv hc hf hk hd hs hr]
  rfl

/-- An MTX instruction signs, and its round waits for another group (R148 to R150). -/
theorem mtx_signs_and_waits {n : Nat} (hn : n < 128) (hni : n ≠ i.g.index) (hdn : cv.declared.getLsbD n = true) (hsn : cv.signed.getLsbD n = false)
    (he : ∀ e ∈ s.groups, e.2.team = i.g.team → e.2.index = n → e.2.ended = false) :
    ∃ t, exec (q.instr g f) s = .next t ∧ InFlight t s.nextOp i f q.cls (.sign c.toNat) ∧ t.arrays = s.arrays ∧
      IssuedAs (roundBase s i.g.team c.toNat t (cv.signedBy i (caseSig q f) s.nextOp)) t i (flagged i.g f s.nextOp) (regsOf i.g) (latch i.g)
        (onward i) := by
  let v := cv.signedBy i (caseSig q f) s.nextOp
  let t := afterSign s i tm c.toNat (caseSig q f) v
  obtain ⟨bs, htm⟩ := team_afterSign hp tm c.toNat (caseSig q f) v ht
  have hsigned : v.signed.getLsbD n = false := (getLsbD_or_groupBit_of_ne hni cv.signed).trans hsn
  have hwait : cvCheck t i.g.team c.toNat = t :=
    cvCheck_of_waits (c := v) htm (by rw [Fm.getD_put, if_pos rfl]) hn hdn hsigned (ended_of_groupIds (groupIds_afterSign hp ..) he)
  refine ⟨t, ?_, inFlight_sign ((congrArg (Fm.get? · s.nextOp) (afterSign_ops hp ..)).trans (Fm.get?_put_same ..)), afterSign_arrays hp .., ?_⟩
  · rw [exec_mtxCase_signs ht ha hl hcv hc hq hp hf hk hd hs hr, hwait]
  · exact issuedAs_roundBase hp (onlySignature_afterSign hp tm c.toNat (caseSig q f) v) rfl (teamsKept_afterSign hp tm c.toNat (caseSig q f) v)

/-- An MTX instruction signs the register of a set of its group alone, and the round issues its operation (R148 to R151). -/
theorem mtx_signs_and_issues (hw : Sys2Proof.decode (i.g.word &&& q.mask) = .ok (q.instr 0 0))
    (hbit : cv.declared = BitVec.ofNat 128 (2 ^ i.g.index)) (hs0 : cv.signed = 0) (hsigs : cv.sigs = []) (hh : homeCore tm i.g.index = i.g.core)
    (hg : ((s.groups.filter fun e => e.2.team == i.g.team && e.2.index == i.g.index).map fun e => e.1) = [i.gid]) :
    ∃ t, exec (q.instr g f) s = .next t ∧ InFlight t s.nextOp i f q.cls (.sign c.toNat) ∧
      (∃ n op, Fm.get? t.ops n = some op ∧ op.team = i.g.team ∧
        op.kind = .mtx { fn := q.fn, ty := mtxTy i.g.hints.arith.ty, sparse := q.sparse, core := i.g.core, unit := q.unit, tile := q.tile,
                         a := q.a, b := q.b, sigs := [s.nextOp], groups := [i.gid] } ∧
        t.arrays = (s.putArr i.g.core q.unit { arrOf s i.g.core q.unit with queue := (arrOf s i.g.core q.unit).queue ++ [n] }).arrays) ∧
      IssuedAs (roundBase s i.g.team c.toNat t { declared := cv.declared }) t i (flagged i.g f s.nextOp) (regsOf i.g) (latch i.g) (onward i) := by
  let v := cv.signedBy i (caseSig q f) s.nextOp
  let u := afterSign s i tm c.toNat (caseSig q f) v
  obtain ⟨bs, htm⟩ := team_afterSign hp tm c.toNat (caseSig q f) v ht
  have hj : i.g.index < 128 := BitVec.lt_of_getLsbD hd
  have hmembers : ((u.groupsOf i.g.team).filter fun e => cv.declared.getLsbD e.2.index).map (fun e => e.1) = [i.gid] := by
    rw [hbit, groupsOf_filter_groupBit _ _ hj, ← hg]
    exact filter_fst_of_groupIds (groupIds_afterSign hp ..) fun t n => t == i.g.team && n == i.g.index
  have hhome (n : Nat) (hn : cv.declared.getLsbD n = true) :
      homeCore { tm with cvs := Fm.put tm.cvs c.toNat v, barriers := bs } n = i.g.core := by
    rw [hbit, getLsbD_groupBit] at hn
    obtain rfl : i.g.index = n := by simpa using (Bool.and_eq_true_iff.mp hn).2
    exact hh
  have hround := roundOp_mtxCase hq (core := i.g.core) (sigs := [s.nextOp]) (groups := [i.gid]) hw
  unfold reservedArrays at hround
  rw [ht] at hround
  have hd0 : cv.declared ≠ 0 := fun h0 => by simp [h0] at hd
  have hissue := cvCheck_of_complete htm (by rw [Fm.getD_put, if_pos rfl]; exact signedBy_empty hbit hs0 hsigs _ _) hd0 hmembers hhome hround
  have hex := exec_mtxCase_signs ht ha hl hcv hc hq hp hf hk hd hs hr
  have honly := onlySignature_issueRound (onlySignature_afterSign hp tm c.toNat (caseSig q f) v) i.g.team c.toNat { declared := cv.declared }
  refine ⟨_, hex.trans (congrArg _ hissue), inFlight_sign (tm := tm) (n := dialOf s (i.g.core / 48)) ?_,
    ⟨u.nextOp, _, Fm.get?_put_same .., rfl, rfl, ?_⟩,
    issuedAs_roundBase hp (honly ..) rfl (teamsKept_putCv (teamsKept_afterSign hp tm c.toNat (caseSig q f) v) rfl _)⟩
  · show Fm.get? (Fm.put u.ops u.nextOp _) s.nextOp = _
    rw [afterSign_nextOp hp, Fm.get?_put_other _ _ (Nat.ne_of_lt (Nat.lt_succ_self _)), afterSign_ops hp]
    exact Fm.get?_put_same ..
  · have harr : arrOf u i.g.core q.unit = arrOf s i.g.core q.unit := by unfold arrOf; rw [afterSign_arrays hp]
    show Fm.put u.arrays _ { arrOf u i.g.core q.unit with queue := (arrOf u i.g.core q.unit).queue ++ [u.nextOp] } = _
    rw [harr, afterSign_arrays hp]
    rfl

end

/-! CSIGN and CVDECL (R147, R160), and the whole. -/

/-- An instruction that only writes a convergence register (R147, R160). -/
theorem issuedAs_putCv {s : State} {gd : BitVec 4} {fm : Form} {i : Iss} (hp : prelude s gd fm = .ok i) (cv : Nat) (v : Cv) :
    IssuedAs (putCv s i.g.team cv v) (finish (putCv s i.g.team cv v) i i.g none) i i.g (regsOf i.g) (latch i.g) (onward i) :=
  issuedAs_of_finish hp rfl rfl rfl (Effect.refl _) (regsAre_refl _) fun _ _ _ => rfl

theorem groupIds_finish_putCv {s : State} {gd : BitVec 4} {fm : Form} {i : Iss} (hp : prelude s gd fm = .ok i) (cv : Nat) (v : Cv) :
    groupIds (finish (putCv s i.g.team cv v) i i.g none) = groupIds s :=
  groupIds_finish hp rfl (Effect.refl _) rfl rfl rfl rfl

section

variable {s : State} {g : BitVec 4} {c : BitVec 3} {i : Iss} {tm : Team} {cv : Cv}
variable (ht : Fm.get? s.teams i.g.team = some tm) (ha : i.act ≠ 0) (hl : i.g.landed = false) (hcv : c.toNat < tm.d.cvs)
  (hc : Fm.getD tm.cvs c.toNat {} = cv) (hp : prelude s g { pipe := none, member := false } = .ok i)

include ht ha hl hcv hc hp

/-- A CSIGN signs, and its round waits for another group (R148, R160). -/
theorem csign_signs_and_waits (hd : cv.declared.getLsbD i.g.index = true) (hs : cv.signed.getLsbD i.g.index = false) {n : Nat} (hn : n < 128)
    (hni : n ≠ i.g.index) (hdn : cv.declared.getLsbD n = true) (hsn : cv.signed.getLsbD n = false)
    (he : ∀ e ∈ s.groups, e.2.team = i.g.team → e.2.index = n → e.2.ended = false) :
    let v : Cv := { cv with signed := cv.signed ||| BitVec.ofNat 128 (2 ^ i.g.index) }
    ∃ t, exec (.csign g c) s = .next t ∧
      IssuedAs (putCv s i.g.team c.toNat v) t i i.g (regsOf i.g) (latch i.g) (onward i) := by
  intro v
  obtain ⟨-, -, hteams, -⟩ := issuedAs_putCv hp c.toNat v
  obtain ⟨bs, htm⟩ := team_of_teamsKept (x := { tm with cvs := Fm.put tm.cvs c.toNat v }) hteams (get?_teams_putCv c.toNat v ht)
  have hsigned : v.signed.getLsbD n = false := (getLsbD_or_groupBit_of_ne hni cv.signed).trans hsn
  have hwait := cvCheck_of_waits (c := v) htm (by rw [Fm.getD_put, if_pos rfl]) hn hdn hsigned
    (ended_of_groupIds (groupIds_finish_putCv hp c.toNat v) he)
  have hsign := runSign_csign (checks := fun _ => []) (pipe := none) ht hl hcv hc rfl hd hs
  refine ⟨_, ?_, issuedAs_putCv hp c.toNat v⟩
  show execCsign g c s = _
  simp only [execCsign, hp, beq_iff_eq, ha, if_false]
  rw [hsign, hwait]

/-- A CVDECL waits while the register holds a signature (R147). -/
theorem cvdecl_waits (o : BitVec 6) (hs : cv.signed ≠ 0) : exec (.cvdecl g o c) s = .next (stall s i.gid) := by
  show execCvdecl g o c s = _
  simp only [execCvdecl, hp, beq_iff_eq, ha, if_false, ht, hl, Nat.not_le.mpr hcv, decide_false, Bool.or_self, Bool.false_eq_true, hc,
    bne_iff_ne, ne_eq, hs, not_false_eq_true, if_true]

/-- A CVDECL declares a legal set (R147). -/
theorem cvdecl_declares (o : BitVec 6) (hs : cv.signed = 0)
    (hset : declOk s i.g.team (readS s i.g (o.toNat + 1) ++ readS s i.g o.toNat) tm.d.groups = true) :
    exec (.cvdecl g o c) s =
      .next (finish (putCv s i.g.team c.toNat { declared := readS s i.g (o.toNat + 1) ++ readS s i.g o.toNat }) i i.g none) := by
  show execCvdecl g o c s = _
  simp only [execCvdecl, hp, beq_iff_eq, ha, if_false, ht, hl, Nat.not_le.mpr hcv, decide_false, Bool.or_self, Bool.false_eq_true, hc,
    bne_iff_ne, ne_eq, hs, not_true_eq_false, hset, Bool.not_true]
  rfl

end

/-- Settles O37: each clause is the lemma of what its instruction does to the register; that a round still waits, and whose it is, is read off
the groups before the issue, which `groupIds_finish` carries over it. -/
theorem signaturesGatherIntoRounds : Obligations.SignaturesGatherIntoRounds := by
  unfold Obligations.SignaturesGatherIntoRounds
  intro s g x m k o p c f i tm ht ha hl hcv cv bit base waits
  have hstall {gd : BitVec 4} {fm : Form} (hp : prelude s gd fm = .ok i) : Stalled s (stall s i.gid) i.gid :=
    have ⟨_, hi⟩ := issuable_of_prelude hp
    stalled_of_stall hi.group
  refine ⟨?_, fun hp => ⟨?_, ?_⟩⟩
  · intro q hq hp hf hk word hd
    refine ⟨fun hs => ⟨_, ?_, hstall hp⟩, ?_⟩
    · rw [exec_mtxCase hq hp ha, runSign_of_signed ht hl hcv rfl hs]
    intro hs hr signed
    refine ⟨?_, ?_⟩
    · rintro ⟨n, hn, hni, hdn, hsn, he⟩
      exact mtx_signs_and_waits ht ha hl hcv rfl hq hp hf hk hd hs hr hn hni hdn hsn he
    · exact mtx_signs_and_issues ht ha hl hcv rfl hq hp hf hk hd hs hr
  · rintro hd hs ⟨n, hn, hni, hdn, hsn, he⟩
    exact csign_signs_and_waits ht ha hl hcv rfl hp hd hs hn hni hdn hsn he
  · intro set
    exact ⟨fun hs => ⟨_, cvdecl_waits ht ha hl hcv rfl hp o hs, hstall hp⟩,
      fun hs hset => ⟨_, cvdecl_declares ht ha hl hcv rfl hp o hs hset, issuedAs_putCv hp ..⟩⟩

end Sys2Proof.Machine
end

section
/-! Waits, fences and heartbeats (spec/09 R172, R177; spec/12 R237, R238; spec/17 R353), the control registers (spec/09 R173, R178), and
service calls (R177). -/

namespace Sys2Proof.Machine

open Safety

/-! NOP, WAITF, FENCE and BEAT: each moves on with its registers as they were. -/

/-- An instruction that changes nothing of its group but what it waits for or its special registers, where other parts of the state may
have changed. -/
theorem issuedAs_of_finish_same {s s1 : State} {gd : BitVec 4} {f : Form} {i : Iss} {k : Group} (hp : prelude s gd f = .ok i)
    (hs : s1.groups = s.groups) (hc : k.chain = i.g.chain) (hl : k.lanes = i.g.lanes) (hr : RegsAre k (regsOf i.g)) (hb : k.b = i.g.b) :
    IssuedAs s1 (finish s1 i k none) i k (regsOf i.g) (latch i.g) (onward i) :=
  issuedAs_of_finish hp hs hc hl (Effect.refl k) hr fun _ _ _ => by simp only [latch, hb]

/-- An instruction that changes nothing but where its lanes stand. -/
theorem issued_of_finish_unchanged {s : State} {gd : BitVec 4} {f : Form} {i : Iss} (hp : prelude s gd f = .ok i) :
    Issued s (finish s i i.g none) i (regsOf i.g) (latch i.g) (onward i) :=
  issuedAs_of_finish_same hp rfl rfl rfl (regsAre_refl _) rfl

/-- BEAT in a team (R353, R379). -/
def beaten (x : Team) : Team := if x.d.persistent = true ∧ x.timer ≠ 0 then { x with timer := x.d.limit } else x

theorem exec_beat_of_ok {s : State} {g : BitVec 4} {i : Iss} (hp : prelude s g ctlForm = .ok i) :
    exec (.beat g) s = .next (finish (if i.act = 0 then s else s.modTeam i.g.team beaten) i i.g none) := by
  show execBeat g s = _
  simp only [execBeat, hp, beq_iff_eq, Bool.and_eq_true, bne_iff_ne]
  rfl

theorem exec_waitf_of_ok {s : State} {g n : BitVec 4} {w : BitVec 6} {i : Iss} (hp : prelude s g ctlForm = .ok i) :
    exec (.waitf g n w) s = .next (finish s i
      (if i.act = 0 ∨ i.g.flag n.toNat ≤ w.toNat then i.g else { i.g with hold := .waitf n.toNat w.toNat }) none) := by
  show execWaitf g n w s = _
  simp only [execWaitf, hp, Bool.or_eq_true, beq_iff_eq, decide_eq_true_eq]

section

variable {s : State} {g : BitVec 4} {p q : BitVec 7} {c : BitVec 3} {i : Iss} (hp : prelude s g { ctlForm with chain := false } = .ok i)

include hp

theorem exec_fence_idle_of_noLanes (ha : i.act = 0) : exec (.fence g p q c) s = .next (finish s i i.g none) := by
  show execFence g p q c s = _
  simp only [execFence, hp, ha, beq_self_eq_true, if_true]

theorem exec_fence_second (ha : i.act ≠ 0) (hf : i.g.fence ≠ none) : exec (.fence g p q c) s = .next (stall s i.gid) := by
  show execFence g p q c s = _
  simp only [execFence, hp, beq_iff_eq, ha, if_false, Option.isSome_iff_ne_none.mpr hf, if_true]

theorem exec_fence_first (ha : i.act ≠ 0) (hf : i.g.fence = none) :
    let f : Fence := { pred := p, succ := q, scope := c, ops := fenceOps s i.gid p, time := (fenceTime i.g p).getD 0 }
    exec (.fence g p q c) s = .next (finish s i
      (if p = 0 ∨ q = 0 ∨ (f.ops = [] ∧ fenceTime i.g p = none) ∨ (f.ops = [] ∧ f.time + fenceGuard s i.g c.toNat < dialOf s (i.g.core / 48))
        then i.g else { i.g with fence := some f }) none) := by
  intro f
  show execFence g p q c s = _
  simp only [execFence, hp, beq_iff_eq, ha, if_false, hf, Option.isSome_none, Bool.false_eq_true, Bool.or_eq_true, Bool.and_eq_true,
    List.isEmpty_iff, Option.isNone_iff_eq_none, fenceOver, decide_eq_true_eq, f, ← or_assoc]
  split
  · next h => rw [if_pos (.inl h)]
  · next h => simp only [h, false_or]

end

/-- Settles O21: each instruction but the second FENCE is a `finish` whose group differs in what it waits for alone. -/
theorem waitsFencesAndBeats : Obligations.WaitsFencesAndBeats := by
  unfold Obligations.WaitsFencesAndBeats
  intro s g i
  refine ⟨fun hp => ⟨⟨_, ?_, issued_of_finish_unchanged hp⟩, ⟨_, exec_beat_of_ok hp, ?_⟩, fun n w => ⟨_, exec_waitf_of_ok hp, ?_⟩⟩,
    ?fence⟩
  case fence =>
    intro p q c hp f
    obtain ⟨_, hi⟩ := issuable_of_prelude hp
    refine ⟨fun ha => ⟨_, exec_fence_idle_of_noLanes hp ha, issued_of_finish_unchanged hp⟩, fun ha hf => ⟨_, exec_fence_first hp ha hf, ?_⟩,
      fun ha hf => ⟨_, exec_fence_second hp ha hf, stalled_of_stall hi.group⟩⟩
    split
    · exact issued_of_finish_unchanged hp
    · exact issuedAs_of_finish_same hp rfl rfl rfl (regsAre_refl i.g) rfl
  · show execNop g s = _
    simp only [execNop, hp]
  · exact issuedAs_of_finish_same hp (by split <;> rfl) rfl rfl (regsAre_refl _) rfl
  · split
    · exact issued_of_finish_unchanged hp
    · exact issuedAs_of_finish_same hp rfl rfl rfl (regsAre_refl i.g) rfl

/-! CSRR (R177, R178). -/

theorem regsAre_putNow {g : Group} {r : Regs} (h : RegsAre g r) (n : Nat) (act : LaneMask) (val : Nat → Word) :
    RegsAre (putNow g n act val) (r.setV n act val) := regsAre_putV h 0 n act val

theorem regsAre_putNowS {g : Group} {r : Regs} (h : RegsAre g r) (n : Nat) (x : DWord) : RegsAre (putNowS g n x) (r.setS n x) := by
  have hs := regsAre_putS h 0 n x
  unfold putS at hs
  unfold putNowS
  split
  · next h0 => rwa [if_pos h0] at hs
  · next h0 => rw [if_neg h0] at hs; exact hs

theorem effect_putNowS (g : Group) (n : Nat) (x : DWord) : Effect g (putNowS g n x) := by
  unfold putNowS
  split
  · exact Effect.refl g
  · exact ⟨rfl, rfl⟩

@[simp] theorem latch_putNowS (g : Group) (k : Nat) (x : DWord) (n l : Nat) : latch (putNowS g k x) n l = latch g n l := by
  unfold putNowS; split <;> rfl

/-- A pair of registers written one after the other (R107). -/
theorem setV_setV_succ (r : Regs) (d : Nat) (act : LaneMask) (x : Nat → DWord) :
    (r.setV d act fun l => (x l).setWidth 32).setV (d + 1) act (fun l => (x l >>> 32).setWidth 32) = r.setW d act x := by
  unfold Regs.setV Regs.setW
  congr 1
  funext n l
  by_cases ha : act.getLsbD l = true <;> simp [ha]

/-- The registers that a CSR instruction names (R178). -/
def csrRegs (v : BitVec 1) (k n : Nat) : List Nat := if v = 0 then [] else if csrWide n then [k, k + 1] else [k]

theorem not_beq_one (v : BitVec 1) : (!(v == 1)) = decide (v = 0) := by revert v; decide

/-- The group of a CSRR: a scalar, a pair or a vector register takes the value (R178). -/
def csrTaken (g : Group) (v : BitVec 1) (k n : Nat) (act : LaneMask) (x : Nat → DWord) : Group :=
  if act = 0 then g
  else if v = 0 then putNowS g k (x 0)
  else if csrWide n then putNow (putNow g k act fun l => (x l).setWidth 32) (k + 1) act fun l => (x l >>> 32).setWidth 32
  else putNow g k act fun l => (x l).setWidth 32

theorem effect_csrTaken (g : Group) (v : BitVec 1) (k n : Nat) (act : LaneMask) (x : Nat → DWord) : Effect g (csrTaken g v k n act x) := by
  unfold csrTaken
  split
  · exact Effect.refl g
  split
  · exact effect_putNowS ..
  split
  · exact (effect_putNow ..).trans (effect_putNow ..)
  · exact effect_putNow ..

theorem latch_csrTaken (g : Group) (v : BitVec 1) (k n : Nat) (act : LaneMask) (x : Nat → DWord) (m l : Nat) :
    latch (csrTaken g v k n act x) m l = latch g m l := by
  unfold csrTaken
  split
  · rfl
  split
  · exact latch_putNowS ..
  split <;> rfl

theorem regsAre_csrTaken (g : Group) (v : BitVec 1) (k n : Nat) (act : LaneMask) (x : Nat → DWord) :
    RegsAre (csrTaken g v k n act x) (if act = 0 then regsOf g
      else if v = 0 then (regsOf g).setS k (x 0)
      else if csrWide n then (regsOf g).setW k act x
      else (regsOf g).setV k act fun l => (x l).setWidth 32) := by
  have h := regsAre_refl g
  unfold csrTaken
  split
  · exact h
  split
  · exact regsAre_putNowS h ..
  split
  · exact regsAre_congr (regsAre_putNow (regsAre_putNow h ..) ..) (setV_setV_succ ..)
  · exact regsAre_putNow h ..

theorem exec_csrr_of_ok {s : State} {g : BitVec 4} {r : BitVec 6} {v : BitVec 1} {c : BitVec 12} {i : Iss}
    (hp : prelude s g { ctlForm with vregs := csrRegs v r.toNat c.toNat } = .ok i) :
    exec (.csrr g r v c) s = .next (finish s i (csrTaken i.g v r.toNat c.toNat i.act (csrRead s i.g c.toNat)) none) := by
  show execCsrr g r v c s = _
  simp only [csrRegs] at hp
  simp only [execCsrr, not_beq_one, decide_eq_true_eq, hp, beq_iff_eq, csrTaken]

/-! CSRW (R173, R177, R178). -/

/-- What a CSRW takes from its register in a lane (R178). -/
def csrSource (s : State) (g : Group) (v : BitVec 1) (k n l : Nat) : DWord :=
  if v = 0 then readS s g k else if csrWide n then readW s g k l else (readV s g k l).setWidth 64

/-- A group whose active lanes take a write of a lane's CSR. -/
def csrLanes (g : Group) (act : LaneMask) (n : Nat) (x : Nat → DWord) : Group :=
  { g with lanes := lanesOf fun l => if act.getLsbD l then csrWriteLane (g.lane l) n (x l) else g.lane l }

/-- A group after a CSRW that acts: the lanes' CSRs in the active lanes, every other one once. -/
def csrWritten (g : Group) (act : LaneMask) (n : Nat) (x : Nat → DWord) : Group :=
  if csrLane n then csrLanes g act n x else csrWriteGroup g n (x 0)

theorem exec_csrw_of_ok {s : State} {g : BitVec 4} {r : BitVec 6} {v : BitVec 1} {c : BitVec 12} {i : Iss}
    (hp : prelude s g { ctlForm with vregs := csrRegs v r.toNat c.toNat } = .ok i) :
    exec (.csrw g r v c) s = .next (finish s i (if i.act = 0 then i.g
      else csrWritten i.g i.act c.toNat (csrSource s i.g v r.toNat c.toNat)) none) := by
  show execCsrw g r v c s = _
  simp only [csrRegs] at hp
  simp only [execCsrw, not_beq_one, decide_eq_true_eq, hp, beq_iff_eq]
  rfl

/-- A write of a lane's CSR leaves where the lane stands. -/
theorem csrWriteLane_place (x : Lane) (n : Nat) (w : DWord) :
    (csrWriteLane x n w).st = x.st ∧ (csrWriteLane x n w).pc = x.pc ∧ (csrWriteLane x n w).prio = x.prio := by
  simp only [csrWriteLane]
  split <;> exact ⟨rfl, rfl, rfl⟩

/-- An instruction that writes special registers of lanes and moves on. -/
theorem issuedAs_of_finish_lanes {s : State} {gd : BitVec 4} {fm : Form} {i : Iss} {f : Nat → Lane} (hp : prelude s gd fm = .ok i)
    (hf : ∀ l, (f l).st = (i.g.lane l).st ∧ (f l).pc = (i.g.lane l).pc ∧ (f l).prio = (i.g.lane l).prio) :
    let k : Group := { i.g with lanes := lanesOf f }
    IssuedAs s (finish s i k none) i k (regsOf i.g) (latch i.g) (onward i) := by
  intro k
  obtain ⟨g, hi⟩ := issuable_of_prelude hp
  obtain ⟨h, hfin, hh, hhb⟩ := retire_moves { s with freeCtr := s.freeCtr + 1 } i k (fun _ => .seq) none fun _ _ => .inl rfl
  have hkl (l : Nat) (hl : l < 64) : k.lane l = f l := lane_of_lanesOf i.g f l hl
  have hlane (l : Nat) (hl : l < 64) : h.lane l = if i.lanes.getLsbD l then { f l with pc := pcNext i.pcI } else f l := by
    rw [← hkl l hl, hh]
    simp only [Group.lane, getElem?_lanesOf, if_pos hl, Option.getD_some, Fx.apply]
  have hissuing (l : Nat) (hl : i.lanes.getLsbD l = true) : (h.lane l).st = .issuable ∧ (h.lane l).pair = onward i l := by
    obtain ⟨h64, hst, -, hprio⟩ := lane_of_issuing hi hl
    obtain ⟨fst, -, fprio⟩ := hf l
    have hig : i.g.lane l = g.lane l := by rw [hi.ig]; rfl
    rw [hlane l h64, if_pos hl]
    exact ⟨by rw [fst, hig, hst], by simp only [Lane.pair, onward, fprio, hig, hprio]⟩
  obtain ⟨l0, -, hl0⟩ := exists_lane i.lanes hi.some_
  unfold finish
  rw [hfin]
  refine settled_core hi rfl (countedState_only ..) (counted_countedState ..) ?rest ?regs ?latches ⟨l0, .inl (hissuing l0 hl0).1⟩ ?lanes
  case rest =>
    have htrap (l : Nat) (hl : l < 64) : (h.lane l).trapPc = (k.lane l).trapPc ∧ (h.lane l).trapCause = (k.lane l).trapCause ∧
        (h.lane l).trapAddr = (k.lane l).trapAddr := by
      rw [hlane l hl, hkl l hl]
      split <;> exact ⟨rfl, rfl, rfl⟩
    refine ⟨?_, ?_, ?_, ?_, ?_, ?_, ?_, ?_, ?_, ?_, ?_, ?_, ?_, ?_, ?_, ?_, ?_, ?_, ?_, ?_, htrap⟩
    all_goals rw [hh]
  case regs => exact regsAre_of_eq (by rw [hh]) (by rw [hh]) (by rw [hh]) (by rw [hh]) (by rw [hh])
  case latches =>
    intro u hu n l _
    have hb : u.b = h.b := by rw [hu.rest]
    simp only [latch, hb, hhb, chainLost, onward, beq_self_eq_true, Bool.and_true, k]
    cases i.g.chain with
    | none => rfl
    | some c => simp only; split <;> simp [Fm.getD, Fm.get?, laneW]
  case lanes =>
    intro l hl
    split
    · next hil => exact ⟨by simp [Lane.waiting, (hissuing l hil).1], hissuing l hil⟩
    · next hil => rw [hlane l hl, if_neg hil, hkl l hl]

/-- No write of a group's CSR but GS changes a register, a latch, or where the lanes stand. -/
theorem csrWriteGroup_same (g : Group) {n : Nat} (x : DWord) (hn : n ≠ 0x10) : RegsAre (csrWriteGroup g n x) (regsOf g) ∧
    (csrWriteGroup g n x).chain = g.chain ∧ (csrWriteGroup g n x).lanes = g.lanes ∧ (csrWriteGroup g n x).b = g.b := by
  simp only [csrWriteGroup]
  split
  · exact absurd rfl hn
  all_goals exact ⟨regsAre_refl g, rfl, rfl, rfl⟩

/-- A CSRW of another CSR than GS leaves every register (R173). -/
theorem issuedAs_of_csrWritten {s : State} {gd : BitVec 4} {fm : Form} {i : Iss} (hp : prelude s gd fm = .ok i) {n : Nat} (x : Nat → DWord)
    (hn : n ≠ 0x10) :
    IssuedAs s (finish s i (csrWritten i.g i.act n x) none) i (csrWritten i.g i.act n x) (regsOf i.g) (latch i.g) (onward i) := by
  unfold csrWritten
  split
  · exact issuedAs_of_finish_lanes hp fun l => by
      split
      · exact csrWriteLane_place ..
      · exact ⟨rfl, rfl, rfl⟩
  · obtain ⟨hr, hc, hl, hb⟩ := csrWriteGroup_same i.g (x 0) hn
    exact issuedAs_of_finish_same hp rfl hc hl hr hb

/-- A CSRW of GS clears bits (R7, R173). -/
theorem issued_of_clearedGs {s : State} {gd : BitVec 4} {fm : Form} {i : Iss} (hp : prelude s gd fm = .ok i) (y : DWord) :
    Issued s (finish s i { i.g with gs := i.g.gs &&& ~~~ y } none) i
      { regsOf i.g with gs := fun m => (i.g.gs &&& ~~~ y) ||| gsDue i.g.gsq m } (latch i.g) (onward i) :=
  issued_of_finish hp ⟨rfl, rfl⟩ ⟨fun _ _ _ => rfl, fun _ => rfl, fun _ => rfl, fun _ => rfl⟩ fun _ _ _ => rfl

theorem and_one_beq_one (x : DWord) : (x &&& 1 == 1) = x.getLsbD 0 := by
  show (x &&& 1#64 == 1#64) = _
  rw [BitVec.and_one_eq_setWidth_ofBool_getLsbD]
  cases x.getLsbD 0 <;> rfl

/-- CRACK is bit 0 of its CSR (R173). -/
theorem csrWritten_crack (g : Group) (act : LaneMask) (x : Nat → DWord) :
    csrWritten g act 0x20 x = { g with crack := (x 0).getLsbD 0 } := by
  rw [← and_one_beq_one]; rfl

/-- Every bit of TRAPCAUSE and of TRAPADDR is written (R173). -/
theorem csrWriteLane_whole (z : Lane) (w : DWord) :
    csrWriteLane z 0x32 w = { z with trapCause := w } ∧ csrWriteLane z 0x33 w = { z with trapAddr := w } := by
  have h : w &&& BitVec.allOnes 64 = w := BitVec.and_allOnes
  exact ⟨congrArg (fun y => { z with trapCause := y }) h, congrArg (fun y => { z with trapAddr := y }) h⟩

/-- Settles O22: CSRR writes the registers that `csrTaken` names; CSRW writes GS, or leaves every register and makes of its group what
`csrWritten` is at each number. -/
theorem controlRegisterAccess : Obligations.ControlRegisterAccess := by
  unfold Obligations.ControlRegisterAccess
  intro s g r v c i k n hp
  refine ⟨⟨_, exec_csrr_of_ok hp, issued_of_finish hp (effect_csrTaken ..) (regsAre_csrTaken ..) fun _ _ _ => latch_csrTaken ..⟩, ?_⟩
  intro x y at_ o ho hn
  refine ⟨_, exec_csrw_of_ok hp, ?_⟩
  by_cases ha : i.act = 0
  · simp only [ha, if_true, ne_eq, not_true_eq_false, and_false, if_false]
    exact issued_of_finish_unchanged hp
  simp only [ha, if_false, ne_eq, not_false_eq_true, and_true]
  have other {m : Nat} {u : Group} (hm : m ≠ 0x10) (hu : csrWritten i.g i.act m x = u) (hc : n = m) :
      IssuedAs s (finish s i (csrWritten i.g i.act n x) none) i u
        (if n = 0x10 then { regsOf i.g with gs := fun m => (i.g.gs &&& ~~~ y) ||| gsDue i.g.gsq m } else regsOf i.g) (latch i.g) (onward i) := by
    rw [hc, if_neg hm, ← hu]
    exact issuedAs_of_csrWritten hp x hm
  have lanes (f : Lane → DWord → Lane) {m : Nat} (hm : csrLane m = true) (hf : ∀ z w, csrWriteLane z m w = f z w) :
      csrWritten i.g i.act m x = at_ f := by
    unfold csrWritten csrLanes
    simp only [hm, if_true, hf, at_]
  simp only [List.mem_cons, List.not_mem_nil, or_false] at ho
  rcases ho with rfl | rfl | rfl | rfl | rfl | rfl | rfl | rfl | rfl
  · exact other (m := 0x11) (by decide) rfl hn
  · exact other (by decide) (csrWritten_crack ..) hn
  · exact other (m := 0x30) (by decide) rfl hn
  · exact other (by decide) (lanes _ (m := 0x31) rfl fun _ _ => rfl) hn
  · exact other (by decide) (lanes _ (m := 0x32) rfl fun z w => (csrWriteLane_whole z w).1) hn
  · exact other (by decide) (lanes _ (m := 0x33) rfl fun z w => (csrWriteLane_whole z w).2) hn
  · exact other (m := 0x34) (by decide) rfl hn
  · exact other (m := 0x41) (by decide) rfl hn
  · have hgs : n = 0x10 := hn
    have hu : csrWritten i.g i.act n x = { i.g with gs := i.g.gs &&& ~~~ y } := by rw [hgs]; rfl
    rw [if_pos hgs]
    exact hu ▸ issued_of_clearedGs hp y

/-! Service calls (R177). -/

/-- Lanes that neither trap nor park for a fault: the state after the issue, before the releases. A call may take the group's latches, its cover
and its chain's end with it (R76, R177). -/
theorem retire_without_faults (s : State) (i : Iss) (gr : Group) (fx : Nat → Fx) (pipe : Option Nat)
    (hf : ∀ l, i.lanes.getLsbD l = true → (fx l).trap? = none ∧ (fx l).park? = none) :
    ∃ k : Group, retire s i gr fx pipe = afterLanes ((takePipe (countedState s i) i.g.core i.gid pipe).modGroup i.gid fun _ => k) i.gid ∧
      k = { gr with lanes := lanesOf fun l => if i.lanes.getLsbD l then (fx l).apply (gr.lane l) i.pcI gr.vec else gr.lane l,
                    ents := k.ents, cover := k.cover, hints := {}, ent := none, urg := k.urg, starve := 0, yieldHold := k.yieldHold,
                    fresh := k.fresh, since := 0, accepting := false, chain := k.chain, b := k.b } := by
  have htrap : (fun l => if i.lanes.getLsbD l = true then (fx l).trap? else none) = fun _ => none := by
    funext l; split
    · next h => exact (hf l h).1
    · rfl
  have hpark (l : Nat) : (if i.lanes.getLsbD l = true then (fx l).park? else none) = none := by
    split
    · next h => exact (hf l h).2
    · rfl
  have hfs : ((List.range 64).findSome? fun _ : Nat => (none : Option TrapAt)) = none := by simp
  have hfm : ((List.range 64).filterMap fun _ : Nat => (none : Option ParkRec)) = [] := by simp
  unfold retire
  simp only [htrap, firstFatal_none, hpark, hfs, hfm, Option.map_none, List.append_nil]
  refine ⟨_, rfl, ?_⟩
  unfold Group.loseLatches
  cases nextChain gr i _ with
  | none => simp only; split <;> rfl
  | some c => simp only; split <;> rfl

/-- The state that a service call leaves in the slice kernel's queue (R177). -/
def called (s : State) (x : Call) : State := { s with calls := Fm.put s.calls s.nextOp x, nextOp := s.nextOp + 1 }

/-- The active lanes of a service call are PARKED at the bundle after it, and the other issuing lanes move on (R177). -/
theorem settledAt_of_calls {s : State} {gd : BitVec 4} {fm : Form} {i : Iss} (hp : prelude s gd fm = .ok i) (x : Call) (f : LaneFault)
    (info : DWord) (n : Nat) :
    let k : Group := { i.g with trapinfo := info }
    SettledAt (called s x) (retire { called s x with freeCtr := n } i k (fun l => if i.act.getLsbD l then .call f (pcNext i.pcI) else .seq) none)
      i k (regsOf i.g) (onward i) (fun l => if i.act.getLsbD l then .parked f else .issuable) fun _ => True := by
  intro k
  obtain ⟨g, hi⟩ := issuable_of_prelude hp
  let fx (l : Nat) : Fx := if i.act.getLsbD l then .call f (pcNext i.pcI) else .seq
  obtain ⟨h, hret, hh⟩ := retire_without_faults { called s x with freeCtr := n } i k fx none fun l _ => by
    simp only [fx]
    split <;> exact ⟨rfl, rfl⟩
  have hlane (l : Nat) (hl : l < 64) : h.lane l = if i.lanes.getLsbD l then (fx l).apply (k.lane l) i.pcI k.vec else k.lane l := by
    rw [hh]; simp only [Group.lane, getElem?_lanesOf, if_pos hl, Option.getD_some]
  have hissuing (l : Nat) (hl : i.lanes.getLsbD l = true) :
      (h.lane l).st = (if i.act.getLsbD l then .parked f else .issuable) ∧ (h.lane l).pair = onward i l := by
    obtain ⟨h64, hst, -, hprio⟩ := lane_of_issuing hi hl
    have hk : k.lane l = g.lane l := by
      show i.g.lane l = _
      rw [hi.ig]; rfl
    rw [hlane l h64, if_pos hl, hk]
    simp only [fx]
    split
    · exact ⟨rfl, congrArg (Prod.mk _) hprio⟩
    · exact ⟨hst, congrArg (Prod.mk _) hprio⟩
  have hbusy (l : Nat) (hl : i.lanes.getLsbD l = true) : (h.lane l).busy := by
    unfold Lane.busy
    rw [(hissuing l hl).1]
    split
    · exact .inr ⟨f, rfl⟩
    · exact .inl rfl
  obtain ⟨l0, -, hl0⟩ := exists_lane i.lanes hi.some_
  show SettledAt _ (retire _ i k fx none) ..
  rw [hret]
  refine settled_core hi rfl (countedState_only ..) (counted_countedState ..) ?rest ?regs (fun _ _ => trivial) ⟨l0, hbusy l0 hl0⟩ ?lanes
  case rest =>
    have htrap (l : Nat) (hl : l < 64) : (h.lane l).trapPc = (k.lane l).trapPc ∧ (h.lane l).trapCause = (k.lane l).trapCause ∧
        (h.lane l).trapAddr = (k.lane l).trapAddr := by
      rw [hlane l hl]
      simp only [fx]
      split
      · split <;> exact ⟨rfl, rfl, rfl⟩
      · exact ⟨rfl, rfl, rfl⟩
    refine ⟨?_, ?_, ?_, ?_, ?_, ?_, ?_, ?_, ?_, ?_, ?_, ?_, ?_, ?_, ?_, ?_, ?_, ?_, ?_, ?_, htrap⟩
    all_goals rw [hh]
  case regs => exact regsAre_of_eq (by rw [hh]) (by rw [hh]) (by rw [hh]) (by rw [hh]) (by rw [hh])
  case lanes =>
    intro l hl
    split
    · next hil => exact ⟨Lane.busy_not_waiting (hbusy l hil), hissuing l hil⟩
    · next hil => rw [hlane l hl, if_neg hil]

theorem runCall_of_noLanes {s : State} {g : BitVec 4} {i : Iss} (hp : prelude s g ctlForm = .ok i) (ha : i.act = 0) (c : Nat) :
    runCall c g s = finish s i i.g none := by
  simp only [runCall, hp, ha, beq_self_eq_true, if_true]

theorem runCall_of_lanes {s : State} {g : BitVec 4} {i : Iss} (hp : prelude s g ctlForm = .ok i) (ha : i.act ≠ 0) (c : Nat) :
    let x : Call := { slice := coreSlice i.g.core, group := i.gid, lanes := i.act, code := c, word := i.g.word,
                      args := [readS s i.g 4, readS s i.g 5, readS s i.g 6, readS s i.g 7] }
    runCall c g s = retire { called s x with freeCtr := s.freeCtr + 1 } i { i.g with trapinfo := infoCode i.g.trapinfo c }
      (fun l => if i.act.getLsbD l then .call { cause := BitVec.ofNat 8 cSoftware, word := i.g.word } (pcNext i.pcI) else .seq) none := by
  intro x
  simp only [runCall, hp, beq_iff_eq, ha, if_false]
  rfl

/-- Settles O24: the four instructions run one service call, each with its code. -/
theorem serviceCallsParkTheirLanes : Obligations.ServiceCallsParkTheirLanes := by
  unfold Obligations.ServiceCallsParkTheirLanes
  intro s g c i hc hp o ho f call
  have hexec : exec o.1 s = .next (runCall o.2 g s) := by
    simp only [List.mem_cons, List.not_mem_nil, or_false] at ho
    rcases ho with rfl | rfl | rfl | rfl
    · exact if_pos hc
    all_goals rfl
  rw [hexec]
  refine ⟨fun ha => ⟨_, congrArg _ (runCall_of_noLanes hp ha o.2), issued_of_finish_unchanged hp⟩,
    fun ha => ⟨_, congrArg _ (runCall_of_lanes hp ha o.2), settledAt_of_calls hp call f ..⟩⟩

end Sys2Proof.Machine
end

section
/-! What a write of memory at its home, and a translation that is used, leave alone (spec/10 R186 to R191, spec/12 R243 to R246, spec/14 R273,
R277): the coherence tables move, and no group, operation, queue or journal does. -/

namespace Sys2Proof.Machine

/-! Writes at the home agents. -/

/-- Nothing of the state changed but memory, its copies and their bookkeeping, the links, the performance counters and the counter of free
values. -/
def MemorySide (s t : State) : Prop :=
  t = { s with freeCtr := t.freeCtr, hbm := t.hbm, poison := t.poison, l2 := t.l2, floors := t.floors, rcounts := t.rcounts, encs := t.encs,
               dirq := t.dirq, memPend := t.memPend, lastV := t.lastV, snoop := t.snoop, owns := t.owns, backs := t.backs, wcb := t.wcb,
               uses := t.uses, links := t.links, pmus := t.pmus }

namespace MemorySide

theorem refl (s : State) : MemorySide s s := rfl

theorem trans {s t u : State} (a : MemorySide s t) (b : MemorySide t u) : MemorySide s u := by
  unfold MemorySide at *
  rw [b, a]

theorem ite {c : Prop} [Decidable c] {s t u : State} (a : MemorySide s t) (b : MemorySide s u) : MemorySide s (if c then t else u) := by
  split <;> assumption

theorem foldl {α : Type} (f : State → α → State) (h : ∀ s a, MemorySide s (f s a)) (l : List α) (s : State) : MemorySide s (l.foldl f s) :=
  foldl_rel MemorySide refl trans f h l s

theorem countUnit (s : State) (unit ev : Nat) (ws : List Nat) (n : Nat) : MemorySide s (countUnit s unit ev ws n) := by
  unfold MemorySide
  rw [countUnit_only]

theorem countSlice (s : State) (sec ev : Nat) : MemorySide s (countSlice s sec ev) := ite (countUnit ..) (refl s)

theorem message (s : State) (a b : Nat) : MemorySide s (message s a b) := rfl

theorem snoopLeave (s : State) (die sec stamp : Nat) : MemorySide s (snoopLeave s die sec stamp) := rfl

theorem touchL2 (s : State) (die sec : Nat) : MemorySide s (touchL2 s die sec) := rfl

theorem toM (s : State) (die sec : Nat) : MemorySide s (toM s die sec) := rfl

theorem raiseFloor (s : State) (die sec stamp : Nat) : MemorySide s (raiseFloor s die sec stamp) := ite rfl (refl s)

theorem dequeue (s : State) (sec die : Nat) (own : Bool) : MemorySide s (dequeue s sec die own) := ite (refl s) rfl

theorem toMemory (s : State) (sec : Nat) (x : L2Sec) : MemorySide s (toMemory s sec x) := trans (countSlice s sec 33) rfl

theorem evictSec (s : State) (die sec : Nat) : MemorySide s (evictSec s die sec) := by
  unfold Machine.evictSec
  split
  · exact refl s
  · refine ite (trans ?left (toMemory ..)) (ite (trans ?left rfl) ?left)
    refine trans (trans (ite (trans ?floor (by exact rfl)) ?floor) (snoopLeave ..)) (message ..)
    exact trans (t := { s with l2 := Fm.del s.l2 (l2Key die sec) }) rfl (raiseFloor ..)

/-- An L2 set that gets room for a line (R189). -/
theorem roomL2 {s t : State} {die line : Nat} (h : roomL2 s die line = some t) : MemorySide s t := by
  unfold Machine.roomL2 at h
  simp only at h
  split at h
  · obtain rfl : s = t := Option.some.inj h
    exact refl s
  · obtain ⟨c, -, hc⟩ := Option.bind_eq_some_iff.mp h
    split at hc
    · obtain rfl := Option.some.inj hc
      exact foldl _ (fun s x => evictSec s die x) _ s
    · cases hc

theorem fillL2 {s t : State} {die sec : Nat} {x : L2Sec} {lru : Bool} (h : fillL2 s die sec x lru = some t) : MemorySide s t := by
  obtain ⟨u, hu, rfl⟩ := Option.map_eq_some_iff.mp h
  exact trans (roomL2 hu) rfl

theorem fillOwn {s t : State} {die sec : Nat} {x : L2Sec} {lru : Bool} (h : fillOwn s die sec x lru = some t) : MemorySide s t :=
  trans (ite (by exact rfl) (refl s)) (fillL2 h)

theorem snoopTake (s : State) (line die : Nat) : MemorySide s (snoopTake s line die).s := by
  unfold Machine.snoopTake
  split
  · exact rfl
  simp only
  split
  · exact rfl
  split
  · exact refl s
  split
  · split
    · exact rfl
    · exact refl s
  split
  · exact refl s
  · exact trans (trans (by exact rfl) (foldl _ (fun _ _ => message ..) _ _)) (countSlice ..)

theorem snoopFor (s : State) (die sec : Nat) : MemorySide s (snoopFor s die sec).s := by
  unfold Machine.snoopFor
  split
  · exact refl s
  · exact snoopTake ..

theorem dropOthers (s : State) (die sec : Nat) : MemorySide s (dropOthers s die sec) := foldl _ (fun _ _ => by exact rfl) _ s

/-- A die that gets a sector to write it, or waits for it (R244, R245). -/
theorem ownReq (s : State) (die sec : Nat) (engine : Option Nat) (lru : Bool) : MemorySide s (ownReq s die sec engine lru).s := by
  unfold Machine.ownReq
  split
  · split
    · exact refl s
    · exact rfl
  split
  · exact rfl
  simp only
  have hs := snoopFor s die sec
  split
  · exact trans hs (by exact rfl)
  split
  · next u hu =>
    have hgot : MemorySide s u := by
      split at hu
      · obtain rfl := Option.some.inj hu
        exact trans hs (by exact rfl)
      · exact trans (trans (trans hs (message ..)) (message ..)) (fillOwn hu)
    exact trans (trans (trans (trans hgot (dropOthers u die sec)) (toM ..)) (dequeue ..)) (countSlice ..)
  · exact refl s

theorem acceptHeld (s : State) (die sec : Nat) (enc : Option Seal) (bytes : Fm (Byte × LaneMask)) (group op ack : Nat) :
    MemorySide s (acceptHeld s die sec enc bytes group op ack).s := by
  unfold Machine.acceptHeld
  simp only
  split <;> exact rfl

theorem dropToWcb (s : State) (die sec : Nat) : MemorySide s (dropToWcb s die sec) := by
  unfold Machine.dropToWcb
  simp only
  split
  · exact ite (trans (dropOthers ..) (toMemory ..)) (dropOthers ..)
  · exact dropOthers ..

theorem acceptWcb (s : State) (die sec : Nat) (enc : Option Seal) (bytes : Fm (Byte × LaneMask)) (group op : Nat) :
    MemorySide s (acceptWcb s die sec enc bytes group op).s := by
  unfold Machine.acceptWcb
  split
  · exact rfl
  split
  · exact refl s
  · have hd := trans (dropToWcb s die sec) (countSlice _ sec 33)
    exact ite (trans hd (trans (dequeue ..) (by exact rfl))) (trans hd (trans (dequeue ..) (by exact rfl)))

/-- A write by an agent that waits for nothing but the sector. -/
theorem acceptWrite (s : State) (die sec : Nat) (enc : Option Seal) (bytes : Fm (Byte × LaneMask)) (group op : Nat) (engine : Option Nat) :
    MemorySide s (acceptWrite s die sec enc bytes group op engine).s := by
  unfold Machine.acceptWrite
  split
  · exact acceptWcb ..
  simp only
  split
  · exact ownReq ..
  · exact trans (ownReq ..) (acceptHeld ..)

/-- One of several writes that act as one step: none after one that must wait (R327). -/
def wholeStep (x : Reply × Option (State → Reply)) (w : State → Reply) : Reply × Option (State → Reply) :=
  if !x.1.ok then x
  else
    let q := w x.1.s
    ({ q with stamp := max x.1.stamp q.stamp }, if q.ok then none else some w)

/-- The writes so far, and the one that must wait, touch the memory side only. -/
def Steps (s : State) (x : Reply × Option (State → Reply)) : Prop :=
  MemorySide s x.1.s ∧ ∀ w, x.2 = some w → ∀ t, MemorySide t (w t).s

theorem steps_wholeStep {s : State} {x : Reply × Option (State → Reply)} (hx : Steps s x) {w : State → Reply}
    (hw : ∀ t, MemorySide t (w t).s) : Steps s (wholeStep x w) := by
  obtain ⟨hside, hwait⟩ := hx
  unfold wholeStep
  split
  · exact ⟨hside, hwait⟩
  · refine ⟨trans hside (hw _), fun v hv => ?_⟩
    simp only [Option.ite_none_left_eq_some, Option.some.injEq] at hv
    exact hv.2 ▸ hw

/-- Several writes as one step (R327). -/
theorem whole {ws : List (State → Reply)} (h : ∀ w ∈ ws, ∀ t, MemorySide t (w t).s) (s : State) : MemorySide s (whole s ws).s := by
  have hsteps : Steps s (ws.foldl wholeStep ({ s := s, ok := true }, none)) :=
    List.foldlRecOn ws wholeStep (motive := Steps s) ⟨refl s, by simp⟩ fun _ hx w hw => steps_wholeStep hx (h w hw)
  obtain ⟨hdone, hwait⟩ := hsteps
  unfold Machine.whole
  simp only
  split
  · exact hdone
  · next w hw =>
    simp only
    split
    · exact refl s
    · exact hwait w hw s

/-- A write of a range of a buffer (R228). -/
theorem writeRange (s : State) (d o : Nat) (bs : List Byte) (die : Nat → Nat) (group op : Nat) (engine : Option Nat) :
    MemorySide s (writeRange s d o bs die group op engine).s := by
  refine whole ?_ s
  intro w hw t
  obtain ⟨p, -, rfl⟩ := List.mem_map.mp hw
  exact acceptWrite ..

end MemorySide

/-! Translations that are used. -/

/-- Nothing of the state changed but page-table bytes, the caches of translations and descriptors, and the performance counters (R273, R277). -/
def WalkSide (s t : State) : Prop :=
  t = { s with hbm := t.hbm, l2 := t.l2, encs := t.encs, memPend := t.memPend, wcb := t.wcb, tlb := t.tlb, walk := t.walk,
               dcache := t.dcache, pmus := t.pmus }

namespace WalkSide

theorem refl (s : State) : WalkSide s s := rfl

theorem trans {s t u : State} (a : WalkSide s t) (b : WalkSide t u) : WalkSide s u := by
  unfold WalkSide at *
  rw [b, a]

theorem foldl {α : Type} (f : State → α → State) (h : ∀ s a, WalkSide s (f s a)) (l : List α) (s : State) : WalkSide s (l.foldl f s) :=
  foldl_rel WalkSide refl trans f h l s

theorem ite {c : Prop} [Decidable c] {s t u : State} (a : WalkSide s t) (b : WalkSide s u) : WalkSide s (if c then t else u) := by
  split <;> assumption

theorem pokeByte (s : State) (phys : Nat) (b : Byte) : WalkSide s (pokeByte s phys b) := by
  have hcopies := foldl (fun s (c : Nat × L2Sec) => { s with l2 := Fm.put s.l2 (l2Key c.1 (secOf phys)) (c.2.poke (phys % 128) b) })
    (fun _ _ => by exact rfl) (copies s (secOf phys)) s
  unfold Machine.pokeByte
  simp only
  split
  · exact hcopies
  split
  · exact trans hcopies rfl
  split
  · exact trans hcopies rfl
  · exact trans hcopies rfl

theorem markUsed (s : State) (x : Xl) (write : Bool) : WalkSide s (markUsed s x write) := by
  unfold Machine.markUsed
  exact ite (refl s) (pokeByte ..)

theorem noteDesc (s : State) (x : Xl) : WalkSide s (noteDesc s x) := by
  unfold Machine.noteDesc
  simp only
  split <;> exact rfl

theorem noteWalk (s : State) (core world va : Nat) (x : Xl) : WalkSide s (noteWalk s core world va x) := by
  have hcount : WalkSide s (countUnit s core 10 [world]) := by
    unfold WalkSide
    rw [countUnit_only]
  unfold Machine.noteWalk
  simp only
  split
  · exact refl s
  · exact trans hcount rfl

theorem useWalks (s : State) (core world : Nat) (write : Bool) (vas : List Nat) : WalkSide s (useWalks s core world write vas) := by
  refine foldl _ (fun s va => ?_) _ s
  split
  · exact trans (trans (markUsed ..) (noteDesc ..)) (noteWalk ..)
  · exact refl s

end WalkSide

/-! Journals (R342, R343). -/

/-- Nothing of the state changed but the memory side, the journals with the writes that wait, and what the command queues know of final entries. -/
def JournalSide (s t : State) : Prop :=
  t = { s with freeCtr := t.freeCtr, hbm := t.hbm, poison := t.poison, l2 := t.l2, floors := t.floors, rcounts := t.rcounts, encs := t.encs,
               dirq := t.dirq, memPend := t.memPend, lastV := t.lastV, snoop := t.snoop, owns := t.owns, backs := t.backs, wcb := t.wcb,
               uses := t.uses, links := t.links, pmus := t.pmus, journals := t.journals, jwrites := t.jwrites, queues := t.queues }

/-- Journal entries were written: no queue's head moved and no journal's sequence number did. -/
structure EntriesWritten (s t : State) : Prop where
  only  : JournalSide s t
  taken : ∀ q, (Fm.get? t.queues q).map (fun x => x.taken) = (Fm.get? s.queues q).map fun x => x.taken
  seqs  : ∀ q, (Fm.get? t.journals q).map (fun j => j.seq) = (Fm.get? s.journals q).map fun j => j.seq

theorem JournalSide.trans {s t u : State} (a : JournalSide s t) (b : JournalSide t u) : JournalSide s u := by
  unfold JournalSide at *
  rw [b, a]

theorem MemorySide.entriesWritten {s t : State} (h : MemorySide s t) : EntriesWritten s t := by
  unfold MemorySide at h
  rw [h]
  exact ⟨rfl, fun _ => rfl, fun _ => rfl⟩

namespace EntriesWritten

theorem refl (s : State) : EntriesWritten s s := ⟨rfl, fun _ => rfl, fun _ => rfl⟩

theorem trans {s t u : State} (a : EntriesWritten s t) (b : EntriesWritten t u) : EntriesWritten s u :=
  ⟨a.only.trans b.only, fun q => (b.taken q).trans (a.taken q), fun q => (b.seqs q).trans (a.seqs q)⟩

/-- A change of the writes that wait. -/
theorem jwrites (s : State) (l : List JWrite) : EntriesWritten s { s with jwrites := l } := ⟨rfl, fun _ => rfl, fun _ => rfl⟩

theorem modJournal (s : State) (q : Nat) (f : Journal → Journal) (h : ∀ j, (f j).seq = j.seq) :
    EntriesWritten s { s with journals := Fm.mod s.journals q f } := by
  refine ⟨rfl, fun _ => rfl, fun k => ?_⟩
  simp only [Fm.get?_mod]
  split
  · next hk => rw [hk]; cases Fm.get? s.journals q <;> simp [h]
  · rfl

theorem modQueue (s : State) (q : Nat) (f : Queue → Queue) (h : ∀ x, (f x).taken = x.taken) :
    EntriesWritten s { s with queues := Fm.mod s.queues q f } := by
  refine ⟨rfl, fun k => ?_, fun _ => rfl⟩
  simp only [Fm.get?_mod]
  split
  · next hk => rw [hk]; cases Fm.get? s.queues q <;> simp [h]
  · rfl

theorem noteEntry (s : State) (w : JWrite) (v : Nat) : EntriesWritten s (noteEntry s w v) := by
  have hv := modJournal s w.queue (fun j => { j with v := max j.v v }) fun _ => rfl
  unfold Machine.noteEntry
  simp only
  split
  · have hopens := modJournal { s with journals := Fm.mod s.journals w.queue fun j => { j with v := max j.v v } } w.queue
      (fun j => { j with opens := j.opens.filter (· != w.seq) }) fun _ => rfl
    exact (hv.trans hopens).trans (modQueue _ w.queue
      (fun x => { x with finals := x.finals ++ [(w.seq, ((w.bytes[24 - w.off]?).getD 0).toNat)] }) fun _ => rfl)
  · exact hv

theorem flushJournal (s : State) : EntriesWritten s (flushJournal s) := by
  refine foldl_rel EntriesWritten refl trans _ (fun s w => ?_) _ s
  split
  · exact jwrites ..
  split
  · simp only
    split
    · exact (jwrites ..).trans (noteEntry ..)
    split
    · exact ((MemorySide.writeRange ..).entriesWritten.trans (jwrites ..)).trans (noteEntry ..)
    · exact refl s
  · exact refl s

end EntriesWritten

/-- The entry of a command is written: the journal's sequence number is one higher and comes back (R342). -/
theorem journalAccept_side (s : State) (q kind status node : Nat) (digest : List Byte) :
    JournalSide s (journalAccept s q kind status node digest).1 := by
  unfold journalAccept
  split
  · exact rfl
  · exact JournalSide.trans (by exact rfl) (EntriesWritten.flushJournal _).only

theorem journalAccept_taken (s : State) (q kind status node : Nat) (digest : List Byte) (k : Nat) :
    (Fm.get? (journalAccept s q kind status node digest).1.queues k).map (fun x => x.taken) = (Fm.get? s.queues k).map fun x => x.taken := by
  unfold journalAccept
  split
  · rfl
  · exact (EntriesWritten.flushJournal _).taken k

theorem journalAccept_seq {s : State} {q : Nat} {j : Journal} (hj : Fm.get? s.journals q = some j) (kind status node : Nat) (digest : List Byte) :
    (Fm.get? (journalAccept s q kind status node digest).1.journals q).map (fun j => j.seq) = some (j.seq + 1) := by
  simp only [journalAccept, hj]
  rw [(EntriesWritten.flushJournal _).seqs q, Fm.get?_put_same]
  rfl

end Sys2Proof.Machine
end

section
/-! Commands (spec/16 R335 to R342, spec/20 R391, R396): what an accepted command leaves, and the work that it starts. -/

namespace Sys2Proof.Machine

open Safety

/-! The head of a queue is taken. -/

theorem queue_and_journal_of_nextCmd {s : State} {q : Nat} {c : Cmd} (h : nextCmd s q = some c) :
    (∃ x, Fm.get? s.queues q = some x) ∧ ∃ j, Fm.get? s.journals q = some j := by
  unfold nextCmd at h
  split at h
  · cases h
  · next x hx =>
    refine ⟨⟨x, hx⟩, ?_⟩
    cases hj : Fm.get? s.journals q with
    | some j => exact ⟨j, rfl⟩
    | none => simp [journalRoom, hj] at h

/-- An acceptance touches journals, queues, and the memory in which the journals stand (R342). -/
theorem acceptCmd_side (s : State) (q kind status : Nat) (c : Cmd) : JournalSide s (acceptCmd s q kind status c).1 :=
  JournalSide.trans (by exact rfl) (journalAccept_side (takeCmd s q) ..)

theorem commandTaken_of_acceptCmd {s : State} {q : Nat} {c : Cmd} (h : nextCmd s q = some c) (kind status : Nat) :
    CommandTaken s (acceptCmd s q kind status c).1 q := by
  obtain ⟨⟨x, hx⟩, j, hj⟩ := queue_and_journal_of_nextCmd h
  refine ⟨?_, ?_⟩
  · rw [acceptCmd, journalAccept_taken, takeCmd]
    simp only [Fm.get?_mod, if_true, hx, Option.map_some]
  · rw [acceptCmd, journalAccept_seq (s := takeCmd s q) hj, hj]
    rfl

theorem commandTaken_congr {s t u : State} {q : Nat} (h : CommandTaken s t q) (hq : u.queues = t.queues) (hj : u.journals = t.journals) :
    CommandTaken s u q := by
  unfold CommandTaken
  rw [hq, hj]
  exact h

/-! LAUNCH (R335). -/

theorem exec_launch_accepted {s : State} {q : Nat} {c : Cmd} {b : List Byte} {d : Desc} (hn : nextCmd s q = some c) (hk : c.kind = 1)
    (hq : kindOk q 1 = true) (hc : cmdOk s q c = true) (hw : c.world ≠ 0) (hz : isService q = true → c.w 16 8 = 0 ∧ c.w 24 8 = 0)
    (hm : worldMarked s (cmdDie q) c.world (c.w 8 8) 256 = false) (hb : worldBytes s (cmdDie q) c.world (c.w 8 8) 256 = .ok b)
    (hd : parseDesc b = some d) (hf : neverFits d = false) :
    let a := acceptCmd s q c.kind 0 c
    exec (.launch q) s = .next (startGrid a.1 c.world q a.2 none d).1 := by
  intro a
  have hzero : (isService q && (c.w 16 8 != 0 || c.w 24 8 != 0)) = false := by
    cases hs : isService q
    · rfl
    · obtain ⟨h1, h2⟩ := hz hs
      simp [h1, h2]
  show execLaunch q s = _
  simp [execLaunch, hn, hk, hq, hc, hw, hzero, hm, hb, hd, hf, a]

/-- The teams of a grid, one level queue for each die (R335, R349). -/
theorem mem_pends_startGrid (s : State) (world queue seq : Nat) (node : Option Nat) (d : Desc) {k die : Nat} (hk : d.dieList[k]? = some die)
    (ht : k < d.teams) :
    { grid := s.nextOp, die := die, world := world, d := dieCopy s world die d, next := k, step := d.dieList.length } ∈
      (startGrid s world queue seq node d).1.pends := by
  refine List.mem_append_right _ (List.mem_filterMap.mpr ⟨k, ?_, ?_⟩)
  · exact List.mem_range.mpr (List.getElem?_eq_some_iff.mp hk).1
  · simp only [hk, ht, if_true]

/-! TRANSFER (R391). -/

/-- The check of a side of a TRANSFER. -/
def transferSide (s : State) (q : Nat) (c : Cmd) (x : Nat) (dst : Bool) : SideRes :=
  if isHostAddr x then .ok (.host (x - 2 ^ 63)) [] else checkSide s none (cmdDie q) c.world x (rowShape (c.w 24 8)) dst

/-- The state in which a TRANSFER's copy starts, and the copy. -/
def transferWalked (s : State) (q home : Nat) (c : Cmd) (rd wr : List Nat) : State :=
  useWalks (useWalks (acceptCmd s q c.kind 0 c).1 (home * 48) c.world false rd) (home * 48) c.world true wr

def transferOp (c : Cmd) (home : Nat) (x y : Side) : Op :=
  { group := none, world := c.world, core := home * 48, die := home, chan := some (dieChan home 1),
    kind := .copy (dieChan home 1) (some { src := x, dst := y, sh := rowShape (c.w 24 8) }) none }

theorem exec_transfer_accepted {s : State} {q : Nat} {c : Cmd} {x y : Side} {rd wr : List Nat} (hn : nextCmd s q = some c) (hk : c.kind = 3)
    (hq : kindOk q 3 = true) (hc : cmdOk s q c = true) (hu : c.w 24 8 % 128 = 0) (h0 : c.w 24 8 ≠ 0)
    (hh : ¬(isHostAddr (c.w 8 8) = true ∧ isHostAddr (c.w 16 8) = true))
    (ht : isHostAddr (c.w 8 8) = true ∨ isHostAddr (c.w 16 8) = true → tdiRuns s q c.world = true)
    (hx : transferSide s q c (c.w 8 8) false = .ok x rd) (hy : transferSide s q c (c.w 16 8) true = .ok y wr) :
    let home := if isHostAddr (c.w 8 8) then y.home else x.home
    let o := newOp (transferWalked s q home c rd wr) (transferOp c home x y)
    exec (.transfer q) s =
      .next { joinChan o.1 (dieChan home 1) o.2 with cmds := Fm.put o.1.cmds o.2 (q, (acceptCmd s q c.kind 0 c).2) } := by
  intro home o
  have hboth : (isHostAddr (c.w 8 8) && isHostAddr (c.w 16 8)) = false := by
    rw [← Bool.not_eq_true, Bool.and_eq_true]; exact hh
  have htdi : ((isHostAddr (c.w 8 8) || isHostAddr (c.w 16 8)) && !tdiRuns s q c.world) = false := by
    cases hor : (isHostAddr (c.w 8 8) || isHostAddr (c.w 16 8))
    · rfl
    · rw [ht (by simpa using hor)]; rfl
  unfold transferSide at hx hy
  show execTransfer q s = _
  simp only [execTransfer, hn, hk, hq, hc, hu, hboth, htdi, hx, hy, h0, bne_self_eq_false, beq_iff_eq, Bool.not_true, Bool.or_self,
    Bool.false_eq_true, if_false, o, home, transferWalked, transferOp]

/-! GRAPH_LOAD and GRAPH_UNLOAD (R336, R396). -/

/-- A waiting load or unload is settled as soon as its journal entry stands (R343). -/
theorem settleLoad_of_waits {s : State} {q : Nat} {l : Load} (h : Fm.get? s.loads q = some l) :
    settleLoad s q = if started s q l.seq = true then LoadSettled s q l else s := by
  simp only [settleLoad, h, LoadSettled]
  cases started s q l.seq <;> rfl

/-- The state of an accepted load or unload, before it is settled. -/
def loadWaits (s : State) (q : Nat) (l : Load) : State := { s with loads := Fm.put s.loads q l }

theorem settleLoad_loadWaits (s : State) (q : Nat) (l : Load) :
    settleLoad (loadWaits s q l) q =
      if started (loadWaits s q l) q l.seq = true then LoadSettled (loadWaits s q l) q l else loadWaits s q l :=
  settleLoad_of_waits (Fm.get?_put_same ..)

theorem exec_graphLoad_accepted {s : State} {q : Nat} {c : Cmd} {b : List Byte} {x : Graph} (hn : nextCmd s q = some c) (hk : c.kind = 4)
    (hq : isService q = true) (hl : Fm.get? s.loads q = none) (hc : cmdOk s q c = true) (hva : c.w 16 8 % 64 = 0) (hlen : c.w 24 8 ≤ 20544)
    (hplain : ((pagePieces (c.w 24 8 / 65536 + 2) (c.w 16 8) (c.w 24 8)).all fun p => match xlate s (cmdDie q) c.world p.1 with
      | .ok x => nfield x.d 5 3 == 0
      | .error _ => false) = true)
    (h63 : c.w 8 8 ≤ 63) (hw : ∀ x, Fm.get? s.graphs (c.w 8 8) = some x → x.world = c.world) (hbusy : graphBusy s (c.w 8 8) = false)
    (hm : worldMarked s (cmdDie q) c.world (c.w 16 8) (c.w 24 8) = false)
    (hb : worldBytes s (cmdDie q) c.world (c.w 16 8) (c.w 24 8) = .ok b) (hx : parseGraph c.world b = some x) :
    let a := acceptCmd s q c.kind 0 c
    exec (.graphLoad q) s = .next (settleLoad (loadWaits a.1 q { seq := a.2, n := c.w 8 8, world := c.world, graph := some x }) q) := by
  intro a
  have hother : (match Fm.get? s.graphs (c.w 8 8) with
      | some g => g.world != c.world
      | none => false) = false := by
    cases hg : Fm.get? s.graphs (c.w 8 8) with
    | none => rfl
    | some g => simp [hw g hg]
  show execGraphLoad q s = _
  simp only [execGraphLoad, nextLoad, hl, Option.isSome_none, Bool.false_eq_true, if_false, hn, hk, hq, hc, hva, hm, hb, hx, hbusy,
    bne_self_eq_false, Bool.not_true, Bool.or_self, Except.toOption, Option.bind_some, Bool.or_false, Nat.not_lt.mpr h63, Nat.not_lt.mpr hlen, a,
    loadWaits, Nat.reduceMul, Nat.reduceAdd, decide_false]
  exact (if_neg (ne_true_of_eq_false (congrArg (fun x => false || !x) hplain))).trans (if_neg (ne_true_of_eq_false hother))

theorem exec_graphUnload_accepted {s : State} {q : Nat} {c : Cmd} {x : Graph} (hn : nextCmd s q = some c) (hk : c.kind = 5)
    (hq : isService q = true) (hl : Fm.get? s.loads q = none) (hc : cmdOk s q c = true) (h16 : c.w 16 8 = 0) (h24 : c.w 24 8 = 0)
    (hbusy : graphBusy s (c.w 8 8) = false) (hx : Fm.get? s.graphs (c.w 8 8) = some x) (hw : x.world = c.world) :
    let a := acceptCmd s q c.kind 0 c
    exec (.graphUnload q) s = .next (settleLoad (loadWaits a.1 q { seq := a.2, n := c.w 8 8, world := c.world, graph := none }) q) := by
  intro a
  show execGraphUnload q s = _
  simp only [execGraphUnload, nextLoad, hl, Option.isSome_none, Bool.false_eq_true, if_false, hn, hk, hq, hc, h16, h24, hbusy, hx, hw,
    bne_self_eq_false, beq_self_eq_true, Bool.not_true, Bool.or_self, a, loadWaits]

theorem exec_graphLoad_settles {s : State} {q : Nat} {l : Load} (h : Fm.get? s.loads q = some l) :
    exec (.graphLoad q) s = .next (settleLoad s q) ∧ exec (.graphUnload q) s = .next (settleLoad s q) := by
  refine ⟨?_, ?_⟩
  · show execGraphLoad q s = _
    simp only [execGraphLoad, nextLoad, h, Option.isSome_some, if_true]
  · show execGraphUnload q s = _
    simp only [execGraphUnload, nextLoad, h, Option.isSome_some, if_true]

/-! REPLAY and REPLAY_DEQUEUE (R339, R340). -/

theorem exec_replay_accepted {s : State} {q : Nat} {c : Cmd} {p : List Byte} (hn : nextCmd s q = some c) (hk : c.kind = 2)
    (hq : kindOk q 2 = true) (hz : isService q = true → c.w 24 8 = 0) (hlt : q < 8192) (hc : cmdOk s q c = true)
    (hl : graphLoading s (c.w 8 8) = false) (hm : c.w 16 8 = 0 ∨ patchWaits s (cmdDie q) c.world (c.w 16 8) false = false)
    (hp : (if c.w 16 8 = 0 then .ok [] else patchBytes s (cmdDie q) c.world (c.w 16 8) .other) = .ok p) :
    exec (.replay q) s = .next (takeRequest (takeCmd s q) q c.world (c.w 8 8) (some p) (sha384Bytes c.b)) := by
  have hzero : (isService q && c.w 24 8 != 0) = false := by
    cases hs : isService q
    · rfl
    · simp [hz hs]
  have hwait : (c.w 16 8 != 0 && patchWaits s (cmdDie q) c.world (c.w 16 8) false) = false := by
    rcases hm with h | h <;> simp [h]
  have hpatch : (if (c.w 16 8 == 0) = true then some [] else (patchBytes s (cmdDie q) c.world (c.w 16 8) .other).toOption) = some p := by
    by_cases h0 : c.w 16 8 = 0
    · rw [if_pos h0] at hp
      rw [if_pos (by simpa using h0)]
      exact congrArg Except.toOption hp
    · rw [if_neg h0] at hp
      rw [if_neg (by simpa using h0), hp]
      rfl
  show execReplay q s = _
  simp only [execReplay, Nat.not_le.mpr hlt, if_false, hn, hk, hq, hl, hwait, hc, hzero, hpatch, bne_self_eq_false, Bool.not_true, Bool.or_self,
    Bool.false_eq_true]

section

variable {s : State} {q world n : Nat} {x : Graph} {p b digest : List Byte} (hx : Fm.get? s.graphs n = some x) (hw : x.world = world)
  (hn : n ≤ 63) (hb : patchBlock x.block p = some b)

include hx hw hn hb

/-- A request for a graph that can start, behind no other (R340). -/
theorem takeRequest_starts (hq : x.queue = []) (hs : canStart s n x = true) :
    let a := journalAccept s q 2 0 0 digest
    takeRequest s q world n (some p) digest = startReplay a.1 n x { queue := q, seq := a.2, block := b } := by
  intro a
  simp only [takeRequest, hx, hw, bne_self_eq_false, Bool.false_or, Nat.not_lt.mpr hn, decide_false, Bool.false_eq_true, if_false,
    Option.bind_some, hb, hq, List.isEmpty_nil, hs, Bool.and_self, Bool.not_true, Bool.false_and, if_true, a]

/-- A request that has to wait and finds room in the graph's queue (R340). -/
theorem takeRequest_waits (hq : x.queue ≠ [] ∨ canStart s n x = false) (hr : x.queue.length < 64) :
    let a := journalAccept s q 2 0 0 digest
    takeRequest s q world n (some p) digest =
      { a.1 with graphs := Fm.put a.1.graphs n { x with queue := x.queue ++ [{ queue := q, seq := a.2, block := b }] } } := by
  intro a
  have hgo : (x.queue.isEmpty && canStart s n x) = false := by
    rcases hq with h | h
    · rw [List.isEmpty_eq_false_iff.mpr h]; rfl
    · rw [h, Bool.and_false]
  simp only [takeRequest, hx, hw, bne_self_eq_false, Bool.false_or, Nat.not_lt.mpr hn, decide_false, Bool.false_eq_true, if_false,
    Option.bind_some, hb, hgo, Nat.not_le.mpr hr, Bool.and_false, a]

end

/-- A request leaves groups and operations (R339, R340). -/
theorem takeRequest_groups_ops (s : State) (q world n : Nat) (patch : Option (List Byte)) (digest : List Byte) :
    (takeRequest s q world n patch digest).groups = s.groups ∧ (takeRequest s q world n patch digest).ops = s.ops := by
  have hj (st : Nat) : (journalAccept s q 2 st 0 digest).1.groups = s.groups ∧ (journalAccept s q 2 st 0 digest).1.ops = s.ops := by
    rw [journalAccept_side s q 2 st 0 digest]
    exact ⟨rfl, rfl⟩
  unfold takeRequest
  simp only
  split
  · exact hj _
  split
  · exact hj _
  split
  · exact hj _
  split
  · exact hj _
  split
  · exact hj 0
  · exact hj 0

theorem exec_replay_request {s : State} {w id n : Nat} {o : Op} {p : List Byte} (h : headRequest s w = some (id, o, n, p))
    (hl : graphLoading s n = false) (hr : journalRoom s (8192 + w) = true) :
    ∃ u, exec (.replay (8192 + w)) s = .next (completeOp u id) ∧ u.groups = s.groups ∧ u.ops = s.ops := by
  have hexec : exec (.replay (8192 + w)) s = .next (if worldLive s o.world
      then completeOp (takeRequest s (8192 + w) o.world n (some p) (sha384Bytes (leBytes 8 n ++ p))) id
      else completeOp (journalAccept s (8192 + w) 2 jGraph 0 (sha384Bytes (leBytes 8 n ++ p))).1 id) := by
    show execReplay (8192 + w) s = _
    simp only [execReplay, Nat.le_add_right, if_true, Nat.add_sub_cancel_left, h, hr, hl, Bool.not_true, Bool.or_self, Bool.false_eq_true, if_false]
  rw [hexec]
  split
  · exact ⟨_, rfl, takeRequest_groups_ops ..⟩
  · refine ⟨_, rfl, ?_⟩
    rw [journalAccept_side s (8192 + w) 2 jGraph 0]
    exact ⟨rfl, rfl⟩

/-- The oldest GRAPH request is met: its operation completes (R179, R339). -/
theorem completed_of_request {s : State} {w id n gid f : Nat} {o : Op} {p : List Byte} {g : Group} (h : headRequest s w = some (id, o, n, p))
    (hl : graphLoading s n = false) (ho : Fm.get? s.ops id = some o) (hr : journalRoom s (8192 + w) = true) (hg : o.group = some gid)
    (hf : o.flag = some f) (hgr : Fm.get? s.groups gid = some g) :
    ∃ t, exec (.replay (8192 + w)) s = .next t ∧ Completed s t id gid f (regsOf g) := by
  obtain ⟨u, hu, hgroups, hops⟩ := exec_replay_request h hl hr
  have hc : Completed u (completeOp u id) id gid f (regsOf g) :=
    completed_of_completeOp (by rw [hops]; exact ho) hg hf (by rw [hgroups]; exact hgr)
  unfold Completed at hc
  rw [hgroups] at hc
  exact ⟨_, hu, hc⟩

theorem exec_replayDequeue_starts {s : State} {n : Nat} {x : Graph} {r : Request} {rest : List Request} (hx : Fm.get? s.graphs n = some x)
    (hq : x.queue = r :: rest) (hs : canStart s n x = true) :
    exec (.replayDequeue n) s = .next (startReplay { s with graphs := Fm.put s.graphs n { x with queue := rest } } n x r) := by
  show execReplayDequeue n s = _
  simp only [execReplayDequeue, hx, hq, hs, if_true]

/-! GRAPH (R179). -/

/-- The request that a GRAPH sends, before it has its flag and its time. -/
def graphOp (s : State) (i : Iss) (n : Nat) (bs : List Byte) : Op :=
  { group := some i.gid, team := i.g.team, world := worldOf s i.g, core := i.g.core, die := i.g.core / 48, pc := i.e.pc, word := i.g.word,
    lanes := i.lanes, cls := 1, time := dialOf s (i.g.core / 48), kind := .graphReq n bs }

/-- The translations of a patch's pages are noted (R273). -/
def patchWalked (s : State) (i : Iss) (va : Nat) (bs : List Byte) : State :=
  useWalks s i.g.core (worldOf s i.g) false ((pagePieces 2 va bs.length).map fun x => x.1)

theorem exec_graph_accepted {s : State} {g f : BitVec 4} {n p : BitVec 6} {i : Iss} {bs : List Byte}
    (hp : prelude s g (graphForm f) = .ok i) (ha : i.act ≠ 0) (hf : flagFull i.g f = false) :
    let va := (readS s i.g p.toNat).toNat
    let u := patchWalked s i va bs
    (p = 0 ∨ patchWaits s (i.g.core / 48) (worldOf s i.g) va true = false) →
    (if p = 0 then .ok [] else patchBytes s (i.g.core / 48) (worldOf s i.g) va (.lane i.gid (firstLane i.act)) true) = .ok bs →
    exec (.graph g n p f) s =
      .next (finish (startOp u i.g f (graphOp s i (readS s i.g n.toNat).toNat bs)).1 i
        (startOp u i.g f (graphOp s i (readS s i.g n.toNat).toNat bs)).2.1 none) := by
  intro va u hm hb
  have hwait : (p != 0 && patchWaits s (i.g.core / 48) (worldOf s i.g) va true) = false := by
    rcases hm with h | h <;> simp [h]
  have hu : WalkSide s u := WalkSide.useWalks ..
  have hreadS : readS u i.g n.toNat = readS s i.g n.toNat := by
    rw [hu]; rfl
  have hdial : dialOf u (i.g.core / 48) = dialOf s (i.g.core / 48) := by
    rw [hu]; rfl
  show execGraph g n p f s = _
  simp only [execGraph, hp, beq_iff_eq, ha, if_false, hf, Bool.false_eq_true, va] at hb hwait ⊢
  rw [hb]
  simp only [hwait, Bool.false_eq_true, if_false]
  rw [graphOp, ← hreadS, ← hdial]
  rfl

/-- What an instruction does that only sends an operation off (R64, R206): the operation is the next one, and the group has its flag. -/
theorem issuedAs_of_startOp {s u : State} {gd f : BitVec 4} {fm : Form} {i : Iss} {pipe : Option Nat} (hp : prelude s gd fm = .ok i)
    (hg : u.groups = s.groups) (o : Op) :
    let t := finish (startOp u i.g f o).1 i (startOp u i.g f o).2.1 pipe
    IssuedAs { u with ops := t.ops, nextOp := t.nextOp, pmus := t.pmus } t i (flagged i.g f u.nextOp) (regsOf i.g) (latch i.g) (onward i) ∧
      Fm.get? t.ops u.nextOp = some { o with flag := if f.toNat = 15 then none else some f.toNat, since := dialOf u o.die } := by
  intro t
  have hstate := startOp_state u i.g f o
  have hgroups : (startOp u i.g f o).1.groups = u.groups := by rw [hstate]
  have hteams : (startOp u i.g f o).1.teams = u.teams := by rw [hstate]
  have hsame : (startOp u i.g f o).2.1.v = i.g.v ∧ (startOp u i.g f o).2.1.s = i.g.s ∧ (startOp u i.g f o).2.1.p = i.g.p ∧
      (startOp u i.g f o).2.1.b = i.g.b ∧ (startOp u i.g f o).2.1.gs = i.g.gs ∧ (startOp u i.g f o).2.1.gsq = i.g.gsq := by
    unfold startOp
    simp only
    split <;> exact ⟨rfl, rfl, rfl, rfl, rfl, rfl⟩
  obtain ⟨hv, hs, hpr, hb, hgs, hgsq⟩ := hsame
  have hissued : IssuedAs (startOp u i.g f o).1 t i (flagged i.g f u.nextOp) (regsOf i.g) (latch i.g) (onward i) :=
    issuedAs_of_finish hp (hgroups.trans hg) (flagged_chain ..) (flagged_lanes ..) (effect_startOp ..) (regsAre_of_eq hv hs hpr hgs hgsq)
      fun n l _ => by simp only [latch, hb]
  have ⟨honly, _, hkept, _⟩ := hissued
  have hops : t.ops = (startOp u i.g f o).1.ops := by rw [honly]
  refine ⟨issuedAs_recast hissued ?_ rfl ?_ hgroups.symm rfl, ?_⟩
  · unfold OnlyGroups at honly ⊢
    rw [hstate] at honly
    rw [honly]
  · unfold TeamsKept at hkept ⊢
    rw [hteams] at hkept
    exact hkept
  · rw [hops, hstate]
    exact Fm.get?_put_same ..

theorem patchWalked_nil (s : State) (i : Iss) (va : Nat) : patchWalked s i va [] = s := rfl

/-- A GRAPH sends its request with the patch that it has read (R179). -/
theorem graph_sends_request {s : State} {g f : BitVec 4} {n p : BitVec 6} {i : Iss} {bs : List Byte}
    (hp : prelude s g (graphForm f) = .ok i) (ha : i.act ≠ 0) (hf : flagFull i.g f = false)
    (hm : p = 0 ∨ patchWaits s (i.g.core / 48) (worldOf s i.g) (readS s i.g p.toNat).toNat true = false)
    (hb : (if p = 0 then .ok [] else patchBytes s (i.g.core / 48) (worldOf s i.g) (readS s i.g p.toNat).toNat
      (.lane i.gid (firstLane i.act)) true) = .ok bs) :
    let u := patchWalked s i (readS s i.g p.toNat).toNat bs
    ∃ t, exec (.graph g n p f) s = .next t ∧ InFlight t u.nextOp i f 1 (.graphReq (readS s i.g n.toNat).toNat bs) i.lanes ∧
      IssuedAs { u with ops := t.ops, nextOp := t.nextOp, pmus := t.pmus } t i (flagged i.g f u.nextOp) (regsOf i.g) (latch i.g) (onward i) := by
  intro u
  have hwalk : WalkSide s u := WalkSide.useWalks ..
  have hu : u.groups = s.groups := by rw [hwalk]
  obtain ⟨hissued, hop⟩ := issuedAs_of_startOp (pipe := none) (f := f) hp hu (graphOp s i (readS s i.g n.toNat).toNat bs)
  exact ⟨_, exec_graph_accepted hp ha hf hm hb, ⟨_, hop, rfl, rfl, rfl, rfl, rfl, rfl, rfl⟩, hissued⟩

/-! Reductions (R367). -/

section

variable {s : State} {r : Reduction} {p : BitVec 8 × List Byte} {rest : List (BitVec 8 × List Byte)} {k : KeySlot} {j : Journal}
  (hp : r.parts = p :: rest) (hk : Fm.get? s.keys r.world = some k) (hd : r.die < 8) (hj : Fm.get? s.journals r.queue = some j)
  (ho : r.seq ∈ j.opens)

include hp hk hd hj ho

theorem exec_reduction_of_two_generations (h : ∃ q ∈ rest, q.1 ≠ p.1) :
    exec (.inNetworkReduction r) s = .next (journalFinal s r.queue r.seq jFault 0x50 0 none) := by
  have hall : (rest.all fun q => q.1 == p.1) = false := by
    obtain ⟨q, hq, hne⟩ := h
    exact List.all_eq_false.mpr ⟨q, hq, by simpa using hne⟩
  have hopen : j.opens.contains r.seq = true := List.contains_iff_mem.mpr ho
  show execInNetworkReduction r s = _
  simp only [execInNetworkReduction, hp, hk, hj, hopen, Bool.not_true, Bool.or_self, Nat.not_le.mpr hd, decide_false, Bool.false_eq_true,
    if_false, hall, Bool.not_false, if_true]

theorem exec_reduction_of_one_generation (h : ∀ q ∈ rest, q.1 = p.1) (hst : k.st = 1) (hg : genOk k p.1 = true) :
    exec (.inNetworkReduction r) s = .next (reduce s r p.2.length) := by
  have hall : (rest.all fun q => q.1 == p.1) = true := List.all_eq_true.mpr fun q hq => by simpa using h q hq
  have hopen : j.opens.contains r.seq = true := List.contains_iff_mem.mpr ho
  show execInNetworkReduction r s = _
  simp only [execInNetworkReduction, hp, hk, hj, hopen, Bool.not_true, Bool.or_self, Nat.not_le.mpr hd, decide_false, Bool.false_eq_true,
    if_false, hall, hst, hg, beq_self_eq_true, Bool.and_self, if_true]

end

theorem reduce_done {s : State} {r : Reduction} {n : Nat} {xs : List (Xl × Nat)}
    (hx : reduceSides s r.die r.world (pagePieces (n / 65536 + 2) r.dst n) = .ok xs) (hw : (whole s (reduceWrites s.freeCtr xs 0)).ok = true) :
    reduce s r n = journalFinal { (whole s (reduceWrites s.freeCtr xs 0)).s with freeCtr := (whole s (reduceWrites s.freeCtr xs 0)).s.freeCtr + 1 }
      r.queue r.seq jDone 0 0 (some (whole s (reduceWrites s.freeCtr xs 0)).stamp) := by
  simp only [reduce, hx, hw, if_true]

/-! What each command starts, and the whole. -/

section

variable {s : State} {q : Nat} {c : Cmd} (hn : nextCmd s q = some c)

include hn

/-- LAUNCH starts the descriptor's grid (R335). -/
theorem launch_starts_grid (hk : c.kind = 1) (hq : kindOk q 1 = true) (hc : cmdOk s q c = true) (hw : c.world ≠ 0)
    (hz : isService q = true → c.w 16 8 = 0 ∧ c.w 24 8 = 0) {b : List Byte} {d : Desc}
    (hm : worldMarked s (cmdDie q) c.world (c.w 8 8) 256 = false) (hb : worldBytes s (cmdDie q) c.world (c.w 8 8) 256 = .ok b)
    (hd : parseDesc b = some d) (hf : neverFits d = false) :
    let a := acceptCmd s q c.kind 0 c
    ∃ t, exec (.launch q) s = .next t ∧ CommandTaken s t q ∧ t = { a.1 with grids := t.grids, pends := t.pends, nextOp := a.1.nextOp + 1 } ∧
      Fm.get? t.grids a.1.nextOp = some { world := c.world, queue := q, seq := a.2, left := d.teams } ∧
      ∀ k die, d.dieList[k]? = some die → k < d.teams →
        { grid := a.1.nextOp, die := die, world := c.world, d := dieCopy a.1 c.world die d, next := k, step := d.dieList.length } ∈ t.pends :=
  ⟨_, exec_launch_accepted hn hk hq hc hw hz hm hb hd hf, commandTaken_congr (commandTaken_of_acceptCmd hn ..) rfl rfl, rfl,
    Fm.get?_put_same .., fun _ _ hdie ht => mem_pends_startGrid _ _ _ _ _ _ hdie ht⟩

/-- TRANSFER becomes a copy on die channel 1 (R391). -/
theorem transfer_starts_copy {x y : Side} {rd wr : List Nat} (hk : c.kind = 3)
    (hq : kindOk q 3 = true) (hc : cmdOk s q c = true) (hu : c.w 24 8 % 128 = 0) (h0 : c.w 24 8 ≠ 0)
    (hh : ¬(isHostAddr (c.w 8 8) = true ∧ isHostAddr (c.w 16 8) = true))
    (ht : isHostAddr (c.w 8 8) = true ∨ isHostAddr (c.w 16 8) = true → tdiRuns s q c.world = true)
    (hx : transferSide s q c (c.w 8 8) false = .ok x rd) (hy : transferSide s q c (c.w 16 8) true = .ok y wr) :
    ∃ t id o, exec (.transfer q) s = .next t ∧ CommandTaken s t q ∧
      let chan := dieChan (if isHostAddr (c.w 8 8) = true then y.home else x.home) 1
      Fm.get? t.ops id = some o ∧ o.world = c.world ∧ o.kind = .copy chan (some { src := x, dst := y, sh := rowShape (c.w 24 8) }) none ∧
      Fm.get? t.cmds id = some (q, (acceptCmd s q c.kind 0 c).2) ∧ Fm.getD t.chans chan [] = Fm.getD s.chans chan [] ++ [id] := by
  generalize hhome : (if isHostAddr (c.w 8 8) = true then y.home else x.home) = home
  have hexec := exec_transfer_accepted hn hk hq hc hu h0 hh ht hx hy
  rw [hhome] at hexec
  let u := transferWalked s q home c rd wr
  have hwalk : WalkSide (acceptCmd s q c.kind 0 c).1 u := (WalkSide.useWalks ..).trans (WalkSide.useWalks ..)
  have hqueues : u.queues = (acceptCmd s q c.kind 0 c).1.queues := by rw [hwalk]
  have hjournals : u.journals = (acceptCmd s q c.kind 0 c).1.journals := by rw [hwalk]
  have hchans : u.chans = s.chans := by rw [hwalk, acceptCmd_side]
  refine ⟨_, u.nextOp, _, hexec, commandTaken_congr (commandTaken_of_acceptCmd hn c.kind 0) hqueues hjournals, Fm.get?_put_same .., rfl, rfl,
    Fm.get?_put_same .., ?_⟩
  show Fm.getD (Fm.put u.chans _ (Fm.getD u.chans _ [] ++ [u.nextOp])) _ [] = _
  rw [Fm.getD_put, if_pos rfl, hchans]

section

variable {x : Graph} {p b : List Byte} (hk : c.kind = 2) (hq : kindOk q 2 = true) (hz : isService q = true → c.w 24 8 = 0) (hlt : q < 8192)
  (hc : cmdOk s q c = true) (h63 : c.w 8 8 ≤ 63) (hl : graphLoading s (c.w 8 8) = false) (hx : Fm.get? s.graphs (c.w 8 8) = some x)
  (hw : x.world = c.world) (hm : c.w 16 8 = 0 ∨ patchWaits s (cmdDie q) c.world (c.w 16 8) false = false)
  (hp : (if c.w 16 8 = 0 then .ok [] else patchBytes s (cmdDie q) c.world (c.w 16 8) .other) = .ok p) (hb : patchBlock x.block p = some b)

include hk hq hz hlt hc h63 hl hx hw hm hp hb

/-- REPLAY starts a graph that can start (R340). -/
theorem replay_starts (hempty : x.queue = []) (hs : canStart s (c.w 8 8) x = true) :
    let a := acceptCmd s q c.kind 0 c
    ∃ t, exec (.replay q) s = .next t ∧ CommandTaken s t q ∧ t = { a.1 with replays := t.replays } ∧
      Fm.get? t.replays (freeReplay s) = some { graph := c.w 8 8, world := c.world, queue := q, seq := a.2, block := b, node := x.start } := by
  intro a
  have ha : a = acceptCmd s q 2 0 c := by simp only [a, hk]
  have hexec : exec (.replay q) s = .next (startReplay a.1 (c.w 8 8) x { queue := q, seq := a.2, block := b }) := by
    rw [exec_replay_accepted hn hk hq hz hlt hc hl hm hp, ha]
    exact congrArg _ (takeRequest_starts (s := takeCmd s q) hx hw h63 hb hempty hs)
  have hfree : freeReplay a.1 = freeReplay s := by
    unfold freeReplay
    rw [acceptCmd_side s q c.kind 0 c]
  refine ⟨_, hexec, commandTaken_congr (commandTaken_of_acceptCmd hn ..) rfl rfl, rfl, ?_⟩
  simp only [startReplay, hfree, Fm.get?_put_same, hw]

/-- REPLAY of a graph that cannot start waits in its queue (R340). -/
theorem replay_waits (hwait : x.queue ≠ [] ∨ canStart s (c.w 8 8) x = false) (hr : x.queue.length < 64) :
    let a := acceptCmd s q c.kind 0 c
    ∃ t, exec (.replay q) s = .next t ∧ CommandTaken s t q ∧ t = { a.1 with graphs := t.graphs } ∧
      Fm.get? t.graphs (c.w 8 8) = some { x with queue := x.queue ++ [{ queue := q, seq := a.2, block := b }] } := by
  intro a
  have ha : a = acceptCmd s q 2 0 c := by simp only [a, hk]
  have hexec : exec (.replay q) s = .next { a.1 with
      graphs := Fm.put a.1.graphs (c.w 8 8) { x with queue := x.queue ++ [{ queue := q, seq := a.2, block := b }] } } := by
    rw [exec_replay_accepted hn hk hq hz hlt hc hl hm hp, ha]
    exact congrArg _ (takeRequest_waits (s := takeCmd s q) hx hw h63 hb hwait hr)
  exact ⟨_, hexec, commandTaken_congr (commandTaken_of_acceptCmd hn ..) rfl rfl, rfl, Fm.get?_put_same ..⟩

end

end

/-- REPLAY_DEQUEUE takes the oldest request (R340). -/
theorem replayDequeue_starts_oldest {s : State} {n : Nat} {x : Graph} {r : Request} {rest : List Request} (hx : Fm.get? s.graphs n = some x)
    (hq : x.queue = r :: rest) (hs : canStart s n x = true) :
    ∃ t, exec (.replayDequeue n) s = .next t ∧ t = { s with graphs := t.graphs, replays := t.replays } ∧
      Fm.get? t.graphs n = some { x with queue := rest } ∧
      Fm.get? t.replays (freeReplay s) = some { graph := n, world := x.world, queue := r.queue, seq := r.seq, block := r.block, node := x.start } :=
  ⟨_, exec_replayDequeue_starts hx hq hs, rfl, Fm.get?_put_same .., Fm.get?_put_same ..⟩

/-- Settles O51: each clause is the lemma of its command; that the queue's head and sequence number moved, and nothing else but the journal, is
`commandTaken_of_acceptCmd` and `acceptCmd_side`. -/
theorem commandsStartTheirWork : Obligations.CommandsStartTheirWork := by
  unfold Obligations.CommandsStartTheirWork
  intro s
  refine ⟨fun q c hn hc => ⟨?launch, ?transfer, ?load, ?unload, ?replay⟩, ?settle, ?request, ?dequeue, ?graph, ?reduction⟩
  case launch =>
    intro hk hq hw hz b d hm hb hd hf
    exact launch_starts_grid hn hk hq hc hw hz hm hb hd hf
  case transfer =>
    intro hk hq hu h0 hh side ht x rd y wr hx hy
    exact transfer_starts_copy hn hk hq hc hu h0 hh ht hx hy
  case load =>
    intro hk hq hl hva hlen hplain h63 hw hbusy hm b x hb hx l u
    rw [exec_graphLoad_accepted hn hk hq hl hc hva hlen hplain h63 hw hbusy hm hb hx, settleLoad_loadWaits]
    rfl
  case unload =>
    intro hk hq hl h16 h24 hbusy x hx hw l u
    rw [exec_graphUnload_accepted hn hk hq hl hc h16 h24 hbusy hx hw, settleLoad_loadWaits]
    rfl
  case replay =>
    intro hk hq hz hlt h63 hl x p b hx hw hm hp hb
    exact ⟨replay_starts hn hk hq hz hlt hc h63 hl hx hw hm hp hb, replay_waits hn hk hq hz hlt hc h63 hl hx hw hm hp hb⟩
  case settle =>
    intro q l hl i hi
    obtain ⟨hload, hunload⟩ := exec_graphLoad_settles hl
    simp only [List.mem_cons, List.not_mem_nil, or_false] at hi
    rcases hi with rfl | rfl
    · rw [hload, settleLoad_of_waits hl]
    · rw [hunload, settleLoad_of_waits hl]
  case request =>
    intro w id o n p gid f g h hl ho hr hg hf hgr
    exact completed_of_request h hl ho hr hg hf hgr
  case dequeue =>
    intro n x r rest hx hq hs
    exact replayDequeue_starts_oldest hx hq hs
  case graph =>
    intro g n p f i bs hp ha hf va hm hb u
    have hu : u = patchWalked s i va bs := by
      by_cases h0 : p = 0
      · have hnil : [] = bs := by simpa [h0] using hb
        simp only [u, h0, if_true, ← hnil, patchWalked_nil]
      · simp only [u, h0, if_false, patchWalked]
    rw [hu]
    exact graph_sends_request hp ha hf hm hb
  case reduction =>
    intro r p rest k j hp hk hd hj ho
    refine ⟨exec_reduction_of_two_generations hp hk hd hj ho, ?_⟩
    rintro hone hst hg xs w hx rfl hw
    rw [exec_reduction_of_one_generation hp hk hd hj ho hone hst hg, reduce_done hx hw]

end Sys2Proof.Machine
end
